-- ==== Sys2Proof/Word.lean ====
section
/-! DEFINITION. The bit-vector types of the SZD-EWB (00_scope.md R8, R9). -/

namespace Sys2Proof

/-- One byte of a byte memory or of the sink. -/
abbrev Byte := BitVec 8

/-- One 32-bit word: a register, a host-port datum, a command. -/
abbrev Word := BitVec 32

/-- One 64-bit value: `RES`, `WTOTAL`, `WFLUSHED`. -/
abbrev DWord := BitVec 64

end Sys2Proof
end

