-- ==== Sys2Proof/Config.lean ====
section
/-! DEFINITION. The implementation parameters of 00_scope.md R7, and the free values (93_implementation_defined.md U1). -/

namespace Sys2Proof.Config

/-- `IBUF_BYTES` (R7). -/
def ibufBytes : Nat := 131072
/-- `LBUF_BYTES` (R7). -/
def lbufBytes : Nat := 131072
/-- `FSE_MAX_AL` (R7). -/
def fseMaxAl : Nat := 9
/-- `HUF_MAX_BITS` (R7). -/
def hufMaxBits : Nat := 11
/-- `HUF_MAX_WEIGHTS` (R7). -/
def hufMaxWeights : Nat := 255
/-- `WEIGHT_FSE_MAX_AL` (R7). -/
def weightFseMaxAl : Nat := 6
/-- `WEIGHT_MAX_SYMBOL` (R7). -/
def weightMaxSymbol : Nat := 11
/-- `BR_MAX_READ` and `FR_MAX_READ` (R7, R92). -/
def maxRead : Nat := 64
/-- Entries of one `NCOUNT[s]` (20_memory.md R61). -/
def ncountEntries : Nat := 256
/-- Entries of one `DT[s]` (20_memory.md R61). -/
def dtEntries : Nat := 512
/-- Entries of `W` (20_memory.md R61). -/
def wEntries : Nat := 256
/-- Entries of `HT` (20_memory.md R61). -/
def htEntries : Nat := 2048

/-- The upper bound `2^32 − 2^24` that R7 and 20_memory.md R63 put on `WIN_CAP_MAX`. -/
def winCapMaxBound : Nat := 4278190080

/-- DESIGN CHOICE (log 3, unsafe): the value `State.reset` gives the open parameter `WIN_CAP_MAX`, which
`State` carries; the largest one R7 allows. No statement rests on it. -/
def winCapMaxAtReset : Nat := winCapMaxBound

/-- The free values: draw number `k` of "any value, a draw per read, under no law" (20_memory.md R62,
93_implementation_defined.md U1; log 1). Nothing constrains it. -/
opaque freeBits : Nat → BitVec 32

end Sys2Proof.Config
end

