-- ==== Sys2Proof/Syntax.lean ====
section
/-! DEFINITION. The commands of 30_encoding.md R87, one constructor per row of opcode_table.json. Operands taken from
`ARG0..ARG3` are not part of the word and so not part of the syntax. -/

namespace Sys2Proof

/-- A command. A slot is `t0..t7`, a state register `s0..s3` (30_encoding.md R95). -/
inductive Instr where
  /-- `NOP` (44_control.md R250). -/
  | nop
  /-- `BBR.INIT` (40_bitreaders.md R111). -/
  | bbrInit
  /-- `BBR.SKIPPAD` (R112). -/
  | bbrSkippad
  /-- `BBR.READ N` (R115). -/
  | bbrRead (n : BitVec 16)
  /-- `FBR.INIT` (R118). -/
  | fbrInit
  /-- `FBR.READ N` (R122). -/
  | fbrRead (n : BitVec 16)
  /-- `FBR.UNWIND` (R123). -/
  | fbrUnwind
  /-- `FSE.READNC slot, maxAl, maxSym` (41_fse.md R144). -/
  | fseReadnc (slot : Fin 8) (maxAl : BitVec 4) (maxSym : BitVec 8)
  /-- `FSE.BUILD slot` (R148). -/
  | fseBuild (slot : Fin 8)
  /-- `FSE.PREDEF slot, WHICH` (R150). -/
  | fsePredef (slot : Fin 8) (which : BitVec 16)
  /-- `FSE.RLE slot, BYTE` (R151). -/
  | fseRle (slot : Fin 8) (byte : Byte)
  /-- `FSE.INIT k, slot` (R154). -/
  | fseInit (k : Fin 4) (slot : Fin 8)
  /-- `FSE.PEEK k` (R155). -/
  | fsePeek (k : Fin 4)
  /-- `FSE.NEXT k` (R156). -/
  | fseNext (k : Fin 4)
  /-- `HUF.READW` (42_huffman.md R195). -/
  | hufReadw
  /-- `HUF.BUILD` (R198). -/
  | hufBuild
  /-- `HUF.DECODE` (R201). -/
  | hufDecode
  /-- `WIN.CONFIG` (43_window.md R233). -/
  | winConfig
  /-- `WIN.PUSHI` (R234). -/
  | winPushi
  /-- `WIN.PUSHL` (R235). -/
  | winPushl
  /-- `WIN.PUSHR BYTE` (R236). -/
  | winPushr (byte : Byte)
  /-- `WIN.REPEAT` (R238). -/
  | winRepeat
  /-- `WIN.REPGEN` (R239). -/
  | winRepgen
  /-- `WIN.FLUSH` (R240). -/
  | winFlush
  deriving DecidableEq, Repr

end Sys2Proof
end

