-- ==== Sys2Proof/WellFormed.lean ====
section
/-! DEFINITION. Which commands are legal: the immediate ranges of 30_encoding.md R92. The slot and state-register ranges of
R85 are in the types of the fields. -/

namespace Sys2Proof

/-- Every immediate sub-field of the command is in its legal range (30_encoding.md R92). -/
def Instr.wellFormed : Instr → Bool
  | .bbrRead n => decide (n.toNat ≤ Config.maxRead)
  | .fbrRead n => decide (n.toNat ≤ Config.maxRead)
  | .fseReadnc _ maxAl _ => decide (maxAl.toNat ≤ Config.fseMaxAl)
  | .fsePredef _ which => decide (which.toNat ≤ 2)
  | .nop | .bbrInit | .bbrSkippad | .fbrInit | .fbrUnwind | .fseBuild _ | .fseRle _ _ | .fseInit _ _
  | .fsePeek _ | .fseNext _ | .hufReadw | .hufBuild | .hufDecode | .winConfig | .winPushi | .winPushl
  | .winPushr _ | .winRepeat | .winRepgen | .winFlush => true

end Sys2Proof
end

