-- ==== Sys2Proof/Decode.lean ====
section
/-! DEFINITION. The command decoder and encoder (30_encoding.md R85-R93; opcode_table.json). -/

namespace Sys2Proof

/-- Why a word spells no legal command; each raises `ILLEGAL_CMD` (44_control.md R251). -/
inductive DecodeError where
  /-- A reserved opcode (30_encoding.md R90). -/
  | reservedOpcode
  /-- A reserved bit that is 1 (R91). -/
  | reservedBits
  /-- An immediate out of its legal range (R92). -/
  | immediateRange
  deriving DecidableEq, Repr

/-- `OP`, bits 31:24 (R85). -/
def opField (w : Word) : BitVec 8 := w.extractLsb' 24 8
/-- `IMM`, bits 15:0 (R85). -/
def immField (w : Word) : BitVec 16 := w.extractLsb' 0 16
/-- The encodable part of `K`, bits 21:20 (R85). -/
def kField (w : Word) : Fin 4 := (w.extractLsb' 20 2).toFin
/-- The encodable part of `S`, bits 18:16 (R85). -/
def slotField (w : Word) : Fin 8 := (w.extractLsb' 16 3).toFin
/-- `MAXSYM` and `BYTE`, `IMM[7:0]` (R86). -/
def lowByteField (w : Word) : BitVec 8 := w.extractLsb' 0 8
/-- `MAXAL`, `IMM[11:8]` (R86). -/
def maxAlField (w : Word) : BitVec 4 := w.extractLsb' 8 4

/-- The checks after `OP` is known: no bit of `reserved` is set (R91), then the immediate is in range (R92). -/
def checked (w reserved : Word) (i : Instr) : Except DecodeError Instr :=
  if w &&& reserved ≠ 0#32 then .error .reservedBits
  else if i.wellFormed then .ok i
  else .error .immediateRange

/-- The decoder: it selects the command by `OP` alone, then checks the fields (R89). `reserved` is the row's `mask`
in opcode_table.json less the `OP` bits. -/
def decode (w : Word) : Except DecodeError Instr :=
  match opField w with
  | 0x00#8 => checked w 0x00FFFFFF#32 .nop
  | 0x01#8 => checked w 0x00FFFFFF#32 .bbrInit
  | 0x02#8 => checked w 0x00FFFFFF#32 .bbrSkippad
  | 0x03#8 => checked w 0x00FF0000#32 (.bbrRead (immField w))
  | 0x08#8 => checked w 0x00FFFFFF#32 .fbrInit
  | 0x09#8 => checked w 0x00FF0000#32 (.fbrRead (immField w))
  | 0x0A#8 => checked w 0x00FFFFFF#32 .fbrUnwind
  | 0x10#8 => checked w 0x00F8F000#32 (.fseReadnc (slotField w) (maxAlField w) (lowByteField w))
  | 0x11#8 => checked w 0x00F8FFFF#32 (.fseBuild (slotField w))
  | 0x12#8 => checked w 0x00F80000#32 (.fsePredef (slotField w) (immField w))
  | 0x13#8 => checked w 0x00F8FF00#32 (.fseRle (slotField w) (lowByteField w))
  | 0x14#8 => checked w 0x00C8FFFF#32 (.fseInit (kField w) (slotField w))
  | 0x15#8 => checked w 0x00CFFFFF#32 (.fsePeek (kField w))
  | 0x16#8 => checked w 0x00CFFFFF#32 (.fseNext (kField w))
  | 0x20#8 => checked w 0x00FFFFFF#32 .hufReadw
  | 0x21#8 => checked w 0x00FFFFFF#32 .hufBuild
  | 0x22#8 => checked w 0x00FFFFFF#32 .hufDecode
  | 0x30#8 => checked w 0x00FFFFFF#32 .winConfig
  | 0x31#8 => checked w 0x00FFFFFF#32 .winPushi
  | 0x32#8 => checked w 0x00FFFFFF#32 .winPushl
  | 0x33#8 => checked w 0x00FFFF00#32 (.winPushr (lowByteField w))
  | 0x34#8 => checked w 0x00FFFFFF#32 .winRepeat
  | 0x35#8 => checked w 0x00FFFFFF#32 .winRepgen
  | 0x36#8 => checked w 0x00FFFFFF#32 .winFlush
  | _ => .error .reservedOpcode

/-- A little-endian word of four bytes, the first the least significant (20_memory.md R65). -/
def wordOfBytes (b0 b1 b2 b3 : Byte) : Word := b3 ++ b2 ++ b1 ++ b0

/-- The bytes of a word, the least significant first (20_memory.md R65). -/
def bytesOfWord (w : Word) : List Byte :=
  [w.extractLsb' 0 8, w.extractLsb' 8 8, w.extractLsb' 16 8, w.extractLsb' 24 8]

/-- The decoder on a string of bytes, as a 32-bit host write would carry them: the first command and the rest, or
`none` where fewer than four bytes are left. -/
def decodeBytes : List Byte → Option (Except DecodeError Instr × List Byte)
  | b0 :: b1 :: b2 :: b3 :: rest => some (decode (wordOfBytes b0 b1 b2 b3), rest)
  | _ => none

/-- The command the decoder reads from the bits `w` of an opcode-table row. Every command is one 32-bit word
(30_encoding.md R94), so a number of more than 32 bits spells none. -/
def decodeTableWord (_nbits w : Nat) : Option Instr :=
  if w < 2 ^ 32 then
    match decode (BitVec.ofNat 32 w) with
    | .ok i => some i
    | .error _ => none
  else none

/-- A word laid out by fields (R85). -/
def layout (op : BitVec 8) (k s : BitVec 4) (imm : BitVec 16) : Word := op ++ k ++ s ++ imm

/-- `K` of a state register (R85). -/
def kBits (k : Fin 4) : BitVec 4 := BitVec.ofNat 4 k.val
/-- `S` of a slot (R85). -/
def slotBits (s : Fin 8) : BitVec 4 := BitVec.ofNat 4 s.val
/-- An immediate that holds one byte, its upper bits zero (R87). -/
def byteImm (b : Byte) : BitVec 16 := 0#8 ++ b

/-- The command word (30_encoding.md R87). -/
def encode : Instr → Word
  | .nop => layout 0x00 0 0 0
  | .bbrInit => layout 0x01 0 0 0
  | .bbrSkippad => layout 0x02 0 0 0
  | .bbrRead n => layout 0x03 0 0 n
  | .fbrInit => layout 0x08 0 0 0
  | .fbrRead n => layout 0x09 0 0 n
  | .fbrUnwind => layout 0x0A 0 0 0
  | .fseReadnc s maxAl maxSym => layout 0x10 0 (slotBits s) (0#4 ++ maxAl ++ maxSym)
  | .fseBuild s => layout 0x11 0 (slotBits s) 0
  | .fsePredef s which => layout 0x12 0 (slotBits s) which
  | .fseRle s b => layout 0x13 0 (slotBits s) (byteImm b)
  | .fseInit k s => layout 0x14 (kBits k) (slotBits s) 0
  | .fsePeek k => layout 0x15 (kBits k) 0 0
  | .fseNext k => layout 0x16 (kBits k) 0 0
  | .hufReadw => layout 0x20 0 0 0
  | .hufBuild => layout 0x21 0 0 0
  | .hufDecode => layout 0x22 0 0 0
  | .winConfig => layout 0x30 0 0 0
  | .winPushi => layout 0x31 0 0 0
  | .winPushl => layout 0x32 0 0 0
  | .winPushr b => layout 0x33 0 0 (byteImm b)
  | .winRepeat => layout 0x34 0 0 0
  | .winRepgen => layout 0x35 0 0 0
  | .winFlush => layout 0x36 0 0 0

/-- One row of opcode_table.json: a word `w` spells the command exactly when `w &&& mask = fixed` (R89). -/
structure OpcodeRow where
  mnemonic : String
  fixed : Word
  mask : Word
  deriving DecidableEq, Repr

/-- opcode_table.json, row by row (30_encoding.md R89). -/
def opcodeTable : List OpcodeRow :=
  [⟨"NOP", 0x00000000, 0xFFFFFFFF⟩, ⟨"BBR.INIT", 0x01000000, 0xFFFFFFFF⟩,
   ⟨"BBR.SKIPPAD", 0x02000000, 0xFFFFFFFF⟩, ⟨"BBR.READ", 0x03000000, 0xFFFF0000⟩,
   ⟨"FBR.INIT", 0x08000000, 0xFFFFFFFF⟩, ⟨"FBR.READ", 0x09000000, 0xFFFF0000⟩,
   ⟨"FBR.UNWIND", 0x0A000000, 0xFFFFFFFF⟩, ⟨"FSE.READNC", 0x10000000, 0xFFF8F000⟩,
   ⟨"FSE.BUILD", 0x11000000, 0xFFF8FFFF⟩, ⟨"FSE.PREDEF", 0x12000000, 0xFFF80000⟩,
   ⟨"FSE.RLE", 0x13000000, 0xFFF8FF00⟩, ⟨"FSE.INIT", 0x14000000, 0xFFC8FFFF⟩] ++
  [⟨"FSE.PEEK", 0x15000000, 0xFFCFFFFF⟩, ⟨"FSE.NEXT", 0x16000000, 0xFFCFFFFF⟩,
   ⟨"HUF.READW", 0x20000000, 0xFFFFFFFF⟩, ⟨"HUF.BUILD", 0x21000000, 0xFFFFFFFF⟩,
   ⟨"HUF.DECODE", 0x22000000, 0xFFFFFFFF⟩, ⟨"WIN.CONFIG", 0x30000000, 0xFFFFFFFF⟩,
   ⟨"WIN.PUSHI", 0x31000000, 0xFFFFFFFF⟩, ⟨"WIN.PUSHL", 0x32000000, 0xFFFFFFFF⟩,
   ⟨"WIN.PUSHR", 0x33000000, 0xFFFFFF00⟩, ⟨"WIN.REPEAT", 0x34000000, 0xFFFFFFFF⟩,
   ⟨"WIN.REPGEN", 0x35000000, 0xFFFFFFFF⟩, ⟨"WIN.FLUSH", 0x36000000, 0xFFFFFFFF⟩]

/-- `w` spells the row's command (R89). -/
def OpcodeRow.spells (r : OpcodeRow) (w : Word) : Bool := w &&& r.mask == r.fixed

/-- The mnemonic of a command in opcode_table.json. -/
def Instr.mnemonic : Instr → String
  | .nop => "NOP"
  | .bbrInit => "BBR.INIT"
  | .bbrSkippad => "BBR.SKIPPAD"
  | .bbrRead _ => "BBR.READ"
  | .fbrInit => "FBR.INIT"
  | .fbrRead _ => "FBR.READ"
  | .fbrUnwind => "FBR.UNWIND"
  | .fseReadnc _ _ _ => "FSE.READNC"
  | .fseBuild _ => "FSE.BUILD"
  | .fsePredef _ _ => "FSE.PREDEF"
  | .fseRle _ _ => "FSE.RLE"
  | .fseInit _ _ => "FSE.INIT"
  | .fsePeek _ => "FSE.PEEK"
  | .fseNext _ => "FSE.NEXT"
  | .hufReadw => "HUF.READW"
  | .hufBuild => "HUF.BUILD"
  | .hufDecode => "HUF.DECODE"
  | .winConfig => "WIN.CONFIG"
  | .winPushi => "WIN.PUSHI"
  | .winPushl => "WIN.PUSHL"
  | .winPushr _ => "WIN.PUSHR"
  | .winRepeat => "WIN.REPEAT"
  | .winRepgen => "WIN.REPGEN"
  | .winFlush => "WIN.FLUSH"

end Sys2Proof
end

