-- ==== Sys2Proof/Machine/State.lean ====
section
/-! DEFINITION. The state of the block, its host and its sink (10_state.md), as plain data, and the state after power-on
(70_reset_and_hazards.md R300). -/

namespace Sys2Proof.Machine

/-- The fault codes of 60_exceptions.md R271. Their numbers and classes are in Machine/Flags.lean. A fault of the block is
state (R270), not a stop of the model. -/
inductive FaultCode where
  | illegalCmd | range | endOfInput | cannotUnwind | badPadding | didNotUseAllBits | fseAl | fseSymbol | fseSpread
  | noTable | hufWeights | hufMaxbits | weightsOverflow | weightStream | outputLimit | winConfig | winNotFlushed
  | winDistance | winOverlap | brRange | fbrAlign | hostAccess
  deriving DecidableEq, Repr

/-- The reasons the model itself stops with a fault. -/
inductive Fault where
  /-- Raised by `step` alone, never by a command's meaning: the block waits on the sink, and nothing scheduled will ever
  make the sink ready (20_memory.md R71; 93_implementation_defined.md U10 calls it stuck). Safe. -/
  | sinkNeverAccepts
  deriving DecidableEq, Repr

/-- The reasons a command has no meaning in the model. -/
inductive Refusal where
  /-- Raised by `exec` for an instruction whose meaning is not written yet. Safe. -/
  | notModelled (mnemonic : String)
  /-- Raised by the window commands that append: the run would make `WTOTAL` exceed `2^64 − 1`, which 43_window.md R230
  puts outside the spec (93_implementation_defined.md U5: refuse). Safe. -/
  | windowTotalOverflow
  deriving DecidableEq, Repr

/-- An internal memory: the entries written, as (index, entry) pairs with strictly rising indexes. An index that is not
listed has never been written, and reads as a free value (20_memory.md R62; log 1). -/
abbrev Memory (α : Type) := List (Nat × α)

/-- The registers of a backward bit reader (10_state.md R29). -/
structure BackReader where
  base : Word
  len : Word
  /-- Real bits not yet read, two's complement. -/
  rem : Word
  deriving DecidableEq, Repr

/-- The registers of a forward bit reader (10_state.md R30). -/
structure FwdReader where
  base : Word
  len : Word
  pos : Word
  unw : Bool
  deriving DecidableEq, Repr

/-- One FSE decode entry (10_state.md R31). -/
structure DtEntry where
  symbol : BitVec 8
  nbBits : BitVec 4
  baseline : BitVec 9
  deriving DecidableEq, Repr

/-- One Huffman lookup entry (10_state.md R33). -/
structure HtEntry where
  symbol : BitVec 8
  nbBits : BitVec 4
  deriving DecidableEq, Repr

/-- One FSE table slot (10_state.md R31). -/
structure Slot where
  valid : Bool
  ncValid : Bool
  al : BitVec 4
  nsym : BitVec 9
  ncount : Memory (BitVec 16)
  dt : Memory DtEntry
  deriving DecidableEq, Repr

/-- One FSE state register (10_state.md R32). -/
structure FseState where
  state : BitVec 9
  bind : Fin 8
  bound : Bool
  deriving DecidableEq, Repr

/-- The widths of a host access; no other width exists (20_memory.md R64). -/
inductive Width where
  | w8 | w32
  deriving DecidableEq, Repr

/-- One access of the host port (20_memory.md R66). An 8-bit write uses the low byte of `value`. -/
inductive HostAccess where
  | read (addr : Word) (width : Width)
  | write (addr : Word) (width : Width) (value : Word)
  deriving DecidableEq, Repr

/-- One event of the total order of 20_memory.md R72: which agent moves next, and what it does (log 4). -/
inductive Event where
  /-- The block takes its step, if it has one. -/
  | block
  /-- The host makes an access. -/
  | host (a : HostAccess)
  /-- The host polls `STATUS` until it reads `BUSY` = 0 (30_encoding.md R97; 44_control.md R254). -/
  | poll
  /-- The sink starts or stops accepting bytes (R71). -/
  | sink (ready : Bool)
  deriving DecidableEq, Repr

/-- The whole machine. -/
structure State where
  /-- `STATUS.BUSY`, `FAULT`, `PROG`, `CODE` (10_state.md R22). -/
  busy : Bool
  fault : Bool
  prog : Bool
  code : BitVec 8
  /-- `FAULT_INFO` (R23). -/
  faultInfo : Word
  /-- `PENDING`: one word and a valid bit (R25). -/
  pending : Option Word
  /-- `ARG0..ARG3` (R26). -/
  arg0 : Word
  arg1 : Word
  arg2 : Word
  arg3 : Word
  /-- `RES` (R27). -/
  res : DWord
  /-- `BR_*` (R29). -/
  br : BackReader
  /-- `FR_*` (R30). -/
  fr : FwdReader
  /-- The FSE slots (R31). -/
  slots : Vector Slot 8
  /-- The FSE state registers (R32). -/
  states : Vector FseState 4
  /-- `W`, `HUF_NW`, `HUF_VALID`, `HUF_MAXBITS`, `HUF_NSYM`, `HT` (R33). -/
  w : Memory (BitVec 4)
  hufNw : BitVec 8
  hufValid : Bool
  hufMaxbits : BitVec 4
  hufNsym : BitVec 9
  ht : Memory HtEntry
  /-- `WCONF`, `WIN_CAP`, `WTOTAL`, `WFLUSHED`, `WBUF` (R34). -/
  wconf : Bool
  winCap : Word
  wtotal : DWord
  wflushed : DWord
  wbuf : Memory Byte
  /-- `IBUF` and `LBUF` (20_memory.md R61). -/
  ibuf : Memory Byte
  lbuf : Memory Byte
  /-- The sink's sequence `OUT`, oldest byte first (10_state.md R35). -/
  out : List Byte
  /-- The model's own: the parameter `WIN_CAP_MAX` (00_scope.md R7), which nothing changes (log 3). -/
  winCapMax : Nat
  /-- The model's own: free values drawn so far (log 1, 2). -/
  draws : Nat
  /-- The model's own: the events to come, soonest first (log 4). -/
  schedule : List Event
  /-- The model's own: whether the sink accepts bytes (20_memory.md R71; log 7). -/
  sinkReady : Bool
  /-- The model's own: what the host's reads returned, oldest first (log 17). -/
  hostReads : List Word
  deriving DecidableEq, Repr

/-- A slot after power-on (R31, R300): nothing written. -/
def Slot.reset : Slot :=
  { valid := false, ncValid := false, al := 0, nsym := 0, ncount := [], dt := [] }

/-- A state register after power-on (R32, R300). -/
def FseState.reset : FseState := { state := 0, bind := 0, bound := false }

/-- A backward reader after power-on (R29). -/
def BackReader.reset : BackReader := { base := 0, len := 0, rem := 0 }

/-- A forward reader after power-on (R30). -/
def FwdReader.reset : FwdReader := { base := 0, len := 0, pos := 0, unw := false }

/-- Power-on (70_reset_and_hazards.md R300). The last five fields are the model's own (log 2, 3, 4, 7, 17). -/
def State.reset : State :=
  { busy := false, fault := false, prog := false, code := 0, faultInfo := 0, pending := none
    arg0 := 0, arg1 := 0, arg2 := 0, arg3 := 0, res := 0
    br := BackReader.reset, fr := FwdReader.reset
    slots := Vector.replicate 8 Slot.reset, states := Vector.replicate 4 FseState.reset
    w := [], hufNw := 0, hufValid := false, hufMaxbits := 0, hufNsym := 0, ht := []
    wconf := false, winCap := 0, wtotal := 0, wflushed := 0, wbuf := []
    ibuf := [], lbuf := [], out := []
    winCapMax := Config.winCapMaxAtReset, draws := 0, schedule := [], sinkReady := true, hostReads := [] }

end Sys2Proof.Machine
end

