-- ==== Sys2Proof/Machine/Flags.lean ====
section
/-! DEFINITION. The numbers and classes of the fault codes (60_exceptions.md R271, R272), and the words in which the host
sees flags and packed fields (10_state.md R22, R37). -/

namespace Sys2Proof.Machine

/-- The value of a fault in `STATUS.CODE` (60_exceptions.md R271). -/
def FaultCode.number : FaultCode → BitVec 8
  | .illegalCmd => 0x01
  | .range => 0x02
  | .endOfInput => 0x03
  | .cannotUnwind => 0x04
  | .badPadding => 0x05
  | .didNotUseAllBits => 0x06
  | .fseAl => 0x07
  | .fseSymbol => 0x08
  | .fseSpread => 0x09
  | .noTable => 0x0A
  | .hufWeights => 0x0B
  | .hufMaxbits => 0x0C
  | .weightsOverflow => 0x0D
  | .weightStream => 0x0E
  | .outputLimit => 0x0F
  | .winConfig => 0x10
  | .winNotFlushed => 0x11
  | .winDistance => 0x12
  | .winOverlap => 0x13
  | .brRange => 0x14
  | .fbrAlign => 0x15
  | .hostAccess => 0x16

/-- Whether a fault is of the programming-error class P (60_exceptions.md R271, R272). -/
def FaultCode.isProgramming : FaultCode → Bool
  | .illegalCmd | .range | .cannotUnwind | .fseSpread | .winConfig | .winNotFlushed | .winOverlap | .brRange
  | .fbrAlign | .hostAccess => true
  | .endOfInput | .badPadding | .didNotUseAllBits | .fseAl | .fseSymbol | .noTable | .hufWeights | .hufMaxbits
  | .weightsOverflow | .weightStream | .outputLimit | .winDistance => false

/-- One bit as a bit vector. -/
def bit (b : Bool) : BitVec 1 := BitVec.ofBool b

/-- `STATUS` as the host reads it (10_state.md R22). -/
def State.statusWord (s : State) : Word :=
  0#16 ++ s.code ++ 0#5 ++ bit s.prog ++ bit s.fault ++ bit s.busy

/-- `ALLDIRTY` (10_state.md R34). -/
def State.allDirty (s : State) : Bool := s.wconf && decide (s.winCap.toNat ≤ s.wtotal.toNat)

/-- `WPOS`, the source's logical write offset (10_state.md R34). -/
def State.wpos (s : State) : Nat := if s.wconf then s.wtotal.toNat % s.winCap.toNat else 0

/-- `FR_UNW` as the host reads it (10_state.md R37). -/
def FwdReader.unwWord (r : FwdReader) : Word := 0#31 ++ bit r.unw

/-- `STATEk` (R37): bits 8:0 `STATE`, 18:16 `BIND`, 31 `BOUND`. -/
def FseState.word (r : FseState) : Word :=
  bit r.bound ++ 0#12 ++ BitVec.ofFin (w := 3) r.bind ++ 0#7 ++ r.state

/-- `SLOTINFOs` (R37): bits 3:0 `AL`, 16:8 `NSYM`, 30 `NC_VALID`, 31 `VALID`. -/
def Slot.infoWord (t : Slot) : Word :=
  bit t.valid ++ bit t.ncValid ++ 0#13 ++ t.nsym ++ 0#4 ++ t.al

/-- `HUF_INFO` (R37): bits 3:0 `HUF_MAXBITS`, 16:8 `HUF_NSYM`, 31 `HUF_VALID`. -/
def State.hufInfoWord (s : State) : Word :=
  bit s.hufValid ++ 0#14 ++ s.hufNsym ++ 0#4 ++ s.hufMaxbits

/-- `WIN_FLAGS` (R37): bit 0 `WCONF`, bit 1 `ALLDIRTY`. -/
def State.winFlagsWord (s : State) : Word := 0#30 ++ bit s.allDirty ++ bit s.wconf

/-- A `DT` entry as the host reads it (20_memory.md R63): 7:0 symbol, 11:8 nbBits, 24:16 baseline. -/
def DtEntry.word (e : DtEntry) : Word := 0#7 ++ e.baseline ++ 0#4 ++ e.nbBits ++ e.symbol

/-- An `HT` entry as the host reads it (R63): 7:0 symbol, 11:8 nbBits. -/
def HtEntry.word (e : HtEntry) : Word := 0#20 ++ e.nbBits ++ e.symbol

end Sys2Proof.Machine
end

