-- ==== Sys2Proof/Machine/Operands.lean ====
section
/-! DEFINITION. The operands a command takes from `ARG0..ARG3` (30_encoding.md R86, R87), read as unsigned integers, and
the range checks over them (20_memory.md R70). -/

namespace Sys2Proof.Machine

/-- `ARG0` as an operand: `base`, `offset`, `capacity`, `distance` (30_encoding.md R87). -/
def State.opArg0 (s : State) : Nat := s.arg0.toNat
/-- `ARG1` as an operand: `len`, `avail`. -/
def State.opArg1 (s : State) : Nat := s.arg1.toNat
/-- `ARG2` as an operand: `dst`. -/
def State.opArg2 (s : State) : Nat := s.arg2.toNat
/-- `ARG3` as an operand: `limit`. -/
def State.opArg3 (s : State) : Nat := s.arg3.toNat

/-- The range `[base, base + len)` lies in IBUF; the sum does not wrap (20_memory.md R70). -/
def inIbuf (base len : Nat) : Bool := decide (base + len ≤ Config.ibufBytes)

/-- The range `[base, base + len)` lies in LBUF; the sum does not wrap (20_memory.md R70). -/
def inLbuf (base len : Nat) : Bool := decide (base + len ≤ Config.lbufBytes)

end Sys2Proof.Machine
end

