-- ==== Sys2Proof/Machine/Ops.lean ====
section
/-! DEFINITION. The named operations every command is built from: arithmetic of 00_scope.md R9, the memories, fault entry
and soft reset, the end of a command, registers and slots. -/

namespace Sys2Proof.Machine

/-! ### Arithmetic (00_scope.md R9) -/

/-- `hsb(x)`, the index of the highest set bit. -/
def hsb (x : Nat) : Nat := Nat.log2 x

/-- `ceil_div(a, b)`. -/
def ceilDiv (a b : Nat) : Nat := (a + b - 1) / b

/-- `is_pow2(x)`. -/
def isPow2 (x : Nat) : Bool := decide (0 < x) && x &&& (x - 1) == 0

/-! ### Memories (20_memory.md R61, R62) -/

/-- The entry last written at `a`, if any was. -/
def Memory.get? {α : Type} : Memory α → Nat → Option α
  | [], _ => none
  | (k, v) :: m, a => if k = a then some v else Memory.get? m a

/-- Write `v` at `a`, keeping the indexes rising. -/
def Memory.put {α : Type} : Memory α → Nat → α → Memory α
  | [], a, v => [(a, v)]
  | (k, x) :: m, a, v =>
    if a < k then (a, v) :: (k, x) :: m
    else if a = k then (a, v) :: m
    else (k, x) :: Memory.put m a v

/-- Write the entries of a list from `a` upward. -/
def Memory.putList {α : Type} : Memory α → Nat → List α → Memory α
  | m, _, [] => m
  | m, a, v :: vs => Memory.putList (m.put a v) (a + 1) vs

/-- Let the entries of `[lo, lo + n)` hold any value (60_exceptions.md R273 point 4; log 8, 9): they are listed no more. -/
def Memory.forget {α : Type} (m : Memory α) (lo n : Nat) : Memory α :=
  m.filter fun c => !(decide (lo ≤ c.1) && decide (c.1 < lo + n))

/-- The canonical form: indexes strictly rising. -/
def Memory.rising {α : Type} : Memory α → Bool
  | [] => true
  | [_] => true
  | (a, _) :: (b, y) :: m => decide (a < b) && Memory.rising ((b, y) :: m)

/-- The canonical form, and no index outside a memory of `size` entries. -/
def Memory.wf {α : Type} (m : Memory α) (size : Nat) : Bool :=
  m.rising && m.all fun c => decide (c.1 < size)

/-- A byte read (R62): the byte last written, or the next draw. The second component counts draws. -/
def Memory.readByte (m : Memory Byte) (a draws : Nat) : Byte × Nat :=
  match m.get? a with
  | some b => (b, draws)
  | none => ((Config.freeBits draws).extractLsb' 0 8, draws + 1)

/-- A read of one `NCOUNT` entry (R62, R63). -/
def Memory.readCount (m : Memory (BitVec 16)) (a draws : Nat) : BitVec 16 × Nat :=
  match m.get? a with
  | some c => (c, draws)
  | none => ((Config.freeBits draws).extractLsb' 0 16, draws + 1)

/-- A read of one weight (R62, R63). -/
def Memory.readWeight (m : Memory (BitVec 4)) (a draws : Nat) : BitVec 4 × Nat :=
  match m.get? a with
  | some c => (c, draws)
  | none => ((Config.freeBits draws).extractLsb' 0 4, draws + 1)

/-- A read of one `DT` entry (R62, R63). -/
def Memory.readDt (m : Memory DtEntry) (a draws : Nat) : DtEntry × Nat :=
  match m.get? a with
  | some e => (e, draws)
  | none =>
    let x := Config.freeBits draws
    (⟨x.extractLsb' 0 8, x.extractLsb' 8 4, x.extractLsb' 16 9⟩, draws + 1)

/-- A read of one `HT` entry (R62, R63). -/
def Memory.readHt (m : Memory HtEntry) (a draws : Nat) : HtEntry × Nat :=
  match m.get? a with
  | some e => (e, draws)
  | none =>
    let x := Config.freeBits draws
    (⟨x.extractLsb' 0 8, x.extractLsb' 8 4⟩, draws + 1)

/-- The entries `[i, i + n)` of `NCOUNT`, as integers, each read once (log 11). -/
def Memory.readCounts (m : Memory (BitVec 16)) : (n i draws : Nat) → List Int × Nat
  | 0, _, draws => ([], draws)
  | n + 1, i, draws =>
    let (c, draws) := m.readCount i draws
    let (cs, draws) := Memory.readCounts m n (i + 1) draws
    (c.toInt :: cs, draws)

/-- The weights `[i, i + n)`, each read once (log 11). -/
def Memory.readWeights (m : Memory (BitVec 4)) : (n i draws : Nat) → List Nat × Nat
  | 0, _, draws => ([], draws)
  | n + 1, i, draws =>
    let (c, draws) := m.readWeight i draws
    let (cs, draws) := Memory.readWeights m n (i + 1) draws
    (c.toNat :: cs, draws)

/-- A whole memory written from a list, index 0 upward. -/
def Memory.ofList {α : Type} (vs : List α) : Memory α := (List.range vs.length).zip vs

/-! ### Faults and the end of a command (60_exceptions.md R270; 44_control.md R251) -/

/-- Fault entry (R270): the first fault is recorded, the pending command is dropped. -/
def faultEntry (c : FaultCode) (info : Word) (s : State) : State :=
  let s :=
    if s.fault then s
    else { s with fault := true, code := c.number, prog := c.isProgramming, faultInfo := info }
  { s with pending := none, busy := false }

/-- Soft reset, the only way out of a fault but power-on (60_exceptions.md R275; 70_reset_and_hazards.md R301): every
register of R300 takes its power-on value; the memories, `OUT` and what is outside the block stay. -/
def softReset (s : State) : State :=
  { State.reset with
    slots := s.slots.map fun t => { Slot.reset with ncount := t.ncount, dt := t.dt }
    w := s.w, ht := s.ht, wbuf := s.wbuf, ibuf := s.ibuf, lbuf := s.lbuf, out := s.out
    winCapMax := s.winCapMax, draws := s.draws, schedule := s.schedule, sinkReady := s.sinkReady
    hostReads := s.hostReads }

/-- Normal completion of a command (44_control.md R251). -/
def complete (s : State) : State := { s with pending := none, busy := false }

/-- How a command's pseudocode ends: it runs to its end, it raises a fault in the state written so far, or the run is
outside the spec. -/
inductive Ending where
  | done (s : State)
  | raise (c : FaultCode) (s : State)
  | outside (r : Refusal)
  deriving DecidableEq, Repr

/-- The end of the step that ran command `i` (44_control.md R251; 60_exceptions.md R270). `info` is the command word. -/
def finish (i : Instr) : Ending → Host.Outcome State Fault Refusal
  | .done s => .next (complete s)
  | .raise c s => .next (faultEntry c (encode i) s)
  | .outside r => .refused r

/-- A value read from a unit with its own state, or the fault raised and the unit's state at the raise. -/
inductive Res (σ α : Type) where
  | ok (a : α) (s : σ)
  | raise (c : FaultCode) (s : σ)
  deriving DecidableEq, Repr

/-! ### Slots and state registers -/

/-- Slot `s` (10_state.md R31). -/
def State.slot (s : State) (t : Fin 8) : Slot := s.slots[t]

/-- Write slot `t`. -/
def State.setSlot (s : State) (t : Fin 8) (v : Slot) : State := { s with slots := s.slots.set t v }

/-- State register `k` (10_state.md R32). -/
def State.fse (s : State) (k : Fin 4) : FseState := s.states[k]

/-- Write state register `k`. -/
def State.setFse (s : State) (k : Fin 4) (v : FseState) : State := { s with states := s.states.set k v }

/-- `Invalidate(t)` (41_fse.md R140): the table is no longer usable, and every state bound to it is unbound. -/
def invalidate (t : Fin 8) (s : State) : State :=
  { s.setSlot t { s.slot t with valid := false } with
    states := s.states.map fun r => if r.bound && r.bind == t then { r with bound := false } else r }

/-! ### The sink and the window (43_window.md R231, R232) -/

/-- `Sink(b)` (20_memory.md R71). -/
def sink (b : Byte) (s : State) : State := { s with out := s.out ++ [b] }

/-- A byte read of `WBUF` at history index `i`, in slot `i mod C` (43_window.md R231). -/
def readWindow (i : Nat) (s : State) : Byte × State :=
  let (b, draws) := s.wbuf.readByte (i % s.winCap.toNat) s.draws
  (b, { s with draws := draws })

/-- Evict the byte whose slot is about to be overwritten (R232): it goes to the sink. -/
def evict (s : State) : State :=
  let (b, s) := readWindow s.wtotal.toNat s
  { sink b s with wflushed := s.wflushed + 1 }

/-- `AppendByte(b)` (R232). -/
def appendByte (b : Byte) (s : State) : State :=
  let s := if s.wtotal.toNat = s.wflushed.toNat + s.winCap.toNat then evict s else s
  { s with
    wbuf := s.wbuf.put (s.wtotal.toNat % s.winCap.toNat) b
    wtotal := s.wtotal + 1 }

/-- `for j in 0 .. n−1: AppendByte(source(j))`, each source byte read before its append (20_memory.md R72 point 4). -/
def appendLoop (source : Nat → State → Byte × State) : (n j : Nat) → State → State
  | 0, _, s => s
  | n + 1, j, s =>
    let (b, s) := source j s
    appendLoop source n (j + 1) (appendByte b s)

/-- The appends of one command, in a run that keeps `WTOTAL` below `2^64` (R230; log 10). -/
def appendAll (source : Nat → State → Byte × State) (n : Nat) (s : State) : Ending :=
  if s.wtotal.toNat + n < 2 ^ 64 then .done (appendLoop source n 0 s) else .outside .windowTotalOverflow

end Sys2Proof.Machine
end

