-- ==== Sys2Proof/Machine/BitReaders.lean ====
section
/-! DEFINITION. The backward and forward bit readers and their commands (40_bitreaders.md). -/

namespace Sys2Proof.Machine

/-! ### The backward reader (R110 to R116) -/

/-- A backward reader at work, with the count of free values drawn. -/
structure BackCursor where
  reader : BackReader
  draws : Nat
  deriving DecidableEq, Repr

/-- `bitB(p)` of a stream at `base` (R113): the bit, and the draws so far. -/
def backBit (ibuf : Memory Byte) (base : Nat) (p : Int) (draws : Nat) : Bool × Nat :=
  if p < 0 then (false, draws)
  else
    let (b, draws) := ibuf.readByte (base + p.toNat / 8) draws
    (b.getLsbD (p.toNat % 8), draws)

/-- The loop of `BR.read` (R114): `n` bits from position `top` downward, shifted into `v`. -/
def backBits (ibuf : Memory Byte) (base : Nat) : (n : Nat) → (top : Int) → (v draws : Nat) → Nat × Nat
  | 0, _, v, draws => (v, draws)
  | n + 1, top, v, draws =>
    let (b, draws) := backBit ibuf base top draws
    backBits ibuf base n (top - 1) (2 * v + b.toNat) draws

/-- `BR.read(n)` (R114). -/
def BackCursor.read (ibuf : Memory Byte) (n : Nat) (c : BackCursor) : Res BackCursor Nat :=
  let rem := c.reader.rem.toInt
  if rem - n < -2 ^ 31 then .raise .brRange c
  else
    let (v, draws) := backBits ibuf c.reader.base.toNat n (rem - 1) 0 c.draws
    .ok v { reader := { c.reader with rem := BitVec.ofInt 32 (rem - n) }, draws := draws }

/-- `BBR.INIT`'s assignments (R111). -/
def BackReader.opened (base len : Nat) : BackReader :=
  { base := BitVec.ofNat 32 base, len := BitVec.ofNat 32 len, rem := BitVec.ofNat 32 (8 * len) }

/-- The padding skip (R112). -/
def BackCursor.skipPad (ibuf : Memory Byte) (c : BackCursor) : Res BackCursor Unit :=
  let len := c.reader.len.toNat
  if len = 0 then .raise .badPadding c
  else
    let (b, draws) := ibuf.readByte (c.reader.base.toNat + len - 1) c.draws
    if b = 0#8 then .raise .badPadding { c with draws := draws }
    else
      let rem := 8 * (len - 1) + hsb b.toNat
      .ok () { reader := { c.reader with rem := BitVec.ofNat 32 rem }, draws := draws }

/-- The architectural backward reader. -/
def State.back (s : State) : BackCursor := { reader := s.br, draws := s.draws }

/-- Write the architectural backward reader back. -/
def State.setBack (s : State) (c : BackCursor) : State := { s with br := c.reader, draws := c.draws }

/-! ### The forward reader (R117 to R123) -/

/-- A forward reader at work, with the count of free values drawn. -/
structure FwdCursor where
  reader : FwdReader
  draws : Nat
  deriving DecidableEq, Repr

/-- `bitF(p)` of a stream at `base` (R119): the bit, and the draws so far. -/
def fwdBit (ibuf : Memory Byte) (base p draws : Nat) : Bool × Nat :=
  let (b, draws) := ibuf.readByte (base + p / 8) draws
  (b.getLsbD (p % 8), draws)

/-- The sum of `FR.read` (R120): `n` bits from position `p` upward, the first the least significant. -/
def fwdBits (ibuf : Memory Byte) (base : Nat) : (n p draws : Nat) → Nat × Nat
  | 0, _, draws => (0, draws)
  | n + 1, p, draws =>
    let (b, draws) := fwdBit ibuf base p draws
    let (v, draws) := fwdBits ibuf base n (p + 1) draws
    (b.toNat + 2 * v, draws)

/-- `FR.read(n)` (R120). -/
def FwdCursor.read (ibuf : Memory Byte) (n : Nat) (c : FwdCursor) : Res FwdCursor Nat :=
  let pos := c.reader.pos.toNat
  if pos + n > 8 * c.reader.len.toNat then .raise .endOfInput c
  else
    let (v, draws) := fwdBits ibuf c.reader.base.toNat n pos c.draws
    .ok v
      { reader := { c.reader with pos := BitVec.ofNat 32 (pos + n), unw := c.reader.unw || decide (1 ≤ n) }
        draws := draws }

/-- `FR.unwind()` (R121). -/
def FwdCursor.unwind (c : FwdCursor) : Res FwdCursor Unit :=
  if c.reader.unw then .ok () { c with reader := { c.reader with pos := c.reader.pos - 1, unw := false } }
  else .raise .cannotUnwind c

/-- `FBR.INIT`'s assignments (R118). -/
def FwdReader.opened (base len : Nat) : FwdReader :=
  { base := BitVec.ofNat 32 base, len := BitVec.ofNat 32 len, pos := 0, unw := false }

/-- The architectural forward reader. -/
def State.fwd (s : State) : FwdCursor := { reader := s.fr, draws := s.draws }

/-- Write the architectural forward reader back. -/
def State.setFwd (s : State) (c : FwdCursor) : State := { s with fr := c.reader, draws := c.draws }

/-! ### The commands -/

/-- `BBR.INIT` (R111). -/
def bbrInit (s : State) : Ending :=
  if inIbuf s.opArg0 s.opArg1 then .done { s with br := BackReader.opened s.opArg0 s.opArg1 }
  else .raise .range s

/-- `BBR.SKIPPAD` (R112). -/
def bbrSkippad (s : State) : Ending :=
  match s.back.skipPad s.ibuf with
  | .ok _ c => .done (s.setBack c)
  | .raise e c => .raise e (s.setBack c)

/-- `BBR.READ N` (R115; the immediate check is R92's). -/
def bbrRead (n : BitVec 16) (s : State) : Ending :=
  if n.toNat > Config.maxRead then .raise .illegalCmd s
  else
    match s.back.read s.ibuf n.toNat with
    | .ok v c => .done { s.setBack c with res := BitVec.ofNat 64 v }
    | .raise e c => .raise e (s.setBack c)

/-- `FBR.INIT` (R118). -/
def fbrInit (s : State) : Ending :=
  if inIbuf s.opArg0 s.opArg1 then .done { s with fr := FwdReader.opened s.opArg0 s.opArg1 }
  else .raise .range s

/-- `FBR.READ N` (R122; the immediate check is R92's). -/
def fbrRead (n : BitVec 16) (s : State) : Ending :=
  if n.toNat > Config.maxRead then .raise .illegalCmd s
  else
    match s.fwd.read s.ibuf n.toNat with
    | .ok v c => .done { s.setFwd c with res := BitVec.ofNat 64 v }
    | .raise e c => .raise e (s.setFwd c)

/-- `FBR.UNWIND` (R123). -/
def fbrUnwind (s : State) : Ending :=
  match s.fwd.unwind with
  | .ok _ c => .done (s.setFwd c)
  | .raise e c => .raise e (s.setFwd c)

/-- The meaning of `BBR.INIT`. -/
def execBbrInit (s : State) : Host.Outcome State Fault Refusal := finish .bbrInit (bbrInit s)
/-- The meaning of `BBR.SKIPPAD`. -/
def execBbrSkippad (s : State) : Host.Outcome State Fault Refusal := finish .bbrSkippad (bbrSkippad s)
/-- The meaning of `BBR.READ`. -/
def execBbrRead (n : BitVec 16) (s : State) : Host.Outcome State Fault Refusal := finish (.bbrRead n) (bbrRead n s)
/-- The meaning of `FBR.INIT`. -/
def execFbrInit (s : State) : Host.Outcome State Fault Refusal := finish .fbrInit (fbrInit s)
/-- The meaning of `FBR.READ`. -/
def execFbrRead (n : BitVec 16) (s : State) : Host.Outcome State Fault Refusal := finish (.fbrRead n) (fbrRead n s)
/-- The meaning of `FBR.UNWIND`. -/
def execFbrUnwind (s : State) : Host.Outcome State Fault Refusal := finish .fbrUnwind (fbrUnwind s)

end Sys2Proof.Machine
end

