-- ==== Sys2Proof/Machine/Control.lean ====
section
/-! DEFINITION. The control command (44_control.md R250). -/

namespace Sys2Proof.Machine

/-- `NOP` (R250): nothing. -/
def nop (s : State) : Ending := .done s

/-- The meaning of `NOP`. -/
def execNop (s : State) : Host.Outcome State Fault Refusal := finish .nop (nop s)

end Sys2Proof.Machine
end

