-- ==== Sys2Proof/Machine/Fse.lean ====
section
/-! DEFINITION. The FSE decoder (41_fse.md): description parsing, table construction, the state machine, and the two-state
weight stream of `HUF.READW`. -/

namespace Sys2Proof.Machine

/-! ### Description parsing (R141) -/

/-- What `ReadNCount` leaves: `AL'`, the counts of symbols `0 .. NSYM−1`, and the bytes consumed. -/
structure Description where
  al : Nat
  counts : List Int
  nbytes : Nat
  deriving DecidableEq, Repr

/-- The variables of the loop of R141. `counts` lists the counts of the symbols below `sym`. -/
structure NcLoop where
  remaining : Int
  threshold : Nat
  nbBits : Nat
  counts : List Int
  deriving DecidableEq, Repr

/-- `sym` of R141: the next symbol to describe. -/
def NcLoop.sym (l : NcLoop) : Nat := l.counts.length

/-- The probability field of R141 and R143: read `nbBits` bits, give one back if the value is short. -/
def readCountField (ibuf : Memory Byte) (l : NcLoop) (c : FwdCursor) : Res FwdCursor Int :=
  let max : Int := 2 * (l.threshold : Int) - 1 - l.remaining
  match c.read ibuf l.nbBits with
  | .raise e c => .raise e c
  | .ok v c =>
    let low := v &&& (l.threshold - 1)
    if (low : Int) < max then
      match c.unwind with
      | .raise e c => .raise e c
      | .ok _ c => .ok low c
    else if v ≥ l.threshold then .ok ((v : Int) - max) c
    else .ok v c

/-- The zero-probability run of R141: 2-bit fields, of which 3 continues the run. The result is the new `sym`; `fuel`
is enough for every run that stays within `maxSym`. -/
def readZeroRun (ibuf : Memory Byte) (maxSym : Nat) : (fuel sym : Nat) → FwdCursor → Res FwdCursor Nat
  | 0, _, c => .raise .fseSymbol c
  | fuel + 1, sym, c =>
    match c.read ibuf 2 with
    | .raise e c => .raise e c
    | .ok r c =>
      let sym := sym + r
      if sym > maxSym then .raise .fseSymbol c
      else if r = 3 then readZeroRun ibuf maxSym fuel sym c
      else .ok sym c

/-- `while remaining < threshold` of R141: the new `(nbBits, threshold)`. -/
def narrow (remaining : Int) : (nbBits threshold : Nat) → Nat × Nat
  | 0, threshold => (0, threshold)
  | nbBits + 1, threshold =>
    if remaining < threshold then narrow remaining nbBits (threshold >>> 1) else (nbBits + 1, threshold)

/-- The main loop of R141. Each round describes at least one symbol, so after `maxSym + 1` rounds `sym > maxSym`:
`fuel` is the number of rounds left, and a round without fuel is the round that raises `FSE_SYMBOL`. -/
def readCounts (ibuf : Memory Byte) (maxSym : Nat) : (fuel : Nat) → NcLoop → FwdCursor → Res FwdCursor (List Int)
  | 0, l, c => if l.remaining > 1 then .raise .fseSymbol c else .ok l.counts c
  | fuel + 1, l, c =>
    if l.remaining > 1 then
      if l.sym > maxSym then .raise .fseSymbol c
      else
        match readCountField ibuf l c with
        | .raise e c => .raise e c
        | .ok count c =>
          let proba := count - 1
          let remaining := l.remaining - |proba|
          let counts := l.counts ++ [proba]
          let (nbBits, threshold) := narrow remaining l.nbBits l.threshold
          if proba = 0 then
            match readZeroRun ibuf maxSym (maxSym + 1) counts.length c with
            | .raise e c => .raise e c
            | .ok sym c =>
              readCounts ibuf maxSym fuel
                { remaining, threshold, nbBits, counts := counts ++ List.replicate (sym - counts.length) 0 } c
          else readCounts ibuf maxSym fuel { remaining, threshold, nbBits, counts } c
    else .ok l.counts c

/-- `ReadNCount` (R141), less its writes of `NCOUNT`, `AL` and `NSYM`. -/
def readNCount (ibuf : Memory Byte) (maxSym maxAl : Nat) (c : FwdCursor) : Res FwdCursor Description :=
  let start := c.reader.pos.toNat
  match c.read ibuf 4 with
  | .raise e c => .raise e c
  | .ok v c =>
    let al := v + 5
    if al > maxAl then .raise .fseAl c
    else
      match readCounts ibuf maxSym (maxSym + 1)
        { remaining := 2 ^ al + 1, threshold := 2 ^ al, nbBits := al + 1, counts := [] } c with
      | .raise e c => .raise e c
      | .ok counts c =>
        let nbytes := ceilDiv (c.reader.pos.toNat - start) 8
        .ok { al, counts, nbytes }
          { c with reader := { c.reader with pos := BitVec.ofNat 32 (start + 8 * nbytes), unw := false } }

/-! ### Table construction (R145) -/

/-- The step of the spread: from `pos` by `stride` to the next position below `low`, skipping the high-end slots.
`none` where the loop would never end (log 14). -/
def spreadNext (size low stride : Nat) : (fuel pos : Nat) → Option Nat
  | 0, _ => none
  | fuel + 1, pos =>
    let pos := (pos + stride) &&& (size - 1)
    if pos < low then some pos else spreadNext size low stride fuel pos

/-- Place symbol `sym` at `n` positions. The result is the symbol table and the next position. -/
def spreadSymbol (size low stride sym : Nat) : (n : Nat) → List Nat × Nat → Option (List Nat × Nat)
  | 0, t => some t
  | n + 1, (syms, pos) =>
    match spreadNext size low stride size pos with
    | none => none
    | some next => spreadSymbol size low stride sym n (syms.set pos sym, next)

/-- The spread over the symbols from `sym` upward (R145). -/
def spreadAll (size low stride : Nat) : (counts : List Int) → (sym : Nat) → List Nat × Nat → Option (List Nat × Nat)
  | [], _, t => some t
  | c :: counts, sym, t =>
    match spreadSymbol size low stride sym c.toNat t with
    | none => none
    | some t => spreadAll size low stride counts (sym + 1) t

/-- The "less than 1" symbols, placed from the high end downward (R145). The result is the symbol table and the number of
slots below them, `high + 1`. -/
def placeHigh : (counts : List Int) → (sym : Nat) → List Nat × Nat → List Nat × Nat
  | [], _, t => t
  | c :: counts, sym, (syms, low) =>
    if c = -1 then placeHigh counts (sym + 1) (syms.set (low - 1) sym, low - 1)
    else placeHigh counts (sym + 1) (syms, low)

/-- `next[]` before the per-state pass (R145). -/
def initialNext (counts : List Int) : List Nat := counts.map fun c => if c = -1 then 1 else c.toNat

/-- The entry of a state whose symbol's counter is `x` (R145). -/
def dtEntry (al sym x : Nat) : DtEntry :=
  let nb := al - hsb x
  { symbol := BitVec.ofNat 8 sym, nbBits := BitVec.ofNat 4 nb, baseline := BitVec.ofNat 9 ((x <<< nb) - 2 ^ al) }

/-- The per-state pass (R145). -/
def dtEntries (al : Nat) : (syms next : List Nat) → List DtEntry
  | [], _ => []
  | sym :: syms, next =>
    let x := next.getD sym 0
    dtEntry al sym x :: dtEntries al syms (next.set sym (x + 1))

/-- `BuildTable` (R145): the entries of states `0 .. 2^AL − 1`, or `none` for `FSE_SPREAD`. -/
def buildTable (al : Nat) (counts : List Int) : Option (List DtEntry) :=
  let size := 2 ^ al
  let (syms, low) := placeHigh counts 0 (List.replicate size 0, size)
  let stride := (size >>> 1) + (size >>> 3) + 3
  match spreadAll size low stride counts 0 (syms, 0) with
  | some (syms, 0) => some (dtEntries al syms (initialNext counts))
  | _ => none

/-! ### Predefined distributions (R149) -/

/-- A row of R149. -/
structure Predefined where
  al : Nat
  counts : List Int
  deriving DecidableEq, Repr

/-- The literal-length row of R149. -/
def predefinedLl : Predefined :=
  { al := 6
    counts := [4, 3, 2, 2, 2, 2, 2, 2, 2, 2, 2, 2, 2, 1, 1, 1, 2, 2, 2, 2, 2, 2, 2, 2, 2, 3, 2, 1, 1, 1, 1, 1,
      -1, -1, -1, -1] }

/-- The match-length row of R149. -/
def predefinedMl : Predefined :=
  { al := 6
    counts := [1, 4, 3, 2, 2, 2, 2, 2, 2, 1, 1, 1, 1, 1, 1, 1, 1, 1, 1, 1, 1, 1, 1, 1, 1, 1, 1, 1, 1, 1, 1, 1,
      1, 1, 1, 1, 1, 1, 1, 1, 1, 1, 1, 1, 1, 1, -1, -1, -1, -1, -1, -1, -1] }

/-- The offset row of R149. -/
def predefinedOf : Predefined :=
  { al := 5
    counts := [1, 1, 1, 1, 1, 1, 2, 2, 2, 1, 1, 1, 1, 1, 1, 1, 1, 1, 1, 1, 1, 1, 1, 1, -1, -1, -1, -1, -1] }

/-- Row `WHICH` of R149, for a legal `WHICH`. -/
def predefined (which : Nat) : Predefined :=
  match which with
  | 0 => predefinedLl
  | 1 => predefinedMl
  | _ => predefinedOf

/-! ### The two-state weight stream (R158) -/

/-- The loop of `DecodeWeights2` (R158), written over the state that emits next (`a`) and the other one (`b`); the two
halves of the spec's loop are its two roles. `fuel` is one more than `Emit` allows. -/
def decodeWeights2Loop (ibuf : Memory Byte) (table : List DtEntry) :
    (fuel a b : Nat) → (out : List Nat) → BackCursor → Res BackCursor (List Nat)
  | 0, _, _, _, c => .raise .weightsOverflow c
  | fuel + 1, a, b, out, c =>
    if out.length = Config.hufMaxWeights then .raise .weightsOverflow c
    else
      let e := table.getD a ⟨0, 0, 0⟩
      let out := out ++ [e.symbol.toNat]
      match c.read ibuf e.nbBits.toNat with
      | .raise f c => .raise f c
      | .ok v c =>
        let a := e.baseline.toNat + v
        if c.reader.rem.toInt < 0 then
          if out.length = Config.hufMaxWeights then .raise .weightsOverflow c
          else .ok (out ++ [(table.getD b ⟨0, 0, 0⟩).symbol.toNat]) c
        else decodeWeights2Loop ibuf table fuel b a out c

/-- `DecodeWeights2(P, T, al)` (R158). -/
def decodeWeights2 (ibuf : Memory Byte) (table : List DtEntry) (al : Nat) (c : BackCursor) : Res BackCursor (List Nat) :=
  match c.read ibuf al with
  | .raise f c => .raise f c
  | .ok s1 c =>
    match c.read ibuf al with
    | .raise f c => .raise f c
    | .ok s2 c => decodeWeights2Loop ibuf table (Config.hufMaxWeights + 1) s1 s2 [] c

/-! ### The commands -/

/-- All 256 entries of an `NCOUNT`, the counts given and then zeros (R141, R150). -/
def countImage (counts : List Int) : Memory (BitVec 16) :=
  Memory.ofList ((List.range Config.ncountEntries).map fun i => BitVec.ofInt 16 (counts.getD i 0))

/-- `FSE.READNC` (R144; the immediate check is R92's). A fault of the parser leaves `NCOUNT[slot]` any value
(60_exceptions.md R273 point 4; log 9). -/
def fseReadnc (t : Fin 8) (maxAl : BitVec 4) (maxSym : BitVec 8) (s : State) : Ending :=
  if maxAl.toNat > Config.fseMaxAl then .raise .illegalCmd s
  else if s.fr.pos.toNat % 8 ≠ 0 then .raise .fbrAlign s
  else
    let s := invalidate t s
    let s := s.setSlot t { s.slot t with ncValid := false }
    match readNCount s.ibuf maxSym.toNat maxAl.toNat s.fwd with
    | .raise e c =>
      let slot := s.slot t
      .raise e ((s.setFwd c).setSlot t { slot with ncount := slot.ncount.forget 0 Config.ncountEntries })
    | .ok d c =>
      let s := (s.setFwd c).setSlot t
        { s.slot t with
          ncValid := true, al := BitVec.ofNat 4 d.al, nsym := BitVec.ofNat 9 d.counts.length
          ncount := countImage d.counts }
      .done { s with res := BitVec.ofNat 64 d.nbytes }

/-- `BuildTable(t)` and `VALID[t] <- 1` (R145, R148), given the counts of slot `t`. Entries above the table keep their
contents (93_implementation_defined.md U7). -/
def buildSlot (t : Fin 8) (counts : List Int) (s : State) : Ending :=
  let slot := s.slot t
  match buildTable slot.al.toNat counts with
  | none => .raise .fseSpread s
  | some entries => .done (s.setSlot t { slot with dt := slot.dt.putList 0 entries, valid := true })

/-- `FSE.BUILD` (R148). -/
def fseBuild (t : Fin 8) (s : State) : Ending :=
  if (s.slot t).ncValid then
    let s := invalidate t s
    let slot := s.slot t
    let (counts, draws) := slot.ncount.readCounts slot.nsym.toNat 0 s.draws
    buildSlot t counts { s with draws := draws }
  else .raise .noTable s

/-- `FSE.PREDEF` (R150; the immediate check is R92's). -/
def fsePredef (t : Fin 8) (which : BitVec 16) (s : State) : Ending :=
  if which.toNat > 2 then .raise .illegalCmd s
  else
    let s := invalidate t s
    let p := predefined which.toNat
    let s := s.setSlot t
      { s.slot t with
        al := BitVec.ofNat 4 p.al, nsym := BitVec.ofNat 9 p.counts.length, ncount := countImage p.counts
        ncValid := true }
    buildSlot t p.counts s

/-- `FSE.RLE` (R151). -/
def fseRle (t : Fin 8) (byte : Byte) (s : State) : Ending :=
  let s := invalidate t s
  let slot := s.slot t
  .done (s.setSlot t
    { slot with
      ncValid := false, al := 0, nsym := BitVec.ofNat 9 (byte.toNat + 1)
      dt := slot.dt.put 0 { symbol := byte, nbBits := 0, baseline := 0 }
      valid := true })

/-- `FSE.INIT` (R154). -/
def fseInit (k : Fin 4) (t : Fin 8) (s : State) : Ending :=
  if (s.slot t).valid then
    match s.back.read s.ibuf (s.slot t).al.toNat with
    | .raise e c => .raise e (s.setBack c)
    | .ok v c => .done ((s.setBack c).setFse k { state := BitVec.ofNat 9 v, bind := t, bound := true })
  else .raise .noTable s

/-- `DT[BIND[k]][STATE[k]]` (R155, R156). -/
def State.fseEntry (s : State) (k : Fin 4) : DtEntry × Nat :=
  (s.slot (s.fse k).bind).dt.readDt (s.fse k).state.toNat s.draws

/-- `FSE.PEEK` (R155). -/
def fsePeek (k : Fin 4) (s : State) : Ending :=
  if (s.fse k).bound then
    let (e, draws) := s.fseEntry k
    .done { s with draws := draws, res := BitVec.ofNat 64 e.symbol.toNat }
  else .raise .noTable s

/-- `FSE.NEXT` (R156). -/
def fseNext (k : Fin 4) (s : State) : Ending :=
  if (s.fse k).bound then
    let (e, draws) := s.fseEntry k
    let s := { s with draws := draws }
    match s.back.read s.ibuf e.nbBits.toNat with
    | .raise f c => .raise f (s.setBack c)
    | .ok v c =>
      .done ((s.setBack c).setFse k { s.fse k with state := BitVec.ofNat 9 (e.baseline.toNat + v) })
  else .raise .noTable s

/-- The meaning of `FSE.READNC`. -/
def execFseReadnc (t : Fin 8) (maxAl : BitVec 4) (maxSym : BitVec 8) (s : State) : Host.Outcome State Fault Refusal :=
  finish (.fseReadnc t maxAl maxSym) (fseReadnc t maxAl maxSym s)
/-- The meaning of `FSE.BUILD`. -/
def execFseBuild (t : Fin 8) (s : State) : Host.Outcome State Fault Refusal := finish (.fseBuild t) (fseBuild t s)
/-- The meaning of `FSE.PREDEF`. -/
def execFsePredef (t : Fin 8) (which : BitVec 16) (s : State) : Host.Outcome State Fault Refusal :=
  finish (.fsePredef t which) (fsePredef t which s)
/-- The meaning of `FSE.RLE`. -/
def execFseRle (t : Fin 8) (byte : Byte) (s : State) : Host.Outcome State Fault Refusal :=
  finish (.fseRle t byte) (fseRle t byte s)
/-- The meaning of `FSE.INIT`. -/
def execFseInit (k : Fin 4) (t : Fin 8) (s : State) : Host.Outcome State Fault Refusal :=
  finish (.fseInit k t) (fseInit k t s)
/-- The meaning of `FSE.PEEK`. -/
def execFsePeek (k : Fin 4) (s : State) : Host.Outcome State Fault Refusal := finish (.fsePeek k) (fsePeek k s)
/-- The meaning of `FSE.NEXT`. -/
def execFseNext (k : Fin 4) (s : State) : Host.Outcome State Fault Refusal := finish (.fseNext k) (fseNext k s)

end Sys2Proof.Machine
end

