-- ==== Sys2Proof/Machine/Huffman.lean ====
section
/-! DEFINITION. The canonical Huffman decoder (42_huffman.md). -/

namespace Sys2Proof.Machine

/-! ### Reading weights (R192 to R195) -/

/-- The nibbles of `ReadWeightsDirect` (R192): weights `i .. i + n − 1`, the high nibble of a byte first. -/
def directWeights (ibuf : Memory Byte) (off : Nat) : (n i draws : Nat) → List Nat × Nat
  | 0, _, draws => ([], draws)
  | n + 1, i, draws =>
    let (b, draws) := ibuf.readByte (off + 1 + i / 2) draws
    let weight := if i % 2 = 0 then b.toNat >>> 4 else b.toNat &&& 0xF
    let (ws, draws) := directWeights ibuf off n (i + 1) draws
    (weight :: ws, draws)

/-- `ReadWeightsDirect(off, avail, h)` (R192): the weights and the bytes used. The state of the reading is the draws. -/
def readWeightsDirect (ibuf : Memory Byte) (off avail h draws : Nat) : Res Nat (List Nat × Nat) :=
  let n := h - 127
  let nb := ceilDiv n 2
  if 1 + nb > avail then .raise .endOfInput draws
  else
    let (ws, draws) := directWeights ibuf off n 0 draws
    .ok (ws, 1 + nb) draws

/-- `ReadWeightsFSE(off, avail, h)` (R193), with its private readers and table (R194). -/
def readWeightsFse (ibuf : Memory Byte) (off avail h draws : Nat) : Res Nat (List Nat × Nat) :=
  if 1 + h > avail then .raise .endOfInput draws
  else
    let q : FwdCursor := { reader := FwdReader.opened (off + 1) h, draws }
    match readNCount ibuf Config.weightMaxSymbol Config.weightFseMaxAl q with
    | .raise e q => .raise e q.draws
    | .ok d q =>
      if d.nbytes ≥ h then .raise .weightStream q.draws
      else
        match buildTable d.al d.counts with
        | none => .raise .fseSpread q.draws
        | some table =>
          let p : BackCursor := { reader := BackReader.opened (off + 1 + d.nbytes) (h - d.nbytes), draws := q.draws }
          match p.skipPad ibuf with
          | .raise e p => .raise e p.draws
          | .ok _ p =>
            match decodeWeights2 ibuf table d.al p with
            | .raise e p => .raise e p.draws
            | .ok ws p => .ok (ws, 1 + h) p.draws

/-- The weight reading of R195, by the header byte `h`. -/
def readWeights (ibuf : Memory Byte) (off avail h draws : Nat) : Res Nat (List Nat × Nat) :=
  if h < 128 then readWeightsFse ibuf off avail h draws else readWeightsDirect ibuf off avail h draws

/-- All 256 entries of `W`, the weights given and then zeros (R195). -/
def weightImage (ws : List Nat) : Memory (BitVec 4) :=
  Memory.ofList ((List.range Config.wEntries).map fun i => BitVec.ofNat 4 (ws.getD i 0))

/-- `HUF.READW` (R195). -/
def hufReadw (s : State) : Ending :=
  let off := s.opArg0
  let avail := s.opArg1
  if inIbuf off avail then
    let s := { s with hufValid := false }
    if avail < 1 then .raise .endOfInput s
    else
      let (h, draws) := s.ibuf.readByte off s.draws
      match readWeights s.ibuf off avail h.toNat draws with
      | .raise e draws => .raise e { s with draws := draws }
      | .ok (ws, used) draws =>
        .done
          { s with
            draws := draws, w := weightImage ws, hufNw := BitVec.ofNat 8 ws.length, res := BitVec.ofNat 64 used }
  else .raise .range s

/-! ### Building the table (R196) -/

/-- The share `2^(w−1)` of a weight, none for weight 0 (R191). -/
def weightShare (w : Nat) : Nat := if w = 0 then 0 else 2 ^ (w - 1)

/-- `sum` of R196. -/
def weightSum (ws : List Nat) : Nat := (ws.map weightShare).sum

/-- The entries of the symbols of weight `w`, in ascending symbol order (R196): `2^(w−1)` for each. -/
def classEntries (mb w : Nat) : (ws : List Nat) → (sym : Nat) → List HtEntry
  | [], _ => []
  | x :: ws, sym =>
    if x = w then
      List.replicate (2 ^ (w - 1)) { symbol := BitVec.ofNat 8 sym, nbBits := BitVec.ofNat 4 (mb + 1 - w) }
        ++ classEntries mb w ws (sym + 1)
    else classEntries mb w ws (sym + 1)

/-- The entries of the weights `w .. w + n − 1`, in that order: `start[w]` of R196 is the length of what precedes. -/
def htEntriesFrom (mb : Nat) (ws : List Nat) : (n w : Nat) → List HtEntry
  | 0, _ => []
  | n + 1, w => classEntries mb w ws 0 ++ htEntriesFrom mb ws n (w + 1)

/-- The `2^mb` entries of the table of the weights `ws`, the implicit one last (R196). -/
def htImage (mb : Nat) (ws : List Nat) : List HtEntry := htEntriesFrom mb ws mb 1

/-- `BuildHuf()` (R196) on the explicit weights `ws`, each read once (log 11). -/
def buildHuf (ws : List Nat) (s : State) : Ending :=
  let n := ws.length
  if n = 0 then .raise .hufWeights s
  else if ws.any fun w => decide (w > Config.hufMaxBits) then .raise .hufMaxbits s
  else
    let sum := weightSum ws
    if sum = 0 then .raise .hufWeights s
    else
      let mb := hsb sum + 1
      if mb > Config.hufMaxBits then .raise .hufMaxbits s
      else
        let rest := 2 ^ mb - sum
        if isPow2 rest then
          let last := hsb rest + 1
          let s := { s with w := s.w.put n (BitVec.ofNat 4 last) }
          let all := ws ++ [last]
          if all.count 1 < 2 then .raise .hufWeights s
          else
            .done
              { s with
                ht := s.ht.putList 0 (htImage mb all), hufMaxbits := BitVec.ofNat 4 mb
                hufNsym := BitVec.ofNat 9 (n + 1), hufValid := true }
        else .raise .hufWeights s

/-- `HUF.BUILD` (R198). -/
def hufBuild (s : State) : Ending :=
  let s := { s with hufValid := false }
  let (ws, draws) := s.w.readWeights s.hufNw.toNat 0 s.draws
  buildHuf ws { s with draws := draws }

/-! ### Decoding (R199 to R201) -/

/-- `DecodeSymbol(idx)` (R199): the symbol and the next index. -/
def decodeSymbol (mb idx : Nat) (s : State) : Res State (Byte × Nat) :=
  let (e, draws) := s.ht.readHt idx s.draws
  let s := { s with draws := draws }
  match s.back.read s.ibuf e.nbBits.toNat with
  | .raise f c => .raise f (s.setBack c)
  | .ok v c => .ok (e.symbol, ((idx <<< e.nbBits.toNat) ||| v) % 2 ^ mb) (s.setBack c)

/-- The loop of R201. `fuel` is `limit − count`. The result is the count of symbols. -/
def hufLoop (mb dst : Nat) : (fuel idx count : Nat) → State → Res State Nat
  | 0, _, count, s => if s.br.rem.toInt > -(mb : Int) then .raise .outputLimit s else .ok count s
  | fuel + 1, idx, count, s =>
    if s.br.rem.toInt > -(mb : Int) then
      match decodeSymbol mb idx s with
      | .raise e s => .raise e s
      | .ok (sym, idx) s => hufLoop mb dst fuel idx (count + 1) { s with lbuf := s.lbuf.put (dst + count) sym }
    else .ok count s

/-- The stream part of R201, after the checks: open the stream, skip the padding, decode, check the end. -/
def hufStream (base len dst limit : Nat) (s : State) : Res State Nat :=
  let mb := s.hufMaxbits.toNat
  let s := { s with br := BackReader.opened base len }
  match s.back.skipPad s.ibuf with
  | .raise e c => .raise e (s.setBack c)
  | .ok _ c =>
    match c.read s.ibuf mb with
    | .raise e c => .raise e (s.setBack c)
    | .ok idx c =>
      match hufLoop mb dst limit idx 0 (s.setBack c) with
      | .raise e s => .raise e s
      | .ok count s => if s.br.rem.toInt = -(mb : Int) then .ok count s else .raise .didNotUseAllBits s

/-- `HUF.DECODE` (R201). A fault of the stream leaves `LBUF[dst .. dst + limit)` any value (60_exceptions.md R273 point 4;
log 8). -/
def hufDecode (s : State) : Ending :=
  if s.hufValid then
    if inIbuf s.opArg0 s.opArg1 && inLbuf s.opArg2 s.opArg3 then
      match hufStream s.opArg0 s.opArg1 s.opArg2 s.opArg3 s with
      | .raise e t => .raise e { t with lbuf := t.lbuf.forget s.opArg2 s.opArg3 }
      | .ok count t => .done { t with res := BitVec.ofNat 64 count }
    else .raise .range s
  else .raise .noTable s

/-- The meaning of `HUF.READW`. -/
def execHufReadw (s : State) : Host.Outcome State Fault Refusal := finish .hufReadw (hufReadw s)
/-- The meaning of `HUF.BUILD`. -/
def execHufBuild (s : State) : Host.Outcome State Fault Refusal := finish .hufBuild (hufBuild s)
/-- The meaning of `HUF.DECODE`. -/
def execHufDecode (s : State) : Host.Outcome State Fault Refusal := finish .hufDecode (hufDecode s)

end Sys2Proof.Machine
end

