-- ==== Sys2Proof/Machine/Window.lean ====
section
/-! DEFINITION. The sliding window and its commands (43_window.md). -/

namespace Sys2Proof.Machine

/-- `WIN.CONFIG` (R233). -/
def winConfig (s : State) : Ending :=
  let cap := s.opArg0
  if cap = 0 ∨ cap > s.winCapMax then .raise .winConfig s
  else if s.wconf ∧ s.wflushed ≠ s.wtotal then .raise .winNotFlushed s
  else .done { s with winCap := s.arg0, wtotal := 0, wflushed := 0, wconf := true }

/-- The source of `WIN.PUSHI` (R234): `IBUF[base + j]`. -/
def ibufSource (base j : Nat) (s : State) : Byte × State :=
  let (b, draws) := s.ibuf.readByte (base + j) s.draws
  (b, { s with draws := draws })

/-- The source of `WIN.PUSHL` (R235): `LBUF[base + j]`. -/
def lbufSource (base j : Nat) (s : State) : Byte × State :=
  let (b, draws) := s.lbuf.readByte (base + j) s.draws
  (b, { s with draws := draws })

/-- The source of `WIN.PUSHR` (R236). -/
def byteSource (b : Byte) (_j : Nat) (s : State) : Byte × State := (b, s)

/-- The source of `WIN.REPEAT` (R238): history index `t − dist + j`, with `t` the `WTOTAL` at the start. -/
def repeatSource (t dist j : Nat) (s : State) : Byte × State := readWindow (t - dist + j) s

/-- The source of `WIN.REPGEN` (R239): `dist` before the write position of the moment. -/
def repgenSource (dist _j : Nat) (s : State) : Byte × State := readWindow (s.wtotal.toNat - dist) s

/-- `WIN.PUSHI` (R234). -/
def winPushi (s : State) : Ending :=
  if s.wconf then
    if inIbuf s.opArg0 s.opArg1 then appendAll (ibufSource s.opArg0) s.opArg1 s else .raise .range s
  else .raise .winConfig s

/-- `WIN.PUSHL` (R235). -/
def winPushl (s : State) : Ending :=
  if s.wconf then
    if inLbuf s.opArg0 s.opArg1 then appendAll (lbufSource s.opArg0) s.opArg1 s else .raise .range s
  else .raise .winConfig s

/-- `WIN.PUSHR` (R236). -/
def winPushr (b : Byte) (s : State) : Ending :=
  if s.wconf then appendAll (byteSource b) s.opArg1 s else .raise .winConfig s

/-- `CheckDistance` fails (R237). -/
def badDistance (dist : Nat) (s : State) : Bool :=
  decide (dist = 0) || decide (dist > s.wtotal.toNat) || decide (dist > s.winCap.toNat)

/-- `WIN.REPEAT` (R238). -/
def winRepeat (s : State) : Ending :=
  let dist := s.opArg0
  let len := s.opArg1
  if s.wconf then
    if len = 0 then .done s
    else if badDistance dist s then .raise .winDistance s
    else if len > dist then .raise .winOverlap s
    else appendAll (repeatSource s.wtotal.toNat dist) len s
  else .raise .winConfig s

/-- `WIN.REPGEN` (R239). -/
def winRepgen (s : State) : Ending :=
  let dist := s.opArg0
  let len := s.opArg1
  if s.wconf then
    if len = 0 then .done s
    else if badDistance dist s then .raise .winDistance s
    else appendAll (repgenSource dist) len s
  else .raise .winConfig s

/-- `for i in i .. i+n−1: Sink(WBUF[i mod C])` (R240). -/
def flushLoop : (n i : Nat) → State → State
  | 0, _, s => s
  | n + 1, i, s =>
    let (b, s) := readWindow i s
    flushLoop n (i + 1) (sink b s)

/-- `WIN.FLUSH` (R240). -/
def winFlush (s : State) : Ending :=
  if s.wconf then
    let s := flushLoop (s.wtotal.toNat - s.wflushed.toNat) s.wflushed.toNat s
    .done { s with wflushed := s.wtotal }
  else .raise .winConfig s

/-- The meaning of `WIN.CONFIG`. -/
def execWinConfig (s : State) : Host.Outcome State Fault Refusal := finish .winConfig (winConfig s)
/-- The meaning of `WIN.PUSHI`. -/
def execWinPushi (s : State) : Host.Outcome State Fault Refusal := finish .winPushi (winPushi s)
/-- The meaning of `WIN.PUSHL`. -/
def execWinPushl (s : State) : Host.Outcome State Fault Refusal := finish .winPushl (winPushl s)
/-- The meaning of `WIN.PUSHR`. -/
def execWinPushr (b : Byte) (s : State) : Host.Outcome State Fault Refusal := finish (.winPushr b) (winPushr b s)
/-- The meaning of `WIN.REPEAT`. -/
def execWinRepeat (s : State) : Host.Outcome State Fault Refusal := finish .winRepeat (winRepeat s)
/-- The meaning of `WIN.REPGEN`. -/
def execWinRepgen (s : State) : Host.Outcome State Fault Refusal := finish .winRepgen (winRepgen s)
/-- The meaning of `WIN.FLUSH`. -/
def execWinFlush (s : State) : Host.Outcome State Fault Refusal := finish .winFlush (winFlush s)

end Sys2Proof.Machine
end

