-- ==== Sys2Proof/Machine/Dispatch.lean ====
section
/-! DEFINITION. The meaning of every command, one arm each (44_control.md R251). -/

namespace Sys2Proof.Machine

def exec (i : Instr) (s : State) : Host.Outcome State Fault Refusal :=
  match i with
  | .nop => Sys2Proof.Machine.execNop s
  | .bbrInit => Sys2Proof.Machine.execBbrInit s
  | .bbrSkippad => Sys2Proof.Machine.execBbrSkippad s
  | .bbrRead n => Sys2Proof.Machine.execBbrRead n s
  | .fbrInit => Sys2Proof.Machine.execFbrInit s
  | .fbrRead n => Sys2Proof.Machine.execFbrRead n s
  | .fbrUnwind => Sys2Proof.Machine.execFbrUnwind s
  | .fseReadnc t maxAl maxSym => Sys2Proof.Machine.execFseReadnc t maxAl maxSym s
  | .fseBuild t => Sys2Proof.Machine.execFseBuild t s
  | .fsePredef t which => Sys2Proof.Machine.execFsePredef t which s
  | .fseRle t byte => Sys2Proof.Machine.execFseRle t byte s
  | .fseInit k t => Sys2Proof.Machine.execFseInit k t s
  | .fsePeek k => Sys2Proof.Machine.execFsePeek k s
  | .fseNext k => Sys2Proof.Machine.execFseNext k s
  | .hufReadw => Sys2Proof.Machine.execHufReadw s
  | .hufBuild => Sys2Proof.Machine.execHufBuild s
  | .hufDecode => Sys2Proof.Machine.execHufDecode s
  | .winConfig => Sys2Proof.Machine.execWinConfig s
  | .winPushi => Sys2Proof.Machine.execWinPushi s
  | .winPushl => Sys2Proof.Machine.execWinPushl s
  | .winPushr byte => Sys2Proof.Machine.execWinPushr byte s
  | .winRepeat => Sys2Proof.Machine.execWinRepeat s
  | .winRepgen => Sys2Proof.Machine.execWinRepgen s
  | .winFlush => Sys2Proof.Machine.execWinFlush s

end Sys2Proof.Machine
end

