-- ==== Sys2Proof/Machine/HostPort.lean ====
section
/-! DEFINITION. The host port: registers and memory windows, reads, writes and their faults (10_state.md R37, R38;
20_memory.md R63 to R68; 60_exceptions.md R286; 70_reset_and_hazards.md R305), and the host's program (44_control.md R254). -/

namespace Sys2Proof.Machine

/-- A host register (10_state.md R37). -/
inductive Reg where
  | id | version | status | faultInfo | ctrl | cmd | arg0 | arg1 | arg2 | arg3 | resLo | resHi
  | brBase | brLen | brRem | frBase | frLen | frPos | frUnw
  | state (k : Fin 4) | slotInfo (t : Fin 8)
  | hufInfo | hufNw | winCap | winFlags | winPos | wtotalLo | wtotalHi | wflushedLo | wflushedHi
  deriving DecidableEq, Repr

/-- The register map of R37, as (address, register) pairs. -/
def registerMap : List (Nat × Reg) :=
  [(0x0000, .id), (0x0004, .version), (0x0008, .status), (0x000C, .faultInfo), (0x0010, .ctrl), (0x0014, .cmd),
   (0x0018, .arg0), (0x001C, .arg1), (0x0020, .arg2), (0x0024, .arg3), (0x0028, .resLo), (0x002C, .resHi),
   (0x0030, .brBase), (0x0034, .brLen), (0x0038, .brRem),
   (0x0040, .frBase), (0x0044, .frLen), (0x0048, .frPos), (0x004C, .frUnw),
   (0x0050, .state 0), (0x0054, .state 1), (0x0058, .state 2), (0x005C, .state 3)] ++
  [(0x0060, .slotInfo 0), (0x0064, .slotInfo 1), (0x0068, .slotInfo 2), (0x006C, .slotInfo 3),
   (0x0070, .slotInfo 4), (0x0074, .slotInfo 5), (0x0078, .slotInfo 6), (0x007C, .slotInfo 7),
   (0x0080, .hufInfo), (0x0084, .hufNw), (0x0090, .winCap), (0x0094, .winFlags), (0x0098, .winPos),
   (0x00A0, .wtotalLo), (0x00A4, .wtotalHi), (0x00A8, .wflushedLo), (0x00AC, .wflushedHi)]

/-- What a host address names (20_memory.md R63). -/
inductive Target where
  | reg (r : Reg)
  | ibuf (a : Nat) | lbuf (a : Nat) | wbuf (a : Nat)
  | ncount (t : Fin 8) (i : Nat) | dt (t : Fin 8) (u : Nat) | w (i : Nat) | ht (u : Nat)
  | unmapped
  deriving DecidableEq, Repr

/-- The host memory map (R63), for a window of `winCapMax` bytes. The low two bits of an entry's address are for the
alignment check of R67. -/
def targetAt (winCapMax a : Nat) : Target :=
  if a < 0x100 then
    match registerMap.lookup a with
    | some r => .reg r
    | none => .unmapped
  else if 0x00100000 ≤ a ∧ a < 0x00100000 + Config.ibufBytes then .ibuf (a - 0x00100000)
  else if 0x00120000 ≤ a ∧ a < 0x00120000 + Config.lbufBytes then .lbuf (a - 0x00120000)
  else if 0x00140000 ≤ a ∧ a < 0x00140000 + 0x400 * 8 then
    .ncount (Fin.ofNat 8 ((a - 0x00140000) / 0x400)) ((a - 0x00140000) % 0x400 / 4)
  else if 0x00150000 ≤ a ∧ a < 0x00150000 + 0x800 * 8 then
    .dt (Fin.ofNat 8 ((a - 0x00150000) / 0x800)) ((a - 0x00150000) % 0x800 / 4)
  else if 0x00160000 ≤ a ∧ a < 0x00160000 + 4 * Config.wEntries then .w ((a - 0x00160000) / 4)
  else if 0x00161000 ≤ a ∧ a < 0x00161000 + 4 * Config.htEntries then .ht ((a - 0x00161000) / 4)
  else if 0x01000000 ≤ a ∧ a < 0x01000000 + winCapMax then .wbuf (a - 0x01000000)
  else .unmapped

/-- An access that R67 allows: mapped, of a legal width, aligned. A 32-bit access of the window needs all four of its
bytes (log 12). -/
def accessLegal (s : State) (addr : Word) (width : Width) : Bool :=
  let a := addr.toNat
  match width, targetAt s.winCapMax a with
  | _, .unmapped => false
  | .w8, .ibuf _ => true
  | .w8, .lbuf _ => true
  | .w8, .wbuf _ => true
  | .w8, _ => false
  | .w32, .wbuf i => decide (a % 4 = 0) && decide (i + 3 < s.winCapMax)
  | .w32, _ => decide (a % 4 = 0)

/-- The accesses allowed while `BUSY` = 1: a `STATUS` read and a `CTRL` write (70_reset_and_hazards.md R305). -/
def allowedWhileBusy : HostAccess → Bool
  | .read addr .w32 => addr == 0x0008#32
  | .write addr .w32 _ => addr == 0x0010#32
  | _ => false

/-- The host byte address of an access. -/
def HostAccess.addr : HostAccess → Word
  | .read a _ => a
  | .write a _ _ => a

/-- The width of an access. -/
def HostAccess.width : HostAccess → Width
  | .read _ w => w
  | .write _ w _ => w

/-- An access that raises `HOST_ACCESS` (60_exceptions.md R286). -/
def accessFaults (s : State) (a : HostAccess) : Bool :=
  !accessLegal s a.addr a.width || (s.busy && !allowedWhileBusy a)

/-- The value of a register to the host (10_state.md R37); a write-only register reads 0. -/
def Reg.read (s : State) : Reg → Word
  | .id => 0x535A4457
  | .version => 0x00000007
  | .status => s.statusWord
  | .faultInfo => s.faultInfo
  | .ctrl => 0
  | .cmd => 0
  | .arg0 => s.arg0
  | .arg1 => s.arg1
  | .arg2 => s.arg2
  | .arg3 => s.arg3
  | .resLo => s.res.extractLsb' 0 32
  | .resHi => s.res.extractLsb' 32 32
  | .brBase => s.br.base
  | .brLen => s.br.len
  | .brRem => s.br.rem
  | .frBase => s.fr.base
  | .frLen => s.fr.len
  | .frPos => s.fr.pos
  | .frUnw => s.fr.unwWord
  | .state k => (s.fse k).word
  | .slotInfo t => (s.slot t).infoWord
  | .hufInfo => s.hufInfoWord
  | .hufNw => s.hufNw.setWidth 32
  | .winCap => s.winCap
  | .winFlags => s.winFlagsWord
  | .winPos => BitVec.ofNat 32 s.wpos
  | .wtotalLo => s.wtotal.extractLsb' 0 32
  | .wtotalHi => s.wtotal.extractLsb' 32 32
  | .wflushedLo => s.wflushed.extractLsb' 0 32
  | .wflushedHi => s.wflushed.extractLsb' 32 32

/-- A write of `CMD` while `BUSY` = 0 (10_state.md R25). -/
def writeCmd (v : Word) (s : State) : State :=
  if s.fault then s else { s with pending := some v, busy := true }

/-- The effect of a 32-bit host write to a register (R37); a read-only register ignores it. -/
def Reg.write (v : Word) (s : State) : Reg → State
  | .ctrl => if v.getLsbD 0 then softReset s else s
  | .cmd => writeCmd v s
  | .arg0 => { s with arg0 := v }
  | .arg1 => { s with arg1 := v }
  | .arg2 => { s with arg2 := v }
  | .arg3 => { s with arg3 := v }
  | .hufNw => { s with hufNw := v.extractLsb' 0 8, hufValid := false }
  | .id | .version | .status | .faultInfo | .resLo | .resHi | .brBase | .brLen | .brRem | .frBase | .frLen
  | .frPos | .frUnw | .state _ | .slotInfo _ | .hufInfo | .winCap | .winFlags | .winPos | .wtotalLo | .wtotalHi
  | .wflushedLo | .wflushedHi => s

/-- A read of a byte memory, of the access's width, little-endian (20_memory.md R65). -/
def readBytes (m : Memory Byte) (a : Nat) (width : Width) (draws : Nat) : Word × Nat :=
  match width with
  | .w8 =>
    let (b, draws) := m.readByte a draws
    (b.setWidth 32, draws)
  | .w32 =>
    let (b0, draws) := m.readByte a draws
    let (b1, draws) := m.readByte (a + 1) draws
    let (b2, draws) := m.readByte (a + 2) draws
    let (b3, draws) := m.readByte (a + 3) draws
    (wordOfBytes b0 b1 b2 b3, draws)

/-- A write of a byte memory, of the access's width, little-endian (20_memory.md R65). -/
def writeBytes (m : Memory Byte) (a : Nat) (width : Width) (v : Word) : Memory Byte :=
  match width with
  | .w8 => m.put a (v.extractLsb' 0 8)
  | .w32 => m.putList a (bytesOfWord v)

/-- The value a legal read returns (R63, R66), and the draws so far. -/
def targetRead (width : Width) (s : State) : Target → Word × Nat
  | .reg r => (r.read s, s.draws)
  | .ibuf a => readBytes s.ibuf a width s.draws
  | .lbuf a => readBytes s.lbuf a width s.draws
  | .wbuf a => readBytes s.wbuf a width s.draws
  | .ncount t i =>
    let (c, draws) := (s.slot t).ncount.readCount i s.draws
    (c.signExtend 32, draws)
  | .dt t u =>
    let (e, draws) := (s.slot t).dt.readDt u s.draws
    (e.word, draws)
  | .w i =>
    let (c, draws) := s.w.readWeight i s.draws
    (c.setWidth 32, draws)
  | .ht u =>
    let (e, draws) := s.ht.readHt u s.draws
    (e.word, draws)
  | .unmapped => (0, s.draws)

/-- The effect of a legal write (R63, R66); a read-only entry ignores it. -/
def targetWrite (width : Width) (v : Word) (s : State) : Target → State
  | .reg r => r.write v s
  | .ibuf a => { s with ibuf := writeBytes s.ibuf a width v }
  | .lbuf a => { s with lbuf := writeBytes s.lbuf a width v }
  | .w i => { s with w := s.w.put i (v.extractLsb' 0 4), hufValid := false }
  | .wbuf _ | .ncount _ _ | .dt _ _ | .ht _ | .unmapped => s

/-- `MemRead(addr, n)` (R66, R67): the value returned, and the state after it. -/
def memRead (addr : Word) (width : Width) (s : State) : Word × State :=
  if accessFaults s (.read addr width) then (0, faultEntry .hostAccess addr s)
  else
    let (v, draws) := targetRead width s (targetAt s.winCapMax addr.toNat)
    (v, { s with draws := draws })

/-- `MemWrite(addr, n, v)` (R66, R67). -/
def memWrite (addr : Word) (width : Width) (v : Word) (s : State) : State :=
  if accessFaults s (.write addr width v) then faultEntry .hostAccess addr s
  else targetWrite width v s (targetAt s.winCapMax addr.toNat)

/-- One host access; what a read returns is noted for the host (log 17). -/
def hostAccess (a : HostAccess) (s : State) : State :=
  match a with
  | .read addr width =>
    let (v, s) := memRead addr width s
    { s with hostReads := s.hostReads ++ [v] }
  | .write addr width v => memWrite addr width v s

/-! ### The host's program (30_encoding.md R96, R97; 44_control.md R254) -/

/-- One item of a program: the `ARGn` writes, then the `CMD` word, legal or not (R254). -/
structure Item where
  args : List (Fin 4 × Word)
  cmd : Word
  deriving DecidableEq, Repr

/-- A host write of `ARGn`. -/
def argWrite (a : Fin 4 × Word) : Event := .host (.write (BitVec.ofNat 32 (0x18 + 4 * a.1.val)) .w32 a.2)

/-- The issue protocol of 30_encoding.md R97: wait for `BUSY` = 0, write the `ARGn`, write `CMD`. -/
def Item.events (i : Item) : List Event := .poll :: i.args.map argWrite ++ [.host (.write 0x0014 .w32 i.cmd)]

/-- A program: its items in order, then a last wait, whose `STATUS` reads show the host the end of the last item and any
fault (R254). -/
def programEvents (p : List Item) : List Event := p.flatMap Item.events ++ [.poll]

/-- The item that issues the command `i` (30_encoding.md R95). -/
def Item.of (args : List (Fin 4 × Word)) (i : Instr) : Item := ⟨args, encode i⟩

/-- The pseudo-command `BBR.OPEN base, len` (R96). -/
def bbrOpen (base len : Word) : List Item := [.of [(0, base), (1, len)] .bbrInit, .of [] .bbrSkippad]
/-- The pseudo-command `FSE.DECODE sk` (R96). -/
def fseDecode (k : Fin 4) : List Item := [.of [] (.fsePeek k), .of [] (.fseNext k)]
/-- The pseudo-command `WIN.MATCH dist, len` (R96). -/
def winMatch (dist len : Word) : List Item := [.of [(0, dist), (1, len)] .winRepgen]
/-- The pseudo-command `FSE.LOAD t, maxal, maxsym` (R96). -/
def fseLoad (t : Fin 8) (maxAl : BitVec 4) (maxSym : BitVec 8) : List Item :=
  [.of [] (.fseReadnc t maxAl maxSym), .of [] (.fseBuild t)]

end Sys2Proof.Machine
end

