-- ==== Sys2Proof/Machine/Execute.lean ====
section
/-! DEFINITION. The block's step `Execute` (44_control.md R251, R252), with the wait on the sink (20_memory.md R71). -/

namespace Sys2Proof.Machine

/-- `Execute` is enabled (R251). -/
def State.enabled (s : State) : Bool := s.pending.isSome && !s.fault

/-- `Execute` on the pending word `w` (R251): the dispatch checks, then the command. -/
def execute (w : Word) (s : State) : Host.Outcome State Fault Refusal :=
  match decode w with
  | .ok i => exec i s
  | .error _ => .next (faultEntry .illegalCmd w s)

/-- The step waits where it gives the sink a byte and the sink is not accepting: it has then not happened yet (R252). -/
def State.waits (s t : State) : Bool := !s.sinkReady && decide (t.out.length ≠ s.out.length)

/-- The block's turn: its step where one is enabled and need not wait, else nothing (log 4, 5). -/
def blockTurn (s : State) : Host.Outcome State Fault Refusal :=
  match s.pending with
  | none => .next s
  | some w =>
    if s.fault then .next s
    else
      match execute w s with
      | .next t => if s.waits t then .next s else .next t
      | o => o

/-- Where no other agent will move the block runs; where it waits then, it waits for ever (93_implementation_defined.md
U10). -/
def lastTurn (s : State) : Host.Outcome State Fault Refusal :=
  match s.pending with
  | none => .next s
  | some w =>
    if s.fault then .next s
    else
      match execute w s with
      | .next t => if s.waits t then .fault .sinkNeverAccepts else .next t
      | o => o

/-- Whether the event is the host's. -/
def Event.isHost : Event → Bool
  | .host _ | .poll => true
  | .block | .sink _ => false

/-- The first event that is not the host's, and the list without it. -/
def nextOther : List Event → Option (Event × List Event)
  | [] => none
  | e :: es =>
    if e.isHost then
      match nextOther es with
      | some (o, rest) => some (o, e :: rest)
      | none => none
    else some (e, es)

/-- One poll of `STATUS` (44_control.md R254; log 21). The host goes on where `BUSY` = 0. Where `BUSY` = 1 it will poll
again, and until then another agent moves: the next one of the schedule, or the block where none is left. -/
def pollTurn (s : State) : Host.Outcome State Fault Refusal :=
  let t := hostAccess (.read 0x0008 .w32) s
  if s.busy then
    match nextOther s.schedule with
    | some (e, rest) => .next { t with schedule := e :: .poll :: rest }
    | none => lastTurn { t with schedule := .poll :: s.schedule }
  else .next t

/-- One event of the total order (20_memory.md R72). -/
def takeEvent (e : Event) (s : State) : Host.Outcome State Fault Refusal :=
  match e with
  | .block => blockTurn s
  | .host a => .next (hostAccess a s)
  | .poll => pollTurn s
  | .sink ready => .next { s with sinkReady := ready }

/-- The word issued to the block, and the block's turn next: the next step runs it. What stands in the way of its running
at once (a held fault, a sink that does not accept) is taken away (log 6). -/
def State.issue (s : State) (w : Word) : State :=
  { s with
    pending := some w, busy := true, fault := false, prog := false, code := 0, faultInfo := 0
    sinkReady := true, schedule := .block :: s.schedule }

end Sys2Proof.Machine
end

