-- ==== Sys2Proof/Machine/Step.lean ====
section
/-! DEFINITION. One step of the machine: the next event of the schedule, or the block's own turn where none is left. -/

namespace Sys2Proof.Machine

/-- One step (20_memory.md R72; 44_control.md R251; log 4). -/
def step (s : State) : Host.Outcome State Fault Refusal :=
  match s.schedule with
  | [] => lastTurn s
  | e :: rest => takeEvent e { s with schedule := rest }

/-- The state in which the next step runs the command word `w` (log 6). The block fetches nothing (10_state.md R21): the
word stands in `PENDING`, as a host write of `CMD` leaves it. -/
def State.withFetchWord (s : State) (_nbits w : Nat) : State := s.issue (BitVec.ofNat 32 w)

end Sys2Proof.Machine
end

