-- ==== Sys2Proof/Safety.lean ====
section
/-! DEFINITION. The terms claims are stated in: a well-formed state (10_state.md R39), the state a fault leaves, byte strings
and the integers they spell (00_scope.md R8), writers of bit streams (40_bitreaders.md R124), tables, and the history of
the window (43_window.md R231). -/

namespace Sys2Proof.Machine

/-! ### The end of a command -/

/-- `s` after a command that wrote nothing more ended normally (44_control.md R251). -/
def State.ended (s : State) : State := { s with pending := none, busy := false }

/-- `s` with a fault newly taken (60_exceptions.md R270): its code, its class and its info, and no command pending. -/
def State.faulted (s : State) (code : BitVec 8) (prog : Bool) (info : Word) : State :=
  { s with fault := true, code := code, prog := prog, faultInfo := info, pending := none, busy := false }

/-- The codes of class P of 60_exceptions.md R271. -/
def programmingCodes : List (BitVec 8) := [0x01, 0x02, 0x04, 0x09, 0x10, 0x11, 0x13, 0x14, 0x15, 0x16]

/-- The codes of class D of 60_exceptions.md R271. -/
def corruptionCodes : List (BitVec 8) := [0x03, 0x05, 0x06, 0x07, 0x08, 0x0A, 0x0B, 0x0C, 0x0D, 0x0E, 0x0F, 0x12]

/-- The host addresses that 10_state.md R37 and 20_memory.md R63 list nothing for (R67). -/
def Unmapped (winCapMax a : Nat) : Prop :=
  a ∈ [0x3C, 0x3D, 0x3E, 0x3F, 0x88, 0x89, 0x8A, 0x8B, 0x8C, 0x8D, 0x8E, 0x8F, 0x9C, 0x9D, 0x9E, 0x9F] ∨
  (0xB0 ≤ a ∧ a < 0x100000) ∨ (0x142000 ≤ a ∧ a < 0x150000) ∨ (0x154000 ≤ a ∧ a < 0x160000) ∨
  (0x160400 ≤ a ∧ a < 0x161000) ∨ (0x163000 ≤ a ∧ a < 0x1000000) ∨ 0x1000000 + winCapMax ≤ a

/-- The host addresses of IBUF, LBUF and WBUF, where alone an 8-bit access is allowed (20_memory.md R63, R64). -/
def ByteAddress (winCapMax a : Nat) : Prop :=
  (0x100000 ≤ a ∧ a < 0x140000) ∨ (0x1000000 ≤ a ∧ a < 0x1000000 + winCapMax)

/-- The host addresses and widths of the read-only registers and memory entries (10_state.md R37; 20_memory.md R63, R64). -/
def ReadOnlyAddress (winCapMax : Nat) (width : Width) (a : Nat) : Prop :=
  (width = .w32 ∧
    (a ∈ [0x00, 0x04, 0x08, 0x0C, 0x28, 0x2C, 0x30, 0x34, 0x38, 0x40, 0x44, 0x48, 0x4C, 0x50, 0x54, 0x58, 0x5C, 0x60,
        0x64, 0x68, 0x6C, 0x70, 0x74, 0x78, 0x7C, 0x80, 0x90, 0x94, 0x98, 0xA0, 0xA4, 0xA8, 0xAC] ∨
      a % 4 = 0 ∧ ((0x140000 ≤ a ∧ a < 0x142000) ∨ (0x150000 ≤ a ∧ a < 0x154000) ∨ (0x161000 ≤ a ∧ a < 0x163000) ∨
        (0x1000000 ≤ a ∧ a + 3 < 0x1000000 + winCapMax)))) ∨
  (width = .w8 ∧ 0x1000000 ≤ a ∧ a < 0x1000000 + winCapMax)

/-! ### What the host sees (10_state.md R37; 20_memory.md R63) -/

/-- The registers as the host sees them, as (address, value) pairs (R37): each value is the sum of its fields at their
bits. -/
def State.registerView (s : State) : List (Nat × Nat) :=
  [(0x00, 0x535A4457), (0x04, 7),
   (0x08, s.busy.toNat + 2 * s.fault.toNat + 4 * s.prog.toNat + 2 ^ 8 * s.code.toNat),
   (0x0C, s.faultInfo.toNat), (0x10, 0), (0x14, 0),
   (0x18, s.arg0.toNat), (0x1C, s.arg1.toNat), (0x20, s.arg2.toNat), (0x24, s.arg3.toNat),
   (0x28, s.res.toNat % 2 ^ 32), (0x2C, s.res.toNat / 2 ^ 32),
   (0x30, s.br.base.toNat), (0x34, s.br.len.toNat), (0x38, s.br.rem.toNat),
   (0x40, s.fr.base.toNat), (0x44, s.fr.len.toNat), (0x48, s.fr.pos.toNat), (0x4C, s.fr.unw.toNat)] ++
  ((List.finRange 4).map fun k =>
    (0x50 + 4 * k.val, (s.fse k).state.toNat + 2 ^ 16 * (s.fse k).bind.val + 2 ^ 31 * (s.fse k).bound.toNat)) ++
  ((List.finRange 8).map fun τ =>
    (0x60 + 4 * τ.val, (s.slot τ).al.toNat + 2 ^ 8 * (s.slot τ).nsym.toNat + 2 ^ 30 * (s.slot τ).ncValid.toNat +
      2 ^ 31 * (s.slot τ).valid.toNat)) ++
  [(0x80, s.hufMaxbits.toNat + 2 ^ 8 * s.hufNsym.toNat + 2 ^ 31 * s.hufValid.toNat), (0x84, s.hufNw.toNat),
   (0x90, s.winCap.toNat),
   (0x94, s.wconf.toNat + 2 * (if s.wconf = true ∧ s.winCap.toNat ≤ s.wtotal.toNat then 1 else 0)),
   (0x98, if s.wconf = true then s.wtotal.toNat % s.winCap.toNat else 0),
   (0xA0, s.wtotal.toNat % 2 ^ 32), (0xA4, s.wtotal.toNat / 2 ^ 32),
   (0xA8, s.wflushed.toNat % 2 ^ 32), (0xAC, s.wflushed.toNat / 2 ^ 32)]

/-! ### Byte strings (00_scope.md R8) -/

/-- The memory holds the bytes `bs` from index `base` upward, each of them written. -/
def Memory.holds (m : Memory Byte) (base : Nat) (bs : List Byte) : Prop :=
  ∀ j, ∀ h : j < bs.length, m.get? (base + j) = some bs[j]

/-- The little-endian integer of a byte string: `X = Σ_j M[base+j] · 2^(8j)` (R8). -/
def leInt : List Byte → Nat
  | [] => 0
  | b :: bs => b.toNat + 256 * leInt bs

/-- A host read of the width at the address shows the value (R37, R63 to R66): a register, a memory entry that has been
written, or the little-endian integer of bytes that have been. -/
inductive State.Shows (s : State) : Width → (addr value : Nat) → Prop where
  | reg {a v : Nat} : (a, v) ∈ s.registerView → s.Shows .w32 a v
  | ibuf8 {a : Nat} {b : Byte} : a < 131072 → s.ibuf.get? a = some b → s.Shows .w8 (0x100000 + a) b.toNat
  | ibuf32 {a : Nat} {bs : List Byte} : a % 4 = 0 → a + 3 < 131072 → bs.length = 4 → s.ibuf.holds a bs →
      s.Shows .w32 (0x100000 + a) (leInt bs)
  | lbuf8 {a : Nat} {b : Byte} : a < 131072 → s.lbuf.get? a = some b → s.Shows .w8 (0x120000 + a) b.toNat
  | lbuf32 {a : Nat} {bs : List Byte} : a % 4 = 0 → a + 3 < 131072 → bs.length = 4 → s.lbuf.holds a bs →
      s.Shows .w32 (0x120000 + a) (leInt bs)
  | wbuf8 {a : Nat} {b : Byte} : a < s.winCapMax → s.wbuf.get? a = some b → s.Shows .w8 (0x1000000 + a) b.toNat
  | wbuf32 {a : Nat} {bs : List Byte} : a % 4 = 0 → a + 3 < s.winCapMax → bs.length = 4 → s.wbuf.holds a bs →
      s.Shows .w32 (0x1000000 + a) (leInt bs)
  /-- A count is sign-extended: 2^32 is added to a negative one. -/
  | ncount {τ : Fin 8} {i : Nat} {c : BitVec 16} : i < 256 → (s.slot τ).ncount.get? i = some c →
      s.Shows .w32 (0x140000 + 0x400 * τ.val + 4 * i) (if c.toInt < 0 then 2 ^ 32 + c.toInt else c.toInt).toNat
  | dt {τ : Fin 8} {u : Nat} {e : DtEntry} : u < 512 → (s.slot τ).dt.get? u = some e →
      s.Shows .w32 (0x150000 + 0x800 * τ.val + 4 * u)
        (e.symbol.toNat + 2 ^ 8 * e.nbBits.toNat + 2 ^ 16 * e.baseline.toNat)
  | w {i : Nat} {c : BitVec 4} : i < 256 → s.w.get? i = some c → s.Shows .w32 (0x160000 + 4 * i) c.toNat
  | ht {u : Nat} {e : HtEntry} : u < 2048 → s.ht.get? u = some e →
      s.Shows .w32 (0x161000 + 4 * u) (e.symbol.toNat + 2 ^ 8 * e.nbBits.toNat)

/-- `X[rem−1 : rem−n]`, with the bits below position 0 taken as 0 (40_bitreaders.md R114). A `rem` of 0 or less gives 0. -/
def bitsBelow (x : Nat) (rem : Int) (n : Nat) : Nat := x * 2 ^ n / 2 ^ rem.toNat % 2 ^ n

/-- `X[pos+n−1 : pos]` (R120). -/
def bitsFrom (x pos n : Nat) : Nat := x / 2 ^ pos % 2 ^ n

/-- The bits of an `n`-bit value, the least significant first. -/
def bitsOf (n v : Nat) : List Bool := (List.range n).map fun i => v.testBit i

/-- The integer of a list of bits, the least significant first. -/
def natOfBits : List Bool → Nat
  | [] => 0
  | b :: bits => b.toNat + 2 * natOfBits bits

/-- Bits packed into bytes at increasing positions, the last byte filled with zeros (R124). -/
def packBits (bits : List Bool) : List Byte :=
  (List.range (ceilDiv bits.length 8)).map fun j => BitVec.ofNat 8 (natOfBits ((bits.drop (8 * j)).take 8))

/-- The bits a forward writer appends for the values `vs`, each as `(n, v)`, in that order (R124). -/
def forwardBits (vs : List (Nat × Nat)) : List Bool := vs.flatMap fun p => bitsOf p.1 p.2

/-- The bits of a backward stream that returns the values `vs` in that order: a forward writer fed them in reverse, then
the padding marker (R124). -/
def backwardBits (vs : List (Nat × Nat)) : List Bool := forwardBits vs.reverse ++ [true]

/-- Commands `read n` issued one after another return the values listed and do not fault; `fin` holds at the end. -/
def ReturnsInOrder (read : BitVec 16 → Instr) (fin : State → Prop) : List (Nat × Nat) → State → Prop
  | [], s => fin s
  | (n, v) :: vs, s =>
    ∃ t, exec (read (BitVec.ofNat 16 n)) s = .next t ∧ t.fault = false ∧ t.res.toNat = v ∧ ReturnsInOrder read fin vs t

/-! ### FSE tables -/

/-- The counts of a slot's described symbols, for a slot whose `NCOUNT` is written. -/
def Slot.counts (t : Slot) : List Int :=
  (List.range t.nsym.toNat).map fun i => ((t.ncount.get? i).getD 0).toInt

/-- A distribution: every count is at least −1, and the counts, each −1 counted as 1, sum to `2^al` (00_scope.md R13). -/
def IsDistribution (al : Nat) (counts : List Int) : Prop :=
  (∀ c ∈ counts, -1 ≤ c) ∧ (counts.map Int.natAbs).sum = 2 ^ al

/-- The bits of one probability field (41_fse.md R143), for `T`, `R`, `nbBits` and a count `c = proba + 1`: with
`M = 2·T − 1 − R`, a count below `M` takes `nbBits − 1` bits, any other `nbBits` bits, a count from `T` up raised by
`M`. -/
def fieldBits (threshold remaining nbBits c : Nat) : List Bool :=
  let m := 2 * threshold - 1 - remaining
  if c < m then bitsOf (nbBits - 1) c
  else if c < threshold then bitsOf nbBits c
  else bitsOf nbBits (c + m)

/-- The 2-bit fields of a run of `z` further symbols of probability 0 (R141): threes, then the rest. -/
def runBits (z : Nat) : List Bool := (List.replicate (z / 3) [true, true]).flatten ++ bitsOf 2 (z % 3)

/-- The width of a field after `remaining` has changed: `nbBits` and `threshold` of R141 are the power of two with
`threshold ≤ remaining < 2·threshold`, and its width. -/
def fieldWidth (remaining : Nat) : Nat := hsb remaining + 1

/-- `bits` spells the counts `counts`, with `remaining` still to describe (R141, R143): every symbol has its field, a
symbol of probability 0 is followed by its run, and the description ends where `remaining` is 1. -/
inductive Describes : (remaining : Nat) → (counts : List Int) → (bits : List Bool) → Prop where
  | nil : Describes 1 [] []
  | nonzero {remaining : Nat} {p : Int} {counts : List Int} {bits : List Bool} :
      2 ≤ remaining → p ≠ 0 → -1 ≤ p → p.natAbs < remaining →
      Describes (remaining - p.natAbs) counts bits →
      Describes remaining (p :: counts)
        (fieldBits (2 ^ hsb remaining) remaining (fieldWidth remaining) (p + 1).toNat ++ bits)
  | zero {remaining z : Nat} {counts : List Int} {bits : List Bool} :
      2 ≤ remaining →
      Describes remaining counts bits →
      Describes remaining (0 :: (List.replicate z 0 ++ counts))
        (fieldBits (2 ^ hsb remaining) remaining (fieldWidth remaining) 1 ++ runBits z ++ bits)

/-- The two-state weight stream (41_fse.md R158) over the stream's integer `x`, with `rem` real bits left: `a` is the state
that emits next, `b` the other one, and `ws` the weights still to come. A transition that reads past the stream's start
ends it, with the other state's symbol. -/
inductive WeightStream (table : List DtEntry) (x : Nat) : (rem : Int) → (a b : Nat) → (ws : List Nat) → Prop where
  | last {rem : Int} {a b : Nat} :
      rem - (table.getD a ⟨0, 0, 0⟩).nbBits.toNat < 0 →
      WeightStream table x rem a b
        [(table.getD a ⟨0, 0, 0⟩).symbol.toNat, (table.getD b ⟨0, 0, 0⟩).symbol.toNat]
  | more {rem : Int} {a b : Nat} {ws : List Nat} :
      0 ≤ rem - (table.getD a ⟨0, 0, 0⟩).nbBits.toNat →
      WeightStream table x (rem - (table.getD a ⟨0, 0, 0⟩).nbBits.toNat) b
        ((table.getD a ⟨0, 0, 0⟩).baseline.toNat + bitsBelow x rem (table.getD a ⟨0, 0, 0⟩).nbBits.toNat) ws →
      WeightStream table x rem a b ((table.getD a ⟨0, 0, 0⟩).symbol.toNat :: ws)

/-- At least `n` more weights are emitted by the stream of `WeightStream`, which may be one that never ends. -/
inductive WeightsAtLeast (table : List DtEntry) (x : Nat) : (rem : Int) → (a b : Nat) → (n : Nat) → Prop where
  | zero {rem : Int} {a b : Nat} : WeightsAtLeast table x rem a b 0
  | last {rem : Int} {a b n : Nat} :
      rem - (table.getD a ⟨0, 0, 0⟩).nbBits.toNat < 0 → n ≤ 2 → WeightsAtLeast table x rem a b n
  | more {rem : Int} {a b n : Nat} :
      0 ≤ rem - (table.getD a ⟨0, 0, 0⟩).nbBits.toNat →
      WeightsAtLeast table x (rem - (table.getD a ⟨0, 0, 0⟩).nbBits.toNat) b
        ((table.getD a ⟨0, 0, 0⟩).baseline.toNat + bitsBelow x rem (table.getD a ⟨0, 0, 0⟩).nbBits.toNat) n →
      WeightsAtLeast table x rem a b (n + 1)

/-- The probability field at bit `pos` of the stream's integer `x` (R141, R143): the probability it holds, and the bits that
belong to it. -/
def fieldAt (x pos remaining : Nat) : Int × Nat :=
  let threshold := 2 ^ hsb remaining
  let max := 2 * threshold - 1 - remaining
  let v := bitsFrom x pos (fieldWidth remaining)
  if v % threshold < max then ((v % threshold : Nat) - 1, fieldWidth remaining - 1)
  else if threshold ≤ v then ((v : Int) - max - 1, fieldWidth remaining)
  else ((v : Int) - 1, fieldWidth remaining)

/-- The loop of R141 over the stream's integer `x`, of which `len` bits are available, ends in a fault. From the top of the
loop (`run` false) or inside a zero-probability run, with `remaining` to describe, `sym` symbols described, the reader at
bit `pos` and `unw` its bit to unwind, the fault has `code` and leaves the reader at `pos'` with `unw'`. -/
inductive ParserFaults (x len maxSym : Nat) : (run : Bool) → (remaining sym pos : Nat) → (unw : Bool) →
    (code : Byte) → (pos' : Nat) → (unw' : Bool) → Prop where
  | symbol {remaining sym pos : Nat} {unw : Bool} :
      2 ≤ remaining → maxSym < sym → ParserFaults x len maxSym false remaining sym pos unw 0x08 pos unw
  | fieldEnd {remaining sym pos : Nat} {unw : Bool} :
      2 ≤ remaining → sym ≤ maxSym → len < pos + fieldWidth remaining →
      ParserFaults x len maxSym false remaining sym pos unw 0x03 pos unw
  | field {remaining sym pos pos' : Nat} {unw unw' : Bool} {code : Byte} :
      2 ≤ remaining → sym ≤ maxSym → pos + fieldWidth remaining ≤ len →
      ParserFaults x len maxSym (decide ((fieldAt x pos remaining).1 = 0))
        (remaining - (fieldAt x pos remaining).1.natAbs) (sym + 1) (pos + (fieldAt x pos remaining).2)
        (decide ((fieldAt x pos remaining).2 = fieldWidth remaining)) code pos' unw' →
      ParserFaults x len maxSym false remaining sym pos unw code pos' unw'
  | runEnd {remaining sym pos : Nat} {unw : Bool} :
      len < pos + 2 → ParserFaults x len maxSym true remaining sym pos unw 0x03 pos unw
  | runSymbol {remaining sym pos : Nat} {unw : Bool} :
      pos + 2 ≤ len → maxSym < sym + bitsFrom x pos 2 →
      ParserFaults x len maxSym true remaining sym pos unw 0x08 (pos + 2) true
  | runField {remaining sym pos pos' : Nat} {unw unw' : Bool} {code : Byte} :
      pos + 2 ≤ len → sym + bitsFrom x pos 2 ≤ maxSym →
      ParserFaults x len maxSym (decide (bitsFrom x pos 2 = 3)) remaining (sym + bitsFrom x pos 2) (pos + 2) true
        code pos' unw' →
      ParserFaults x len maxSym true remaining sym pos unw code pos' unw'

/-- The bits the reader must have for a description (R143): the 4-bit field, the fields and runs, and, where the last count
is −1, the last possible bit of its field, which is read and given back. -/
def descriptionBits (counts : List Int) (bits : List Bool) : Nat :=
  4 + bits.length + (if counts.getLast? = some (-1) then 1 else 0)

/-- A slot holds a parsed distribution: all of `NCOUNT` is written, and it is a distribution of a legal accuracy log. -/
def Slot.countsOk (t : Slot) : Prop :=
  5 ≤ t.al.toNat ∧ t.al.toNat ≤ Config.fseMaxAl ∧ (∀ i < Config.ncountEntries, (t.ncount.get? i).isSome)
    ∧ IsDistribution t.al.toNat t.counts

/-- A slot holds a usable decode table: every state has an entry, and its transitions stay in the table (41_fse.md
R157). -/
def Slot.tableOk (t : Slot) : Prop :=
  ∀ u < 2 ^ t.al.toNat, ∃ e, t.dt.get? u = some e ∧ e.baseline.toNat + 2 ^ e.nbBits.toNat ≤ 2 ^ t.al.toNat

/-! ### Huffman tables -/

/-- `HT` holds a complete prefix table of `mb` bits (42_huffman.md R197): every index below `2^mb` has an entry with
`1 ≤ nbBits ≤ mb`, and the indexes that share its upper `nbBits` bits have the same entry. -/
def PrefixTable (ht : Memory HtEntry) (mb : Nat) : Prop :=
  ∀ u < 2 ^ mb, ∃ e, ht.get? u = some e ∧ 1 ≤ e.nbBits.toNat ∧ e.nbBits.toNat ≤ mb ∧
    ∀ v < 2 ^ mb, v >>> (mb - e.nbBits.toNat) = u >>> (mb - e.nbBits.toNat) → ht.get? v = some e

/-- `HT` serves every index of `mb` bits: it has an entry there, with `1 ≤ nbBits ≤ mb` (R197). -/
def TableServes (ht : Memory HtEntry) (mb : Nat) : Prop :=
  ∀ u < 2 ^ mb, ∃ e, ht.get? u = some e ∧ 1 ≤ e.nbBits.toNat ∧ e.nbBits.toNat ≤ mb

/-- The entries at a list of indexes, for a table that is written there. -/
def entriesAt (ht : Memory HtEntry) (us : List Nat) : List HtEntry := us.map fun u => (ht.get? u).getD ⟨0, 0⟩

/-- The codes of the entries at `us`, as `(length, value)` pairs: an index shifted right by `mb − nbBits` (R197). -/
def codesAt (ht : Memory HtEntry) (mb : Nat) (us : List Nat) : List (Nat × Nat) :=
  us.map fun u =>
    let nb := ((ht.get? u).getD ⟨0, 0⟩).nbBits.toNat
    (nb, u >>> (mb - nb))

/-- The decode steps of 42_huffman.md R199 and R201 over the stream's integer `x`, from `rem` real bits left and the index
`idx`: they give `syms` and leave `final` real bits. A step is taken only while `rem > −mb`. -/
inductive DecodeSteps (ht : Memory HtEntry) (mb x : Nat) : (rem : Int) → (idx : Nat) → (syms : List Byte) →
    (final : Int) → Prop where
  | nil {rem : Int} {idx : Nat} : DecodeSteps ht mb x rem idx [] rem
  | cons {rem final : Int} {idx : Nat} {e : HtEntry} {syms : List Byte} :
      -(mb : Int) < rem → ht.get? idx = some e →
      DecodeSteps ht mb x (rem - e.nbBits.toNat)
        ((idx * 2 ^ e.nbBits.toNat + bitsBelow x rem e.nbBits.toNat) % 2 ^ mb) syms final →
      DecodeSteps ht mb x rem idx (e.symbol :: syms) final

/-- The sum of the shares `2^(w−1)` of the weights that are not 0 (42_huffman.md R191, R196). -/
def shareSum (ws : List Nat) : Nat := (ws.map fun x => if x = 0 then 0 else 2 ^ (x - 1)).sum

/-! ### The window's history (43_window.md R231) -/

/-- `h` is the history: its length is `WTOTAL`, and its last `min(WTOTAL, C)` bytes are in `WBUF`, byte `i` in slot
`i mod C` (R231). -/
def State.hasHistory (s : State) (h : List Byte) : Prop :=
  h.length = s.wtotal.toNat ∧
    ∀ i, ∀ hi : i < h.length, s.wtotal.toNat ≤ i + s.winCap.toNat → s.wbuf.get? (i % s.winCap.toNat) = some h[i]

/-- The window is configured and its counters are as R232 keeps them. -/
def State.windowOk (s : State) : Prop :=
  s.wconf = true ∧ 1 ≤ s.winCap.toNat ∧ s.wflushed.toNat ≤ s.wtotal.toNat ∧
    s.wtotal.toNat - s.wflushed.toNat ≤ s.winCap.toNat

/-- `t` is `s` after the bytes `bs` have been appended to the history `h`: they are the end of the history, the bytes that
had to be evicted went to the sink in order, each once (R232, R241), the bytes of `WBUF` outside the slots
`(WTOTAL + j) mod C` of the appended bytes are as they were (R232; 93_implementation_defined.md U8), and nothing but the
window, the sink and the model's count of draws has changed. -/
def Appended (s : State) (h bs : List Byte) (t : State) : Prop :=
  t.hasHistory (h ++ bs) ∧
    (∀ a, (∀ j < bs.length, a ≠ (s.wtotal.toNat + j) % s.winCap.toNat) → t.wbuf.get? a = s.wbuf.get? a) ∧
    t.wflushed.toNat = max s.wflushed.toNat (s.wtotal.toNat + bs.length - s.winCap.toNat) ∧
    t.out = s.out ++ ((h ++ bs).drop s.wflushed.toNat).take (t.wflushed.toNat - s.wflushed.toNat) ∧
    t = { s.ended with wtotal := t.wtotal, wflushed := t.wflushed, wbuf := t.wbuf, out := t.out, draws := t.draws }

/-- `len` bytes of the period that the last `dist` bytes of `h` are (43_window.md R239). -/
def periodic (h : List Byte) (dist len : Nat) : List Byte :=
  (List.range len).map fun j => h.getD (h.length - dist + j % dist) 0

/-! ### Well-formed states -/

/-- What every reachable state satisfies (10_state.md R39), with what the proofs that every step keeps it need. -/
structure State.Wf (s : State) : Prop where
  /-- `1 ≤ WIN_CAP_MAX ≤ 2^32 − 2^24` (00_scope.md R7). -/
  winCapMax : 1 ≤ s.winCapMax ∧ s.winCapMax ≤ Config.winCapMaxBound
  /-- The memories are in canonical form and within their sizes (20_memory.md R61). -/
  ibuf : s.ibuf.wf Config.ibufBytes = true
  lbuf : s.lbuf.wf Config.lbufBytes = true
  wbuf : s.wbuf.wf s.winCapMax = true
  w : s.w.wf Config.wEntries = true
  ht : s.ht.wf Config.htEntries = true
  slotMem : ∀ t, (s.slot t).ncount.wf Config.ncountEntries = true ∧ (s.slot t).dt.wf Config.dtEntries = true
  /-- `BUSY` = 1 exactly when `PENDING` holds a word (R39). -/
  busy : s.busy = s.pending.isSome
  /-- A held fault leaves no command pending, and names a code and its class (60_exceptions.md R270, R271). -/
  held : s.fault = true → s.pending = none ∧
    (if s.prog then s.code ∈ programmingCodes else s.code ∈ corruptionCodes)
  /-- `PROG`, `CODE` and `FAULT_INFO` are 0 while `FAULT` = 0 (10_state.md R22). -/
  clear : s.fault = false → s.prog = false ∧ s.code = 0 ∧ s.faultInfo = 0
  /-- The backward reader's range is in IBUF, and `BR_REM ≤ 8·BR_LEN` (40_bitreaders.md R113). -/
  back : s.br.base.toNat + s.br.len.toNat ≤ Config.ibufBytes ∧ s.br.rem.toInt ≤ 8 * s.br.len.toNat
  /-- The forward reader's range is in IBUF, `FR_POS ≤ 8·FR_LEN` (R39), and a bit to unwind has been read. -/
  fwd : s.fr.base.toNat + s.fr.len.toNat ≤ Config.ibufBytes ∧ s.fr.pos.toNat ≤ 8 * s.fr.len.toNat ∧
    (s.fr.unw = true → 1 ≤ s.fr.pos.toNat)
  /-- Slot fields are in their ranges (10_state.md R31), and what is marked usable is. -/
  slots : ∀ t, (s.slot t).al.toNat ≤ Config.fseMaxAl ∧ (s.slot t).nsym.toNat ≤ 256 ∧
    ((s.slot t).ncValid = true → (s.slot t).countsOk) ∧ ((s.slot t).valid = true → (s.slot t).tableOk)
  /-- A bound state register names a usable table and a state of it (R39). -/
  bound : ∀ k, (s.fse k).bound = true →
    (s.slot (s.fse k).bind).valid = true ∧ (s.fse k).state.toNat < 2 ^ (s.slot (s.fse k).bind).al.toNat
  /-- `HUF_MAXBITS` and `HUF_NSYM` are in their ranges (R33), and a valid table serves every index (R197). -/
  huf : s.hufMaxbits.toNat ≤ Config.hufMaxBits ∧ s.hufNsym.toNat ≤ 256 ∧
    (s.hufValid = true → TableServes s.ht s.hufMaxbits.toNat)
  /-- The window's counters (R39), and what is resident has been written (43_window.md R231). -/
  window : s.wflushed.toNat ≤ s.wtotal.toNat ∧
    (s.wconf = true → 1 ≤ s.winCap.toNat ∧ s.winCap.toNat ≤ s.winCapMax ∧
      s.wtotal.toNat - s.wflushed.toNat ≤ s.winCap.toNat ∧
      ∀ i < s.wtotal.toNat, s.wtotal.toNat ≤ i + s.winCap.toNat → (s.wbuf.get? (i % s.winCap.toNat)).isSome)

end Sys2Proof.Machine
end

