-- ==== Sys2Proof/Certificates/Slice0/Obligations.lean ====
section
/-! DEFINITION. The statements for the provers. Each docstring says which rule of spec/ it formalises. `exec i s` is the
block's step on command `i` (44_control.md R251), so `s.fault = false` in a statement about a fault is R251's own
condition that a step is enabled. -/

open Sys2Proof Sys2Proof.Machine

/-! ### Encoding (30_encoding.md) -/

/-- R85, R87: decoding an encoded legal command gives it back, with every operand at every value. -/
def Obligations.DecodeInvertsEncode : Prop :=
  ∀ i : Instr, i.wellFormed = true → decode (encode i) = .ok i

/-- R85, R87: a word that decodes is the encoding of the command it decodes to, which is legal. -/
def Obligations.EncodeInvertsDecode : Prop :=
  ∀ (w : Word) (i : Instr), decode w = .ok i → encode i = w ∧ i.wellFormed = true

/-- R89, R92: a word is legal exactly when it matches a row of the opcode table and its immediate is in range, and the
row is that of the command decoded. -/
def Obligations.LegalWordsMatchTheTable : Prop :=
  ∀ w : Word,
    ((∃ i, decode w = .ok i) ↔
      (∃ r ∈ opcodeTable, w &&& r.mask = r.fixed) ∧
      (w.extractLsb' 24 8 = 0x03#8 ∨ w.extractLsb' 24 8 = 0x09#8 → (w.extractLsb' 0 16).toNat ≤ 64) ∧
      (w.extractLsb' 24 8 = 0x10#8 → (w.extractLsb' 8 4).toNat ≤ 9) ∧
      (w.extractLsb' 24 8 = 0x12#8 → (w.extractLsb' 0 16).toNat ≤ 2)) ∧
    ∀ i, decode w = .ok i → ∃ r ∈ opcodeTable, r.mnemonic = i.mnemonic ∧ w &&& r.mask = r.fixed

/-- R85, R87, R90 to R92: words written out from the encoding decode to the commands they stand for. A sanity check. -/
def Obligations.SampleWordsDecode : Prop :=
  decode 0x00000000#32 = .ok .nop ∧
  decode 0x03000040#32 = .ok (.bbrRead 64) ∧
  decode 0x0A000000#32 = .ok .fbrUnwind ∧
  decode 0x100209FF#32 = .ok (.fseReadnc 2 9 255) ∧
  decode 0x13020041#32 = .ok (.fseRle 2 0x41) ∧
  decode 0x14120000#32 = .ok (.fseInit 1 2) ∧
  decode 0x22000000#32 = .ok .hufDecode ∧
  decode 0x3300002D#32 = .ok (.winPushr 0x2D) ∧
  decode 0x04000000#32 = .error .reservedOpcode ∧
  decode 0x11080000#32 = .error .reservedBits ∧
  decode 0x03000041#32 = .error .immediateRange

/-! ### The step (44_control.md) -/

/-- R251: when the pending word decodes, the step is the command's own, whether the block's turn is scheduled or is all
that is left (that an empty schedule is the block's turn is the model's choice, log 4). -/
def Obligations.StepRunsThePendingCommand : Prop :=
  ∀ (s : State) (w : Word) (i : Instr) (rest : List Event),
    s.pending = some w → s.fault = false → s.sinkReady = true → decode w = .ok i →
    (s.schedule = .block :: rest → step s = exec i { s with schedule := rest }) ∧
    (s.schedule = [] → step s = exec i s)

/-- R251, R270, R90 to R92: a pending word that spells no legal command faults `ILLEGAL_CMD`, and nothing else changes. -/
def Obligations.IllegalWordFaults : Prop :=
  ∀ (s : State) (w : Word) (e : DecodeError) (rest : List Event),
    s.pending = some w → s.fault = false → decode w = .error e → s.schedule = .block :: rest →
    step s = .next (State.faulted { s with schedule := rest } 0x01 true w)

/-- R251, R276: with no pending word, or a held fault, the block's turn changes nothing (that a turn with no step enabled
is a step that changes nothing is the model's choice, log 4, 5). -/
def Obligations.NoStepUnlessEnabled : Prop :=
  ∀ (s : State) (rest : List Event),
    s.pending = none ∨ s.fault = true →
    (s.schedule = .block :: rest → step s = .next { s with schedule := rest }) ∧
    (s.schedule = [] → step s = .next s)

/-- 20_memory.md R71, R252: a step that gives the sink a byte waits while the sink does not accept; the command stays
pending and nothing of it has happened. Where nothing is scheduled any more, such a step never completes
(93_implementation_defined.md U10): the model stops by name. A step that gives the sink nothing does not wait. (The form
of the wait and of the stop is the model's choice, log 7.) -/
def Obligations.StepWaitsForTheSink : Prop :=
  ∀ (s t : State) (w : Word) (i : Instr) (rest : List Event),
    s.pending = some w → s.fault = false → s.sinkReady = false → decode w = .ok i →
    (s.schedule = .block :: rest → exec i { s with schedule := rest } = .next t →
      (t.out ≠ s.out → step s = .next { s with schedule := rest }) ∧ (t.out = s.out → step s = .next t)) ∧
    (s.schedule = [] → exec i s = .next t →
      (t.out ≠ s.out → step s = .fault .sinkNeverAccepts) ∧ (t.out = s.out → step s = .next t))

/-- R250: `NOP` does nothing but complete. -/
def Obligations.NopOnlyCompletes : Prop :=
  ∀ s : State, exec .nop s = .next s.ended

/-! ### Whole-machine rules -/

/-- 10_state.md R26 (commands never write `ARGn`) and 20_memory.md R61 (only the host writes IBUF): no command changes
them; nor the parameter `WIN_CAP_MAX`, the host's schedule and reads, and whether the sink accepts. -/
def Obligations.CommandsKeepOperandsAndInput : Prop :=
  ∀ (i : Instr) (s t : State), exec i s = .next t →
    t.arg0 = s.arg0 ∧ t.arg1 = s.arg1 ∧ t.arg2 = s.arg2 ∧ t.arg3 = s.arg3 ∧ t.ibuf = s.ibuf ∧
    t.winCapMax = s.winCapMax ∧ t.schedule = s.schedule ∧ t.sinkReady = s.sinkReady ∧ t.hostReads = s.hostReads

/-- 10_state.md R27: only six commands write `RES`, and a command that faults leaves it unchanged. -/
def Obligations.ResWrittenOnlyByResultCommands : Prop :=
  ∀ (i : Instr) (s t : State), exec i s = .next t →
    (i.mnemonic ∉ ["BBR.READ", "FBR.READ", "FSE.READNC", "FSE.PEEK", "HUF.READW", "HUF.DECODE"] → t.res = s.res) ∧
    (s.fault = false → t.fault = true → t.res = s.res)

/-- R251, R253, 60_exceptions.md R270, R271, R272: every command's step terminates in a next state (the five appending
commands where `WTOTAL` would pass `2^64 − 1` excepted, 43_window.md R230: that the model refuses there is its own choice,
log 10). It leaves nothing pending; it either completes, leaving the fault state, or records one fault with the command
word, under a code of its class. -/
def Obligations.CommandCompletesOrRecordsOneFault : Prop :=
  ∀ (i : Instr) (s : State),
    (¬ (i.mnemonic ∈ ["WIN.PUSHI", "WIN.PUSHL", "WIN.PUSHR", "WIN.REPEAT", "WIN.REPGEN"] ∧
        2 ^ 64 ≤ s.wtotal.toNat + s.arg1.toNat) → ∃ t, exec i s = .next t) ∧
    (∀ t : State, s.fault = false → exec i s = .next t →
      t.pending = none ∧ t.busy = false ∧
      ((t.fault = false ∧ t.prog = s.prog ∧ t.code = s.code ∧ t.faultInfo = s.faultInfo) ∨
       (t.fault = true ∧ t.faultInfo = encode i ∧
        ((t.prog = true ∧ t.code ∈ programmingCodes) ∨ (t.prog = false ∧ t.code ∈ corruptionCodes)))))

/-- 10_state.md R35, 60_exceptions.md R285: no step removes or changes a byte given to the sink. -/
def Obligations.SinkOnlyGrows : Prop :=
  ∀ s t : State, step s = .next t → ∃ bs, t.out = s.out ++ bs

/-- 60_exceptions.md R275, R276: a held fault stays as recorded, and no command becomes pending, over every step but a
write of `CTRL` with bit 0 set. -/
def Obligations.FaultHeldUntilReset : Prop :=
  ∀ s t : State, s.fault = true → s.pending = none → step s = .next t →
    (∀ (v : Word) (rest : List Event), s.schedule = .host (.write 0x10 .w32 v) :: rest → v.getLsbD 0 = false) →
    t.fault = true ∧ t.prog = s.prog ∧ t.code = s.code ∧ t.faultInfo = s.faultInfo ∧ t.pending = none

/-- 42_huffman.md R194: `HUF.READW` leaves the bit readers, the slots and the state registers unchanged. -/
def Obligations.HufReadwKeepsReadersAndSlots : Prop :=
  ∀ s t : State, exec .hufReadw s = .next t →
    t.br = s.br ∧ t.fr = s.fr ∧ t.slots = s.slots ∧ t.states = s.states

/-- The frame of the bit-reader and FSE families (40_bitreaders.md, 41_fse.md): they leave the Huffman unit, LBUF, the
window and the sink unchanged; the bit readers' commands leave the FSE unit too; no FSE command but `FSE.READNC` moves
the forward reader, and none but `FSE.INIT` and `FSE.NEXT` the backward one. -/
def Obligations.ReadersAndFseLeaveOtherUnits : Prop :=
  ∀ (i : Instr) (s t : State), exec i s = .next t →
    (i.mnemonic ∈ ["NOP", "BBR.INIT", "BBR.SKIPPAD", "BBR.READ", "FBR.INIT", "FBR.READ", "FBR.UNWIND", "FSE.READNC",
        "FSE.BUILD", "FSE.PREDEF", "FSE.RLE", "FSE.INIT", "FSE.PEEK", "FSE.NEXT"] →
      t.w = s.w ∧ t.hufNw = s.hufNw ∧ t.hufValid = s.hufValid ∧ t.hufMaxbits = s.hufMaxbits ∧ t.hufNsym = s.hufNsym ∧
      t.ht = s.ht ∧ t.lbuf = s.lbuf ∧ t.wconf = s.wconf ∧ t.winCap = s.winCap ∧ t.wtotal = s.wtotal ∧
      t.wflushed = s.wflushed ∧ t.wbuf = s.wbuf ∧ t.out = s.out) ∧
    (i.mnemonic ∈ ["NOP", "BBR.INIT", "BBR.SKIPPAD", "BBR.READ", "FBR.INIT", "FBR.READ", "FBR.UNWIND"] →
      t.slots = s.slots ∧ t.states = s.states) ∧
    (i.mnemonic ∈ ["NOP", "BBR.INIT", "BBR.SKIPPAD", "BBR.READ", "FSE.BUILD", "FSE.PREDEF", "FSE.RLE", "FSE.INIT",
        "FSE.PEEK", "FSE.NEXT"] → t.fr = s.fr) ∧
    (i.mnemonic ∈ ["NOP", "FBR.INIT", "FBR.READ", "FBR.UNWIND", "FSE.READNC", "FSE.BUILD", "FSE.PREDEF", "FSE.RLE",
        "FSE.PEEK"] → t.br = s.br) ∧
    (i.mnemonic ∈ ["FSE.INIT", "FSE.PEEK", "FSE.NEXT"] → t.slots = s.slots)

/-- The frame of the Huffman and window families (42_huffman.md, 43_window.md): a Huffman command leaves the forward
reader, the FSE unit, the window and the sink unchanged, and only `HUF.DECODE` writes LBUF; a window command leaves the
readers, the FSE unit, the Huffman unit and LBUF unchanged. -/
def Obligations.HuffmanAndWindowLeaveOtherUnits : Prop :=
  ∀ (i : Instr) (s t : State), exec i s = .next t →
    (i.mnemonic ∈ ["HUF.READW", "HUF.BUILD", "HUF.DECODE"] →
      t.fr = s.fr ∧ t.slots = s.slots ∧ t.states = s.states ∧ t.wconf = s.wconf ∧ t.winCap = s.winCap ∧
      t.wtotal = s.wtotal ∧ t.wflushed = s.wflushed ∧ t.wbuf = s.wbuf ∧ t.out = s.out) ∧
    (i.mnemonic ∈ ["HUF.READW", "HUF.BUILD"] → t.lbuf = s.lbuf ∧ t.br = s.br) ∧
    (i.mnemonic = "HUF.READW" → t.ht = s.ht ∧ t.hufMaxbits = s.hufMaxbits ∧ t.hufNsym = s.hufNsym) ∧
    (i.mnemonic = "HUF.DECODE" → t.w = s.w ∧ t.hufNw = s.hufNw ∧ t.ht = s.ht ∧ t.hufValid = s.hufValid ∧
      t.hufMaxbits = s.hufMaxbits ∧ t.hufNsym = s.hufNsym) ∧
    (i.mnemonic ∈ ["WIN.CONFIG", "WIN.PUSHI", "WIN.PUSHL", "WIN.PUSHR", "WIN.REPEAT", "WIN.REPGEN", "WIN.FLUSH"] →
      t.br = s.br ∧ t.fr = s.fr ∧ t.slots = s.slots ∧ t.states = s.states ∧ t.w = s.w ∧ t.hufNw = s.hufNw ∧
      t.hufValid = s.hufValid ∧ t.hufMaxbits = s.hufMaxbits ∧ t.hufNsym = s.hufNsym ∧ t.ht = s.ht ∧ t.lbuf = s.lbuf)

/-! ### Bit readers (40_bitreaders.md) -/

/-- R111, R118: `BBR.INIT` and `FBR.INIT` open their readers over a range of IBUF, and fault `RANGE` with no other change
where the range leaves it. -/
def Obligations.InitOpensItsReader : Prop :=
  ∀ s : State,
    (s.arg0.toNat + s.arg1.toNat ≤ 131072 →
      exec .bbrInit s = .next { s.ended with br := ⟨s.arg0, s.arg1, 8 * s.arg1⟩ } ∧
      exec .fbrInit s = .next { s.ended with fr := ⟨s.arg0, s.arg1, 0, false⟩ }) ∧
    (131072 < s.arg0.toNat + s.arg1.toNat → s.fault = false →
      exec .bbrInit s = .next (s.faulted 0x02 true 0x01000000) ∧
      exec .fbrInit s = .next (s.faulted 0x02 true 0x08000000))

/-- R112: `BBR.SKIPPAD` sets `BR_REM` to the number of bits below the highest set bit of the last byte; a last byte of 0, or
an empty stream, faults `BAD_PADDING` and changes nothing else. -/
def Obligations.SkippadCountsRealBits : Prop :=
  ∀ s : State,
    (∀ b : Byte, s.br.len ≠ 0 → s.ibuf.get? (s.br.base.toNat + s.br.len.toNat - 1) = some b →
      (∀ p : Nat, p < 8 → b.getLsbD p = true → (∀ q, p < q → q < 8 → b.getLsbD q = false) →
        exec .bbrSkippad s =
          .next { s.ended with br := { s.br with rem := BitVec.ofNat 32 (8 * (s.br.len.toNat - 1) + p) } }) ∧
      (b = 0 → s.fault = false → exec .bbrSkippad s = .next (s.faulted 0x05 false 0x02000000))) ∧
    (s.br.len = 0 → s.fault = false → exec .bbrSkippad s = .next (s.faulted 0x05 false 0x02000000))

/-- R114, R115: `BBR.READ N` returns `X[BR_REM−1 : BR_REM−N]` of the stream's little-endian integer, bits below position 0
taken as 0, and moves the cursor by N, also past the stream's start. Where a byte read was never written, the value is
only bounded (20_memory.md R62). -/
def Obligations.BbrReadReturnsTheBitsBelowTheCursor : Prop :=
  ∀ (s : State) (n : BitVec 16), n.toNat ≤ 64 → -2 ^ 31 ≤ s.br.rem.toInt - n.toNat →
    ∃ (v draws : Nat), v < 2 ^ n.toNat ∧
      exec (.bbrRead n) s = .next { s.ended with
        br := { s.br with rem := BitVec.ofInt 32 (s.br.rem.toInt - n.toNat) }
        res := BitVec.ofNat 64 v, draws := draws } ∧
      ∀ bs : List Byte, s.ibuf.holds s.br.base.toNat bs → s.br.rem.toInt ≤ 8 * bs.length →
        v = bitsBelow (leInt bs) s.br.rem.toInt n.toNat ∧ draws = s.draws

/-- R114, R115, R154, R156: a read that would take `BR_REM` below −2^31 faults `BR_RANGE` and changes nothing else, in
each command that reads the backward stream by itself. -/
def Obligations.BackwardCursorBoundFaults : Prop :=
  ∀ (s : State) (n : BitVec 16) (k : Fin 4) (τ : Fin 8) (e : DtEntry), s.fault = false →
    (n.toNat ≤ 64 → s.br.rem.toInt - n.toNat < -2 ^ 31 →
      exec (.bbrRead n) s = .next (s.faulted 0x14 true (0x03000000 ||| n.setWidth 32))) ∧
    ((s.slot τ).valid = true → s.br.rem.toInt - (s.slot τ).al.toNat < -2 ^ 31 →
      exec (.fseInit k τ) s = .next (s.faulted 0x14 true (encode (.fseInit k τ)))) ∧
    ((s.fse k).bound = true → (s.slot (s.fse k).bind).dt.get? (s.fse k).state.toNat = some e →
      s.br.rem.toInt - e.nbBits.toNat < -2 ^ 31 →
      exec (.fseNext k) s = .next (s.faulted 0x14 true (encode (.fseNext k))))

/-- R119, R120, R122: `FBR.READ N` returns `X[FR_POS+N−1 : FR_POS]`, advances `FR_POS` by N, and lets one bit be unwound
if it read any; with fewer than N bits left it faults `END_OF_INPUT` and changes nothing else. Where a byte read was never
written, the value is only bounded (20_memory.md R62). -/
def Obligations.FbrReadReturnsTheBitsAtTheCursor : Prop :=
  ∀ (s : State) (n : BitVec 16), n.toNat ≤ 64 →
    (s.fr.pos.toNat + n.toNat ≤ 8 * s.fr.len.toNat →
      ∃ (v draws : Nat), v < 2 ^ n.toNat ∧
        exec (.fbrRead n) s = .next { s.ended with
          fr := { s.fr with pos := s.fr.pos + n.setWidth 32, unw := s.fr.unw || n != 0 }
          res := BitVec.ofNat 64 v, draws := draws } ∧
        ∀ bs : List Byte, s.ibuf.holds s.fr.base.toNat bs → s.fr.pos.toNat + n.toNat ≤ 8 * bs.length →
          v = bitsFrom (leInt bs) s.fr.pos.toNat n.toNat ∧ draws = s.draws) ∧
    (8 * s.fr.len.toNat < s.fr.pos.toNat + n.toNat → s.fault = false →
      exec (.fbrRead n) s = .next (s.faulted 0x03 false (0x09000000 ||| n.setWidth 32)))

/-- R121, R123: `FBR.UNWIND` gives back one bit where one may be unwound, after which none may be; else it faults
`CANNOT_UNWIND`. Nothing else changes. -/
def Obligations.UnwindGivesBackOneBit : Prop :=
  ∀ s : State,
    (s.fr.unw = true →
      exec .fbrUnwind s = .next { s.ended with fr := { s.fr with pos := s.fr.pos - 1, unw := false } }) ∧
    (s.fr.unw = false → s.fault = false → exec .fbrUnwind s = .next (s.faulted 0x04 true 0x0A000000))

/-- R124: the inverse laws. Over the bytes of a reverse-order writer, `BBR.INIT`, `BBR.SKIPPAD` and reads of `n_1, …, n_m`
bits return `v_1, …, v_m`, ending with `BR_REM` = 0. Over the bytes of a forward writer, `FBR.INIT` and reads of
`n_1, …, n_m` bits return the values it wrote, in that order. -/
def Obligations.ReadersInvertWriters : Prop :=
  ∀ (s : State) (vs : List (Nat × Nat)),
    (∀ p ∈ vs, p.1 ≤ 64 ∧ p.2 < 2 ^ p.1) → s.arg0.toNat + s.arg1.toNat ≤ 131072 → s.fault = false →
    (s.arg1.toNat = (packBits (backwardBits vs)).length → s.ibuf.holds s.arg0.toNat (packBits (backwardBits vs)) →
      ∃ t u, exec .bbrInit s = .next t ∧ exec .bbrSkippad t = .next u ∧ u.fault = false ∧
        ReturnsInOrder .bbrRead (fun e => e.br.rem = 0) vs u) ∧
    (s.arg1.toNat = (packBits (forwardBits vs)).length → s.ibuf.holds s.arg0.toNat (packBits (forwardBits vs)) →
      ∃ t, exec .fbrInit s = .next t ∧ t.fault = false ∧
        ReturnsInOrder .fbrRead (fun e => e.fr.pos.toNat = (forwardBits vs).length) vs t)

/-! ### FSE (41_fse.md) -/

/-- R141, R143, R144: `FSE.READNC` reads a description. Where the forward reader stands at a byte boundary on a
description of `counts` (the 4-bit field, then the fields and runs, then zeros to a byte boundary) with at least one more
byte after it, the command completes: the slot holds the distribution, its table is no longer usable, states bound to it
are unbound, `RES` is the description's byte count, and the reader stands after it with nothing to unwind. -/
def Obligations.ReadncReadsADescription : Prop :=
  ∀ (s : State) (τ : Fin 8) (maxAl : BitVec 4) (maxSym : BitVec 8) (al : Nat) (counts : List Int) (bits : List Bool)
    (extra : List Byte),
    5 ≤ al → al ≤ maxAl.toNat → maxAl.toNat ≤ 9 → Describes (2 ^ al + 1) counts bits →
    counts.length ≤ maxSym.toNat + 1 → extra ≠ [] →
    s.fr.pos.toNat % 8 = 0 → 8 * s.fr.len.toNat < 2 ^ 32 →
    s.ibuf.holds (s.fr.base.toNat + s.fr.pos.toNat / 8) (packBits (bitsOf 4 (al - 5) ++ bits) ++ extra) →
    s.fr.pos.toNat / 8 + (packBits (bitsOf 4 (al - 5) ++ bits) ++ extra).length ≤ s.fr.len.toNat →
    ∃ t, exec (.fseReadnc τ maxAl maxSym) s = .next t ∧
      t = { s.ended with fr := t.fr, slots := t.slots, states := t.states, res := t.res } ∧
      (∀ υ, υ ≠ τ → t.slot υ = s.slot υ) ∧
      (t.slot τ).ncValid = true ∧ (t.slot τ).valid = false ∧ (t.slot τ).dt = (s.slot τ).dt ∧
      (t.slot τ).al.toNat = al ∧ (t.slot τ).nsym.toNat = counts.length ∧
      (∀ j < 256, (t.slot τ).ncount.get? j = some (BitVec.ofInt 16 (counts.getD j 0))) ∧
      (∀ k, t.fse k = if (s.fse k).bound = true ∧ (s.fse k).bind = τ then { s.fse k with bound := false } else s.fse k) ∧
      t.res.toNat = (packBits (bitsOf 4 (al - 5) ++ bits)).length ∧
      t.fr = { s.fr with pos := s.fr.pos + 8 * t.res.setWidth 32, unw := false }

/-- R142, as the pseudocode of R141 makes it true (log 15): whenever `FSE.READNC` completes, the counts it leaves, each −1
counted as 1, sum to `2^AL`, with `5 ≤ AL ≤ maxAl` and at most `maxSym + 1` symbols. -/
def Obligations.ReadncLeavesADistribution : Prop :=
  ∀ (s t : State) (τ : Fin 8) (maxAl : BitVec 4) (maxSym : BitVec 8),
    exec (.fseReadnc τ maxAl maxSym) s = .next t → t.fault = false →
    (t.slot τ).countsOk ∧ (t.slot τ).al.toNat ≤ maxAl.toNat ∧ (t.slot τ).nsym.toNat ≤ maxSym.toNat + 1 ∧
    (∀ j, (t.slot τ).nsym.toNat ≤ j → j < 256 → (t.slot τ).ncount.get? j = some 0)

/-- R140, R141, R144, 60_exceptions.md R273: when `FSE.READNC` faults, and what it leaves. Away from a byte boundary it
faults `FBR_ALIGN` and changes nothing else. A fault of the parser leaves the slot with no distribution and no table, its
other fields and `RES` as they were, every state register bound to it unbound and the others as they were, and every other
slot untouched. Over a reader whose bytes have been written: fewer than 4 bits left fault `END_OF_INPUT`, with the reader
where it was; an accuracy log above `maxAL` faults `FSE_AL`, with the field read; and a loop of R141 that ends in
`END_OF_INPUT` or `FSE_SYMBOL` faults so, with the reader where the loop left it. In particular a description of more than
`maxSym + 1` symbols faults `FSE_SYMBOL`. -/
def Obligations.ReadncFaultEffects : Prop :=
  ∀ (s : State) (τ : Fin 8) (maxAl : BitVec 4) (maxSym : BitVec 8), s.fault = false → maxAl.toNat ≤ 9 →
    (s.fr.pos.toNat % 8 ≠ 0 → exec (.fseReadnc τ maxAl maxSym) s =
      .next (s.faulted 0x15 true (encode (.fseReadnc τ maxAl maxSym)))) ∧
    (∀ t : State, s.fr.pos.toNat % 8 = 0 → exec (.fseReadnc τ maxAl maxSym) s = .next t → t.fault = true →
      (t.code = 0x03 ∨ t.code = 0x07 ∨ t.code = 0x08) ∧ t.prog = false ∧
      (t.slot τ).ncValid = false ∧ (t.slot τ).valid = false ∧ (t.slot τ).al = (s.slot τ).al ∧
      (t.slot τ).nsym = (s.slot τ).nsym ∧ (t.slot τ).dt = (s.slot τ).dt ∧ t.res = s.res ∧
      (∀ υ, υ ≠ τ → t.slot υ = s.slot υ) ∧
      (∀ k, t.fse k = if (s.fse k).bound = true ∧ (s.fse k).bind = τ then { s.fse k with bound := false } else s.fse k)) ∧
    (∀ bs : List Byte, s.fr.pos.toNat % 8 = 0 → bs.length = s.fr.len.toNat → 8 * s.fr.len.toNat < 2 ^ 32 →
      s.ibuf.holds s.fr.base.toNat bs →
      (8 * s.fr.len.toNat < s.fr.pos.toNat + 4 →
        ∃ t, exec (.fseReadnc τ maxAl maxSym) s = .next t ∧
          t = State.faulted { s with slots := t.slots, states := t.states } 0x03 false
            (encode (.fseReadnc τ maxAl maxSym))) ∧
      (s.fr.pos.toNat + 4 ≤ 8 * s.fr.len.toNat → maxAl.toNat < bitsFrom (leInt bs) s.fr.pos.toNat 4 + 5 →
        ∃ t, exec (.fseReadnc τ maxAl maxSym) s = .next t ∧
          t = State.faulted { s with
              fr := { s.fr with pos := s.fr.pos + 4, unw := true }, slots := t.slots, states := t.states } 0x07 false
            (encode (.fseReadnc τ maxAl maxSym))) ∧
      (∀ (al pos' : Nat) (code : Byte) (unw' : Bool), s.fr.pos.toNat + 4 ≤ 8 * s.fr.len.toNat →
        al = bitsFrom (leInt bs) s.fr.pos.toNat 4 + 5 → al ≤ maxAl.toNat →
        ParserFaults (leInt bs) (8 * s.fr.len.toNat) maxSym.toNat false (2 ^ al + 1) 0 (s.fr.pos.toNat + 4) true
          code pos' unw' →
        ∃ t, exec (.fseReadnc τ maxAl maxSym) s = .next t ∧
          t = State.faulted { s with
              fr := { s.fr with pos := BitVec.ofNat 32 pos', unw := unw' }, slots := t.slots, states := t.states } code
            false (encode (.fseReadnc τ maxAl maxSym)))) ∧
    (∀ (al : Nat) (counts : List Int) (bits : List Bool) (extra : List Byte),
      5 ≤ al → al ≤ maxAl.toNat → Describes (2 ^ al + 1) counts bits → maxSym.toNat + 1 < counts.length → extra ≠ [] →
      s.fr.pos.toNat % 8 = 0 → 8 * s.fr.len.toNat < 2 ^ 32 →
      s.ibuf.holds (s.fr.base.toNat + s.fr.pos.toNat / 8) (packBits (bitsOf 4 (al - 5) ++ bits) ++ extra) →
      s.fr.pos.toNat / 8 + (packBits (bitsOf 4 (al - 5) ++ bits) ++ extra).length ≤ s.fr.len.toNat →
      ∃ t, exec (.fseReadnc τ maxAl maxSym) s = .next t ∧
        t = State.faulted { s with
            fr := { s.fr with pos := t.fr.pos, unw := t.fr.unw }, slots := t.slots, states := t.states } 0x08 false
          (encode (.fseReadnc τ maxAl maxSym)))

/-- R145, R146, R148, R157: `FSE.BUILD` of a slot that holds a distribution completes, so `FSE_SPREAD` does not occur:
every state gets an entry, each symbol has as many states as its count (1 for "less than 1"), every transition stays in
the table, and entries above the table are kept. The premise on the slot holds in every reachable state. -/
def Obligations.BuildMakesATable : Prop :=
  ∀ (s : State) (τ : Fin 8), (s.slot τ).ncValid = true → (s.slot τ).countsOk → (s.slot τ).nsym.toNat ≤ 256 →
    ∃ t, exec (.fseBuild τ) s = .next t ∧
      t = { s.ended with slots := t.slots, states := t.states } ∧
      (∀ υ, υ ≠ τ → t.slot υ = s.slot υ) ∧
      t.slot τ = { s.slot τ with valid := true, dt := (t.slot τ).dt } ∧
      (t.slot τ).tableOk ∧
      (∀ σ : Nat, σ < 256 →
        ((List.range (2 ^ (s.slot τ).al.toNat)).countP fun u =>
          ((t.slot τ).dt.get? u).any fun e => e.symbol.toNat == σ) = ((s.slot τ).counts.getD σ 0).natAbs) ∧
      (∀ u, 2 ^ (s.slot τ).al.toNat ≤ u → (t.slot τ).dt.get? u = (s.slot τ).dt.get? u) ∧
      (∀ k, t.fse k = if (s.fse k).bound = true ∧ (s.fse k).bind = τ then { s.fse k with bound := false } else s.fse k)

/-- R146: the ranges `[baseline, baseline + 2^nbBits)` of one symbol's states are disjoint and their union is all states. -/
def Obligations.BuildTilesTheStates : Prop :=
  ∀ (s t : State) (τ : Fin 8), (s.slot τ).countsOk → (s.slot τ).nsym.toNat ≤ 256 → s.fault = false →
    exec (.fseBuild τ) s = .next t → t.fault = false →
    ∀ σ : Nat, σ < 256 → (s.slot τ).counts.getD σ 0 ≠ 0 → ∀ x < 2 ^ (s.slot τ).al.toNat,
      ((List.range (2 ^ (s.slot τ).al.toNat)).countP fun u =>
        ((t.slot τ).dt.get? u).any fun e =>
          e.symbol.toNat == σ && decide (e.baseline.toNat ≤ x) && decide (x < e.baseline.toNat + 2 ^ e.nbBits.toNat)) = 1

/-- The 64 entries of the literal-length table, as (symbol, nbBits, baseline), from 95_test_vectors.md V-FSE-1. -/
def literalLengthTable : List (Nat × Nat × Nat) :=
  [(0,4,0), (0,4,16), (1,5,32), (3,5,0), (4,5,0), (6,5,0), (7,5,0), (9,5,0),
   (10,5,0), (12,5,0), (14,6,0), (16,5,0), (18,5,0), (19,5,0), (21,5,0), (22,5,0),
   (24,5,0), (25,5,32), (26,5,0), (27,6,0), (29,6,0), (31,6,0), (0,4,32), (1,4,0),
   (2,5,0), (4,5,32), (5,5,0), (7,5,32), (8,5,0), (10,5,32), (11,5,0), (13,6,0)] ++
  [(16,5,32), (17,5,0), (19,5,32), (20,5,0), (22,5,32), (23,5,0), (25,4,0), (25,4,16),
   (26,5,32), (28,6,0), (30,6,0), (0,4,48), (1,4,16), (2,5,32), (3,5,32), (5,5,32),
   (6,5,32), (8,5,32), (9,5,32), (11,5,32), (12,5,32), (15,6,0), (17,5,32), (18,5,32),
   (20,5,32), (21,5,32), (23,5,32), (24,5,32), (35,6,0), (34,6,0), (33,6,0), (32,6,0)]

/-- The 64 entries of the match-length table, from 95_test_vectors.md V-FSE-1. -/
def matchLengthTable : List (Nat × Nat × Nat) :=
  [(0,6,0), (1,4,0), (2,5,32), (3,5,0), (5,5,0), (6,5,0), (8,5,0), (10,6,0),
   (13,6,0), (16,6,0), (19,6,0), (22,6,0), (25,6,0), (28,6,0), (31,6,0), (33,6,0),
   (35,6,0), (37,6,0), (39,6,0), (41,6,0), (43,6,0), (45,6,0), (1,4,16), (2,4,0),
   (3,5,32), (4,5,0), (6,5,32), (7,5,0), (9,6,0), (12,6,0), (15,6,0), (18,6,0)] ++
  [(21,6,0), (24,6,0), (27,6,0), (30,6,0), (32,6,0), (34,6,0), (36,6,0), (38,6,0),
   (40,6,0), (42,6,0), (44,6,0), (1,4,32), (1,4,48), (2,4,16), (4,5,32), (5,5,32),
   (7,5,32), (8,5,32), (11,6,0), (14,6,0), (17,6,0), (20,6,0), (23,6,0), (26,6,0),
   (29,6,0), (52,6,0), (51,6,0), (50,6,0), (49,6,0), (48,6,0), (47,6,0), (46,6,0)]

/-- The 32 entries of the offset table, from 95_test_vectors.md V-FSE-1. -/
def offsetTable : List (Nat × Nat × Nat) :=
  [(0,5,0), (6,4,0), (9,5,0), (15,5,0), (21,5,0), (3,5,0), (7,4,0), (12,5,0),
   (18,5,0), (23,5,0), (5,5,0), (8,4,0), (14,5,0), (20,5,0), (2,5,0), (7,4,16),
   (11,5,0), (17,5,0), (22,5,0), (4,5,0), (8,4,16), (13,5,0), (19,5,0), (1,5,0),
   (6,4,16), (10,5,0), (16,5,0), (28,5,0), (27,5,0), (26,5,0), (25,5,0), (24,5,0)]

/-- The counts of the literal-length distribution, R149 row 0. -/
def literalLengthCounts : List Int :=
  [4, 3, 2, 2, 2, 2, 2, 2, 2, 2, 2, 2, 2, 1, 1, 1, 2, 2, 2, 2, 2, 2, 2, 2, 2, 3, 2, 1, 1, 1, 1, 1, -1, -1, -1, -1]

/-- The counts of the match-length distribution, R149 row 1. -/
def matchLengthCounts : List Int :=
  [1, 4, 3, 2, 2, 2, 2, 2, 2, 1, 1, 1, 1, 1, 1, 1, 1, 1, 1, 1, 1, 1, 1, 1, 1, 1, 1, 1, 1, 1, 1, 1, 1, 1, 1, 1, 1, 1, 1,
   1, 1, 1, 1, 1, 1, 1, -1, -1, -1, -1, -1, -1, -1]

/-- The counts of the offset distribution, R149 row 2. -/
def offsetCounts : List Int :=
  [1, 1, 1, 1, 1, 1, 2, 2, 2, 1, 1, 1, 1, 1, 1, 1, 1, 1, 1, 1, 1, 1, 1, 1, -1, -1, -1, -1, -1]

/-- R149, R150, with the tables of 95_test_vectors.md V-FSE-1: `FSE.PREDEF` loads the literal-length, match-length or offset
distribution into its slot, its counts and zeros above them, and its table, marks both usable, unbinds the states bound to
the slot and changes nothing else. -/
def Obligations.PredefLoadsTheTables : Prop :=
  ∀ (s : State) (τ : Fin 8) (which : BitVec 16) (al nsym : Nat) (counts : List Int)
    (table : List (Nat × Nat × Nat)),
    (which, al, nsym, counts, table) ∈
      [(0#16, 6, 36, literalLengthCounts, literalLengthTable), (1#16, 6, 53, matchLengthCounts, matchLengthTable),
       (2#16, 5, 29, offsetCounts, offsetTable)] →
    ∃ t, exec (.fsePredef τ which) s = .next t ∧
      t = { s.ended with slots := t.slots, states := t.states } ∧
      (∀ υ, υ ≠ τ → t.slot υ = s.slot υ) ∧
      (t.slot τ).valid = true ∧ (t.slot τ).ncValid = true ∧ (t.slot τ).al.toNat = al ∧ (t.slot τ).nsym.toNat = nsym ∧
      (∀ i < 256, (t.slot τ).ncount.get? i = some (BitVec.ofInt 16 (counts.getD i 0))) ∧ (t.slot τ).countsOk ∧
      (∀ u, ∀ h : u < table.length, (t.slot τ).dt.get? u =
        some ⟨BitVec.ofNat 8 table[u].1, BitVec.ofNat 4 table[u].2.1, BitVec.ofNat 9 table[u].2.2⟩) ∧
      (∀ u, table.length ≤ u → (t.slot τ).dt.get? u = (s.slot τ).dt.get? u) ∧
      (∀ k, t.fse k = if (s.fse k).bound = true ∧ (s.fse k).bind = τ then { s.fse k with bound := false } else s.fse k)

/-- R151: `FSE.RLE` makes the slot a one-state table of its byte, with no distribution. -/
def Obligations.RleMakesAOneStateTable : Prop :=
  ∀ (s : State) (τ : Fin 8) (b : Byte),
    ∃ t, exec (.fseRle τ b) s = .next t ∧
      t = { s.ended with slots := t.slots, states := t.states } ∧
      (∀ υ, υ ≠ τ → t.slot υ = s.slot υ) ∧
      (t.slot τ).valid = true ∧ (t.slot τ).ncValid = false ∧ (t.slot τ).al = 0 ∧
      (t.slot τ).nsym.toNat = b.toNat + 1 ∧ (t.slot τ).ncount = (s.slot τ).ncount ∧
      (t.slot τ).dt.get? 0 = some ⟨b, 0, 0⟩ ∧ (∀ u, u ≠ 0 → (t.slot τ).dt.get? u = (s.slot τ).dt.get? u) ∧
      (∀ k, t.fse k = if (s.fse k).bound = true ∧ (s.fse k).bind = τ then { s.fse k with bound := false } else s.fse k)

/-- R154: `FSE.INIT` reads `AL` bits of the backward stream into the state register and binds it. The bound on `AL` holds in
every reachable state. -/
def Obligations.InitSeedsAndBindsAState : Prop :=
  ∀ (s : State) (k : Fin 4) (τ : Fin 8), (s.slot τ).valid = true → (s.slot τ).al.toNat ≤ 9 →
    -2 ^ 31 ≤ s.br.rem.toInt - (s.slot τ).al.toNat →
    ∃ (v draws : Nat), v < 2 ^ (s.slot τ).al.toNat ∧
      exec (.fseInit k τ) s = .next { s.ended with
        br := { s.br with rem := BitVec.ofInt 32 (s.br.rem.toInt - (s.slot τ).al.toNat) }
        states := s.states.set k ⟨BitVec.ofNat 9 v, τ, true⟩, draws := draws } ∧
      ∀ bs : List Byte, s.ibuf.holds s.br.base.toNat bs → s.br.rem.toInt ≤ 8 * bs.length →
        v = bitsBelow (leInt bs) s.br.rem.toInt (s.slot τ).al.toNat ∧ draws = s.draws

/-- R155: `FSE.PEEK` returns the symbol of the state's entry, a free value where that entry was never written, and
consumes nothing. -/
def Obligations.PeekReturnsTheSymbol : Prop :=
  ∀ (s : State) (k : Fin 4), (s.fse k).bound = true →
    ∃ (σ : Byte) (draws : Nat),
      exec (.fsePeek k) s = .next { s.ended with res := σ.setWidth 64, draws := draws } ∧
      ∀ e, (s.slot (s.fse k).bind).dt.get? (s.fse k).state.toNat = some e → σ = e.symbol ∧ draws = s.draws

/-- R156: `FSE.NEXT` moves the state to its entry's baseline plus `nbBits` bits of the backward stream. The entry of a bound
state is written in every reachable state (R157). -/
def Obligations.NextMovesTheState : Prop :=
  ∀ (s : State) (k : Fin 4) (e : DtEntry), (s.fse k).bound = true →
    (s.slot (s.fse k).bind).dt.get? (s.fse k).state.toNat = some e →
    -2 ^ 31 ≤ s.br.rem.toInt - e.nbBits.toNat →
    ∃ (v draws : Nat), v < 2 ^ e.nbBits.toNat ∧
      exec (.fseNext k) s = .next { s.ended with
        br := { s.br with rem := BitVec.ofInt 32 (s.br.rem.toInt - e.nbBits.toNat) }
        states := s.states.set k { s.fse k with state := e.baseline + BitVec.ofNat 9 v }, draws := draws } ∧
      ∀ bs : List Byte, s.ibuf.holds s.br.base.toNat bs → s.br.rem.toInt ≤ 8 * bs.length →
        v = bitsBelow (leInt bs) s.br.rem.toInt e.nbBits.toNat ∧ draws = s.draws

/-- R148, R154, R155, R156, 42_huffman.md R201: a table used before it is built, or a state register before it is bound,
faults `NO_TABLE`, class D, and changes nothing else. -/
def Obligations.NoTableFaults : Prop :=
  ∀ (s : State) (k : Fin 4) (τ : Fin 8), s.fault = false →
    ((s.slot τ).ncValid = false → exec (.fseBuild τ) s = .next (s.faulted 0x0A false (encode (.fseBuild τ)))) ∧
    ((s.slot τ).valid = false → exec (.fseInit k τ) s = .next (s.faulted 0x0A false (encode (.fseInit k τ)))) ∧
    ((s.fse k).bound = false → exec (.fsePeek k) s = .next (s.faulted 0x0A false (encode (.fsePeek k))) ∧
      exec (.fseNext k) s = .next (s.faulted 0x0A false (encode (.fseNext k)))) ∧
    (s.hufValid = false → exec .hufDecode s = .next (s.faulted 0x0A false 0x22000000))

/-! ### Huffman (42_huffman.md) -/

/-- R192, R195: `HUF.READW` of a direct header `h ≥ 128` with its bytes available reads `h − 127` nibbles, the high one of
a byte first, clears the rest of `W`, and returns the bytes used. -/
def Obligations.ReadwDirectReadsNibbles : Prop :=
  ∀ (s : State) (h : Byte), s.arg0.toNat + s.arg1.toNat ≤ 131072 →
    s.ibuf.get? s.arg0.toNat = some h → 128 ≤ h.toNat → 1 + (h.toNat - 127 + 1) / 2 ≤ s.arg1.toNat →
    ∃ t, exec .hufReadw s = .next t ∧
      t = { s.ended with hufValid := false, w := t.w, hufNw := h - 127, draws := t.draws
                         res := BitVec.ofNat 64 (1 + (h.toNat - 127 + 1) / 2) } ∧
      (∀ i b, i < h.toNat - 127 → s.ibuf.get? (s.arg0.toNat + 1 + i / 2) = some b →
        t.w.get? i = some (if i % 2 = 0 then b.extractLsb' 4 4 else b.extractLsb' 0 4)) ∧
      (∀ i, i < 256 → (t.w.get? i).isSome) ∧ (∀ i, h.toNat - 127 ≤ i → i < 256 → t.w.get? i = some 0)

/-- R193, R195, 41_fse.md R158: `HUF.READW` of a compressed header `h < 128`. Where its `h` bytes are a description of
accuracy log at most 6 and at most 12 symbols, then a stream whose last byte holds the padding marker, and that stream
gives at most 255 weights over the table of the description, the command completes: it stores the weights, zeros above
them, and returns `1 + h`. Nothing else but `HUF_VALID` and `HUF_NW` changes. -/
def Obligations.ReadwCompressedReadsItsStream : Prop :=
  ∀ (s : State) (h al : Nat) (counts : List Int) (bits : List Bool) (table : List DtEntry) (stream : List Byte) (p : Byte)
    (ws : List Nat),
    h < 128 → h = (packBits (bitsOf 4 (al - 5) ++ bits)).length + stream.length →
    5 ≤ al → al ≤ 6 → Describes (2 ^ al + 1) counts bits → counts.length ≤ 12 → buildTable al counts = some table →
    stream.getLast? = some p → p ≠ 0 →
    WeightStream table (leInt stream) (8 * (stream.length - 1) + hsb p.toNat - 2 * al)
      (bitsBelow (leInt stream) (8 * (stream.length - 1) + hsb p.toNat) al)
      (bitsBelow (leInt stream) (8 * (stream.length - 1) + hsb p.toNat - al) al) ws →
    ws.length ≤ 255 →
    s.arg0.toNat + s.arg1.toNat ≤ 131072 → 1 + h ≤ s.arg1.toNat →
    s.ibuf.holds s.arg0.toNat (BitVec.ofNat 8 h :: (packBits (bitsOf 4 (al - 5) ++ bits) ++ stream)) →
    ∃ t, exec .hufReadw s = .next t ∧
      t = { s.ended with hufValid := false, w := t.w, hufNw := BitVec.ofNat 8 ws.length, res := BitVec.ofNat 64 (1 + h) } ∧
      ∀ i < 256, t.w.get? i = some (BitVec.ofNat 4 (ws.getD i 0))

/-- R192, R193, R195, 41_fse.md R141, R158: when `HUF.READW` faults, and what it leaves. A range that leaves IBUF faults
`RANGE` with no other change. Any other fault leaves `W`, `HUF_NW` and `RES` as they were and `HUF_VALID` = 0, and for
bytes that have been written: no byte available, or fewer than a header's weights or its `h` bytes need, faults
`END_OF_INPUT`. Of a compressed header's `h` bytes: none, `END_OF_INPUT`; an accuracy log above 6, `FSE_AL`; a loop of
R141 for at most 12 symbols that faults, its fault; a description that leaves none for the stream, `WEIGHT_STREAM`; a last
byte of the stream 0, `BAD_PADDING`; more than 255 weights, `WEIGHTS_OVERFLOW`. -/
def Obligations.ReadwFaultEffects : Prop :=
  ∀ s : State, s.fault = false →
    (131072 < s.arg0.toNat + s.arg1.toNat → exec .hufReadw s = .next (s.faulted 0x02 true 0x20000000)) ∧
    (∀ t : State, exec .hufReadw s = .next t → t.fault = true →
      t.w = s.w ∧ t.hufNw = s.hufNw ∧ t.res = s.res ∧
      (s.arg0.toNat + s.arg1.toNat ≤ 131072 → t.hufValid = false)) ∧
    (s.arg0.toNat + s.arg1.toNat ≤ 131072 → s.arg1 = 0 →
      exec .hufReadw s = .next (State.faulted { s with hufValid := false } 0x03 false 0x20000000)) ∧
    (∀ h : Byte, s.arg0.toNat + s.arg1.toNat ≤ 131072 → 1 ≤ s.arg1.toNat → s.ibuf.get? s.arg0.toNat = some h →
      (128 ≤ h.toNat → s.arg1.toNat < 1 + (h.toNat - 127 + 1) / 2 →
        exec .hufReadw s = .next (State.faulted { s with hufValid := false } 0x03 false 0x20000000)) ∧
      (h.toNat < 128 → s.arg1.toNat < 1 + h.toNat →
        exec .hufReadw s = .next (State.faulted { s with hufValid := false } 0x03 false 0x20000000))) ∧
    (∀ bs : List Byte, bs.length < 128 → s.arg0.toNat + s.arg1.toNat ≤ 131072 → 1 + bs.length ≤ s.arg1.toNat →
      s.ibuf.holds s.arg0.toNat (BitVec.ofNat 8 bs.length :: bs) →
      (bs = [] → exec .hufReadw s = .next (State.faulted { s with hufValid := false } 0x03 false 0x20000000)) ∧
      (bs ≠ [] → 6 < bitsFrom (leInt bs) 0 4 + 5 →
        exec .hufReadw s = .next (State.faulted { s with hufValid := false } 0x07 false 0x20000000)) ∧
      (∀ (al pos' : Nat) (code : Byte) (unw' : Bool), bs ≠ [] → al = bitsFrom (leInt bs) 0 4 + 5 → al ≤ 6 →
        ParserFaults (leInt bs) (8 * bs.length) 11 false (2 ^ al + 1) 0 4 true code pos' unw' →
        exec .hufReadw s = .next (State.faulted { s with hufValid := false } code false 0x20000000)) ∧
      (∀ (al : Nat) (counts : List Int) (bits : List Bool) (stream : List Byte),
        5 ≤ al → al ≤ 6 → Describes (2 ^ al + 1) counts bits → counts.length ≤ 12 →
        bs = packBits (bitsOf 4 (al - 5) ++ bits) ++ stream →
        (stream = [] → descriptionBits counts bits ≤ 8 * bs.length →
          exec .hufReadw s = .next (State.faulted { s with hufValid := false } 0x0E false 0x20000000)) ∧
        (∀ table : List DtEntry, buildTable al counts = some table →
          (stream.getLast? = some 0 →
            exec .hufReadw s = .next (State.faulted { s with hufValid := false } 0x05 false 0x20000000)) ∧
          (∀ p : Byte, stream.getLast? = some p → p ≠ 0 →
            WeightsAtLeast table (leInt stream) (8 * (stream.length - 1) + hsb p.toNat - 2 * al)
              (bitsBelow (leInt stream) (8 * (stream.length - 1) + hsb p.toNat) al)
              (bitsBelow (leInt stream) (8 * (stream.length - 1) + hsb p.toNat - al) al) 256 →
            exec .hufReadw s = .next (State.faulted { s with hufValid := false } 0x0D false 0x20000000)))))

/-- R196, R197, R198: `HUF.BUILD` of `n ≥ 1` written weights, none above 11, whose shares `2^(w−1)` sum to `2^mb − 2^r` with
`1 ≤ mb ≤ 11` and `0 ≤ r < mb`, and of which, with the implicit last weight `r + 1`, two are 1, completes: the last weight
is stored, the table is a complete prefix table of `mb` bits in which a symbol of weight `w` has `2^(w−1)` entries of
length `mb + 1 − w`, the weight classes and in each the symbols stand in ascending order, and entries above are kept. -/
def Obligations.HufBuildMakesAPrefixTable : Prop :=
  ∀ (s : State) (ws : List Nat) (mb r : Nat),
    ws.length = s.hufNw.toNat → 1 ≤ ws.length → (∀ i, ∀ h : i < ws.length, s.w.get? i = some (BitVec.ofNat 4 ws[i])) →
    (∀ x ∈ ws, x ≤ 11) → 1 ≤ mb → mb ≤ 11 → r < mb →
    shareSum ws + 2 ^ r = 2 ^ mb →
    2 ≤ (ws ++ [r + 1]).count 1 →
    ∃ t, exec .hufBuild s = .next t ∧
      t = { s.ended with w := t.w, ht := t.ht, hufMaxbits := BitVec.ofNat 4 mb, hufNsym := BitVec.ofNat 9 (ws.length + 1)
                         hufValid := true } ∧
      t.w.get? ws.length = some (BitVec.ofNat 4 (r + 1)) ∧ (∀ i, i ≠ ws.length → t.w.get? i = s.w.get? i) ∧
      PrefixTable t.ht mb ∧
      (∀ σ, ∀ h : σ < (ws ++ [r + 1]).length,
        ((List.range (2 ^ mb)).countP fun u => t.ht.get? u == some ⟨BitVec.ofNat 8 σ, BitVec.ofNat 4 (mb + 1 - (ws ++ [r + 1])[σ])⟩)
          = if (ws ++ [r + 1])[σ] = 0 then 0 else 2 ^ ((ws ++ [r + 1])[σ] - 1)) ∧
      (∀ u v e f, u < v → v < 2 ^ mb → t.ht.get? u = some e → t.ht.get? v = some f →
        f.nbBits.toNat < e.nbBits.toNat ∨ f.nbBits = e.nbBits ∧ e.symbol.toNat ≤ f.symbol.toNat) ∧
      (∀ u, 2 ^ mb ≤ u → t.ht.get? u = s.ht.get? u)

/-- R196, R198: the weight lists `HUF.BUILD` refuses. Before it writes anything but `HUF_VALID`: none, one above 11, all
zero, shares that make the table log exceed 11, and a complement to the next power of two that is no power of two. With the
implicit last weight stored besides: fewer than two weights 1. -/
def Obligations.HufBuildRefusesBadWeights : Prop :=
  ∀ (s : State) (ws : List Nat), s.fault = false →
    ws.length = s.hufNw.toNat → (∀ i, ∀ h : i < ws.length, s.w.get? i = some (BitVec.ofNat 4 ws[i])) →
    (∀ x ∈ ws, x < 16) →
    (s.hufNw = 0 → exec .hufBuild s = .next (State.faulted { s with hufValid := false } 0x0B false 0x21000000)) ∧
    ((∃ x ∈ ws, 11 < x) → exec .hufBuild s = .next (State.faulted { s with hufValid := false } 0x0C false 0x21000000)) ∧
    (ws ≠ [] → (∀ x ∈ ws, x = 0) →
      exec .hufBuild s = .next (State.faulted { s with hufValid := false } 0x0B false 0x21000000)) ∧
    ((∀ x ∈ ws, x ≤ 11) → 2 ^ 11 ≤ shareSum ws →
      exec .hufBuild s = .next (State.faulted { s with hufValid := false } 0x0C false 0x21000000)) ∧
    (∀ mb : Nat, (∀ x ∈ ws, x ≤ 11) → 1 ≤ mb → mb ≤ 11 → 2 ^ (mb - 1) ≤ shareSum ws → shareSum ws < 2 ^ mb →
      (∀ r : Nat, shareSum ws + 2 ^ r ≠ 2 ^ mb) →
      exec .hufBuild s = .next (State.faulted { s with hufValid := false } 0x0B false 0x21000000)) ∧
    (∀ mb r : Nat, (∀ x ∈ ws, x ≤ 11) → 1 ≤ mb → mb ≤ 11 → r < mb → shareSum ws + 2 ^ r = 2 ^ mb →
      (ws ++ [r + 1]).count 1 < 2 →
      ∃ m, exec .hufBuild s = .next (State.faulted { s with hufValid := false, w := m } 0x0B false 0x21000000) ∧
        m.get? ws.length = some (BitVec.ofNat 4 (r + 1)) ∧ ∀ i, i ≠ ws.length → m.get? i = s.w.get? i)

/-- R199, R200, R201, 60_exceptions.md R273: how `HUF.DECODE` ends. When it completes, `BR_REM` = −`HUF_MAXBITS`, at most
`limit` symbols were written from `dst` upward, and no other byte of LBUF changed; when it faults, it is with one of R201's
codes, and no byte outside the output area changed. A range that leaves its buffer faults `RANGE` with no other change. An
empty stream, or a last byte 0, faults `BAD_PADDING` with the stream opened. For a stream and a table that have been
written, the decode steps decide: those that end at −mb within the limit complete, those that end below −mb fault
`DID_NOT_USE_ALL_BITS`, and bits left after `limit` symbols fault `OUTPUT_LIMIT`; the backward reader stays where they
ended. -/
def Obligations.HufDecodeEndsExactly : Prop :=
  (∀ s t : State, s.fault = false → exec .hufDecode s = .next t →
    (t.fault = false → t.br.rem.toInt = -(s.hufMaxbits.toNat : Int) ∧ t.res.toNat ≤ s.arg3.toNat ∧
      ∀ a, a < s.arg2.toNat ∨ s.arg2.toNat + t.res.toNat ≤ a → t.lbuf.get? a = s.lbuf.get? a) ∧
    (t.fault = true → t.code ∈ [0x02#8, 0x05, 0x06, 0x0A, 0x0F] ∧
      ∀ a, a < s.arg2.toNat ∨ s.arg2.toNat + s.arg3.toNat ≤ a → t.lbuf.get? a = s.lbuf.get? a)) ∧
  (∀ s : State, s.fault = false → s.hufValid = true →
    131072 < s.arg0.toNat + s.arg1.toNat ∨ 131072 < s.arg2.toNat + s.arg3.toNat →
    exec .hufDecode s = .next (s.faulted 0x02 true 0x22000000)) ∧
  (∀ s : State, s.fault = false → s.hufValid = true → s.arg0.toNat + s.arg1.toNat ≤ 131072 →
    s.arg2.toNat + s.arg3.toNat ≤ 131072 →
    s.arg1 = 0 ∨ s.ibuf.get? (s.arg0.toNat + s.arg1.toNat - 1) = some 0 →
    ∃ m, exec .hufDecode s =
      .next (State.faulted { s with br := ⟨s.arg0, s.arg1, 8 * s.arg1⟩, lbuf := m } 0x05 false 0x22000000)) ∧
  (∀ (s : State) (bs : List Byte) (p : Byte) (syms : List Byte) (final : Int),
    s.fault = false → s.hufValid = true → s.arg0.toNat + s.arg1.toNat ≤ 131072 → s.arg2.toNat + s.arg3.toNat ≤ 131072 →
    bs.length = s.arg1.toNat → s.ibuf.holds s.arg0.toNat bs → bs.getLast? = some p → p ≠ 0 →
    DecodeSteps s.ht s.hufMaxbits.toNat (leInt bs) (8 * (bs.length - 1) + hsb p.toNat - s.hufMaxbits.toNat)
      (bitsBelow (leInt bs) (8 * (bs.length - 1) + hsb p.toNat) s.hufMaxbits.toNat) syms final →
    syms.length ≤ s.arg3.toNat →
    (final = -(s.hufMaxbits.toNat : Int) →
      ∃ m, exec .hufDecode s = .next { s.ended with
          br := ⟨s.arg0, s.arg1, BitVec.ofInt 32 final⟩, lbuf := m, res := BitVec.ofNat 64 syms.length } ∧
        m.holds s.arg2.toNat syms ∧
        ∀ a, a < s.arg2.toNat ∨ s.arg2.toNat + syms.length ≤ a → m.get? a = s.lbuf.get? a) ∧
    (final < -(s.hufMaxbits.toNat : Int) →
      ∃ m, exec .hufDecode s = .next (State.faulted
        { s with br := ⟨s.arg0, s.arg1, BitVec.ofInt 32 final⟩, lbuf := m } 0x06 false 0x22000000)) ∧
    (-(s.hufMaxbits.toNat : Int) < final → syms.length = s.arg3.toNat →
      ∃ m, exec .hufDecode s = .next (State.faulted
        { s with br := ⟨s.arg0, s.arg1, BitVec.ofInt 32 final⟩, lbuf := m } 0x0F false 0x22000000)))

/-- R203: the round trip. Let `HT` be a complete prefix table of `mb` bits and `us` indexes into it. Over a stream of the
codes of their symbols, the first read first, then the padding marker, `HUF.DECODE` completes: it writes the symbols,
returns their number and leaves `BR_REM` = −mb. Everything but the backward reader, LBUF and `RES` is unchanged. -/
def Obligations.HufDecodeRoundTrip : Prop :=
  ∀ (s : State) (us : List Nat),
    s.hufValid = true → PrefixTable s.ht s.hufMaxbits.toNat → s.hufMaxbits.toNat ≤ 11 →
    (∀ u ∈ us, u < 2 ^ s.hufMaxbits.toNat) →
    s.arg1.toNat = (packBits (backwardBits (codesAt s.ht s.hufMaxbits.toNat us))).length →
    s.arg0.toNat + s.arg1.toNat ≤ 131072 → s.arg2.toNat + s.arg3.toNat ≤ 131072 → us.length ≤ s.arg3.toNat →
    s.ibuf.holds s.arg0.toNat (packBits (backwardBits (codesAt s.ht s.hufMaxbits.toNat us))) →
    ∃ t, exec .hufDecode s = .next t ∧
      t = { s.ended with br := t.br, lbuf := t.lbuf, res := BitVec.ofNat 64 us.length } ∧
      t.br.base = s.arg0 ∧ t.br.len = s.arg1 ∧ t.br.rem.toInt = -(s.hufMaxbits.toNat : Int) ∧
      t.lbuf.holds s.arg2.toNat ((entriesAt s.ht us).map HtEntry.symbol) ∧
      ∀ a, a < s.arg2.toNat ∨ s.arg2.toNat + us.length ≤ a → t.lbuf.get? a = s.lbuf.get? a

/-! ### The window (43_window.md) -/

/-- R233: `WIN.CONFIG` sets a legal capacity and starts an empty history; a capacity of 0 or above `WIN_CAP_MAX` faults
`WIN_CONFIG`, unflushed bytes fault `WIN_NOT_FLUSHED`, with no other change. -/
def Obligations.ConfigStartsAnEmptyHistory : Prop :=
  ∀ s : State,
    (1 ≤ s.arg0.toNat → s.arg0.toNat ≤ s.winCapMax → (s.wconf = true → s.wflushed = s.wtotal) →
      exec .winConfig s = .next { s.ended with winCap := s.arg0, wtotal := 0, wflushed := 0, wconf := true }) ∧
    (s.fault = false → s.arg0 = 0 ∨ s.winCapMax < s.arg0.toNat →
      exec .winConfig s = .next (s.faulted 0x10 true 0x30000000)) ∧
    (s.fault = false → 1 ≤ s.arg0.toNat → s.arg0.toNat ≤ s.winCapMax → s.wconf = true → s.wflushed ≠ s.wtotal →
      exec .winConfig s = .next (s.faulted 0x11 true 0x30000000))

/-- R232, R234, R235, R236, R241: a push completes. It appends its bytes to the history in order, each in its slot of
`WBUF`, gives the sink exactly the bytes it must evict, each once, and changes nothing else, in `WBUF` and beside it
(`Appended`). `WTOTAL` stays below `2^64` (R230). -/
def Obligations.PushAppendsToTheHistory : Prop :=
  ∀ (s : State) (h : List Byte), s.windowOk → s.hasHistory h → s.wtotal.toNat + s.arg1.toNat < 2 ^ 64 →
    (s.arg0.toNat + s.arg1.toNat ≤ 131072 →
      ∃ t bs, exec .winPushi s = .next t ∧ bs.length = s.arg1.toNat ∧ Appended s h bs t ∧
        ∀ j < bs.length, ∀ b, s.ibuf.get? (s.arg0.toNat + j) = some b → bs[j]? = some b) ∧
    (s.arg0.toNat + s.arg1.toNat ≤ 131072 →
      ∃ t bs, exec .winPushl s = .next t ∧ bs.length = s.arg1.toNat ∧ Appended s h bs t ∧
        ∀ j < bs.length, ∀ b, s.lbuf.get? (s.arg0.toNat + j) = some b → bs[j]? = some b) ∧
    (∀ b : Byte, ∃ t, exec (.winPushr b) s = .next t ∧ Appended s h (List.replicate s.arg1.toNat b) t)

/-- R237, R239, R242: `WIN.REPGEN` appends the last `dist` bytes of the history, repeated periodically, to the length
asked; a length of 0 does nothing, whatever the distance. -/
def Obligations.RepgenAppendsThePeriod : Prop :=
  ∀ (s : State) (h : List Byte), s.windowOk → s.hasHistory h → s.wtotal.toNat + s.arg1.toNat < 2 ^ 64 →
    (1 ≤ s.arg0.toNat → s.arg0.toNat ≤ s.wtotal.toNat → s.arg0.toNat ≤ s.winCap.toNat →
      ∃ t, exec .winRepgen s = .next t ∧ Appended s h (periodic h s.arg0.toNat s.arg1.toNat) t) ∧
    (s.arg1 = 0 → exec .winRepgen s = .next s.ended)

/-- R238: `WIN.REPEAT` appends the `len ≤ dist` bytes that stand `dist` back in the history, and "the result is the same
as rule R239's": where it may be used, `WIN.REPGEN` gives the same state. A length of 0 does nothing, whatever the
distance. -/
def Obligations.RepeatAppendsThePast : Prop :=
  ∀ (s : State) (h : List Byte), s.windowOk → s.hasHistory h → s.wtotal.toNat + s.arg1.toNat < 2 ^ 64 →
    (1 ≤ s.arg0.toNat → s.arg0.toNat ≤ s.wtotal.toNat → s.arg0.toNat ≤ s.winCap.toNat → s.arg1.toNat ≤ s.arg0.toNat →
      (∃ t, exec .winRepeat s = .next t ∧
        Appended s h ((h.drop (h.length - s.arg0.toNat)).take s.arg1.toNat) t) ∧
      exec .winRepeat s = exec .winRepgen s) ∧
    (s.arg1 = 0 → exec .winRepeat s = .next s.ended)

/-- R240: `WIN.FLUSH` gives the sink every unflushed byte of the history, in order, and nothing else changes; a second
flush gives nothing. -/
def Obligations.FlushDrainsTheHistory : Prop :=
  ∀ (s : State) (h : List Byte), s.windowOk → s.hasHistory h →
    exec .winFlush s = .next { s.ended with wflushed := s.wtotal, out := s.out ++ h.drop s.wflushed.toNat }

/-- R233 to R240, R237: a window command before `WIN.CONFIG` faults `WIN_CONFIG`; a bad distance faults `WIN_DISTANCE`; an
overlapping `WIN.REPEAT` faults `WIN_OVERLAP`; a range that leaves its buffer faults `RANGE`. Nothing else changes. -/
def Obligations.WindowCommandFaults : Prop :=
  ∀ (s : State) (b : Byte), s.fault = false →
    (s.wconf = false → ∀ i ∈ [Instr.winPushi, .winPushl, .winPushr b, .winRepeat, .winRepgen, .winFlush],
      exec i s = .next (s.faulted 0x10 true (encode i))) ∧
    (s.wconf = true → s.arg1 ≠ 0 → s.arg0 = 0 ∨ s.wtotal.toNat < s.arg0.toNat ∨ s.winCap.toNat < s.arg0.toNat →
      exec .winRepeat s = .next (s.faulted 0x12 false 0x34000000) ∧
      exec .winRepgen s = .next (s.faulted 0x12 false 0x35000000)) ∧
    (s.wconf = true → 1 ≤ s.arg0.toNat → s.arg0.toNat ≤ s.wtotal.toNat → s.arg0.toNat ≤ s.winCap.toNat →
      s.arg0.toNat < s.arg1.toNat → exec .winRepeat s = .next (s.faulted 0x13 true 0x34000000)) ∧
    (s.wconf = true → 131072 < s.arg0.toNat + s.arg1.toNat →
      exec .winPushi s = .next (s.faulted 0x02 true 0x31000000) ∧
      exec .winPushl s = .next (s.faulted 0x02 true 0x32000000))

/-- R230, R234 to R236, R238, R239: where a window is configured and a command's operands are legal, an appending command
completes, with its length added to `WTOTAL`, if that stays below `2^64`. A command that would take `WTOTAL` past
`2^64 − 1` is outside the spec, and the model refuses it by name (log 10). -/
def Obligations.TotalOverflowIsRefused : Prop :=
  ∀ (s : State) (b : Byte) (i : Instr), s.wconf = true →
    (i ∈ [Instr.winPushi, .winPushl] ∧ s.arg0.toNat + s.arg1.toNat ≤ 131072) ∨ i = .winPushr b ∨
      (i ∈ [Instr.winRepeat, .winRepgen] ∧ 1 ≤ s.arg0.toNat ∧ s.arg0.toNat ≤ s.wtotal.toNat ∧
        s.arg0.toNat ≤ s.winCap.toNat ∧ (i = .winRepeat → s.arg1.toNat ≤ s.arg0.toNat)) →
    (s.wtotal.toNat + s.arg1.toNat < 2 ^ 64 →
      ∃ t, exec i s = .next t ∧ t.fault = s.fault ∧ t.pending = none ∧
        t.wtotal.toNat = s.wtotal.toNat + s.arg1.toNat) ∧
    (2 ^ 64 ≤ s.wtotal.toNat + s.arg1.toNat → exec i s = .refused .windowTotalOverflow)

/-! ### The host port (10_state.md R37, 20_memory.md, 60_exceptions.md R286) -/

/-- 10_state.md R25, 30_encoding.md R97, 44_control.md R254: the issue protocol. A host write of `CMD` makes the word pending
when the block is idle, and is dropped while a fault is held. A poll of `STATUS` returns its word; where it shows `BUSY` = 0
the host goes on. Where it shows `BUSY` = 1 the host will poll again before it goes on: the next event that is not the
host's moves first, and where none is left the block's pending command runs (that the poll is kept so is the model's
choice, log 21). -/
def Obligations.CmdWriteIssuesACommand : Prop :=
  ∀ (s : State) (rest : List Event),
    (∀ v : Word, s.busy = false → s.schedule = .host (.write 0x14 .w32 v) :: rest →
      (s.fault = false → step s = .next { s with pending := some v, busy := true, schedule := rest }) ∧
      (s.fault = true → step s = .next { s with schedule := rest })) ∧
    (s.schedule = .poll :: rest →
      (s.busy = false → step s = .next { s with schedule := rest, hostReads := s.hostReads ++ [s.statusWord] }) ∧
      (s.busy = true → ∀ (hosts others : List Event) (e : Event),
        (∀ h ∈ hosts, h.isHost = true) → e.isHost = false → rest = hosts ++ e :: others →
        step s = .next { s with schedule := e :: .poll :: (hosts ++ others)
                                hostReads := s.hostReads ++ [s.statusWord] }) ∧
      (s.busy = true → (∀ h ∈ rest, h.isHost = true) → ∀ (w : Word) (i : Instr), s.pending = some w →
        decode w = .ok i → s.fault = false → s.sinkReady = true →
        step s = exec i { s with schedule := .poll :: rest, hostReads := s.hostReads ++ [s.statusWord] }))

/-- 70_reset_and_hazards.md R305, 60_exceptions.md R286: while busy every access but a `STATUS` read and a `CTRL` write
faults `HOST_ACCESS` with its address, cancels the pending command and has no other effect; a read returns 0. -/
def Obligations.BusyAccessCancelsTheCommand : Prop :=
  ∀ (s : State) (rest : List Event) (addr v : Word) (width : Width), s.busy = true → s.fault = false →
    (s.schedule = .host (.read addr width) :: rest → ¬ (addr = 0x08 ∧ width = .w32) →
      step s = .next (State.faulted { s with schedule := rest, hostReads := s.hostReads ++ [0] } 0x16 true addr)) ∧
    (s.schedule = .host (.write addr width v) :: rest → ¬ (addr = 0x10 ∧ width = .w32) →
      step s = .next (State.faulted { s with schedule := rest } 0x16 true addr)) ∧
    (s.schedule = .host (.read 0x08 .w32) :: rest →
      step s = .next { s with schedule := rest, hostReads := s.hostReads ++ [s.statusWord] })

/-- 20_memory.md R64, R67, 60_exceptions.md R276, R286: an access that is unmapped, 32-bit and misaligned, or 8-bit and
outside IBUF, LBUF and WBUF, faults `HOST_ACCESS` with its address; a read returns 0 and a write is ignored. While a fault
is held it has only that access effect and records nothing: the state is otherwise unchanged. (While a fault is held nothing
is pending, as FaultHeldUntilReset and StepKeepsStatesWellFormed say.) -/
def Obligations.BadAccessFaults : Prop :=
  ∀ (s : State) (rest : List Event) (addr v : Word) (width : Width),
    (Unmapped s.winCapMax addr.toNat ∨ (width = .w32 ∧ addr.toNat % 4 ≠ 0) ∨
      (width = .w8 ∧ ¬ ByteAddress s.winCapMax addr.toNat)) →
    (s.fault = false →
      (s.schedule = .host (.read addr width) :: rest →
        step s = .next (State.faulted { s with schedule := rest, hostReads := s.hostReads ++ [0] } 0x16 true addr)) ∧
      (s.schedule = .host (.write addr width v) :: rest →
        step s = .next (State.faulted { s with schedule := rest } 0x16 true addr))) ∧
    (s.fault = true → s.busy = false → s.pending = none →
      (s.schedule = .host (.read addr width) :: rest →
        step s = .next { s with schedule := rest, hostReads := s.hostReads ++ [0] }) ∧
      (s.schedule = .host (.write addr width v) :: rest → step s = .next { s with schedule := rest }))

/-- 20_memory.md R68, 10_state.md R38: a host read that does not fault has no side effect; only the model's own notes (what
the read returned, the count of draws, the schedule) move. What it returns (10_state.md R37, 20_memory.md R63, R65, R66):
while the block is idle, a register's fields, an entry of NCOUNT, DT, W or HT that has been written, or the written bytes of
IBUF, LBUF or WBUF, as `State.Shows` lists them by width and address. -/
def Obligations.HostReadHasNoSideEffect : Prop :=
  ∀ (s : State) (rest : List Event) (addr : Word) (width : Width), s.schedule = .host (.read addr width) :: rest →
    (∀ t : State, s.fault = false → step s = .next t → t.fault = false →
      ∃ v draws, t = { s with schedule := rest, hostReads := s.hostReads ++ [v], draws := draws }) ∧
    (∀ v : Nat, s.busy = false → s.Shows width addr.toNat v →
      step s = .next { s with schedule := rest, hostReads := s.hostReads ++ [BitVec.ofNat 32 v] })

/-- 20_memory.md R63 to R66: a word written to IBUF or LBUF reads back, its bytes little-endian at the four addresses; a
byte written reads back, its upper bits ignored. No other byte of the memory changes. -/
def Obligations.BufferWordsReadBack : Prop :=
  ∀ (s : State) (a : Nat) (v : Word) (rest : List Event), a < 131072 → s.busy = false →
    (a % 4 = 0 → s.schedule = .host (.write (BitVec.ofNat 32 (0x100000 + a)) .w32 v) :: rest →
      ∃ m, step s = .next { s with ibuf := m, schedule := rest } ∧
        (∀ j < 4, m.get? (a + j) = some (v.extractLsb' (8 * j) 8)) ∧
        (∀ b, b < a ∨ a + 4 ≤ b → m.get? b = s.ibuf.get? b) ∧
        (memRead (BitVec.ofNat 32 (0x100000 + a)) .w32 { s with ibuf := m }).1 = v) ∧
    (a % 4 = 0 → s.schedule = .host (.write (BitVec.ofNat 32 (0x120000 + a)) .w32 v) :: rest →
      ∃ m, step s = .next { s with lbuf := m, schedule := rest } ∧
        (∀ j < 4, m.get? (a + j) = some (v.extractLsb' (8 * j) 8)) ∧
        (∀ b, b < a ∨ a + 4 ≤ b → m.get? b = s.lbuf.get? b) ∧
        (memRead (BitVec.ofNat 32 (0x120000 + a)) .w32 { s with lbuf := m }).1 = v) ∧
    (s.schedule = .host (.write (BitVec.ofNat 32 (0x100000 + a)) .w8 v) :: rest →
      ∃ m, step s = .next { s with ibuf := m, schedule := rest } ∧
        m.get? a = some (v.extractLsb' 0 8) ∧ (∀ b, b ≠ a → m.get? b = s.ibuf.get? b) ∧
        (memRead (BitVec.ofNat 32 (0x100000 + a)) .w8 { s with ibuf := m }).1 = v &&& 0xFF) ∧
    (s.schedule = .host (.write (BitVec.ofNat 32 (0x120000 + a)) .w8 v) :: rest →
      ∃ m, step s = .next { s with lbuf := m, schedule := rest } ∧
        m.get? a = some (v.extractLsb' 0 8) ∧ (∀ b, b ≠ a → m.get? b = s.lbuf.get? b) ∧
        (memRead (BitVec.ofNat 32 (0x120000 + a)) .w8 { s with lbuf := m }).1 = v &&& 0xFF)

/-- 10_state.md R26, R37, 20_memory.md R63, R68: a host write of `ARGn` stores the word; a host write of `HUF_NW` or of a
weight stores its low bits and clears `HUF_VALID`. Nothing else changes. -/
def Obligations.WeightWritesClearHufValid : Prop :=
  ∀ (s : State) (v : Word) (i : Nat) (rest : List Event), s.busy = false → i < 256 →
    (s.schedule = .host (.write 0x18 .w32 v) :: rest → step s = .next { s with arg0 := v, schedule := rest }) ∧
    (s.schedule = .host (.write 0x1C .w32 v) :: rest → step s = .next { s with arg1 := v, schedule := rest }) ∧
    (s.schedule = .host (.write 0x20 .w32 v) :: rest → step s = .next { s with arg2 := v, schedule := rest }) ∧
    (s.schedule = .host (.write 0x24 .w32 v) :: rest → step s = .next { s with arg3 := v, schedule := rest }) ∧
    (s.schedule = .host (.write 0x84 .w32 v) :: rest →
      step s = .next { s with hufNw := v.extractLsb' 0 8, hufValid := false, schedule := rest }) ∧
    (s.schedule = .host (.write (BitVec.ofNat 32 (0x160000 + 4 * i)) .w32 v) :: rest →
      ∃ m, step s = .next { s with w := m, hufValid := false, schedule := rest } ∧
        m.get? i = some (v.extractLsb' 0 4) ∧ ∀ j, j ≠ i → m.get? j = s.w.get? j)

/-- 10_state.md R37, R38, 20_memory.md R63, R64, R66: a write to a read-only register, to an entry of NCOUNT, DT or HT, or to
a byte or word of WBUF, of a legal width and aligned, is ignored, without a fault. -/
def Obligations.ReadOnlyRegistersIgnoreWrites : Prop :=
  ∀ (s : State) (addr v : Word) (width : Width) (rest : List Event), s.busy = false →
    ReadOnlyAddress s.winCapMax width addr.toNat →
    s.schedule = .host (.write addr width v) :: rest → step s = .next { s with schedule := rest }

/-- 70_reset_and_hazards.md R301, R302, 10_state.md R24: a write of `CTRL` with bit 0 set, at any time, gives every register
its power-on value and cancels a pending command; the memories and `OUT` are kept. With bit 0 clear it has no effect. -/
def Obligations.SoftResetKeepsMemoriesAndOutput : Prop :=
  ∀ (s : State) (v : Word) (rest : List Event), s.schedule = .host (.write 0x10 .w32 v) :: rest →
    (v.getLsbD 0 = true → ∃ slots,
      step s = .next { State.reset with
        slots := slots, w := s.w, ht := s.ht, ibuf := s.ibuf, lbuf := s.lbuf, wbuf := s.wbuf, out := s.out
        winCapMax := s.winCapMax, draws := s.draws, schedule := rest, sinkReady := s.sinkReady
        hostReads := s.hostReads } ∧
      ∀ τ : Fin 8, slots[τ] = { Slot.reset with ncount := (s.slot τ).ncount, dt := (s.slot τ).dt }) ∧
    (v.getLsbD 0 = false → step s = .next { s with schedule := rest })

/-! ### Reset and the invariant -/

/-- R300: after power-on every register is 0, nothing is pending or valid, no memory entry has been written, and `OUT` is
empty; `ID`, `VERSION` and `STATUS` read 0x535A4457, 7 and 0. -/
def Obligations.PowerOnValues : Prop :=
  State.reset.statusWord = 0 ∧ State.reset.faultInfo = 0 ∧ State.reset.pending = none ∧
  State.reset.arg0 = 0 ∧ State.reset.arg1 = 0 ∧ State.reset.arg2 = 0 ∧ State.reset.arg3 = 0 ∧ State.reset.res = 0 ∧
  State.reset.br = ⟨0, 0, 0⟩ ∧ State.reset.fr = ⟨0, 0, 0, false⟩ ∧
  (∀ τ, State.reset.slot τ = ⟨false, false, 0, 0, [], []⟩) ∧ (∀ k, State.reset.fse k = ⟨0, 0, false⟩) ∧
  State.reset.hufNw = 0 ∧ State.reset.hufValid = false ∧ State.reset.hufMaxbits = 0 ∧ State.reset.hufNsym = 0 ∧
  State.reset.wconf = false ∧ State.reset.winCap = 0 ∧ State.reset.wtotal = 0 ∧ State.reset.wflushed = 0 ∧
  State.reset.ibuf = [] ∧ State.reset.lbuf = [] ∧ State.reset.wbuf = [] ∧ State.reset.w = [] ∧ State.reset.ht = [] ∧
  State.reset.out = [] ∧
  (memRead 0x00 .w32 State.reset).1 = 0x535A4457 ∧ (memRead 0x04 .w32 State.reset).1 = 7 ∧
  (memRead 0x08 .w32 State.reset).1 = 0

/-- The state after power-on is well formed. -/
def Obligations.ResetIsWellFormed : Prop := State.reset.Wf

/-- 10_state.md R39: every step keeps the state well formed: `WFLUSHED ≤ WTOTAL`; `WTOTAL − WFLUSHED ≤ WIN_CAP` while
configured; a bound state register names a usable slot and a state of it; `FR_POS ≤ 8·FR_LEN`; `BUSY` = 1 exactly when
`PENDING` holds a word; and what `State.Wf` adds. -/
def Obligations.StepKeepsStatesWellFormed : Prop :=
  ∀ s t : State, s.Wf → step s = .next t → t.Wf
end

