-- ==== Sys2Proof/Laws/Memory.lean ====
section
/-! SUPPORT. The laws of the memories: a read after a write, and the canonical form, which every memory operation keeps
(20_memory.md R61, R62). -/

namespace Sys2Proof.Machine

variable {α : Type}

/-! ### Reads after writes -/

@[simp] theorem Memory.get?_nil (a : Nat) : Memory.get? ([] : Memory α) a = none := rfl

theorem Memory.get?_put (m : Memory α) (a b : Nat) (v : α) :
    (m.put a v).get? b = if b = a then some v else m.get? b := by
  induction m with
  | nil => simp [put, get?, eq_comm]
  | cons c m ih =>
    obtain ⟨k, x⟩ := c
    simp only [put]
    by_cases h1 : a < k
    · by_cases hb : b = a
      · simp [h1, get?, hb]
      · simp [h1, get?, hb, Ne.symm hb]
    · by_cases h2 : a = k
      · subst h2
        by_cases hb : b = a
        · simp [get?, hb]
        · simp [get?, hb, Ne.symm hb]
      · simp only [h1, h2, if_false, get?, ih]
        by_cases hb : b = a
        · subst hb; simp [Ne.symm h2]
        · simp [hb]

@[simp] theorem Memory.get?_put_same (m : Memory α) (a : Nat) (v : α) : (m.put a v).get? a = some v := by
  simp [get?_put]

theorem Memory.get?_put_ne (m : Memory α) {a b : Nat} (v : α) (h : b ≠ a) : (m.put a v).get? b = m.get? b := by
  simp [get?_put, h]

/-- What a block write leaves at every index. -/
theorem Memory.get?_putList (m : Memory α) (vs : List α) (a b : Nat) :
    (m.putList a vs).get? b = if a ≤ b ∧ b < a + vs.length then vs[b - a]? else m.get? b := by
  induction vs generalizing m a with
  | nil => simp [putList]
  | cons v vs ih =>
    rw [putList, ih, get?_put, List.length_cons]
    by_cases hb : b = a
    · subst hb; simp
    · by_cases h : a + 1 ≤ b ∧ b < a + 1 + vs.length
      · rw [if_pos h, if_pos (by omega), show b - a = (b - (a + 1)) + 1 by omega]; simp
      · rw [if_neg h, if_neg hb, if_neg (by omega)]

/-! ### The canonical form -/

/-- The canonical form as a property of the list: indexes strictly rising. -/
theorem Memory.rising_iff (m : Memory α) : m.rising = true ↔ (m.map Prod.fst).Pairwise (· < ·) := by
  induction m with
  | nil => simp [rising]
  | cons c m ih =>
    obtain ⟨a, x⟩ := c
    cases m with
    | nil => simp [rising]
    | cons d m =>
      obtain ⟨b, y⟩ := d
      simp only [rising, Bool.and_eq_true, decide_eq_true_eq, ih, List.map_cons, List.pairwise_cons, List.mem_cons]
      constructor
      · rintro ⟨hab, hb, hm⟩
        exact ⟨fun k hk => hk.elim (fun h => h ▸ hab) fun h => lt_trans hab (hb k h), hb, hm⟩
      · rintro ⟨ha, hb, hm⟩
        exact ⟨ha b (.inl rfl), hb, hm⟩

theorem Memory.wf_iff (m : Memory α) (size : Nat) :
    m.wf size = true ↔ (m.map Prod.fst).Pairwise (· < ·) ∧ ∀ c ∈ m, c.1 < size := by
  simp [wf, rising_iff]

/-- The indexes a write may leave: those listed before, and the one written. -/
theorem Memory.mem_put {m : Memory α} {a : Nat} {v : α} {c : Nat × α} (h : c ∈ m.put a v) : c = (a, v) ∨ c ∈ m := by
  induction m with
  | nil => simpa [put] using h
  | cons d m ih =>
    obtain ⟨k, x⟩ := d
    simp only [put] at h
    split_ifs at h <;> simp only [List.mem_cons] at h ⊢ <;> tauto

theorem Memory.put_wf {m : Memory α} {size a : Nat} (v : α) (h : m.wf size = true) (ha : a < size) :
    (m.put a v).wf size = true := by
  rw [wf_iff] at h ⊢
  refine ⟨?_, fun c hc => (mem_put hc).elim (fun e => e ▸ ha) (h.2 c)⟩
  obtain ⟨h, -⟩ := h
  induction m with
  | nil => simp [put]
  | cons d m ih =>
    obtain ⟨k, x⟩ := d
    simp only [List.map_cons, List.pairwise_cons] at h
    simp only [put]
    split_ifs with h1 h2
    · simp only [List.map_cons, List.pairwise_cons, List.mem_cons]
      exact ⟨fun b hb => hb.elim (fun e => e ▸ h1) fun hb => h1.trans (h.1 b hb), h.1, h.2⟩
    · subst h2; simpa using h
    · simp only [List.map_cons, List.pairwise_cons]
      refine ⟨fun b hb => ?_, ih h.2⟩
      obtain ⟨c, hc, rfl⟩ := List.mem_map.1 hb
      rcases mem_put hc with rfl | hc
      · show k < a; omega
      · exact h.1 _ (List.mem_map_of_mem hc)

theorem Memory.putList_wf {m : Memory α} {size a : Nat} (vs : List α) (h : m.wf size = true)
    (ha : a + vs.length ≤ size) : (m.putList a vs).wf size = true := by
  induction vs generalizing m a with
  | nil => exact h
  | cons v vs ih =>
    simp only [List.length_cons] at ha
    exact ih (put_wf v h (by omega)) (by omega)

theorem Memory.forget_wf {m : Memory α} {size : Nat} (lo n : Nat) (h : m.wf size = true) :
    (m.forget lo n).wf size = true := by
  rw [wf_iff] at h ⊢
  exact ⟨h.1.sublist (List.filter_sublist.map _), fun c hc => h.2 c (List.mem_filter.1 hc).1⟩

/-- `ofList` lists exactly its entries, from index 0 upward. -/
theorem Memory.get?_zip_range (vs : List α) (n b : Nat) :
    Memory.get? ((List.range' n vs.length).zip vs) b = if n ≤ b then vs[b - n]? else none := by
  induction vs generalizing n with
  | nil => simp
  | cons v vs ih =>
    simp only [List.length_cons, List.range'_succ, List.zip_cons_cons, get?, ih]
    by_cases h : n = b
    · subst h; simp
    · by_cases hn : n + 1 ≤ b
      · rw [if_neg h, if_pos hn, if_pos (by omega), show b - n = (b - (n + 1)) + 1 by omega]; simp
      · rw [if_neg h, if_neg hn, if_neg (by omega)]

@[simp] theorem Memory.get?_ofList (vs : List α) (b : Nat) : (Memory.ofList vs).get? b = vs[b]? := by
  simpa [ofList, List.range_eq_range'] using get?_zip_range vs 0 b

theorem Memory.ofList_wf {vs : List α} {size : Nat} (h : vs.length ≤ size) : (Memory.ofList vs).wf size = true := by
  rw [wf_iff]
  have e : (Memory.ofList vs).map Prod.fst = List.range vs.length := by
    simp [ofList, List.map_fst_zip]
  refine ⟨e ▸ List.pairwise_lt_range, fun c hc => ?_⟩
  have : c.1 ∈ List.range vs.length := e ▸ List.mem_map_of_mem hc
  have := List.mem_range.1 this
  omega

/-- Every memory is in canonical form at power-on. -/
theorem Memory.reset_wf (size : Nat) : Memory.wf ([] : Memory α) size = true := rfl

/-- In canonical form, an index is listed exactly when it reads as an entry. -/
theorem Memory.get?_eq_some_iff {m : Memory α} {size : Nat} (h : m.wf size = true) (a : Nat) (v : α) :
    m.get? a = some v ↔ (a, v) ∈ m := by
  obtain ⟨p, -⟩ := (wf_iff m size).1 h
  clear h
  induction m with
  | nil => simp
  | cons c m ih =>
    obtain ⟨k, x⟩ := c
    simp only [List.map_cons, List.pairwise_cons] at p
    simp only [get?, List.mem_cons, Prod.mk.injEq]
    split_ifs with e
    · subst e
      refine ⟨fun hv => .inl ⟨rfl, (Option.some.inj hv).symm⟩, ?_⟩
      rintro (⟨-, rfl⟩ | hm)
      · rfl
      · exact absurd (p.1 _ (List.mem_map_of_mem hm)) (lt_irrefl _)
    · rw [ih p.2]; constructor
      · exact .inr
      · rintro (⟨rfl, -⟩ | hm)
        · exact absurd rfl e
        · exact hm

/-- In canonical form, forgetting a range empties it and leaves every other index alone. -/
theorem Memory.get?_forget {m : Memory α} {size : Nat} (h : m.wf size = true) (lo n a : Nat) :
    (m.forget lo n).get? a = if lo ≤ a ∧ a < lo + n then none else m.get? a := by
  ext v
  rw [get?_eq_some_iff (forget_wf lo n h)]
  split_ifs with ha
  · simp [forget, ha]
  · rw [get?_eq_some_iff h]
    simp only [forget, List.mem_filter, Bool.not_eq_true', Bool.and_eq_false_iff, decide_eq_false_iff_not]
    exact ⟨fun h => h.1, fun h => ⟨h, by omega⟩⟩

/-- Two memories in canonical form that read alike are equal data. -/
theorem Memory.ext_of_wf {m₁ m₂ : Memory α} {size : Nat} (h₁ : m₁.wf size = true) (h₂ : m₂.wf size = true)
    (h : ∀ a, m₁.get? a = m₂.get? a) : m₁ = m₂ := by
  have p₁ := ((wf_iff m₁ size).1 h₁).1
  have p₂ := ((wf_iff m₂ size).1 h₂).1
  refine List.Perm.eq_of_pairwise (le := fun c d => c.1 < d.1) ?_ (List.pairwise_map.1 p₁) (List.pairwise_map.1 p₂) ?_
  · intro c d _ _ h1 h2; omega
  · refine (List.perm_ext_iff_of_nodup ?_ ?_).2 ?_
    · exact (List.pairwise_map.1 p₁).imp fun h e => by rw [e] at h; omega
    · exact (List.pairwise_map.1 p₂).imp fun h e => by rw [e] at h; omega
    · rintro ⟨a, v⟩
      rw [← get?_eq_some_iff h₁, ← get?_eq_some_iff h₂, h]

/-! ### Reads of written entries draw nothing -/

theorem Memory.readByte_listed {m : Memory Byte} {a : Nat} {b : Byte} (h : m.get? a = some b) (draws : Nat) :
    m.readByte a draws = (b, draws) := by simp [readByte, h]

theorem Memory.readCount_listed {m : Memory (BitVec 16)} {a : Nat} {c : BitVec 16} (h : m.get? a = some c)
    (draws : Nat) : m.readCount a draws = (c, draws) := by simp [readCount, h]

theorem Memory.readWeight_listed {m : Memory (BitVec 4)} {a : Nat} {c : BitVec 4} (h : m.get? a = some c)
    (draws : Nat) : m.readWeight a draws = (c, draws) := by simp [readWeight, h]

theorem Memory.readDt_listed {m : Memory DtEntry} {a : Nat} {e : DtEntry} (h : m.get? a = some e) (draws : Nat) :
    m.readDt a draws = (e, draws) := by simp [readDt, h]

theorem Memory.readHt_listed {m : Memory HtEntry} {a : Nat} {e : HtEntry} (h : m.get? a = some e) (draws : Nat) :
    m.readHt a draws = (e, draws) := by simp [readHt, h]

/-- A byte of a range the memory holds reads as itself. -/
theorem Memory.holds.readByte {m : Memory Byte} {base : Nat} {bs : List Byte} (h : m.holds base bs) {j : Nat}
    (hj : j < bs.length) (draws : Nat) : m.readByte (base + j) draws = (bs[j], draws) :=
  Memory.readByte_listed (h j hj) draws

/-- `n` counts are read, whatever is written. -/
@[simp] theorem Memory.length_readCounts (m : Memory (BitVec 16)) (n i draws : Nat) :
    (m.readCounts n i draws).1.length = n := by
  induction n generalizing i draws with
  | zero => rfl
  | succ n ih => simp [readCounts, ih]

/-- `n` weights are read, whatever is written. -/
@[simp] theorem Memory.length_readWeights (m : Memory (BitVec 4)) (n i draws : Nat) :
    (m.readWeights n i draws).1.length = n := by
  induction n generalizing i draws with
  | zero => rfl
  | succ n ih => simp [readWeights, ih]

/-- Counts that are all written read as they are, and draw nothing. -/
theorem Memory.readCounts_listed {m : Memory (BitVec 16)} {n i draws : Nat}
    (h : ∀ j, i ≤ j → j < i + n → (m.get? j).isSome) :
    m.readCounts n i draws = ((List.range' i n).map fun j => ((m.get? j).getD 0).toInt, draws) := by
  induction n generalizing i with
  | zero => rfl
  | succ n ih =>
    obtain ⟨c, hc⟩ := Option.isSome_iff_exists.1 (h i le_rfl (by omega))
    have := ih (i := i + 1) fun j h1 h2 => h j (by omega) (by omega)
    simp [readCounts, readCount_listed hc, this, List.range'_succ, hc]

/-- Weights that are all written read as they are, and draw nothing. -/
theorem Memory.readWeights_listed {m : Memory (BitVec 4)} {n i draws : Nat}
    (h : ∀ j, i ≤ j → j < i + n → (m.get? j).isSome) :
    m.readWeights n i draws = ((List.range' i n).map fun j => ((m.get? j).getD 0).toNat, draws) := by
  induction n generalizing i with
  | zero => rfl
  | succ n ih =>
    obtain ⟨c, hc⟩ := Option.isSome_iff_exists.1 (h i le_rfl (by omega))
    have := ih (i := i + 1) fun j h1 h2 => h j (by omega) (by omega)
    simp [readWeights, readWeight_listed hc, this, List.range'_succ, hc]

end Sys2Proof.Machine
end

