-- ==== Sys2Proof/Laws/State.lean ====
section
/-! SUPPORT. One lemma per field per update of the state, so that no proof unfolds a record update. The lemmas of one update
stand together; `complete`, `faultEntry` and `softReset` are the ends of a command, a fault and a reset. -/

namespace Sys2Proof.Machine

/-! ### `complete` -/

@[simp] theorem complete_busy (s : State) : (complete s).busy = false := rfl
@[simp] theorem complete_fault (s : State) : (complete s).fault = s.fault := rfl
@[simp] theorem complete_prog (s : State) : (complete s).prog = s.prog := rfl
@[simp] theorem complete_code (s : State) : (complete s).code = s.code := rfl
@[simp] theorem complete_faultInfo (s : State) : (complete s).faultInfo = s.faultInfo := rfl
@[simp] theorem complete_pending (s : State) : (complete s).pending = none := rfl
@[simp] theorem complete_arg0 (s : State) : (complete s).arg0 = s.arg0 := rfl
@[simp] theorem complete_arg1 (s : State) : (complete s).arg1 = s.arg1 := rfl
@[simp] theorem complete_arg2 (s : State) : (complete s).arg2 = s.arg2 := rfl
@[simp] theorem complete_arg3 (s : State) : (complete s).arg3 = s.arg3 := rfl
@[simp] theorem complete_res (s : State) : (complete s).res = s.res := rfl
@[simp] theorem complete_br (s : State) : (complete s).br = s.br := rfl
@[simp] theorem complete_fr (s : State) : (complete s).fr = s.fr := rfl
@[simp] theorem complete_slots (s : State) : (complete s).slots = s.slots := rfl
@[simp] theorem complete_states (s : State) : (complete s).states = s.states := rfl
@[simp] theorem complete_w (s : State) : (complete s).w = s.w := rfl
@[simp] theorem complete_hufNw (s : State) : (complete s).hufNw = s.hufNw := rfl
@[simp] theorem complete_hufValid (s : State) : (complete s).hufValid = s.hufValid := rfl
@[simp] theorem complete_hufMaxbits (s : State) : (complete s).hufMaxbits = s.hufMaxbits := rfl
@[simp] theorem complete_hufNsym (s : State) : (complete s).hufNsym = s.hufNsym := rfl
@[simp] theorem complete_ht (s : State) : (complete s).ht = s.ht := rfl
@[simp] theorem complete_wconf (s : State) : (complete s).wconf = s.wconf := rfl
@[simp] theorem complete_winCap (s : State) : (complete s).winCap = s.winCap := rfl
@[simp] theorem complete_wtotal (s : State) : (complete s).wtotal = s.wtotal := rfl
@[simp] theorem complete_wflushed (s : State) : (complete s).wflushed = s.wflushed := rfl
@[simp] theorem complete_wbuf (s : State) : (complete s).wbuf = s.wbuf := rfl
@[simp] theorem complete_ibuf (s : State) : (complete s).ibuf = s.ibuf := rfl
@[simp] theorem complete_lbuf (s : State) : (complete s).lbuf = s.lbuf := rfl
@[simp] theorem complete_out (s : State) : (complete s).out = s.out := rfl
@[simp] theorem complete_winCapMax (s : State) : (complete s).winCapMax = s.winCapMax := rfl
@[simp] theorem complete_draws (s : State) : (complete s).draws = s.draws := rfl
@[simp] theorem complete_schedule (s : State) : (complete s).schedule = s.schedule := rfl
@[simp] theorem complete_sinkReady (s : State) : (complete s).sinkReady = s.sinkReady := rfl
@[simp] theorem complete_hostReads (s : State) : (complete s).hostReads = s.hostReads := rfl

/-! ### `State.setBack` -/

@[simp] theorem State.setBack_busy (s : State) (c : BackCursor) : (s.setBack c).busy = s.busy := rfl
@[simp] theorem State.setBack_fault (s : State) (c : BackCursor) : (s.setBack c).fault = s.fault := rfl
@[simp] theorem State.setBack_prog (s : State) (c : BackCursor) : (s.setBack c).prog = s.prog := rfl
@[simp] theorem State.setBack_code (s : State) (c : BackCursor) : (s.setBack c).code = s.code := rfl
@[simp] theorem State.setBack_faultInfo (s : State) (c : BackCursor) : (s.setBack c).faultInfo = s.faultInfo := rfl
@[simp] theorem State.setBack_pending (s : State) (c : BackCursor) : (s.setBack c).pending = s.pending := rfl
@[simp] theorem State.setBack_arg0 (s : State) (c : BackCursor) : (s.setBack c).arg0 = s.arg0 := rfl
@[simp] theorem State.setBack_arg1 (s : State) (c : BackCursor) : (s.setBack c).arg1 = s.arg1 := rfl
@[simp] theorem State.setBack_arg2 (s : State) (c : BackCursor) : (s.setBack c).arg2 = s.arg2 := rfl
@[simp] theorem State.setBack_arg3 (s : State) (c : BackCursor) : (s.setBack c).arg3 = s.arg3 := rfl
@[simp] theorem State.setBack_res (s : State) (c : BackCursor) : (s.setBack c).res = s.res := rfl
@[simp] theorem State.setBack_br (s : State) (c : BackCursor) : (s.setBack c).br = c.reader := rfl
@[simp] theorem State.setBack_fr (s : State) (c : BackCursor) : (s.setBack c).fr = s.fr := rfl
@[simp] theorem State.setBack_slots (s : State) (c : BackCursor) : (s.setBack c).slots = s.slots := rfl
@[simp] theorem State.setBack_states (s : State) (c : BackCursor) : (s.setBack c).states = s.states := rfl
@[simp] theorem State.setBack_w (s : State) (c : BackCursor) : (s.setBack c).w = s.w := rfl
@[simp] theorem State.setBack_hufNw (s : State) (c : BackCursor) : (s.setBack c).hufNw = s.hufNw := rfl
@[simp] theorem State.setBack_hufValid (s : State) (c : BackCursor) : (s.setBack c).hufValid = s.hufValid := rfl
@[simp] theorem State.setBack_hufMaxbits (s : State) (c : BackCursor) : (s.setBack c).hufMaxbits = s.hufMaxbits := rfl
@[simp] theorem State.setBack_hufNsym (s : State) (c : BackCursor) : (s.setBack c).hufNsym = s.hufNsym := rfl
@[simp] theorem State.setBack_ht (s : State) (c : BackCursor) : (s.setBack c).ht = s.ht := rfl
@[simp] theorem State.setBack_wconf (s : State) (c : BackCursor) : (s.setBack c).wconf = s.wconf := rfl
@[simp] theorem State.setBack_winCap (s : State) (c : BackCursor) : (s.setBack c).winCap = s.winCap := rfl
@[simp] theorem State.setBack_wtotal (s : State) (c : BackCursor) : (s.setBack c).wtotal = s.wtotal := rfl
@[simp] theorem State.setBack_wflushed (s : State) (c : BackCursor) : (s.setBack c).wflushed = s.wflushed := rfl
@[simp] theorem State.setBack_wbuf (s : State) (c : BackCursor) : (s.setBack c).wbuf = s.wbuf := rfl
@[simp] theorem State.setBack_ibuf (s : State) (c : BackCursor) : (s.setBack c).ibuf = s.ibuf := rfl
@[simp] theorem State.setBack_lbuf (s : State) (c : BackCursor) : (s.setBack c).lbuf = s.lbuf := rfl
@[simp] theorem State.setBack_out (s : State) (c : BackCursor) : (s.setBack c).out = s.out := rfl
@[simp] theorem State.setBack_winCapMax (s : State) (c : BackCursor) : (s.setBack c).winCapMax = s.winCapMax := rfl
@[simp] theorem State.setBack_draws (s : State) (c : BackCursor) : (s.setBack c).draws = c.draws := rfl
@[simp] theorem State.setBack_schedule (s : State) (c : BackCursor) : (s.setBack c).schedule = s.schedule := rfl
@[simp] theorem State.setBack_sinkReady (s : State) (c : BackCursor) : (s.setBack c).sinkReady = s.sinkReady := rfl
@[simp] theorem State.setBack_hostReads (s : State) (c : BackCursor) : (s.setBack c).hostReads = s.hostReads := rfl

/-! ### `State.setFwd` -/

@[simp] theorem State.setFwd_busy (s : State) (c : FwdCursor) : (s.setFwd c).busy = s.busy := rfl
@[simp] theorem State.setFwd_fault (s : State) (c : FwdCursor) : (s.setFwd c).fault = s.fault := rfl
@[simp] theorem State.setFwd_prog (s : State) (c : FwdCursor) : (s.setFwd c).prog = s.prog := rfl
@[simp] theorem State.setFwd_code (s : State) (c : FwdCursor) : (s.setFwd c).code = s.code := rfl
@[simp] theorem State.setFwd_faultInfo (s : State) (c : FwdCursor) : (s.setFwd c).faultInfo = s.faultInfo := rfl
@[simp] theorem State.setFwd_pending (s : State) (c : FwdCursor) : (s.setFwd c).pending = s.pending := rfl
@[simp] theorem State.setFwd_arg0 (s : State) (c : FwdCursor) : (s.setFwd c).arg0 = s.arg0 := rfl
@[simp] theorem State.setFwd_arg1 (s : State) (c : FwdCursor) : (s.setFwd c).arg1 = s.arg1 := rfl
@[simp] theorem State.setFwd_arg2 (s : State) (c : FwdCursor) : (s.setFwd c).arg2 = s.arg2 := rfl
@[simp] theorem State.setFwd_arg3 (s : State) (c : FwdCursor) : (s.setFwd c).arg3 = s.arg3 := rfl
@[simp] theorem State.setFwd_res (s : State) (c : FwdCursor) : (s.setFwd c).res = s.res := rfl
@[simp] theorem State.setFwd_br (s : State) (c : FwdCursor) : (s.setFwd c).br = s.br := rfl
@[simp] theorem State.setFwd_fr (s : State) (c : FwdCursor) : (s.setFwd c).fr = c.reader := rfl
@[simp] theorem State.setFwd_slots (s : State) (c : FwdCursor) : (s.setFwd c).slots = s.slots := rfl
@[simp] theorem State.setFwd_states (s : State) (c : FwdCursor) : (s.setFwd c).states = s.states := rfl
@[simp] theorem State.setFwd_w (s : State) (c : FwdCursor) : (s.setFwd c).w = s.w := rfl
@[simp] theorem State.setFwd_hufNw (s : State) (c : FwdCursor) : (s.setFwd c).hufNw = s.hufNw := rfl
@[simp] theorem State.setFwd_hufValid (s : State) (c : FwdCursor) : (s.setFwd c).hufValid = s.hufValid := rfl
@[simp] theorem State.setFwd_hufMaxbits (s : State) (c : FwdCursor) : (s.setFwd c).hufMaxbits = s.hufMaxbits := rfl
@[simp] theorem State.setFwd_hufNsym (s : State) (c : FwdCursor) : (s.setFwd c).hufNsym = s.hufNsym := rfl
@[simp] theorem State.setFwd_ht (s : State) (c : FwdCursor) : (s.setFwd c).ht = s.ht := rfl
@[simp] theorem State.setFwd_wconf (s : State) (c : FwdCursor) : (s.setFwd c).wconf = s.wconf := rfl
@[simp] theorem State.setFwd_winCap (s : State) (c : FwdCursor) : (s.setFwd c).winCap = s.winCap := rfl
@[simp] theorem State.setFwd_wtotal (s : State) (c : FwdCursor) : (s.setFwd c).wtotal = s.wtotal := rfl
@[simp] theorem State.setFwd_wflushed (s : State) (c : FwdCursor) : (s.setFwd c).wflushed = s.wflushed := rfl
@[simp] theorem State.setFwd_wbuf (s : State) (c : FwdCursor) : (s.setFwd c).wbuf = s.wbuf := rfl
@[simp] theorem State.setFwd_ibuf (s : State) (c : FwdCursor) : (s.setFwd c).ibuf = s.ibuf := rfl
@[simp] theorem State.setFwd_lbuf (s : State) (c : FwdCursor) : (s.setFwd c).lbuf = s.lbuf := rfl
@[simp] theorem State.setFwd_out (s : State) (c : FwdCursor) : (s.setFwd c).out = s.out := rfl
@[simp] theorem State.setFwd_winCapMax (s : State) (c : FwdCursor) : (s.setFwd c).winCapMax = s.winCapMax := rfl
@[simp] theorem State.setFwd_draws (s : State) (c : FwdCursor) : (s.setFwd c).draws = c.draws := rfl
@[simp] theorem State.setFwd_schedule (s : State) (c : FwdCursor) : (s.setFwd c).schedule = s.schedule := rfl
@[simp] theorem State.setFwd_sinkReady (s : State) (c : FwdCursor) : (s.setFwd c).sinkReady = s.sinkReady := rfl
@[simp] theorem State.setFwd_hostReads (s : State) (c : FwdCursor) : (s.setFwd c).hostReads = s.hostReads := rfl

/-! ### `State.setSlot` -/

@[simp] theorem State.setSlot_busy (s : State) (t : Fin 8) (v : Slot) : (s.setSlot t v).busy = s.busy := rfl
@[simp] theorem State.setSlot_fault (s : State) (t : Fin 8) (v : Slot) : (s.setSlot t v).fault = s.fault := rfl
@[simp] theorem State.setSlot_prog (s : State) (t : Fin 8) (v : Slot) : (s.setSlot t v).prog = s.prog := rfl
@[simp] theorem State.setSlot_code (s : State) (t : Fin 8) (v : Slot) : (s.setSlot t v).code = s.code := rfl
@[simp] theorem State.setSlot_faultInfo (s : State) (t : Fin 8) (v : Slot) : (s.setSlot t v).faultInfo = s.faultInfo := rfl
@[simp] theorem State.setSlot_pending (s : State) (t : Fin 8) (v : Slot) : (s.setSlot t v).pending = s.pending := rfl
@[simp] theorem State.setSlot_arg0 (s : State) (t : Fin 8) (v : Slot) : (s.setSlot t v).arg0 = s.arg0 := rfl
@[simp] theorem State.setSlot_arg1 (s : State) (t : Fin 8) (v : Slot) : (s.setSlot t v).arg1 = s.arg1 := rfl
@[simp] theorem State.setSlot_arg2 (s : State) (t : Fin 8) (v : Slot) : (s.setSlot t v).arg2 = s.arg2 := rfl
@[simp] theorem State.setSlot_arg3 (s : State) (t : Fin 8) (v : Slot) : (s.setSlot t v).arg3 = s.arg3 := rfl
@[simp] theorem State.setSlot_res (s : State) (t : Fin 8) (v : Slot) : (s.setSlot t v).res = s.res := rfl
@[simp] theorem State.setSlot_br (s : State) (t : Fin 8) (v : Slot) : (s.setSlot t v).br = s.br := rfl
@[simp] theorem State.setSlot_fr (s : State) (t : Fin 8) (v : Slot) : (s.setSlot t v).fr = s.fr := rfl
@[simp] theorem State.setSlot_slots (s : State) (t : Fin 8) (v : Slot) : (s.setSlot t v).slots = s.slots.set t v := rfl
@[simp] theorem State.setSlot_states (s : State) (t : Fin 8) (v : Slot) : (s.setSlot t v).states = s.states := rfl
@[simp] theorem State.setSlot_w (s : State) (t : Fin 8) (v : Slot) : (s.setSlot t v).w = s.w := rfl
@[simp] theorem State.setSlot_hufNw (s : State) (t : Fin 8) (v : Slot) : (s.setSlot t v).hufNw = s.hufNw := rfl
@[simp] theorem State.setSlot_hufValid (s : State) (t : Fin 8) (v : Slot) : (s.setSlot t v).hufValid = s.hufValid := rfl
@[simp] theorem State.setSlot_hufMaxbits (s : State) (t : Fin 8) (v : Slot) : (s.setSlot t v).hufMaxbits = s.hufMaxbits := rfl
@[simp] theorem State.setSlot_hufNsym (s : State) (t : Fin 8) (v : Slot) : (s.setSlot t v).hufNsym = s.hufNsym := rfl
@[simp] theorem State.setSlot_ht (s : State) (t : Fin 8) (v : Slot) : (s.setSlot t v).ht = s.ht := rfl
@[simp] theorem State.setSlot_wconf (s : State) (t : Fin 8) (v : Slot) : (s.setSlot t v).wconf = s.wconf := rfl
@[simp] theorem State.setSlot_winCap (s : State) (t : Fin 8) (v : Slot) : (s.setSlot t v).winCap = s.winCap := rfl
@[simp] theorem State.setSlot_wtotal (s : State) (t : Fin 8) (v : Slot) : (s.setSlot t v).wtotal = s.wtotal := rfl
@[simp] theorem State.setSlot_wflushed (s : State) (t : Fin 8) (v : Slot) : (s.setSlot t v).wflushed = s.wflushed := rfl
@[simp] theorem State.setSlot_wbuf (s : State) (t : Fin 8) (v : Slot) : (s.setSlot t v).wbuf = s.wbuf := rfl
@[simp] theorem State.setSlot_ibuf (s : State) (t : Fin 8) (v : Slot) : (s.setSlot t v).ibuf = s.ibuf := rfl
@[simp] theorem State.setSlot_lbuf (s : State) (t : Fin 8) (v : Slot) : (s.setSlot t v).lbuf = s.lbuf := rfl
@[simp] theorem State.setSlot_out (s : State) (t : Fin 8) (v : Slot) : (s.setSlot t v).out = s.out := rfl
@[simp] theorem State.setSlot_winCapMax (s : State) (t : Fin 8) (v : Slot) : (s.setSlot t v).winCapMax = s.winCapMax := rfl
@[simp] theorem State.setSlot_draws (s : State) (t : Fin 8) (v : Slot) : (s.setSlot t v).draws = s.draws := rfl
@[simp] theorem State.setSlot_schedule (s : State) (t : Fin 8) (v : Slot) : (s.setSlot t v).schedule = s.schedule := rfl
@[simp] theorem State.setSlot_sinkReady (s : State) (t : Fin 8) (v : Slot) : (s.setSlot t v).sinkReady = s.sinkReady := rfl
@[simp] theorem State.setSlot_hostReads (s : State) (t : Fin 8) (v : Slot) : (s.setSlot t v).hostReads = s.hostReads := rfl

/-! ### `State.setFse` -/

@[simp] theorem State.setFse_busy (s : State) (k : Fin 4) (v : FseState) : (s.setFse k v).busy = s.busy := rfl
@[simp] theorem State.setFse_fault (s : State) (k : Fin 4) (v : FseState) : (s.setFse k v).fault = s.fault := rfl
@[simp] theorem State.setFse_prog (s : State) (k : Fin 4) (v : FseState) : (s.setFse k v).prog = s.prog := rfl
@[simp] theorem State.setFse_code (s : State) (k : Fin 4) (v : FseState) : (s.setFse k v).code = s.code := rfl
@[simp] theorem State.setFse_faultInfo (s : State) (k : Fin 4) (v : FseState) : (s.setFse k v).faultInfo = s.faultInfo := rfl
@[simp] theorem State.setFse_pending (s : State) (k : Fin 4) (v : FseState) : (s.setFse k v).pending = s.pending := rfl
@[simp] theorem State.setFse_arg0 (s : State) (k : Fin 4) (v : FseState) : (s.setFse k v).arg0 = s.arg0 := rfl
@[simp] theorem State.setFse_arg1 (s : State) (k : Fin 4) (v : FseState) : (s.setFse k v).arg1 = s.arg1 := rfl
@[simp] theorem State.setFse_arg2 (s : State) (k : Fin 4) (v : FseState) : (s.setFse k v).arg2 = s.arg2 := rfl
@[simp] theorem State.setFse_arg3 (s : State) (k : Fin 4) (v : FseState) : (s.setFse k v).arg3 = s.arg3 := rfl
@[simp] theorem State.setFse_res (s : State) (k : Fin 4) (v : FseState) : (s.setFse k v).res = s.res := rfl
@[simp] theorem State.setFse_br (s : State) (k : Fin 4) (v : FseState) : (s.setFse k v).br = s.br := rfl
@[simp] theorem State.setFse_fr (s : State) (k : Fin 4) (v : FseState) : (s.setFse k v).fr = s.fr := rfl
@[simp] theorem State.setFse_slots (s : State) (k : Fin 4) (v : FseState) : (s.setFse k v).slots = s.slots := rfl
@[simp] theorem State.setFse_states (s : State) (k : Fin 4) (v : FseState) : (s.setFse k v).states = s.states.set k v := rfl
@[simp] theorem State.setFse_w (s : State) (k : Fin 4) (v : FseState) : (s.setFse k v).w = s.w := rfl
@[simp] theorem State.setFse_hufNw (s : State) (k : Fin 4) (v : FseState) : (s.setFse k v).hufNw = s.hufNw := rfl
@[simp] theorem State.setFse_hufValid (s : State) (k : Fin 4) (v : FseState) : (s.setFse k v).hufValid = s.hufValid := rfl
@[simp] theorem State.setFse_hufMaxbits (s : State) (k : Fin 4) (v : FseState) : (s.setFse k v).hufMaxbits = s.hufMaxbits := rfl
@[simp] theorem State.setFse_hufNsym (s : State) (k : Fin 4) (v : FseState) : (s.setFse k v).hufNsym = s.hufNsym := rfl
@[simp] theorem State.setFse_ht (s : State) (k : Fin 4) (v : FseState) : (s.setFse k v).ht = s.ht := rfl
@[simp] theorem State.setFse_wconf (s : State) (k : Fin 4) (v : FseState) : (s.setFse k v).wconf = s.wconf := rfl
@[simp] theorem State.setFse_winCap (s : State) (k : Fin 4) (v : FseState) : (s.setFse k v).winCap = s.winCap := rfl
@[simp] theorem State.setFse_wtotal (s : State) (k : Fin 4) (v : FseState) : (s.setFse k v).wtotal = s.wtotal := rfl
@[simp] theorem State.setFse_wflushed (s : State) (k : Fin 4) (v : FseState) : (s.setFse k v).wflushed = s.wflushed := rfl
@[simp] theorem State.setFse_wbuf (s : State) (k : Fin 4) (v : FseState) : (s.setFse k v).wbuf = s.wbuf := rfl
@[simp] theorem State.setFse_ibuf (s : State) (k : Fin 4) (v : FseState) : (s.setFse k v).ibuf = s.ibuf := rfl
@[simp] theorem State.setFse_lbuf (s : State) (k : Fin 4) (v : FseState) : (s.setFse k v).lbuf = s.lbuf := rfl
@[simp] theorem State.setFse_out (s : State) (k : Fin 4) (v : FseState) : (s.setFse k v).out = s.out := rfl
@[simp] theorem State.setFse_winCapMax (s : State) (k : Fin 4) (v : FseState) : (s.setFse k v).winCapMax = s.winCapMax := rfl
@[simp] theorem State.setFse_draws (s : State) (k : Fin 4) (v : FseState) : (s.setFse k v).draws = s.draws := rfl
@[simp] theorem State.setFse_schedule (s : State) (k : Fin 4) (v : FseState) : (s.setFse k v).schedule = s.schedule := rfl
@[simp] theorem State.setFse_sinkReady (s : State) (k : Fin 4) (v : FseState) : (s.setFse k v).sinkReady = s.sinkReady := rfl
@[simp] theorem State.setFse_hostReads (s : State) (k : Fin 4) (v : FseState) : (s.setFse k v).hostReads = s.hostReads := rfl

/-! ### `sink` -/

@[simp] theorem sink_busy (s : State) (b : Byte) : (sink b s).busy = s.busy := rfl
@[simp] theorem sink_fault (s : State) (b : Byte) : (sink b s).fault = s.fault := rfl
@[simp] theorem sink_prog (s : State) (b : Byte) : (sink b s).prog = s.prog := rfl
@[simp] theorem sink_code (s : State) (b : Byte) : (sink b s).code = s.code := rfl
@[simp] theorem sink_faultInfo (s : State) (b : Byte) : (sink b s).faultInfo = s.faultInfo := rfl
@[simp] theorem sink_pending (s : State) (b : Byte) : (sink b s).pending = s.pending := rfl
@[simp] theorem sink_arg0 (s : State) (b : Byte) : (sink b s).arg0 = s.arg0 := rfl
@[simp] theorem sink_arg1 (s : State) (b : Byte) : (sink b s).arg1 = s.arg1 := rfl
@[simp] theorem sink_arg2 (s : State) (b : Byte) : (sink b s).arg2 = s.arg2 := rfl
@[simp] theorem sink_arg3 (s : State) (b : Byte) : (sink b s).arg3 = s.arg3 := rfl
@[simp] theorem sink_res (s : State) (b : Byte) : (sink b s).res = s.res := rfl
@[simp] theorem sink_br (s : State) (b : Byte) : (sink b s).br = s.br := rfl
@[simp] theorem sink_fr (s : State) (b : Byte) : (sink b s).fr = s.fr := rfl
@[simp] theorem sink_slots (s : State) (b : Byte) : (sink b s).slots = s.slots := rfl
@[simp] theorem sink_states (s : State) (b : Byte) : (sink b s).states = s.states := rfl
@[simp] theorem sink_w (s : State) (b : Byte) : (sink b s).w = s.w := rfl
@[simp] theorem sink_hufNw (s : State) (b : Byte) : (sink b s).hufNw = s.hufNw := rfl
@[simp] theorem sink_hufValid (s : State) (b : Byte) : (sink b s).hufValid = s.hufValid := rfl
@[simp] theorem sink_hufMaxbits (s : State) (b : Byte) : (sink b s).hufMaxbits = s.hufMaxbits := rfl
@[simp] theorem sink_hufNsym (s : State) (b : Byte) : (sink b s).hufNsym = s.hufNsym := rfl
@[simp] theorem sink_ht (s : State) (b : Byte) : (sink b s).ht = s.ht := rfl
@[simp] theorem sink_wconf (s : State) (b : Byte) : (sink b s).wconf = s.wconf := rfl
@[simp] theorem sink_winCap (s : State) (b : Byte) : (sink b s).winCap = s.winCap := rfl
@[simp] theorem sink_wtotal (s : State) (b : Byte) : (sink b s).wtotal = s.wtotal := rfl
@[simp] theorem sink_wflushed (s : State) (b : Byte) : (sink b s).wflushed = s.wflushed := rfl
@[simp] theorem sink_wbuf (s : State) (b : Byte) : (sink b s).wbuf = s.wbuf := rfl
@[simp] theorem sink_ibuf (s : State) (b : Byte) : (sink b s).ibuf = s.ibuf := rfl
@[simp] theorem sink_lbuf (s : State) (b : Byte) : (sink b s).lbuf = s.lbuf := rfl
@[simp] theorem sink_out (s : State) (b : Byte) : (sink b s).out = s.out ++ [b] := rfl
@[simp] theorem sink_winCapMax (s : State) (b : Byte) : (sink b s).winCapMax = s.winCapMax := rfl
@[simp] theorem sink_draws (s : State) (b : Byte) : (sink b s).draws = s.draws := rfl
@[simp] theorem sink_schedule (s : State) (b : Byte) : (sink b s).schedule = s.schedule := rfl
@[simp] theorem sink_sinkReady (s : State) (b : Byte) : (sink b s).sinkReady = s.sinkReady := rfl
@[simp] theorem sink_hostReads (s : State) (b : Byte) : (sink b s).hostReads = s.hostReads := rfl

/-! ### `State.issue` -/

@[simp] theorem State.issue_busy (s : State) (v : Word) : (s.issue v).busy = true := rfl
@[simp] theorem State.issue_fault (s : State) (v : Word) : (s.issue v).fault = false := rfl
@[simp] theorem State.issue_prog (s : State) (v : Word) : (s.issue v).prog = false := rfl
@[simp] theorem State.issue_code (s : State) (v : Word) : (s.issue v).code = 0 := rfl
@[simp] theorem State.issue_faultInfo (s : State) (v : Word) : (s.issue v).faultInfo = 0 := rfl
@[simp] theorem State.issue_pending (s : State) (v : Word) : (s.issue v).pending = some v := rfl
@[simp] theorem State.issue_arg0 (s : State) (v : Word) : (s.issue v).arg0 = s.arg0 := rfl
@[simp] theorem State.issue_arg1 (s : State) (v : Word) : (s.issue v).arg1 = s.arg1 := rfl
@[simp] theorem State.issue_arg2 (s : State) (v : Word) : (s.issue v).arg2 = s.arg2 := rfl
@[simp] theorem State.issue_arg3 (s : State) (v : Word) : (s.issue v).arg3 = s.arg3 := rfl
@[simp] theorem State.issue_res (s : State) (v : Word) : (s.issue v).res = s.res := rfl
@[simp] theorem State.issue_br (s : State) (v : Word) : (s.issue v).br = s.br := rfl
@[simp] theorem State.issue_fr (s : State) (v : Word) : (s.issue v).fr = s.fr := rfl
@[simp] theorem State.issue_slots (s : State) (v : Word) : (s.issue v).slots = s.slots := rfl
@[simp] theorem State.issue_states (s : State) (v : Word) : (s.issue v).states = s.states := rfl
@[simp] theorem State.issue_w (s : State) (v : Word) : (s.issue v).w = s.w := rfl
@[simp] theorem State.issue_hufNw (s : State) (v : Word) : (s.issue v).hufNw = s.hufNw := rfl
@[simp] theorem State.issue_hufValid (s : State) (v : Word) : (s.issue v).hufValid = s.hufValid := rfl
@[simp] theorem State.issue_hufMaxbits (s : State) (v : Word) : (s.issue v).hufMaxbits = s.hufMaxbits := rfl
@[simp] theorem State.issue_hufNsym (s : State) (v : Word) : (s.issue v).hufNsym = s.hufNsym := rfl
@[simp] theorem State.issue_ht (s : State) (v : Word) : (s.issue v).ht = s.ht := rfl
@[simp] theorem State.issue_wconf (s : State) (v : Word) : (s.issue v).wconf = s.wconf := rfl
@[simp] theorem State.issue_winCap (s : State) (v : Word) : (s.issue v).winCap = s.winCap := rfl
@[simp] theorem State.issue_wtotal (s : State) (v : Word) : (s.issue v).wtotal = s.wtotal := rfl
@[simp] theorem State.issue_wflushed (s : State) (v : Word) : (s.issue v).wflushed = s.wflushed := rfl
@[simp] theorem State.issue_wbuf (s : State) (v : Word) : (s.issue v).wbuf = s.wbuf := rfl
@[simp] theorem State.issue_ibuf (s : State) (v : Word) : (s.issue v).ibuf = s.ibuf := rfl
@[simp] theorem State.issue_lbuf (s : State) (v : Word) : (s.issue v).lbuf = s.lbuf := rfl
@[simp] theorem State.issue_out (s : State) (v : Word) : (s.issue v).out = s.out := rfl
@[simp] theorem State.issue_winCapMax (s : State) (v : Word) : (s.issue v).winCapMax = s.winCapMax := rfl
@[simp] theorem State.issue_draws (s : State) (v : Word) : (s.issue v).draws = s.draws := rfl
@[simp] theorem State.issue_schedule (s : State) (v : Word) : (s.issue v).schedule = .block :: s.schedule := rfl
@[simp] theorem State.issue_sinkReady (s : State) (v : Word) : (s.issue v).sinkReady = true := rfl
@[simp] theorem State.issue_hostReads (s : State) (v : Word) : (s.issue v).hostReads = s.hostReads := rfl

/-! ### `invalidate` -/

@[simp] theorem invalidate_busy (s : State) (t : Fin 8) : (invalidate t s).busy = s.busy := rfl
@[simp] theorem invalidate_fault (s : State) (t : Fin 8) : (invalidate t s).fault = s.fault := rfl
@[simp] theorem invalidate_prog (s : State) (t : Fin 8) : (invalidate t s).prog = s.prog := rfl
@[simp] theorem invalidate_code (s : State) (t : Fin 8) : (invalidate t s).code = s.code := rfl
@[simp] theorem invalidate_faultInfo (s : State) (t : Fin 8) : (invalidate t s).faultInfo = s.faultInfo := rfl
@[simp] theorem invalidate_pending (s : State) (t : Fin 8) : (invalidate t s).pending = s.pending := rfl
@[simp] theorem invalidate_arg0 (s : State) (t : Fin 8) : (invalidate t s).arg0 = s.arg0 := rfl
@[simp] theorem invalidate_arg1 (s : State) (t : Fin 8) : (invalidate t s).arg1 = s.arg1 := rfl
@[simp] theorem invalidate_arg2 (s : State) (t : Fin 8) : (invalidate t s).arg2 = s.arg2 := rfl
@[simp] theorem invalidate_arg3 (s : State) (t : Fin 8) : (invalidate t s).arg3 = s.arg3 := rfl
@[simp] theorem invalidate_res (s : State) (t : Fin 8) : (invalidate t s).res = s.res := rfl
@[simp] theorem invalidate_br (s : State) (t : Fin 8) : (invalidate t s).br = s.br := rfl
@[simp] theorem invalidate_fr (s : State) (t : Fin 8) : (invalidate t s).fr = s.fr := rfl
@[simp] theorem invalidate_w (s : State) (t : Fin 8) : (invalidate t s).w = s.w := rfl
@[simp] theorem invalidate_hufNw (s : State) (t : Fin 8) : (invalidate t s).hufNw = s.hufNw := rfl
@[simp] theorem invalidate_hufValid (s : State) (t : Fin 8) : (invalidate t s).hufValid = s.hufValid := rfl
@[simp] theorem invalidate_hufMaxbits (s : State) (t : Fin 8) : (invalidate t s).hufMaxbits = s.hufMaxbits := rfl
@[simp] theorem invalidate_hufNsym (s : State) (t : Fin 8) : (invalidate t s).hufNsym = s.hufNsym := rfl
@[simp] theorem invalidate_ht (s : State) (t : Fin 8) : (invalidate t s).ht = s.ht := rfl
@[simp] theorem invalidate_wconf (s : State) (t : Fin 8) : (invalidate t s).wconf = s.wconf := rfl
@[simp] theorem invalidate_winCap (s : State) (t : Fin 8) : (invalidate t s).winCap = s.winCap := rfl
@[simp] theorem invalidate_wtotal (s : State) (t : Fin 8) : (invalidate t s).wtotal = s.wtotal := rfl
@[simp] theorem invalidate_wflushed (s : State) (t : Fin 8) : (invalidate t s).wflushed = s.wflushed := rfl
@[simp] theorem invalidate_wbuf (s : State) (t : Fin 8) : (invalidate t s).wbuf = s.wbuf := rfl
@[simp] theorem invalidate_ibuf (s : State) (t : Fin 8) : (invalidate t s).ibuf = s.ibuf := rfl
@[simp] theorem invalidate_lbuf (s : State) (t : Fin 8) : (invalidate t s).lbuf = s.lbuf := rfl
@[simp] theorem invalidate_out (s : State) (t : Fin 8) : (invalidate t s).out = s.out := rfl
@[simp] theorem invalidate_winCapMax (s : State) (t : Fin 8) : (invalidate t s).winCapMax = s.winCapMax := rfl
@[simp] theorem invalidate_draws (s : State) (t : Fin 8) : (invalidate t s).draws = s.draws := rfl
@[simp] theorem invalidate_schedule (s : State) (t : Fin 8) : (invalidate t s).schedule = s.schedule := rfl
@[simp] theorem invalidate_sinkReady (s : State) (t : Fin 8) : (invalidate t s).sinkReady = s.sinkReady := rfl
@[simp] theorem invalidate_hostReads (s : State) (t : Fin 8) : (invalidate t s).hostReads = s.hostReads := rfl

/-! ### `softReset` -/

@[simp] theorem softReset_busy (s : State) : (softReset s).busy = false := rfl
@[simp] theorem softReset_fault (s : State) : (softReset s).fault = false := rfl
@[simp] theorem softReset_prog (s : State) : (softReset s).prog = false := rfl
@[simp] theorem softReset_code (s : State) : (softReset s).code = 0 := rfl
@[simp] theorem softReset_faultInfo (s : State) : (softReset s).faultInfo = 0 := rfl
@[simp] theorem softReset_pending (s : State) : (softReset s).pending = none := rfl
@[simp] theorem softReset_arg0 (s : State) : (softReset s).arg0 = 0 := rfl
@[simp] theorem softReset_arg1 (s : State) : (softReset s).arg1 = 0 := rfl
@[simp] theorem softReset_arg2 (s : State) : (softReset s).arg2 = 0 := rfl
@[simp] theorem softReset_arg3 (s : State) : (softReset s).arg3 = 0 := rfl
@[simp] theorem softReset_res (s : State) : (softReset s).res = 0 := rfl
@[simp] theorem softReset_br (s : State) : (softReset s).br = BackReader.reset := rfl
@[simp] theorem softReset_fr (s : State) : (softReset s).fr = FwdReader.reset := rfl
@[simp] theorem softReset_states (s : State) : (softReset s).states = Vector.replicate 4 FseState.reset := rfl
@[simp] theorem softReset_w (s : State) : (softReset s).w = s.w := rfl
@[simp] theorem softReset_hufNw (s : State) : (softReset s).hufNw = 0 := rfl
@[simp] theorem softReset_hufValid (s : State) : (softReset s).hufValid = false := rfl
@[simp] theorem softReset_hufMaxbits (s : State) : (softReset s).hufMaxbits = 0 := rfl
@[simp] theorem softReset_hufNsym (s : State) : (softReset s).hufNsym = 0 := rfl
@[simp] theorem softReset_ht (s : State) : (softReset s).ht = s.ht := rfl
@[simp] theorem softReset_wconf (s : State) : (softReset s).wconf = false := rfl
@[simp] theorem softReset_winCap (s : State) : (softReset s).winCap = 0 := rfl
@[simp] theorem softReset_wtotal (s : State) : (softReset s).wtotal = 0 := rfl
@[simp] theorem softReset_wflushed (s : State) : (softReset s).wflushed = 0 := rfl
@[simp] theorem softReset_wbuf (s : State) : (softReset s).wbuf = s.wbuf := rfl
@[simp] theorem softReset_ibuf (s : State) : (softReset s).ibuf = s.ibuf := rfl
@[simp] theorem softReset_lbuf (s : State) : (softReset s).lbuf = s.lbuf := rfl
@[simp] theorem softReset_out (s : State) : (softReset s).out = s.out := rfl
@[simp] theorem softReset_winCapMax (s : State) : (softReset s).winCapMax = s.winCapMax := rfl
@[simp] theorem softReset_draws (s : State) : (softReset s).draws = s.draws := rfl
@[simp] theorem softReset_schedule (s : State) : (softReset s).schedule = s.schedule := rfl
@[simp] theorem softReset_sinkReady (s : State) : (softReset s).sinkReady = s.sinkReady := rfl
@[simp] theorem softReset_hostReads (s : State) : (softReset s).hostReads = s.hostReads := rfl

/-! ### `faultEntry` -/

@[simp] theorem faultEntry_busy (c : FaultCode) (info : Word) (s : State) : (faultEntry c info s).busy = false := rfl
@[simp] theorem faultEntry_fault (c : FaultCode) (info : Word) (s : State) : (faultEntry c info s).fault = true := by
  simp only [faultEntry]; split <;> simp_all
@[simp] theorem faultEntry_prog (c : FaultCode) (info : Word) (s : State) : (faultEntry c info s).prog = if s.fault then s.prog else c.isProgramming := by
  simp only [faultEntry]; split <;> simp_all
@[simp] theorem faultEntry_code (c : FaultCode) (info : Word) (s : State) : (faultEntry c info s).code = if s.fault then s.code else c.number := by
  simp only [faultEntry]; split <;> simp_all
@[simp] theorem faultEntry_faultInfo (c : FaultCode) (info : Word) (s : State) : (faultEntry c info s).faultInfo = if s.fault then s.faultInfo else info := by
  simp only [faultEntry]; split <;> simp_all
@[simp] theorem faultEntry_pending (c : FaultCode) (info : Word) (s : State) : (faultEntry c info s).pending = none := rfl
@[simp] theorem faultEntry_arg0 (c : FaultCode) (info : Word) (s : State) : (faultEntry c info s).arg0 = s.arg0 := by
  simp only [faultEntry]; split <;> rfl
@[simp] theorem faultEntry_arg1 (c : FaultCode) (info : Word) (s : State) : (faultEntry c info s).arg1 = s.arg1 := by
  simp only [faultEntry]; split <;> rfl
@[simp] theorem faultEntry_arg2 (c : FaultCode) (info : Word) (s : State) : (faultEntry c info s).arg2 = s.arg2 := by
  simp only [faultEntry]; split <;> rfl
@[simp] theorem faultEntry_arg3 (c : FaultCode) (info : Word) (s : State) : (faultEntry c info s).arg3 = s.arg3 := by
  simp only [faultEntry]; split <;> rfl
@[simp] theorem faultEntry_res (c : FaultCode) (info : Word) (s : State) : (faultEntry c info s).res = s.res := by
  simp only [faultEntry]; split <;> rfl
@[simp] theorem faultEntry_br (c : FaultCode) (info : Word) (s : State) : (faultEntry c info s).br = s.br := by
  simp only [faultEntry]; split <;> rfl
@[simp] theorem faultEntry_fr (c : FaultCode) (info : Word) (s : State) : (faultEntry c info s).fr = s.fr := by
  simp only [faultEntry]; split <;> rfl
@[simp] theorem faultEntry_slots (c : FaultCode) (info : Word) (s : State) : (faultEntry c info s).slots = s.slots := by
  simp only [faultEntry]; split <;> rfl
@[simp] theorem faultEntry_states (c : FaultCode) (info : Word) (s : State) : (faultEntry c info s).states = s.states := by
  simp only [faultEntry]; split <;> rfl
@[simp] theorem faultEntry_w (c : FaultCode) (info : Word) (s : State) : (faultEntry c info s).w = s.w := by
  simp only [faultEntry]; split <;> rfl
@[simp] theorem faultEntry_hufNw (c : FaultCode) (info : Word) (s : State) : (faultEntry c info s).hufNw = s.hufNw := by
  simp only [faultEntry]; split <;> rfl
@[simp] theorem faultEntry_hufValid (c : FaultCode) (info : Word) (s : State) : (faultEntry c info s).hufValid = s.hufValid := by
  simp only [faultEntry]; split <;> rfl
@[simp] theorem faultEntry_hufMaxbits (c : FaultCode) (info : Word) (s : State) : (faultEntry c info s).hufMaxbits = s.hufMaxbits := by
  simp only [faultEntry]; split <;> rfl
@[simp] theorem faultEntry_hufNsym (c : FaultCode) (info : Word) (s : State) : (faultEntry c info s).hufNsym = s.hufNsym := by
  simp only [faultEntry]; split <;> rfl
@[simp] theorem faultEntry_ht (c : FaultCode) (info : Word) (s : State) : (faultEntry c info s).ht = s.ht := by
  simp only [faultEntry]; split <;> rfl
@[simp] theorem faultEntry_wconf (c : FaultCode) (info : Word) (s : State) : (faultEntry c info s).wconf = s.wconf := by
  simp only [faultEntry]; split <;> rfl
@[simp] theorem faultEntry_winCap (c : FaultCode) (info : Word) (s : State) : (faultEntry c info s).winCap = s.winCap := by
  simp only [faultEntry]; split <;> rfl
@[simp] theorem faultEntry_wtotal (c : FaultCode) (info : Word) (s : State) : (faultEntry c info s).wtotal = s.wtotal := by
  simp only [faultEntry]; split <;> rfl
@[simp] theorem faultEntry_wflushed (c : FaultCode) (info : Word) (s : State) : (faultEntry c info s).wflushed = s.wflushed := by
  simp only [faultEntry]; split <;> rfl
@[simp] theorem faultEntry_wbuf (c : FaultCode) (info : Word) (s : State) : (faultEntry c info s).wbuf = s.wbuf := by
  simp only [faultEntry]; split <;> rfl
@[simp] theorem faultEntry_ibuf (c : FaultCode) (info : Word) (s : State) : (faultEntry c info s).ibuf = s.ibuf := by
  simp only [faultEntry]; split <;> rfl
@[simp] theorem faultEntry_lbuf (c : FaultCode) (info : Word) (s : State) : (faultEntry c info s).lbuf = s.lbuf := by
  simp only [faultEntry]; split <;> rfl
@[simp] theorem faultEntry_out (c : FaultCode) (info : Word) (s : State) : (faultEntry c info s).out = s.out := by
  simp only [faultEntry]; split <;> rfl
@[simp] theorem faultEntry_winCapMax (c : FaultCode) (info : Word) (s : State) : (faultEntry c info s).winCapMax = s.winCapMax := by
  simp only [faultEntry]; split <;> rfl
@[simp] theorem faultEntry_draws (c : FaultCode) (info : Word) (s : State) : (faultEntry c info s).draws = s.draws := by
  simp only [faultEntry]; split <;> rfl
@[simp] theorem faultEntry_schedule (c : FaultCode) (info : Word) (s : State) : (faultEntry c info s).schedule = s.schedule := by
  simp only [faultEntry]; split <;> rfl
@[simp] theorem faultEntry_sinkReady (c : FaultCode) (info : Word) (s : State) : (faultEntry c info s).sinkReady = s.sinkReady := by
  simp only [faultEntry]; split <;> rfl
@[simp] theorem faultEntry_hostReads (c : FaultCode) (info : Word) (s : State) : (faultEntry c info s).hostReads = s.hostReads := by
  simp only [faultEntry]; split <;> rfl

/-! ### Reads of a slot or a state register after a write -/

@[simp] theorem State.slot_setSlot (s : State) (t u : Fin 8) (v : Slot) :
    (s.setSlot t v).slot u = if u = t then v else s.slot u := by
  simp only [State.slot, State.setSlot, Fin.getElem_fin, Vector.getElem_set]
  by_cases h : u = t
  · simp [h]
  · simp [h, Fin.val_inj, Ne.symm h]

@[simp] theorem State.fse_setFse (s : State) (k l : Fin 4) (v : FseState) :
    (s.setFse k v).fse l = if l = k then v else s.fse l := by
  simp only [State.fse, State.setFse, Fin.getElem_fin, Vector.getElem_set]
  by_cases h : l = k
  · simp [h]
  · simp [h, Fin.val_inj, Ne.symm h]

@[simp] theorem State.fse_setSlot (s : State) (t : Fin 8) (v : Slot) (k : Fin 4) : (s.setSlot t v).fse k = s.fse k := rfl
@[simp] theorem State.slot_setFse (s : State) (k : Fin 4) (v : FseState) (t : Fin 8) : (s.setFse k v).slot t = s.slot t := rfl
@[simp] theorem State.slot_setBack (s : State) (c : BackCursor) (t : Fin 8) : (s.setBack c).slot t = s.slot t := rfl
@[simp] theorem State.slot_setFwd (s : State) (c : FwdCursor) (t : Fin 8) : (s.setFwd c).slot t = s.slot t := rfl
@[simp] theorem State.fse_setBack (s : State) (c : BackCursor) (k : Fin 4) : (s.setBack c).fse k = s.fse k := rfl
@[simp] theorem State.fse_setFwd (s : State) (c : FwdCursor) (k : Fin 4) : (s.setFwd c).fse k = s.fse k := rfl

/-- `Invalidate(t)` clears `VALID[t]` and touches no other slot field (41_fse.md R140). -/
@[simp] theorem invalidate_slot (s : State) (t u : Fin 8) :
    (invalidate t s).slot u = if u = t then { s.slot t with valid := false } else s.slot u :=
  State.slot_setSlot s t u _

/-- `Invalidate(t)` unbinds exactly the states bound to `t` (R140). -/
@[simp] theorem invalidate_fse (s : State) (t : Fin 8) (k : Fin 4) :
    (invalidate t s).fse k =
      if (s.fse k).bound = true ∧ (s.fse k).bind = t then { s.fse k with bound := false } else s.fse k := by
  simp only [State.fse, invalidate, Fin.getElem_fin, Vector.getElem_map, Bool.and_eq_true, beq_iff_eq]
  rfl

/-! ### The names of Safety.lean -/

theorem complete_eq_ended (s : State) : complete s = s.ended := rfl

/-- Taking a first fault (60_exceptions.md R270). -/
theorem faultEntry_eq_faulted {s : State} (h : s.fault = false) (c : FaultCode) (info : Word) :
    faultEntry c info s = s.faulted c.number c.isProgramming info := by
  simp [faultEntry, State.faulted, h]

/-- A fault taken while one is held leaves the record as it is (R276). -/
theorem faultEntry_held {s : State} (h : s.fault = true) (c : FaultCode) (info : Word) :
    faultEntry c info s = s.ended := by
  simp [faultEntry, State.ended, h]

end Sys2Proof.Machine
end

