-- ==== Sys2Proof/Laws/Ops.lean ====
section
/-! SUPPORT. What each shared operation of Machine/Ops.lean can do, said once. -/

namespace Sys2Proof.Machine

/-! ### Arithmetic (00_scope.md R9) -/

theorem hsb_le {x : Nat} (h : x ≠ 0) : 2 ^ hsb x ≤ x := Nat.log2_self_le h

theorem lt_hsb (x : Nat) : x < 2 ^ (hsb x + 1) := Nat.lt_log2_self

/-- `hsb` is the only exponent with `2^k ≤ x < 2^(k+1)`. -/
theorem hsb_unique {x k : Nat} (h : 2 ^ k ≤ x) (h' : x < 2 ^ (k + 1)) : hsb x = k := by
  have hx : x ≠ 0 := by have := Nat.two_pow_pos k; omega
  exact (Nat.log2_eq_iff hx).2 ⟨h, h'⟩

@[simp] theorem hsb_two_pow (k : Nat) : hsb (2 ^ k) = k :=
  hsb_unique le_rfl (Nat.pow_lt_pow_right (by norm_num) (by omega))

theorem isPow2_two_pow (k : Nat) : isPow2 (2 ^ k) = true := by
  simp only [isPow2, Bool.and_eq_true, decide_eq_true_eq, beq_iff_eq]
  refine ⟨Nat.two_pow_pos k, Nat.eq_of_testBit_eq fun i => ?_⟩
  simp only [Nat.testBit_and, Nat.testBit_two_pow, Nat.testBit_two_pow_sub_one, Nat.zero_testBit]
  by_cases h : k = i <;> simp [h]

/-- `is_pow2` is right (R9). -/
theorem isPow2_iff (x : Nat) : isPow2 x = true ↔ x = 2 ^ hsb x := by
  refine ⟨fun h => ?_, fun h => h ▸ isPow2_two_pow _⟩
  simp only [isPow2, Bool.and_eq_true, decide_eq_true_eq, beq_iff_eq] at h
  obtain ⟨h0, h⟩ := h
  have h1 := hsb_le (x := x) (by omega)
  by_contra hne
  have hlt : 2 ^ hsb x < x := by omega
  have h2 := lt_hsb x
  have e1 : x.testBit (hsb x) = true := by
    rw [Nat.testBit_eq_decide_div_mod_eq, Nat.div_eq_of_lt_le (k := 1) (by omega) (by rw [pow_succ] at h2; omega)]; rfl
  have e2 : (x - 1).testBit (hsb x) = true := by
    rw [Nat.testBit_eq_decide_div_mod_eq, Nat.div_eq_of_lt_le (k := 1) (by omega) (by rw [pow_succ] at h2; omega)]; rfl
  have := congrArg (fun y => Nat.testBit y (hsb x)) h
  simp [e1, e2] at this

theorem ceilDiv_mul_ge (a : Nat) {b : Nat} (h : 0 < b) : a ≤ b * ceilDiv a b := by
  simp only [ceilDiv]
  have := Nat.div_add_mod (a + b - 1) b
  have := Nat.mod_lt (a + b - 1) h
  omega

theorem ceilDiv_le_iff {a b q : Nat} (h : 0 < b) : ceilDiv a b ≤ q ↔ a ≤ b * q := by
  rw [ceilDiv, ← Nat.lt_add_one_iff, Nat.div_lt_iff_lt_mul h, Nat.add_one_mul, Nat.mul_comm b q]
  omega

/-! ### Endings and results -/

/-- `P` holds of the state a command ends in, whether it is done or raises a fault. -/
def Ending.All (P : State → Prop) : Ending → Prop
  | .done s => P s
  | .raise _ s => P s
  | .outside _ => True

/-- `P` holds of the unit's state after a read, whether it answers or raises a fault. -/
def Res.All {σ α : Type} (P : σ → Prop) : Res σ α → Prop
  | .ok _ s => P s
  | .raise _ s => P s

theorem Ending.All.imp {P Q : State → Prop} {e : Ending} (h : e.All P) (f : ∀ s, P s → Q s) : e.All Q := by
  cases e <;> first | exact f _ h | trivial

theorem Res.All.imp {σ α : Type} {P Q : σ → Prop} {r : Res σ α} (h : r.All P) (f : ∀ s, P s → Q s) : r.All Q := by
  cases r <;> exact f _ h

/-- What a command that answers a next state has done: it completed, or it raised one fault. -/
theorem finish_next {i : Instr} {e : Ending} {t : State} (h : finish i e = .next t) :
    (∃ s, e = .done s ∧ t = complete s) ∨ (∃ c s, e = .raise c s ∧ t = faultEntry c (encode i) s) := by
  cases e <;> simp only [finish, Host.Outcome.next.injEq, reduceCtorEq] at h
  · exact .inl ⟨_, rfl, h.symm⟩
  · exact .inr ⟨_, _, rfl, h.symm⟩

/-- A command never stops the model with a fault of its own. -/
theorem finish_ne_fault (i : Instr) (e : Ending) (r : Fault) : finish i e ≠ .fault r := by
  cases e <;> simp [finish]

/-- A command is refused only where its run is outside the spec. -/
theorem finish_refused {i : Instr} {e : Ending} {r : Refusal} (h : finish i e = .refused r) : e = .outside r := by
  cases e <;> simp_all [finish]

/-- A command answers a next state, unless its run is outside the spec (44_control.md R253). -/
theorem finish_next_or_outside (i : Instr) (e : Ending) : (∃ t, finish i e = .next t) ∨ ∃ r, e = .outside r := by
  cases e
  · exact .inl ⟨_, rfl⟩
  · exact .inl ⟨_, rfl⟩
  · exact .inr ⟨_, rfl⟩

/-- A property of the state a command ends in passes to the next state, where neither end of a command disturbs it. -/
theorem Ending.All.finish {P : State → Prop} {i : Instr} {e : Ending} {t : State} (h : e.All P)
    (hc : ∀ s, P s → P (complete s)) (hf : ∀ c s, P s → P (faultEntry c (encode i) s))
    (ht : finish i e = .next t) : P t := by
  rcases finish_next ht with ⟨s, rfl, rfl⟩ | ⟨c, s, rfl, rfl⟩
  · exact hc s h
  · exact hf c s h

/-- The code and the class of a fault agree with the table of 60_exceptions.md R271. -/
theorem FaultCode.number_mem (c : FaultCode) :
    (c.isProgramming = true ∧ c.number ∈ programmingCodes) ∨ (c.isProgramming = false ∧ c.number ∈ corruptionCodes) := by
  cases c <;> decide

/-- Fault codes have distinct numbers. -/
theorem FaultCode.number_injective : Function.Injective FaultCode.number := by
  intro a b h
  cases a <;> cases b <;> first | rfl | exact absurd h (by decide)

/-! ### Operand ranges (20_memory.md R70) -/

@[simp] theorem inIbuf_iff (base len : Nat) : inIbuf base len = true ↔ base + len ≤ 131072 :=
  decide_eq_true_iff

@[simp] theorem inLbuf_iff (base len : Nat) : inLbuf base len = true ↔ base + len ≤ 131072 :=
  decide_eq_true_iff

/-! ### The window's operations (43_window.md R231, R232) -/

/-- Only the window, the sink and the count of draws may differ. -/
def SameButWindow (s t : State) : Prop :=
  t = { s with wtotal := t.wtotal, wflushed := t.wflushed, wbuf := t.wbuf, out := t.out, draws := t.draws }

theorem SameButWindow.refl (s : State) : SameButWindow s s := rfl

theorem SameButWindow.trans {s t u : State} (h : SameButWindow s t) (h' : SameButWindow t u) : SameButWindow s u := by
  unfold SameButWindow at *
  rw [h', h]

/-- `AppendByte` touches the window and the sink alone. -/
theorem appendByte_frame (b : Byte) (s : State) : SameButWindow s (appendByte b s) := by
  unfold appendByte
  split <;> rfl

/-- `AppendByte` where no byte must be evicted. -/
theorem appendByte_room {s : State} (b : Byte) (h : s.wtotal.toNat ≠ s.wflushed.toNat + s.winCap.toNat) :
    appendByte b s = { s with wbuf := s.wbuf.put (s.wtotal.toNat % s.winCap.toNat) b, wtotal := s.wtotal + 1 } := by
  simp [appendByte, h]

/-- `AppendByte` where the byte in the slot must go to the sink first. -/
theorem appendByte_full {s : State} {x : Byte} (b : Byte) (h : s.wtotal.toNat = s.wflushed.toNat + s.winCap.toNat)
    (hx : s.wbuf.get? (s.wtotal.toNat % s.winCap.toNat) = some x) :
    appendByte b s =
      { s with wbuf := s.wbuf.put (s.wtotal.toNat % s.winCap.toNat) b, wtotal := s.wtotal + 1
               wflushed := s.wflushed + 1, out := s.out ++ [x] } := by
  rw [appendByte, if_pos h]
  simp [evict, readWindow, sink, Memory.readByte_listed hx]

/-- A loop of appends touches the window and the sink alone, if its source does. -/
theorem appendLoop_frame {source : Nat → State → Byte × State} (hs : ∀ j s, SameButWindow s (source j s).2)
    (n j : Nat) (s : State) : SameButWindow s (appendLoop source n j s) := by
  induction n generalizing j s with
  | zero => rfl
  | succ n ih => exact ((hs j s).trans (appendByte_frame _ _)).trans (ih _ _)

/-- A loop of appends gives the sink bytes and takes none back, if its source does neither. -/
theorem appendLoop_out {source : Nat → State → Byte × State} (hs : ∀ j s, (source j s).2.out = s.out)
    (n j : Nat) (s : State) : ∃ bs, (appendLoop source n j s).out = s.out ++ bs := by
  induction n generalizing j s with
  | zero => exact ⟨[], by simp [appendLoop]⟩
  | succ n ih =>
    obtain ⟨bs, h⟩ := ih (j + 1) (appendByte (source j s).1 (source j s).2)
    have : ∃ cs, (appendByte (source j s).1 (source j s).2).out = s.out ++ cs := by
      unfold appendByte
      split
      · exact ⟨_, by simp only [evict, sink, readWindow, hs]; rfl⟩
      · exact ⟨[], by simp [hs]⟩
    obtain ⟨cs, h'⟩ := this
    exact ⟨cs ++ bs, by rw [appendLoop]; simp only []; rw [h, h', List.append_assoc]⟩

/-- `AppendByte` adds one to the history, in one slot, of a window of the same capacity. -/
theorem appendByte_window (b : Byte) (s : State) :
    (appendByte b s).wtotal = s.wtotal + 1 ∧ (appendByte b s).winCap = s.winCap ∧
    (appendByte b s).wbuf = s.wbuf.put (s.wtotal.toNat % s.winCap.toNat) b := by
  unfold appendByte
  split <;> exact ⟨rfl, rfl, rfl⟩

/-- A loop of `n` appends adds `n` to `WTOTAL` and writes `WBUF` only in the slots `(WTOTAL + k) mod C` (R232), if its
source touches only the count of draws. -/
theorem appendLoop_window {source : Nat → State → Byte × State}
    (hs : ∀ j s, (source j s).2 = { s with draws := (source j s).2.draws }) (n j : Nat) (s : State)
    (hn : s.wtotal.toNat + n < 2 ^ 64) :
    (appendLoop source n j s).wtotal.toNat = s.wtotal.toNat + n ∧
    ∀ a, (∀ k < n, a ≠ (s.wtotal.toNat + k) % s.winCap.toNat) → (appendLoop source n j s).wbuf.get? a = s.wbuf.get? a := by
  induction n generalizing j s with
  | zero => exact ⟨rfl, fun _ _ => rfl⟩
  | succ n ih =>
    obtain ⟨ht, hc, hb⟩ := appendByte_window (source j s).1 (source j s).2
    have e1 : (source j s).2.wtotal = s.wtotal := by rw [hs]
    have e2 : (source j s).2.winCap = s.winCap := by rw [hs]
    have e3 : (source j s).2.wbuf = s.wbuf := by rw [hs]
    rw [e1] at ht hb
    rw [e2] at hc hb
    rw [e3] at hb
    have ht' : (appendByte (source j s).1 (source j s).2).wtotal.toNat = s.wtotal.toNat + 1 := by
      rw [ht, BitVec.toNat_add]
      exact Nat.mod_eq_of_lt (by simp; omega)
    obtain ⟨h1, h2⟩ := ih (j + 1) (appendByte (source j s).1 (source j s).2) (by omega)
    refine ⟨by rw [appendLoop, h1, ht']; omega, fun a ha => ?_⟩
    rw [appendLoop, h2 a (fun k hk => ?_), hb]
    · exact Memory.get?_put_ne _ _ (by simpa using ha 0 (by omega))
    · rw [ht', hc, Nat.add_right_comm]
      exact ha (k + 1) (by omega)

/-- A run of appends is done, or is refused because `WTOTAL` would leave its range (R230). -/
theorem appendAll_cases (source : Nat → State → Byte × State) (n : Nat) (s : State) :
    (s.wtotal.toNat + n < 2 ^ 64 ∧ appendAll source n s = .done (appendLoop source n 0 s)) ∨
    (2 ^ 64 ≤ s.wtotal.toNat + n ∧ appendAll source n s = .outside .windowTotalOverflow) := by
  unfold appendAll
  split
  · exact .inl ⟨‹_›, rfl⟩
  · exact .inr ⟨by omega, rfl⟩

end Sys2Proof.Machine
end

