-- ==== Sys2Proof/Laws/BitReaders.lean ====
section
/-! SUPPORT. What the bit readers and their commands can do (40_bitreaders.md). -/

namespace Sys2Proof.Machine

/-! ### Values read -/

/-- `n` bits shifted into `v` stay below `(v + 1) · 2^n`. -/
theorem backBits_lt (ibuf : Memory Byte) (base n : Nat) (top : Int) (v draws : Nat) :
    (backBits ibuf base n top v draws).1 < (v + 1) * 2 ^ n := by
  induction n generalizing top v draws with
  | zero => simp [backBits]
  | succ n ih =>
    refine lt_of_lt_of_le (ih _ _ _) ?_
    rw [pow_succ, mul_comm (2 ^ n), ← mul_assoc]
    refine Nat.mul_le_mul_right _ ?_
    show 2 * v + (backBit ibuf base top draws).1.toNat + 1 ≤ _
    have := (backBit ibuf base top draws).1.toNat_le
    generalize (backBit ibuf base top draws).1.toNat = x at *
    omega

theorem fwdBits_lt (ibuf : Memory Byte) (base n p draws : Nat) : (fwdBits ibuf base n p draws).1 < 2 ^ n := by
  induction n generalizing p draws with
  | zero => simp [fwdBits]
  | succ n ih =>
    have := ih (p + 1) (fwdBit ibuf base p draws).2
    have := (fwdBit ibuf base p draws).1.toNat_le
    simp only [fwdBits, pow_succ]
    omega

/-- `bitB(p)` of a byte that is written (R113). -/
theorem backBit_listed {ibuf : Memory Byte} {base p : Nat} {b : Byte} (h : ibuf.get? (base + p / 8) = some b)
    (draws : Nat) : backBit ibuf base p draws = (b.getLsbD (p % 8), draws) := by
  rw [backBit, if_neg (by omega)]
  simp [Memory.readByte_listed h]

/-- `bitF(p)` of a byte that is written (R119). -/
theorem fwdBit_listed {ibuf : Memory Byte} {base p : Nat} {b : Byte} (h : ibuf.get? (base + p / 8) = some b)
    (draws : Nat) : fwdBit ibuf base p draws = (b.getLsbD (p % 8), draws) := by
  simp [fwdBit, Memory.readByte_listed h]

/-! ### The readers -/

/-- Everything `BR.read(n)` can do (R114). -/
theorem BackCursor.read_cases (ibuf : Memory Byte) (n : Nat) (c : BackCursor) :
    (c.reader.rem.toInt - n < -2 ^ 31 ∧ c.read ibuf n = .raise .brRange c) ∨
    (-2 ^ 31 ≤ c.reader.rem.toInt - n ∧ ∃ v draws, v < 2 ^ n ∧
      backBits ibuf c.reader.base.toNat n (c.reader.rem.toInt - 1) 0 c.draws = (v, draws) ∧
      c.read ibuf n = .ok v
        { reader := { c.reader with rem := BitVec.ofInt 32 (c.reader.rem.toInt - n) }, draws := draws }) := by
  by_cases h : c.reader.rem.toInt - n < -2 ^ 31
  · exact .inl ⟨h, by simp only [read, if_pos h]⟩
  · refine .inr ⟨by omega, _, _, ?_, rfl, by simp only [read, if_neg h]⟩
    simpa using backBits_lt ibuf c.reader.base.toNat n (c.reader.rem.toInt - 1) 0 c.draws

/-- Everything the padding skip can do (R112). -/
theorem BackCursor.skipPad_cases (ibuf : Memory Byte) (c : BackCursor) :
    (c.reader.len = 0 ∧ c.skipPad ibuf = .raise .badPadding c) ∨
    (c.reader.len ≠ 0 ∧ ∃ b draws,
      ibuf.readByte (c.reader.base.toNat + c.reader.len.toNat - 1) c.draws = (b, draws) ∧
      ((b = 0 ∧ c.skipPad ibuf = .raise .badPadding { c with draws := draws }) ∨
       (b ≠ 0 ∧ c.skipPad ibuf = .ok ()
         { reader := { c.reader with rem := BitVec.ofNat 32 (8 * (c.reader.len.toNat - 1) + hsb b.toNat) }
           draws := draws }))) := by
  by_cases h : c.reader.len = 0
  · exact .inl ⟨h, by simp [skipPad, h]⟩
  · have h' : c.reader.len.toNat ≠ 0 := fun e => h (BitVec.eq_of_toNat_eq (by simpa using e))
    refine .inr ⟨h, (ibuf.readByte (c.reader.base.toNat + c.reader.len.toNat - 1) c.draws).1,
      (ibuf.readByte (c.reader.base.toNat + c.reader.len.toNat - 1) c.draws).2, rfl, ?_⟩
    by_cases hb : (ibuf.readByte (c.reader.base.toNat + c.reader.len.toNat - 1) c.draws).1 = 0#8
    · exact .inl ⟨hb, by simp only [skipPad, if_neg h', if_pos hb]⟩
    · exact .inr ⟨hb, by simp only [skipPad, if_neg h', if_neg hb]⟩

/-- Everything `FR.read(n)` can do (R120). -/
theorem FwdCursor.read_cases (ibuf : Memory Byte) (n : Nat) (c : FwdCursor) :
    (8 * c.reader.len.toNat < c.reader.pos.toNat + n ∧ c.read ibuf n = .raise .endOfInput c) ∨
    (c.reader.pos.toNat + n ≤ 8 * c.reader.len.toNat ∧ ∃ v draws, v < 2 ^ n ∧
      fwdBits ibuf c.reader.base.toNat n c.reader.pos.toNat c.draws = (v, draws) ∧
      c.read ibuf n = .ok v
        { reader := { c.reader with pos := BitVec.ofNat 32 (c.reader.pos.toNat + n)
                                    unw := c.reader.unw || decide (1 ≤ n) }
          draws := draws }) := by
  by_cases h : c.reader.pos.toNat + n > 8 * c.reader.len.toNat
  · exact .inl ⟨h, by simp only [read, if_pos h]⟩
  · exact .inr ⟨by omega, _, _, fwdBits_lt _ _ _ _ _, rfl, by simp only [read, if_neg h]⟩

/-- Everything `FR.unwind()` can do (R121). -/
theorem FwdCursor.unwind_cases (c : FwdCursor) :
    (c.reader.unw = true ∧ c.unwind = .ok () { c with reader := { c.reader with pos := c.reader.pos - 1, unw := false } }) ∨
    (c.reader.unw = false ∧ c.unwind = .raise .cannotUnwind c) := by
  cases h : c.reader.unw <;> simp [unwind, h]

/-- A backward reader's cursor alone moves. -/
def BackCursor.Moved (c d : BackCursor) : Prop := d.reader.base = c.reader.base ∧ d.reader.len = c.reader.len

/-- A forward reader's cursor alone moves. -/
def FwdCursor.Moved (c d : FwdCursor) : Prop := d.reader.base = c.reader.base ∧ d.reader.len = c.reader.len

theorem BackCursor.Moved.trans {c d e : BackCursor} (h : c.Moved d) (h' : d.Moved e) : c.Moved e :=
  ⟨h'.1.trans h.1, h'.2.trans h.2⟩

theorem FwdCursor.Moved.trans {c d e : FwdCursor} (h : c.Moved d) (h' : d.Moved e) : c.Moved e :=
  ⟨h'.1.trans h.1, h'.2.trans h.2⟩

theorem BackCursor.read_moved (ibuf : Memory Byte) (n : Nat) (c : BackCursor) : (c.read ibuf n).All c.Moved := by
  rcases c.read_cases ibuf n with ⟨-, h⟩ | ⟨-, v, d, -, -, h⟩ <;> rw [h] <;> exact ⟨rfl, rfl⟩

theorem BackCursor.skipPad_moved (ibuf : Memory Byte) (c : BackCursor) : (c.skipPad ibuf).All c.Moved := by
  rcases c.skipPad_cases ibuf with ⟨-, h⟩ | ⟨-, b, d, -, ⟨-, h⟩ | ⟨-, h⟩⟩ <;> rw [h] <;> exact ⟨rfl, rfl⟩

theorem FwdCursor.read_moved (ibuf : Memory Byte) (n : Nat) (c : FwdCursor) : (c.read ibuf n).All c.Moved := by
  rcases c.read_cases ibuf n with ⟨-, h⟩ | ⟨-, v, d, -, -, h⟩ <;> rw [h] <;> exact ⟨rfl, rfl⟩

theorem FwdCursor.unwind_moved (c : FwdCursor) : c.unwind.All c.Moved := by
  rcases c.unwind_cases with ⟨-, h⟩ | ⟨-, h⟩ <;> rw [h] <;> exact ⟨rfl, rfl⟩

/-! ### Frames of the commands: everything each can write before its end -/

theorem bbrInit_frame (s : State) : (bbrInit s).All fun t => t = { s with br := t.br } := by
  unfold bbrInit; split <;> rfl

theorem bbrSkippad_frame (s : State) : (bbrSkippad s).All fun t => t = { s with br := t.br, draws := t.draws } := by
  unfold bbrSkippad; split <;> rfl

theorem bbrRead_frame (n : BitVec 16) (s : State) :
    (bbrRead n s).All fun t => t = { s with br := t.br, res := t.res, draws := t.draws } := by
  unfold bbrRead; split
  · rfl
  · split <;> rfl

theorem fbrInit_frame (s : State) : (fbrInit s).All fun t => t = { s with fr := t.fr } := by
  unfold fbrInit; split <;> rfl

theorem fbrRead_frame (n : BitVec 16) (s : State) :
    (fbrRead n s).All fun t => t = { s with fr := t.fr, res := t.res, draws := t.draws } := by
  unfold fbrRead; split
  · rfl
  · split <;> rfl

theorem fbrUnwind_frame (s : State) : (fbrUnwind s).All fun t => t = { s with fr := t.fr, draws := t.draws } := by
  unfold fbrUnwind; split <;> rfl

end Sys2Proof.Machine
end

