-- ==== Sys2Proof/Laws/Decode.lean ====
section
/-! SUPPORT. Laws of the opcode table, the decoder and the encoder's fields (30_encoding.md R85 to R94). -/

namespace Sys2Proof

/-- No word spells two rows of the opcode table (30_encoding.md R89): two rows differ in a bit both of them fix. -/
theorem opcodeTable_disjoint :
    opcodeTable.Pairwise fun r r' => r.fixed &&& (r.mask &&& r'.mask) ≠ r'.fixed &&& (r.mask &&& r'.mask) := by
  decide +kernel

/-- A row's fixed bits are bits it fixes. -/
theorem opcodeTable_fixed_masked : ∀ r ∈ opcodeTable, r.fixed &&& r.mask = r.fixed := by
  decide +kernel

/-- The table has one row for each command. -/
theorem opcodeTable_mnemonics_nodup : (opcodeTable.map OpcodeRow.mnemonic).Nodup := by
  decide +kernel

/-- Everything the checks after the opcode can answer (R91, R92). -/
theorem checked_ok_iff {w reserved : Word} {i j : Instr} :
    checked w reserved i = .ok j ↔ w &&& reserved = 0#32 ∧ i.wellFormed = true ∧ j = i := by
  unfold checked
  split_ifs with h1 h2
  · exact ⟨nofun, fun h => absurd h.1 h1⟩
  · exact ⟨fun h => ⟨not_not.1 h1, h2, (Except.ok.inj h).symm⟩, fun h => by rw [h.2.2]⟩
  · exact ⟨nofun, fun h => absurd h.2.1 h2⟩

/-- Only legal commands are decoded (R92). -/
theorem decode_wellFormed {w : Word} {i : Instr} (h : decode w = .ok i) : i.wellFormed = true := by
  unfold decode at h
  split at h <;> first
    | cases h
    | (obtain ⟨-, hw, rfl⟩ := checked_ok_iff.1 h; exact hw)

/-- Every bit of a laid-out word (R85). -/
theorem getLsbD_layout (op : BitVec 8) (k s : BitVec 4) (imm : BitVec 16) (i : Nat) :
    (layout op k s imm).getLsbD i =
      if i < 16 then imm.getLsbD i else if i < 20 then s.getLsbD (i - 16)
      else if i < 24 then k.getLsbD (i - 20) else op.getLsbD (i - 24) := by
  have h : (layout op k s imm).getLsbD i = ((op ++ k ++ s : BitVec (8 + 4 + 4)) ++ imm).getLsbD i := rfl
  rw [h, BitVec.getLsbD_append, BitVec.getLsbD_append, BitVec.getLsbD_append]
  by_cases h1 : i < 16
  · simp [h1]
  · by_cases h2 : i < 20
    · simp [h1, h2, show i - 16 < 4 by omega]
    · by_cases h3 : i < 24
      · simp [h1, h2, h3, show ¬ i - 16 < 4 by omega, show i - 16 - 4 = i - 20 by omega, show i - 20 < 4 by omega]
      · simp [h1, h2, h3, show ¬ i - 16 < 4 by omega, show ¬ i - 16 - 4 < 4 by omega,
          show i - 16 - 4 - 4 = i - 24 by omega]

/-- Every bit of an immediate that holds one byte. -/
theorem getLsbD_byteImm (b : Byte) (i : Nat) : (byteImm b).getLsbD i = b.getLsbD i := by
  have h : (byteImm b).getLsbD i = ((0#8 ++ b : BitVec (8 + 8))).getLsbD i := rfl
  rw [h, BitVec.getLsbD_append]
  split_ifs with h1
  · rfl
  · simp [BitVec.getLsbD_of_ge b i (by omega)]

/-- Every bit of the immediate of `FSE.READNC` (R86). -/
theorem getLsbD_readncImm (maxAl : BitVec 4) (maxSym : BitVec 8) (i : Nat) :
    (0#4 ++ maxAl ++ maxSym : BitVec (4 + 4 + 8)).getLsbD i =
      if i < 8 then maxSym.getLsbD i else maxAl.getLsbD (i - 8) := by
  rw [BitVec.getLsbD_append, BitVec.getLsbD_append]
  split_ifs with h1 h2
  · rfl
  · rfl
  · simp [BitVec.getLsbD_of_ge maxAl (i - 8) (by omega)]

/-- Every bit of a word of four bytes (20_memory.md R65). -/
theorem getLsbD_wordOfBytes (b0 b1 b2 b3 : Byte) (i : Nat) :
    (wordOfBytes b0 b1 b2 b3).getLsbD i =
      if i < 8 then b0.getLsbD i else if i < 16 then b1.getLsbD (i - 8)
      else if i < 24 then b2.getLsbD (i - 16) else b3.getLsbD (i - 24) := by
  have h : (wordOfBytes b0 b1 b2 b3).getLsbD i = ((b3 ++ b2 ++ b1 : BitVec (8 + 8 + 8)) ++ b0).getLsbD i := rfl
  rw [h, BitVec.getLsbD_append, BitVec.getLsbD_append, BitVec.getLsbD_append]
  by_cases h1 : i < 8
  · simp [h1]
  · by_cases h2 : i < 16
    · simp [h1, h2, show i - 8 < 8 by omega]
    · by_cases h3 : i < 24
      · simp [h1, h2, h3, show ¬ i - 8 < 8 by omega, show i - 8 - 8 = i - 16 by omega, show i - 16 < 8 by omega]
      · simp [h1, h2, h3, show ¬ i - 8 < 8 by omega, show ¬ i - 8 - 8 < 8 by omega,
          show i - 8 - 8 - 8 = i - 24 by omega]

/-- The fields of a laid-out word (R85). -/
@[simp] theorem opField_layout (op : BitVec 8) (k s : BitVec 4) (imm : BitVec 16) : opField (layout op k s imm) = op := by
  apply BitVec.eq_of_getLsbD_eq
  intro i hi
  simp only [opField, BitVec.getLsbD_extractLsb', getLsbD_layout]
  interval_cases i <;> simp

@[simp] theorem immField_layout (op : BitVec 8) (k s : BitVec 4) (imm : BitVec 16) : immField (layout op k s imm) = imm := by
  apply BitVec.eq_of_getLsbD_eq
  intro i hi
  simp only [immField, BitVec.getLsbD_extractLsb', getLsbD_layout]
  interval_cases i <;> simp

@[simp] theorem kField_layout (op : BitVec 8) (k : Fin 4) (s : BitVec 4) (imm : BitVec 16) :
    kField (layout op (kBits k) s imm) = k := by
  have : (layout op (kBits k) s imm).extractLsb' 20 2 = (kBits k).extractLsb' 0 2 := by
    apply BitVec.eq_of_getLsbD_eq
    intro i hi
    simp only [BitVec.getLsbD_extractLsb', getLsbD_layout]
    interval_cases i <;> simp
  rw [kField, this]
  clear this; revert k; decide

@[simp] theorem slotField_layout (op : BitVec 8) (k : BitVec 4) (s : Fin 8) (imm : BitVec 16) :
    slotField (layout op k (slotBits s) imm) = s := by
  have : (layout op k (slotBits s) imm).extractLsb' 16 3 = (slotBits s).extractLsb' 0 3 := by
    apply BitVec.eq_of_getLsbD_eq
    intro i hi
    simp only [BitVec.getLsbD_extractLsb', getLsbD_layout]
    interval_cases i <;> simp
  rw [slotField, this]
  clear this; revert s; decide

/-- A word of four bytes and its bytes (20_memory.md R65). -/
theorem wordOfBytes_bytesOfWord (w : Word) :
    wordOfBytes (w.extractLsb' 0 8) (w.extractLsb' 8 8) (w.extractLsb' 16 8) (w.extractLsb' 24 8) = w := by
  apply BitVec.eq_of_getLsbD_eq
  intro i hi
  rw [getLsbD_wordOfBytes]
  interval_cases i <;> simp

/-- The decoder on bytes reads the first word, little-endian, and leaves the rest (R94, 20_memory.md R65). -/
theorem decodeBytes_bytesOfWord (w : Word) (rest : List Byte) :
    decodeBytes (bytesOfWord w ++ rest) = some (decode w, rest) := by
  simp only [bytesOfWord, List.cons_append, List.nil_append, decodeBytes, wordOfBytes_bytesOfWord]

end Sys2Proof
end

