-- ==== Sys2Proof/Laws/Fse.lean ====
section
/-! SUPPORT. What the parts of the FSE decoder and its commands can do (41_fse.md). -/

namespace Sys2Proof.Machine

/-! ### Description parsing: the forward reader's cursor alone moves (R141) -/

theorem readCountField_moved (ibuf : Memory Byte) (l : NcLoop) (c : FwdCursor) :
    (readCountField ibuf l c).All c.Moved := by
  have h := c.read_moved ibuf l.nbBits
  unfold readCountField
  simp only []
  split <;> rename_i he <;> rw [he] at h
  · exact h
  · split
    · have h' := FwdCursor.unwind_moved ‹_›
      split <;> rename_i hu <;> rw [hu] at h' <;> exact h.trans h'
    · split <;> exact h

theorem readZeroRun_moved (ibuf : Memory Byte) (maxSym fuel sym : Nat) (c : FwdCursor) :
    (readZeroRun ibuf maxSym fuel sym c).All c.Moved := by
  induction fuel generalizing sym c with
  | zero => exact ⟨rfl, rfl⟩
  | succ fuel ih =>
    have h := c.read_moved ibuf 2
    unfold readZeroRun
    split <;> rename_i he <;> rw [he] at h
    · exact h
    · simp only []
      split
      · exact h
      · split
        · exact (ih _ _).imp fun d hd => h.trans hd
        · exact h

theorem readCounts_moved (ibuf : Memory Byte) (maxSym fuel : Nat) (l : NcLoop) (c : FwdCursor) :
    (readCounts ibuf maxSym fuel l c).All c.Moved := by
  induction fuel generalizing l c with
  | zero => unfold readCounts; split <;> exact ⟨rfl, rfl⟩
  | succ fuel ih =>
    unfold readCounts
    split
    · split
      · exact ⟨rfl, rfl⟩
      · have h := readCountField_moved ibuf l c
        split <;> rename_i he <;> rw [he] at h
        · exact h
        · simp only []
          split
          · have h' := readZeroRun_moved ibuf maxSym (maxSym + 1) (l.counts ++ [‹Int› - 1]).length ‹_›
            split <;> rename_i hz <;> rw [hz] at h'
            · exact h.trans h'
            · exact (ih _ _).imp fun d hd => (h.trans h').trans hd
          · exact (ih _ _).imp fun d hd => h.trans hd
    · exact ⟨rfl, rfl⟩

theorem readNCount_moved (ibuf : Memory Byte) (maxSym maxAl : Nat) (c : FwdCursor) :
    (readNCount ibuf maxSym maxAl c).All c.Moved := by
  have h := c.read_moved ibuf 4
  unfold readNCount
  simp only []
  split <;> rename_i he <;> rw [he] at h
  · exact h
  · split
    · exact h
    · have h' := readCounts_moved ibuf maxSym (maxSym + 1)
        { remaining := 2 ^ (‹Nat› + 5) + 1, threshold := 2 ^ (‹Nat› + 5), nbBits := ‹Nat› + 5 + 1, counts := [] } ‹_›
      split <;> rename_i hz <;> rw [hz] at h' <;> exact h.trans h'

/-! ### Table construction (R145) -/

@[simp] theorem length_dtEntries (al : Nat) (syms next : List Nat) : (dtEntries al syms next).length = syms.length := by
  induction syms generalizing next with
  | nil => rfl
  | cons s syms ih => simp [dtEntries, ih]

theorem spreadSymbol_length {size low stride sym n : Nat} {t t' : List Nat × Nat}
    (h : spreadSymbol size low stride sym n t = some t') : t'.1.length = t.1.length := by
  induction n generalizing t with
  | zero => cases h; rfl
  | succ n ih =>
    obtain ⟨syms, pos⟩ := t
    simp only [spreadSymbol] at h
    split at h
    · cases h
    · simpa using ih h

theorem spreadAll_length {size low stride : Nat} {counts : List Int} {sym : Nat} {t t' : List Nat × Nat}
    (h : spreadAll size low stride counts sym t = some t') : t'.1.length = t.1.length := by
  induction counts generalizing sym t with
  | nil => cases h; rfl
  | cons c counts ih =>
    simp only [spreadAll] at h
    split at h
    · cases h
    · exact (ih h).trans (spreadSymbol_length ‹_›)

theorem placeHigh_length (counts : List Int) (sym : Nat) (t : List Nat × Nat) :
    (placeHigh counts sym t).1.length = t.1.length := by
  induction counts generalizing sym t with
  | nil => rfl
  | cons c counts ih =>
    obtain ⟨syms, low⟩ := t
    simp only [placeHigh]
    split <;> simp [ih]

/-- A table that is built has one entry per state. -/
theorem buildTable_length {al : Nat} {counts : List Int} {es : List DtEntry} (h : buildTable al counts = some es) :
    es.length = 2 ^ al := by
  unfold buildTable at h
  simp only [] at h
  split at h
  · have hs := spreadAll_length ‹_›
    have hp := placeHigh_length counts 0 (List.replicate (2 ^ al) 0, 2 ^ al)
    simp only [List.length_replicate] at hp hs
    cases h
    simp [hs, hp]
  · cases h

/-! ### The weight stream: the backward reader's cursor alone moves (R158) -/

theorem decodeWeights2Loop_moved (ibuf : Memory Byte) (table : List DtEntry) (fuel a b : Nat) (out : List Nat)
    (c : BackCursor) : (decodeWeights2Loop ibuf table fuel a b out c).All c.Moved := by
  induction fuel generalizing a b out c with
  | zero => exact ⟨rfl, rfl⟩
  | succ fuel ih =>
    unfold decodeWeights2Loop
    split
    · exact ⟨rfl, rfl⟩
    · have h := c.read_moved ibuf (table.getD a ⟨0, 0, 0⟩).nbBits.toNat
      simp only []
      split <;> rename_i he <;> rw [he] at h
      · exact h
      · split
        · split <;> exact h
        · exact (ih _ _ _ _).imp fun d hd => h.trans hd

/-- No weight stream gives more than 255 weights (42_huffman.md R193, R158). -/
theorem decodeWeights2Loop_length {ibuf : Memory Byte} {table : List DtEntry} {fuel a b : Nat} {out ws : List Nat}
    {c d : BackCursor} (h : decodeWeights2Loop ibuf table fuel a b out c = .ok ws d) (ho : out.length ≤ 255) :
    ws.length ≤ 255 := by
  induction fuel generalizing a b out c with
  | zero => cases h
  | succ fuel ih =>
    unfold decodeWeights2Loop at h
    have e : Config.hufMaxWeights = 255 := rfl
    simp only [] at h
    split at h
    · cases h
    · split at h
      · cases h
      · split at h
        · split at h
          · cases h
          · cases h
            simp only [List.length_append, List.length_cons, List.length_nil] at *
            omega
        · exact ih h (by simp only [List.length_append, List.length_cons, List.length_nil]; omega)

/-! ### Frames of the commands: everything each can write before its end -/

theorem fseReadnc_frame (t : Fin 8) (maxAl : BitVec 4) (maxSym : BitVec 8) (s : State) :
    (fseReadnc t maxAl maxSym s).All fun u =>
      u = { s with fr := u.fr, slots := u.slots, states := u.states, res := u.res, draws := u.draws } := by
  unfold fseReadnc
  split
  · rfl
  · split
    · rfl
    · simp only []; split <;> simp only [Ending.All, State.setFwd, State.setSlot, invalidate]

theorem buildSlot_frame (t : Fin 8) (counts : List Int) (s : State) :
    (buildSlot t counts s).All fun u => u = { s with slots := u.slots } := by
  unfold buildSlot; simp only []; split <;> rfl

theorem fseBuild_frame (t : Fin 8) (s : State) :
    (fseBuild t s).All fun u => u = { s with slots := u.slots, states := u.states, draws := u.draws } := by
  unfold fseBuild
  split
  · refine (buildSlot_frame _ _ _).imp fun u hu => ?_
    rw [hu]; rfl
  · rfl

theorem fsePredef_frame (t : Fin 8) (which : BitVec 16) (s : State) :
    (fsePredef t which s).All fun u => u = { s with slots := u.slots, states := u.states } := by
  unfold fsePredef
  split
  · rfl
  · refine (buildSlot_frame _ _ _).imp fun u hu => ?_
    rw [hu]; rfl

theorem fseRle_frame (t : Fin 8) (b : Byte) (s : State) :
    (fseRle t b s).All fun u => u = { s with slots := u.slots, states := u.states } := rfl

theorem fseInit_frame (k : Fin 4) (t : Fin 8) (s : State) :
    (fseInit k t s).All fun u => u = { s with br := u.br, states := u.states, draws := u.draws } := by
  unfold fseInit; split
  · split <;> rfl
  · rfl

theorem fsePeek_frame (k : Fin 4) (s : State) :
    (fsePeek k s).All fun u => u = { s with res := u.res, draws := u.draws } := by
  unfold fsePeek; split <;> rfl

theorem fseNext_frame (k : Fin 4) (s : State) :
    (fseNext k s).All fun u => u = { s with br := u.br, states := u.states, draws := u.draws } := by
  unfold fseNext; split
  · simp only []; split <;> rfl
  · rfl

end Sys2Proof.Machine
end

