-- ==== Sys2Proof/Laws/Huffman.lean ====
section
/-! SUPPORT. What the parts of the Huffman decoder and its commands can do (42_huffman.md). -/

namespace Sys2Proof.Machine

@[simp] theorem length_directWeights (ibuf : Memory Byte) (off n i draws : Nat) :
    (directWeights ibuf off n i draws).1.length = n := by
  induction n generalizing i draws with
  | zero => rfl
  | succ n ih => simp [directWeights, ih]

/-- Every weight read from a nibble is below 16 (R192). -/
theorem directWeights_lt (ibuf : Memory Byte) (off n i draws : Nat) : ∀ w ∈ (directWeights ibuf off n i draws).1, w < 16 := by
  induction n generalizing i draws with
  | zero => simp [directWeights]
  | succ n ih =>
    simp only [directWeights, List.mem_cons]
    rintro w (rfl | h)
    · split
      · rw [Nat.shiftRight_eq_div_pow]
        have := (ibuf.readByte (off + 1 + i / 2) draws).1.isLt
        omega
      · exact lt_of_le_of_lt Nat.and_le_right (by norm_num)
    · exact ih _ _ _ h

/-- The image written to `W` (R195): the weights, then zeros. -/
theorem get?_weightImage (ws : List Nat) (i : Nat) :
    (weightImage ws).get? i = if i < 256 then some (BitVec.ofNat 4 (ws.getD i 0)) else none := by
  simp only [weightImage, Memory.get?_ofList, List.getElem?_map, Config.wEntries]
  by_cases h : i < 256
  · simp [h]
  · simp [h]

theorem weightImage_wf (ws : List Nat) : (weightImage ws).wf Config.wEntries = true :=
  Memory.ofList_wf (by simp)

/-- `2·weightShare = 2^w` for a weight that has a share (R191). -/
theorem two_mul_weightShare {w : Nat} (h : w ≠ 0) : 2 * weightShare w = 2 ^ w := by
  obtain ⟨k, rfl⟩ := Nat.exists_eq_succ_of_ne_zero h
  simp [weightShare, pow_succ, mul_comm]

/-- The entries of one weight class: a share for each of its symbols (R196). -/
theorem length_classEntries (mb w : Nat) (ws : List Nat) (sym : Nat) :
    (classEntries mb w ws sym).length = ws.count w * 2 ^ (w - 1) := by
  induction ws generalizing sym with
  | nil => simp [classEntries]
  | cons x ws ih =>
    simp only [classEntries, List.count_cons]
    split
    · subst_vars; simp [ih]; ring
    · simp [*]

/-! ### Frames of the commands: everything each can write before its end -/

theorem hufReadw_frame (s : State) :
    (hufReadw s).All fun t =>
      t = { s with hufValid := t.hufValid, w := t.w, hufNw := t.hufNw, res := t.res, draws := t.draws } := by
  unfold hufReadw
  simp only []
  split
  · split
    · rfl
    · split <;> rfl
  · rfl

theorem buildHuf_frame (ws : List Nat) (s : State) :
    (buildHuf ws s).All fun t =>
      t = { s with hufValid := t.hufValid, w := t.w, ht := t.ht, hufMaxbits := t.hufMaxbits, hufNsym := t.hufNsym } := by
  unfold buildHuf
  simp only []
  split_ifs <;> rfl

theorem hufBuild_frame (s : State) :
    (hufBuild s).All fun t =>
      t = { s with hufValid := t.hufValid, w := t.w, ht := t.ht, hufMaxbits := t.hufMaxbits, hufNsym := t.hufNsym
                   draws := t.draws } := by
  unfold hufBuild
  refine (buildHuf_frame _ _).imp fun t ht => ?_
  rw [ht]

/-- The stream part of `HUF.DECODE` writes the backward reader, LBUF and the count of draws. -/
def SameButStream (s t : State) : Prop := t = { s with br := t.br, lbuf := t.lbuf, draws := t.draws }

theorem SameButStream.trans {s t u : State} (h : SameButStream s t) (h' : SameButStream t u) : SameButStream s u := by
  unfold SameButStream at *
  rw [h', h]

theorem decodeSymbol_frame (mb idx : Nat) (s : State) : (decodeSymbol mb idx s).All (SameButStream s) := by
  unfold decodeSymbol
  simp only []
  split <;> rfl

theorem hufLoop_frame (mb dst fuel idx count : Nat) (s : State) :
    (hufLoop mb dst fuel idx count s).All (SameButStream s) := by
  induction fuel generalizing idx count s with
  | zero => unfold hufLoop; split <;> rfl
  | succ fuel ih =>
    unfold hufLoop
    split
    · have h := decodeSymbol_frame mb idx s
      split <;> rename_i he <;> rw [he] at h
      · exact h
      · refine (ih _ _ _).imp fun t ht => SameButStream.trans (SameButStream.trans h ?_) ht
        rfl
    · rfl

theorem hufStream_frame (base len dst limit : Nat) (s : State) :
    (hufStream base len dst limit s).All (SameButStream s) := by
  unfold hufStream
  simp only []
  split
  · rfl
  · split
    · rfl
    · have h := hufLoop_frame s.hufMaxbits.toNat dst limit ‹Nat› 0
        ((State.setBack { s with br := BackReader.opened base len } ‹_›))
      split <;> rename_i he <;> rw [he] at h
      · exact SameButStream.trans (t := State.setBack { s with br := BackReader.opened base len } _) rfl h
      · split <;>
          exact SameButStream.trans (t := State.setBack { s with br := BackReader.opened base len } _) rfl h

theorem hufDecode_frame (s : State) :
    (hufDecode s).All fun t => t = { s with br := t.br, lbuf := t.lbuf, res := t.res, draws := t.draws } := by
  unfold hufDecode
  split
  · split
    · have h := hufStream_frame s.opArg0 s.opArg1 s.opArg2 s.opArg3 s
      split <;> rename_i he <;> rw [he] at h <;> simp only [Res.All, SameButStream] at h <;>
        simp only [Ending.All] <;> rw [h]
    · rfl
  · rfl

end Sys2Proof.Machine
end

