-- ==== Sys2Proof/Laws/PerInstr.lean ====
section
/-! SUPPORT. Statements made instruction by instruction. `RowMatch`: the encoded command spells its own row of the opcode
table, whatever its operands (30_encoding.md R87, R89). -/

namespace Sys2Proof.Laws.RowMatch

/-- The encoded command spells the row of its own mnemonic. -/
def Statement (i : Instr) : Prop := ∃ r ∈ opcodeTable, r.mnemonic = i.mnemonic ∧ encode i &&& r.mask = r.fixed

theorem of_row {i : Instr} (r : OpcodeRow) (h : r ∈ opcodeTable) (hm : r.mnemonic = i.mnemonic)
    (he : encode i &&& r.mask = r.fixed) : Statement i := ⟨r, h, hm, he⟩

/-- A word laid out by fields, seen through the fields of a mask. -/
theorem layout_and (op op' : BitVec 8) (k k' s s' : BitVec 4) (imm imm' : BitVec 16) :
    layout op k s imm &&& layout op' k' s' imm' = layout (op &&& op') (k &&& k') (s &&& s') (imm &&& imm') := by
  apply BitVec.eq_of_getLsbD_eq
  intro i hi
  simp only [BitVec.getLsbD_and, getLsbD_layout]
  split_ifs <;> rfl

theorem nop : Statement .nop := of_row ⟨"NOP", 0x00000000, 0xFFFFFFFF⟩ (by decide) rfl rfl
theorem bbrInit : Statement .bbrInit := of_row ⟨"BBR.INIT", 0x01000000, 0xFFFFFFFF⟩ (by decide) rfl rfl
theorem bbrSkippad : Statement .bbrSkippad := of_row ⟨"BBR.SKIPPAD", 0x02000000, 0xFFFFFFFF⟩ (by decide) rfl rfl
theorem bbrRead (n : BitVec 16) : Statement (.bbrRead n) :=
  of_row ⟨"BBR.READ", 0x03000000, 0xFFFF0000⟩ (by decide) rfl <| by
    have hm : (0xFFFF0000 : Word) = layout 0xFF 0xF 0xF 0x0000 := rfl
    simp only [encode]
    rw [hm, layout_and]
    have hi : n &&& 0x0000 = 0 := by simp
    rw [hi]; rfl
theorem fbrInit : Statement .fbrInit := of_row ⟨"FBR.INIT", 0x08000000, 0xFFFFFFFF⟩ (by decide) rfl rfl
theorem fbrRead (n : BitVec 16) : Statement (.fbrRead n) :=
  of_row ⟨"FBR.READ", 0x09000000, 0xFFFF0000⟩ (by decide) rfl <| by
    have hm : (0xFFFF0000 : Word) = layout 0xFF 0xF 0xF 0x0000 := rfl
    simp only [encode]
    rw [hm, layout_and]
    have hi : n &&& 0x0000 = 0 := by simp
    rw [hi]; rfl
theorem fbrUnwind : Statement .fbrUnwind := of_row ⟨"FBR.UNWIND", 0x0A000000, 0xFFFFFFFF⟩ (by decide) rfl rfl
theorem fseReadnc (slot : Fin 8) (maxAl : BitVec 4) (maxSym : BitVec 8) : Statement (.fseReadnc slot maxAl maxSym) :=
  of_row ⟨"FSE.READNC", 0x10000000, 0xFFF8F000⟩ (by decide) rfl <| by
    have hm : (0xFFF8F000 : Word) = layout 0xFF 0xF 0x8 0xF000 := rfl
    simp only [encode]
    rw [hm, layout_and]
    have hi : ((0#4 ++ maxAl ++ maxSym : BitVec 16) &&& 0xF000) = 0 := by
      apply BitVec.eq_of_getLsbD_eq
      intro i hi
      rw [BitVec.getLsbD_and, getLsbD_readncImm]
      interval_cases i <;> simp
    have hs : slotBits slot &&& 0x8 = 0 := by revert slot; decide
    rw [hi, hs]; rfl
theorem fseBuild (slot : Fin 8) : Statement (.fseBuild slot) :=
  of_row ⟨"FSE.BUILD", 0x11000000, 0xFFF8FFFF⟩ (by decide) rfl <| by
    revert slot; decide
theorem fsePredef (slot : Fin 8) (which : BitVec 16) : Statement (.fsePredef slot which) :=
  of_row ⟨"FSE.PREDEF", 0x12000000, 0xFFF80000⟩ (by decide) rfl <| by
    have hm : (0xFFF80000 : Word) = layout 0xFF 0xF 0x8 0x0000 := rfl
    simp only [encode]
    rw [hm, layout_and]
    have hi : which &&& 0x0000 = 0 := by simp
    have hs : slotBits slot &&& 0x8 = 0 := by revert slot; decide
    rw [hi, hs]; rfl
theorem fseRle (slot : Fin 8) (byte : Byte) : Statement (.fseRle slot byte) :=
  of_row ⟨"FSE.RLE", 0x13000000, 0xFFF8FF00⟩ (by decide) rfl <| by
    have hm : (0xFFF8FF00 : Word) = layout 0xFF 0xF 0x8 0xFF00 := rfl
    simp only [encode]
    rw [hm, layout_and]
    have hi : byteImm byte &&& 0xFF00 = 0 := by
      apply BitVec.eq_of_getLsbD_eq
      intro i hi
      rw [BitVec.getLsbD_and, getLsbD_byteImm]
      interval_cases i <;> simp
    have hs : slotBits slot &&& 0x8 = 0 := by revert slot; decide
    rw [hi, hs]; rfl
theorem fseInit (k : Fin 4) (slot : Fin 8) : Statement (.fseInit k slot) :=
  of_row ⟨"FSE.INIT", 0x14000000, 0xFFC8FFFF⟩ (by decide) rfl <| by
    revert k slot; decide
theorem fsePeek (k : Fin 4) : Statement (.fsePeek k) :=
  of_row ⟨"FSE.PEEK", 0x15000000, 0xFFCFFFFF⟩ (by decide) rfl <| by
    revert k; decide
theorem fseNext (k : Fin 4) : Statement (.fseNext k) :=
  of_row ⟨"FSE.NEXT", 0x16000000, 0xFFCFFFFF⟩ (by decide) rfl <| by
    revert k; decide
theorem hufReadw : Statement .hufReadw := of_row ⟨"HUF.READW", 0x20000000, 0xFFFFFFFF⟩ (by decide) rfl rfl
theorem hufBuild : Statement .hufBuild := of_row ⟨"HUF.BUILD", 0x21000000, 0xFFFFFFFF⟩ (by decide) rfl rfl
theorem hufDecode : Statement .hufDecode := of_row ⟨"HUF.DECODE", 0x22000000, 0xFFFFFFFF⟩ (by decide) rfl rfl
theorem winConfig : Statement .winConfig := of_row ⟨"WIN.CONFIG", 0x30000000, 0xFFFFFFFF⟩ (by decide) rfl rfl
theorem winPushi : Statement .winPushi := of_row ⟨"WIN.PUSHI", 0x31000000, 0xFFFFFFFF⟩ (by decide) rfl rfl
theorem winPushl : Statement .winPushl := of_row ⟨"WIN.PUSHL", 0x32000000, 0xFFFFFFFF⟩ (by decide) rfl rfl
theorem winPushr (byte : Byte) : Statement (.winPushr byte) :=
  of_row ⟨"WIN.PUSHR", 0x33000000, 0xFFFFFF00⟩ (by decide) rfl <| by
    have hm : (0xFFFFFF00 : Word) = layout 0xFF 0xF 0xF 0xFF00 := rfl
    simp only [encode]
    rw [hm, layout_and]
    have hi : byteImm byte &&& 0xFF00 = 0 := by
      apply BitVec.eq_of_getLsbD_eq
      intro i hi
      rw [BitVec.getLsbD_and, getLsbD_byteImm]
      interval_cases i <;> simp
    rw [hi]; rfl
theorem winRepeat : Statement .winRepeat := of_row ⟨"WIN.REPEAT", 0x34000000, 0xFFFFFFFF⟩ (by decide) rfl rfl
theorem winRepgen : Statement .winRepgen := of_row ⟨"WIN.REPGEN", 0x35000000, 0xFFFFFFFF⟩ (by decide) rfl rfl
theorem winFlush : Statement .winFlush := of_row ⟨"WIN.FLUSH", 0x36000000, 0xFFFFFFFF⟩ (by decide) rfl rfl
end Sys2Proof.Laws.RowMatch
end

