-- ==== Sys2Proof/Laws/Window.lean ====
section
/-! SUPPORT. What the window commands can do (43_window.md). -/

namespace Sys2Proof.Machine

/-! ### The sources: each reads one byte and touches only the count of draws -/

theorem ibufSource_frame (base j : Nat) (s : State) : SameButWindow s (ibufSource base j s).2 := rfl
theorem lbufSource_frame (base j : Nat) (s : State) : SameButWindow s (lbufSource base j s).2 := rfl
theorem byteSource_frame (b : Byte) (j : Nat) (s : State) : SameButWindow s (byteSource b j s).2 := rfl
theorem repeatSource_frame (t dist j : Nat) (s : State) : SameButWindow s (repeatSource t dist j s).2 := rfl
theorem repgenSource_frame (dist j : Nat) (s : State) : SameButWindow s (repgenSource dist j s).2 := rfl

theorem ibufSource_draws (base j : Nat) (s : State) :
    (ibufSource base j s).2 = { s with draws := (ibufSource base j s).2.draws } := rfl
theorem lbufSource_draws (base j : Nat) (s : State) :
    (lbufSource base j s).2 = { s with draws := (lbufSource base j s).2.draws } := rfl
theorem byteSource_draws (b : Byte) (j : Nat) (s : State) :
    (byteSource b j s).2 = { s with draws := (byteSource b j s).2.draws } := rfl
theorem repeatSource_draws (t dist j : Nat) (s : State) :
    (repeatSource t dist j s).2 = { s with draws := (repeatSource t dist j s).2.draws } := rfl
theorem repgenSource_draws (dist j : Nat) (s : State) :
    (repgenSource dist j s).2 = { s with draws := (repgenSource dist j s).2.draws } := rfl

/-- A history byte that is resident reads as itself (R231). -/
theorem readWindow_listed {s : State} {i : Nat} {b : Byte} (h : s.wbuf.get? (i % s.winCap.toNat) = some b) :
    readWindow i s = (b, s) := by
  simp [readWindow, Memory.readByte_listed h]

/-- The history's resident bytes are what the window reads (R231). -/
theorem State.hasHistory.readWindow {s : State} {h : List Byte} (hh : s.hasHistory h) {i : Nat} (hi : i < h.length)
    (hr : s.wtotal.toNat ≤ i + s.winCap.toNat) : readWindow i s = (h[i], s) :=
  readWindow_listed (hh.2 i hi hr)

/-! ### Frames of the commands: everything each can write before its end -/

theorem appendAll_frame {source : Nat → State → Byte × State} (hs : ∀ j s, SameButWindow s (source j s).2) (n : Nat)
    (s : State) : (appendAll source n s).All (SameButWindow s) := by
  rcases appendAll_cases source n s with ⟨-, h⟩ | ⟨-, h⟩ <;> rw [h]
  · exact appendLoop_frame hs n 0 s
  · trivial

theorem winConfig_frame (s : State) :
    (winConfig s).All fun t =>
      t = { s with winCap := t.winCap, wtotal := t.wtotal, wflushed := t.wflushed, wconf := t.wconf } := by
  unfold winConfig
  simp only []
  split_ifs <;> rfl

theorem winPushi_frame (s : State) : (winPushi s).All (SameButWindow s) := by
  unfold winPushi
  split_ifs
  · exact appendAll_frame (ibufSource_frame _) _ s
  · rfl
  · rfl

theorem winPushl_frame (s : State) : (winPushl s).All (SameButWindow s) := by
  unfold winPushl
  split_ifs
  · exact appendAll_frame (lbufSource_frame _) _ s
  · rfl
  · rfl

theorem winPushr_frame (b : Byte) (s : State) : (winPushr b s).All (SameButWindow s) := by
  unfold winPushr
  split_ifs
  · exact appendAll_frame (byteSource_frame _) _ s
  · rfl

theorem winRepeat_frame (s : State) : (winRepeat s).All (SameButWindow s) := by
  unfold winRepeat
  simp only []
  split_ifs
  · rfl
  · rfl
  · rfl
  · exact appendAll_frame (repeatSource_frame _ _) _ s
  · rfl

theorem winRepgen_frame (s : State) : (winRepgen s).All (SameButWindow s) := by
  unfold winRepgen
  simp only []
  split_ifs
  · rfl
  · rfl
  · exact appendAll_frame (repgenSource_frame _) _ s
  · rfl

theorem flushLoop_frame (n i : Nat) (s : State) :
    flushLoop n i s = { s with out := (flushLoop n i s).out, draws := (flushLoop n i s).draws } := by
  induction n generalizing i s with
  | zero => rfl
  | succ n ih =>
    rw [flushLoop]
    simp only []
    rw [ih]; rfl

theorem winFlush_frame (s : State) : (winFlush s).All (SameButWindow s) := by
  unfold winFlush
  split
  · simp only [Ending.All, SameButWindow]
    rw [flushLoop_frame]
  · rfl

end Sys2Proof.Machine
end

