-- ==== Sys2Proof/Laws/Step.lean ====
section
/-! SUPPORT. What a step can do: the command, the block's turn, the host's access, the schedule (44_control.md R251;
20_memory.md R72). -/

namespace Sys2Proof.Machine

/-! ### `exec` is the end of one ending -/

/-- How the pseudocode of a command ends. -/
def ending (i : Instr) (s : State) : Ending :=
  match i with
  | .nop => nop s
  | .bbrInit => bbrInit s
  | .bbrSkippad => bbrSkippad s
  | .bbrRead n => bbrRead n s
  | .fbrInit => fbrInit s
  | .fbrRead n => fbrRead n s
  | .fbrUnwind => fbrUnwind s
  | .fseReadnc t maxAl maxSym => fseReadnc t maxAl maxSym s
  | .fseBuild t => fseBuild t s
  | .fsePredef t which => fsePredef t which s
  | .fseRle t byte => fseRle t byte s
  | .fseInit k t => fseInit k t s
  | .fsePeek k => fsePeek k s
  | .fseNext k => fseNext k s
  | .hufReadw => hufReadw s
  | .hufBuild => hufBuild s
  | .hufDecode => hufDecode s
  | .winConfig => winConfig s
  | .winPushi => winPushi s
  | .winPushl => winPushl s
  | .winPushr byte => winPushr byte s
  | .winRepeat => winRepeat s
  | .winRepgen => winRepgen s
  | .winFlush => winFlush s

/-- Every command is the end of its own pseudocode, under its own word. -/
theorem exec_eq (i : Instr) (s : State) : exec i s = finish i (ending i s) := by
  cases i <;> rfl

/-- No command stops the model with a fault of the model's own. -/
theorem exec_ne_fault (i : Instr) (s : State) (r : Fault) : exec i s ≠ .fault r := by
  rw [exec_eq]; exact finish_ne_fault _ _ r

/-! ### The block's turn -/

/-- `Execute` runs the command decoded, or takes `ILLEGAL_CMD` (R251). -/
theorem execute_cases (w : Word) (s : State) :
    (∃ i, decode w = .ok i ∧ execute w s = exec i s) ∨
    (∃ e, decode w = .error e ∧ execute w s = .next (faultEntry .illegalCmd w s)) := by
  unfold execute
  split <;> rename_i h
  · exact .inl ⟨_, h, rfl⟩
  · exact .inr ⟨_, h, rfl⟩

/-- Everything the block's turn can answer with a next state. -/
theorem blockTurn_next {s t : State} (h : blockTurn s = .next t) :
    (t = s ∧ (s.pending = none ∨ s.fault = true ∨ s.sinkReady = false)) ∨
    (∃ w, s.pending = some w ∧ s.fault = false ∧ s.waits t = false ∧ execute w s = .next t) := by
  unfold blockTurn at h
  split at h
  · cases h; exact .inl ⟨rfl, .inl ‹_›⟩
  · split at h
    · cases h; exact .inl ⟨rfl, .inr (.inl ‹_›)⟩
    · split at h
      · split at h
        · cases h
          refine .inl ⟨rfl, .inr (.inr ?_)⟩
          simp_all [State.waits]
        · cases h
          exact .inr ⟨_, ‹_›, by simpa using ‹¬ s.fault = true›, by simpa using ‹¬ _ = true›, ‹_›⟩
      · exact .inr ⟨_, ‹_›, by simpa using ‹¬ s.fault = true›, by simp_all, h⟩

/-- Everything the block's last turn can answer with a next state. -/
theorem lastTurn_next {s t : State} (h : lastTurn s = .next t) :
    (t = s ∧ (s.pending = none ∨ s.fault = true)) ∨
    (∃ w, s.pending = some w ∧ s.fault = false ∧ s.waits t = false ∧ execute w s = .next t) := by
  unfold lastTurn at h
  split at h
  · cases h; exact .inl ⟨rfl, .inl ‹_›⟩
  · split at h
    · cases h; exact .inl ⟨rfl, .inr ‹_›⟩
    · split at h
      · split at h
        · cases h
        · cases h
          exact .inr ⟨_, ‹_›, by simpa using ‹¬ s.fault = true›, by simpa using ‹¬ _ = true›, ‹_›⟩
      · exact .inr ⟨_, ‹_›, by simpa using ‹¬ s.fault = true›, by simp_all, h⟩

/-! ### The host's poll -/

/-- Only the host's events are left. -/
theorem nextOther_none {es : List Event} (h : ∀ e ∈ es, e.isHost = true) : nextOther es = none := by
  induction es with
  | nil => rfl
  | cons e es ih =>
    simp only [List.mem_cons, forall_eq_or_imp] at h
    simp only [nextOther, h.1, if_true, ih h.2]

/-- The first event that is not the host's, taken out of its place. -/
theorem nextOther_append {hosts others : List Event} {e : Event} (h : ∀ e ∈ hosts, e.isHost = true)
    (he : e.isHost = false) : nextOther (hosts ++ e :: others) = some (e, hosts ++ others) := by
  induction hosts with
  | nil => simp only [List.nil_append, nextOther, he, Bool.false_eq_true, if_false]
  | cons x hosts ih =>
    simp only [List.mem_cons, forall_eq_or_imp] at h
    simp only [List.cons_append, nextOther, h.1, if_true, ih h.2]

/-- A read of `STATUS` is always allowed, and returns its word (20_memory.md R73). -/
theorem hostAccess_status (s : State) :
    hostAccess (.read 0x0008 .w32) s = { s with hostReads := s.hostReads ++ [s.statusWord] } := by
  have h : targetAt s.winCapMax 8 = .reg .status := rfl
  have h' : accessFaults s (.read 0x0008 .w32) = false := by
    simp [accessFaults, accessLegal, HostAccess.addr, HostAccess.width, h, allowedWhileBusy]
  simp only [hostAccess, memRead, h', Bool.false_eq_true, if_false]
  rfl

/-- Everything a poll can do: it succeeds, or another agent moves before the next one. -/
theorem pollTurn_cases (s : State) :
    (s.busy = false ∧ pollTurn s = .next { s with hostReads := s.hostReads ++ [s.statusWord] }) ∨
    (s.busy = true ∧ ∃ e rest, nextOther s.schedule = some (e, rest) ∧
      pollTurn s = .next { s with schedule := e :: .poll :: rest, hostReads := s.hostReads ++ [s.statusWord] }) ∨
    (s.busy = true ∧ nextOther s.schedule = none ∧
      pollTurn s = lastTurn { s with schedule := .poll :: s.schedule, hostReads := s.hostReads ++ [s.statusWord] }) := by
  simp only [pollTurn, hostAccess_status]
  cases s.busy
  · exact .inl ⟨rfl, rfl⟩
  · cases nextOther s.schedule
    · exact .inr (.inr ⟨rfl, rfl, rfl⟩)
    · exact .inr (.inl ⟨rfl, _, _, rfl, rfl⟩)

/-! ### The step -/

/-- Everything a step can answer with a next state: the block's last turn where nothing is scheduled, or the next event's
move. -/
theorem step_next {s t : State} (h : step s = .next t) :
    (s.schedule = [] ∧ lastTurn s = .next t) ∨
    ∃ e rest, s.schedule = e :: rest ∧ takeEvent e { s with schedule := rest } = .next t := by
  unfold step at h
  split at h
  · exact .inl ⟨‹_›, h⟩
  · exact .inr ⟨_, _, ‹_›, h⟩

/-- The step that follows an issue runs the issued word (log 6). -/
theorem step_issue (s : State) (w : Word) :
    step (s.issue w) =
      execute w { s with pending := some w, busy := true, fault := false, prog := false, code := 0, faultInfo := 0
                         sinkReady := true } := by
  simp only [step, State.issue, takeEvent, blockTurn]
  cases execute w _ <;> simp [State.waits]

/-! ### The host's access: everything it can do -/

/-- What a legal write of a target leaves alone: everything but the operands, the weights, the two byte buffers, and, for
`CMD` and `CTRL`, what those do. -/
theorem targetWrite_cases (width : Width) (v : Word) (s : State) (g : Target) :
    targetWrite width v s g =
        { s with arg0 := (targetWrite width v s g).arg0, arg1 := (targetWrite width v s g).arg1
                 arg2 := (targetWrite width v s g).arg2, arg3 := (targetWrite width v s g).arg3
                 hufNw := (targetWrite width v s g).hufNw, hufValid := (targetWrite width v s g).hufValid
                 w := (targetWrite width v s g).w, ibuf := (targetWrite width v s g).ibuf
                 lbuf := (targetWrite width v s g).lbuf } ∨
      (g = .reg .cmd ∧ targetWrite width v s g = writeCmd v s) ∨
      (g = .reg .ctrl ∧ v.getLsbD 0 = true ∧ targetWrite width v s g = softReset s) := by
  cases g with
  | reg r =>
    cases r with
    | cmd => exact .inr (.inl ⟨rfl, rfl⟩)
    | ctrl =>
      by_cases h : v.getLsbD 0 = true
      · exact .inr (.inr ⟨rfl, h, by simp only [targetWrite, Reg.write, if_pos h]⟩)
      · exact .inl (by simp only [targetWrite, Reg.write, if_neg h])
    | _ => exact .inl rfl
  | _ => exact .inl rfl

/-- Everything a host read can do: fault, or return a value and count its draws (20_memory.md R68). -/
theorem memRead_cases (addr : Word) (width : Width) (s : State) :
    (accessFaults s (.read addr width) = true ∧ memRead addr width s = (0, faultEntry .hostAccess addr s)) ∨
    (accessFaults s (.read addr width) = false ∧ ∃ v draws, memRead addr width s = (v, { s with draws := draws })) := by
  cases h : accessFaults s (.read addr width)
  · exact .inr ⟨rfl, _, _, by simp only [memRead, h, Bool.false_eq_true, if_false]; rfl⟩
  · exact .inl ⟨rfl, by simp only [memRead, h, if_true]⟩

/-- Everything a host write can do: fault, or the effect of its target. -/
theorem memWrite_cases (addr : Word) (width : Width) (v : Word) (s : State) :
    (accessFaults s (.write addr width v) = true ∧ memWrite addr width v s = faultEntry .hostAccess addr s) ∨
    (accessFaults s (.write addr width v) = false ∧
      memWrite addr width v s = targetWrite width v s (targetAt s.winCapMax addr.toNat)) := by
  cases h : accessFaults s (.write addr width v)
  · exact .inr ⟨rfl, by simp only [memWrite, h, Bool.false_eq_true, if_false]⟩
  · exact .inl ⟨rfl, by simp only [memWrite, h, if_true]⟩

end Sys2Proof.Machine
end

