-- ==== Sys2Proof/Tests/Slice0.lean ====
section
/-! SUPPORT. The model's own tests. Expected values are those of 95_test_vectors.md (named in each docstring) or worked out
from the encoding of 30_encoding.md; witnesses show that the hypotheses of a statement can be met. -/

-- One test at a time: run all at once, the kernel's evaluations need a thread, and a stack, each.
set_option Elab.async false

namespace Sys2Proof.Tests

open Sys2Proof Sys2Proof.Machine

/-! ### Helpers -/

/-- The bytes of a vector. -/
def bytes (bs : List Nat) : List Byte := bs.map (BitVec.ofNat 8)

/-- Power-on with the bytes `bs` in IBUF from index 0. -/
def withIbuf (bs : List Nat) : State := { State.reset with ibuf := Memory.ofList (bytes bs) }

/-- `s` with `ARG0` and `ARG1`. -/
def args (s : State) (a b : Nat) : State := { s with arg0 := BitVec.ofNat 32 a, arg1 := BitVec.ofNat 32 b }

/-- An outcome is a next state that satisfies `p`. -/
def nextSat (o : Host.Outcome State Fault Refusal) (p : State → Bool) : Bool :=
  match o with
  | .next t => p t
  | _ => false

/-- The step that runs the word `w` from `s` answers a next state that satisfies `p`. -/
def runs (w : Nat) (s : State) (p : State → Bool) : Bool := nextSat (step (s.withFetchWord 32 w)) p

/-- `STATUS` after a fault: its code in bits 15:8, 6 for class P and 2 for class D below (95_test_vectors.md). -/
def faultedWith (t : State) (status info : Nat) : Bool :=
  t.statusWord.toNat == status && t.faultInfo.toNat == info && t.pending.isNone

theorem exists_next {o : Host.Outcome State Fault Refusal} {p : State → Bool} (h : nextSat o p = true) :
    ∃ t, o = .next t ∧ p t = true := by
  cases o <;> simp_all [nextSat]

/-- The entries of a table as (symbol, nbBits, baseline). -/
def dtList (t : Slot) (n : Nat) : List (Nat × Nat × Nat) :=
  (List.range n).map fun u => ((t.dt.get? u).map fun e => (e.symbol.toNat, e.nbBits.toNat, e.baseline.toNat)).getD (999, 0, 0)

/-- The entries of `HT` as (symbol, nbBits). -/
def htList (s : State) (n : Nat) : List (Nat × Nat) :=
  (List.range n).map fun u => ((s.ht.get? u).map fun e => (e.symbol.toNat, e.nbBits.toNat)).getD (999, 0)

/-- The bytes of a memory, 999 where none is written. -/
def byteList (m : Memory Byte) (a n : Nat) : List Nat :=
  (List.range n).map fun j => ((m.get? (a + j)).map BitVec.toNat).getD 999

/-! ### WellFormed: an ill-formed term for each check (30_encoding.md R92) -/

theorem test_wellFormed_bbrRead : (Instr.bbrRead 64).wellFormed = true ∧ (Instr.bbrRead 65).wellFormed = false := by decide
theorem test_wellFormed_fbrRead : (Instr.fbrRead 64).wellFormed = true ∧ (Instr.fbrRead 65).wellFormed = false := by decide
theorem test_wellFormed_readnc :
    (Instr.fseReadnc 0 9 255).wellFormed = true ∧ (Instr.fseReadnc 0 10 255).wellFormed = false := by decide
theorem test_wellFormed_predef : (Instr.fsePredef 7 2).wellFormed = true ∧ (Instr.fsePredef 7 3).wellFormed = false := by
  decide

/-! ### Decoding: words written out from OP, K, S and IMM of 30_encoding.md R85 to R87 -/

/-- OP 0x00; then OP 0x01, 0x02: no operand bits. -/
theorem test_decode_control :
    decodeTableWord 32 0x00000000 = some .nop ∧ decodeTableWord 32 0x01000000 = some .bbrInit ∧
    decodeTableWord 32 0x02000000 = some .bbrSkippad := by decide +kernel

/-- OP 0x03 and 0x09: N in IMM; 20 = 0x14, 6. -/
theorem test_decode_reads :
    decodeTableWord 32 0b00000011000000000000000000010100 = some (.bbrRead 20) ∧
    decodeTableWord 32 0b00001001000000000000000000000110 = some (.fbrRead 6) ∧
    decodeTableWord 32 0x08000000 = some .fbrInit ∧ decodeTableWord 32 0x0A000000 = some .fbrUnwind := by decide +kernel

/-- OP 0x10: S = 5 in bits 18:16, MAXAL = 6 in bits 11:8, MAXSYM = 0x0B in bits 7:0; OP 0x11: S = 7. -/
theorem test_decode_describe :
    decodeTableWord 32 0b00010000000001010000011000001011 = some (.fseReadnc 5 6 11) ∧
    decodeTableWord 32 0b00010001000001110000000000000000 = some (.fseBuild 7) := by decide +kernel

/-- OP 0x12: S = 3, WHICH = 1; OP 0x13: S = 4, BYTE = 0xA5. -/
theorem test_decode_tables :
    decodeTableWord 32 0b00010010000000110000000000000001 = some (.fsePredef 3 1) ∧
    decodeTableWord 32 0b00010011000001000000000010100101 = some (.fseRle 4 0xA5) := by decide +kernel

/-- OP 0x14: K = 2 in bits 21:20, S = 6; OP 0x15, K = 3; OP 0x16, K = 1. -/
theorem test_decode_states :
    decodeTableWord 32 0b00010100001001100000000000000000 = some (.fseInit 2 6) ∧
    decodeTableWord 32 0b00010101001100000000000000000000 = some (.fsePeek 3) ∧
    decodeTableWord 32 0b00010110000100000000000000000000 = some (.fseNext 1) := by decide +kernel

/-- OP 0x20 to 0x22: no operand bits. -/
theorem test_decode_huffman :
    decodeTableWord 32 0x20000000 = some .hufReadw ∧ decodeTableWord 32 0x21000000 = some .hufBuild ∧
    decodeTableWord 32 0x22000000 = some .hufDecode := by decide +kernel

/-- OP 0x30 to 0x36; 0x33 carries BYTE = 0x2D in bits 7:0. -/
theorem test_decode_window :
    decodeTableWord 32 0x30000000 = some .winConfig ∧ decodeTableWord 32 0x31000000 = some .winPushi ∧
    decodeTableWord 32 0x32000000 = some .winPushl ∧ decodeTableWord 32 0x3300002D = some (.winPushr 0x2D) ∧
    decodeTableWord 32 0x34000000 = some .winRepeat ∧ decodeTableWord 32 0x35000000 = some .winRepgen ∧
    decodeTableWord 32 0x36000000 = some .winFlush := by decide +kernel

/-- R90: the edges of the reserved opcode ranges; R91: K of `BBR.READ`, S = 8, K = 4, a byte's upper immediate. -/
theorem test_decode_rejects :
    ([0x04, 0x07, 0x0B, 0x0F, 0x17, 0x1F, 0x23, 0x2F, 0x37, 0xFF].all fun op =>
      (decodeTableWord 32 (op * 2 ^ 24)).isNone) = true ∧
    ([0x00000001, 0x03100003, 0x11080000, 0x15400000, 0x13000141, 0x330001FF, 0x10001000].all fun w =>
      (decodeTableWord 32 w).isNone) = true := by decide +kernel

/-! ### One step of each command -/

/-- V-CTL-1. -/
theorem test_nop : runs 0x00000000 State.reset (fun t => decide (t = State.reset)) = true := by decide +kernel

/-- V-SRC-1: the whole stream's bits are to come. -/
theorem test_bbrInit : runs 0x01000000 (args State.reset 0 4) (fun t => t.br == ⟨0, 4, 32⟩) = true := by decide +kernel

/-- V-BBR-13. -/
theorem test_bbrInit_range :
    runs 0x01000000 (args State.reset 0x1FFFF 2) (fun t => faultedWith t 0x206 0x01000000 && t.br == ⟨0, 0, 0⟩) = true := by
  decide +kernel

/-- V-BBR-5. -/
theorem test_bbrSkippad :
    runs 0x02000000 { withIbuf [0x1D, 0x90, 0x06] with br := ⟨0, 3, 24⟩ } (fun t => t.br.rem == 18) = true := by
  decide +kernel

/-- V-BBR-8. -/
theorem test_bbrSkippad_zero :
    runs 0x02000000 { withIbuf [0x12, 0x00] with br := ⟨0, 2, 16⟩ }
      (fun t => faultedWith t 0x502 0x02000000 && t.br.rem == 16) = true := by decide +kernel

/-- V-SRC-1, the read of 5 bits with 17 to come. -/
theorem test_bbrRead :
    runs 0x03000005 { withIbuf [0x40, 0x3A, 0xA9, 0xE0] with br := ⟨0, 4, 17⟩ }
      (fun t => t.res == 19 && t.br.rem == 12) = true := by decide +kernel

/-- V-BBR-2, the read across the stream's start: 12 real bits, then 4 zeros. -/
theorem test_bbrRead_past_start :
    runs 0x03000010 { withIbuf [0x40, 0x3A, 0xA9, 0xE0] with br := ⟨0, 4, 12⟩ }
      (fun t => t.res == 0xA400 && t.br.rem.toInt == -4) = true := by decide +kernel

/-- V-FBR-1, after the first read. -/
theorem test_fbrRead :
    runs 0x09000006 { withIbuf [0x30, 0x2F] with fr := ⟨0, 2, 4, true⟩ }
      (fun t => t.res == 0x33 && t.fr == ⟨0, 2, 10, true⟩) = true := by decide +kernel

/-- V-FBR-3. -/
theorem test_fbrRead_end :
    runs 0x09000007 { withIbuf [0x30, 0x2F] with fr := ⟨0, 2, 10, true⟩, res := 0x330 }
      (fun t => faultedWith t 0x302 0x09000007 && t.fr == ⟨0, 2, 10, true⟩ && t.res == 0x330) = true := by
  decide +kernel

/-- R118. -/
theorem test_fbrInit :
    runs 0x08000000 { args State.reset 3 2 with fr := ⟨9, 9, 9, true⟩ } (fun t => t.fr == ⟨3, 2, 0, false⟩) = true := by
  decide +kernel

/-- V-FBR-5, the first unwind. -/
theorem test_fbrUnwind :
    runs 0x0A000000 { State.reset with fr := ⟨0, 2, 4, true⟩ } (fun t => t.fr == ⟨0, 2, 3, false⟩) = true := by
  decide +kernel

/-- V-FBR-4. -/
theorem test_fbrUnwind_twice :
    runs 0x0A000000 { State.reset with fr := ⟨0, 2, 3, false⟩ }
      (fun t => faultedWith t 0x406 0x0A000000 && t.fr.pos == 3) = true := by decide +kernel

/-- V-FSE-2's four bytes, opened by the forward reader. -/
def describing : State := { withIbuf [0x30, 0x2F, 0x53, 0x36] with fr := ⟨0, 4, 0, false⟩ }

/-- V-FSE-2, the description. -/
theorem test_fseReadnc :
    runs 0x100009FF describing (fun t => t.res == 4 && t.fr == ⟨0, 4, 32, false⟩ && (t.slot 0).al == 5 &&
      (t.slot 0).counts == [18, 6, 0, 0, 0, 0, 4, -1, 2, 1] && (t.slot 0).ncValid && !(t.slot 0).valid) = true := by
  decide +kernel

/-- V-FSE-7: a ninth symbol is one too many. -/
theorem test_fseReadnc_symbol :
    runs 0x10000908 describing (fun t => faultedWith t 0x802 0x10000908 && !(t.slot 0).ncValid) = true := by
  decide +kernel

/-- V-FSE-2's distribution in slot 0. -/
def described : State :=
  State.reset.setSlot 0
    { Slot.reset with ncValid := true, al := 5, nsym := 10, ncount := countImage [18, 6, 0, 0, 0, 0, 4, -1, 2, 1] }

/-- V-FSE-2, the table. -/
theorem test_fseBuild :
    runs 0x11000000 described (fun t => (t.slot 0).valid && dtList (t.slot 0) 32 ==
      [(0,1,4), (0,1,6), (0,1,8), (1,3,16), (6,3,0), (0,1,10), (0,1,12), (0,1,14),
       (6,3,8), (9,5,0), (0,1,16), (0,1,18), (1,3,24), (6,3,16), (0,1,20), (0,1,22),
       (0,1,24), (1,2,0), (8,4,0), (0,1,26), (0,1,28), (1,2,4), (6,3,24), (0,1,30),
       (0,0,0), (0,0,1), (1,2,8), (8,4,16), (0,0,2), (0,0,3), (1,2,12), (7,5,0)]) = true := by decide +kernel

/-- V-FSE-11. -/
theorem test_fseBuild_noTable : runs 0x11030000 State.reset (fun t => faultedWith t 0xA02 0x11030000) = true := by
  decide +kernel

/-- V-FSE-1, the offset table. -/
theorem test_fsePredef :
    runs 0x12020002 State.reset (fun t => (t.slot 2).valid && (t.slot 2).ncValid && (t.slot 2).nsym == 29 &&
      dtList (t.slot 2) 32 == offsetTable) = true := by decide +kernel

/-- V-FSE-14, with a state register bound to the slot (V-FSE-15). -/
theorem test_fseRle :
    runs 0x13030007 (State.setFse State.reset 1 ⟨4, 3, true⟩) (fun t =>
      (t.slot 3).valid && !(t.slot 3).ncValid && (t.slot 3).al == 0 && (t.slot 3).nsym == 8 &&
      dtList (t.slot 3) 1 == [(7, 0, 0)] && t.fse 1 == ⟨4, 3, false⟩) = true := by decide +kernel

/-- V-FSE-3's stream and the entries of the table it visits. -/
def walking (rem : Word) : State :=
  State.setSlot { withIbuf [0x5A, 0xC3, 0x81] with br := ⟨0, 3, rem⟩ } 0
    { Slot.reset with valid := true, al := 6, dt := [(0, ⟨0, 4, 0⟩), (11, ⟨16, 5, 0⟩), (14, ⟨21, 5, 0⟩)] }

/-- V-FSE-3, step 1. -/
theorem test_fseInit :
    runs 0x14000000 (walking 23) (fun t => t.fse 0 == ⟨0, 0, true⟩ && t.br.rem == 17) = true := by decide +kernel

/-- V-FSE-3, step 4. -/
theorem test_fsePeek :
    runs 0x15000000 (State.setFse (walking 13) 0 ⟨14, 0, true⟩) (fun t => t.res == 21 && t.br.rem == 13) = true := by
  decide +kernel

/-- V-FSE-3, step 3. -/
theorem test_fseNext :
    runs 0x16000000 (State.setFse (walking 17) 0 ⟨0, 0, true⟩) (fun t => t.fse 0 == ⟨14, 0, true⟩ && t.br.rem == 13)
      = true := by decide +kernel

/-- V-FSE-3, step 9: three real bits and two zeros. -/
theorem test_fseNext_past_start :
    runs 0x16000000 (State.setFse (walking 3) 0 ⟨11, 0, true⟩) (fun t =>
      t.fse 0 == ⟨8, 0, true⟩ && t.br.rem.toInt == -2) = true := by decide +kernel

/-- P2, step 1: direct weights. -/
theorem test_hufReadw :
    runs 0x20000000 (args (withIbuf [0x84, 0x43, 0x20, 0x10]) 0 4) (fun t => t.res == 4 && t.hufNw == 5 &&
      (t.w.map fun c => c.2.toNat) == [4, 3, 2, 0, 1] ++ List.replicate 251 0) = true := by decide +kernel

/-- V-HUF-3: compressed weights. -/
theorem test_hufReadw_compressed :
    runs 0x20000000 (args (withIbuf [0x07, 0x51, 0xB5, 0xB7, 0x0F, 0xD9, 0x1E, 0x3F]) 0 8) (fun t =>
      t.res == 8 && t.hufNw == 5 && ((t.w.take 6).map fun c => c.2.toNat) == [4, 2, 1, 1, 0, 0]) = true := by
  decide +kernel

/-- V-HUF-1's weights. -/
def weighted : State := { State.reset with w := Memory.ofList [4, 3, 2, 0, 1], hufNw := 5 }

/-- V-HUF-1. -/
theorem test_hufBuild :
    runs 0x21000000 weighted (fun t => t.w.get? 5 == some 1 && t.hufMaxbits == 4 && t.hufNsym == 6 && t.hufValid &&
      htList t 16 == [(4,4), (5,4), (2,3), (2,3), (1,2), (1,2), (1,2), (1,2)] ++ List.replicate 8 (0,1)) = true := by
  decide +kernel

/-- V-HUF-5: all weights zero. -/
theorem test_hufBuild_zero :
    runs 0x21000000 { State.reset with w := Memory.ofList [0, 0], hufNw := 2 } (fun t =>
      faultedWith t 0xB02 0x21000000 && !t.hufValid) = true := by decide +kernel

/-- V-HUF-1's table. -/
def tabled (s : State) : State :=
  { s with
    hufValid := true, hufMaxbits := 4, hufNsym := 6
    ht := Memory.ofList ([⟨4, 4⟩, ⟨5, 4⟩, ⟨2, 3⟩, ⟨2, 3⟩] ++ List.replicate 4 ⟨1, 2⟩ ++ List.replicate 8 ⟨0, 1⟩) }

/-- V-HUF-2. -/
theorem test_hufDecode :
    runs 0x22000000 { args (tabled (withIbuf [0x1D, 0x90, 0x06])) 0 3 with arg3 := 16 } (fun t =>
      byteList t.lbuf 0 9 == [0, 1, 2, 4, 5, 0, 0, 1, 999] && t.res == 8 && t.br.rem.toInt == -4) = true := by
  decide +kernel

/-- V-HUF-27. -/
theorem test_hufDecode_leftover :
    runs 0x22000000 { args (tabled (withIbuf [0x02])) 0 1 with arg3 := 4 } (fun t => faultedWith t 0x602 0x22000000)
      = true := by decide +kernel

/-- A window of four bytes after V-WIN-1's first push: "abc". -/
def pushed (s : State) : State := { s with wconf := true, winCap := 4, wtotal := 3, wbuf := Memory.ofList (bytes [0x61, 0x62, 0x63]) }

/-- V-WIN-1, step 1. -/
theorem test_winConfig :
    runs 0x30000000 (args State.reset 4 0) (fun t => t.wconf && t.winCap == 4 && t.wtotal == 0 && t.out == []) = true := by
  decide +kernel

/-- V-WIN-13. -/
theorem test_winConfig_unflushed :
    runs 0x30000000 (args (pushed State.reset) 8 0) (fun t => faultedWith t 0x1106 0x30000000 && t.winCap == 4) = true := by
  decide +kernel

/-- V-WIN-15: two bytes of capacity, five pushed. -/
theorem test_winPushi :
    runs 0x31000000 { args (withIbuf [0x61, 0x62, 0x63, 0x64, 0x65]) 0 5 with wconf := true, winCap := 2 } (fun t =>
      t.out == bytes [0x61, 0x62, 0x63] && byteList t.wbuf 0 2 == [0x65, 0x64] && t.wtotal == 5 && t.wflushed == 3)
      = true := by decide +kernel

/-- V-WIN-4. -/
theorem test_winPushi_unconfigured :
    runs 0x31000000 (args State.reset 0 1) (fun t => faultedWith t 0x1006 0x31000000) = true := by decide +kernel

/-- R235. -/
theorem test_winPushl :
    runs 0x32000000 { args (pushed State.reset) 7 1 with lbuf := [(7, 0x5A)] } (fun t =>
      byteList t.wbuf 0 4 == [0x61, 0x62, 0x63, 0x5A] && t.wtotal == 4 && t.out == []) = true := by decide +kernel

/-- P1, step 3: two bytes 0x2D after "abc", the second of them in a slot whose byte is evicted here. -/
theorem test_winPushr :
    runs 0x3300002D (args (pushed State.reset) 0 2) (fun t =>
      byteList t.wbuf 0 4 == [0x2D, 0x62, 0x63, 0x2D] && t.out == bytes [0x61]) = true := by decide +kernel

/-- V-WIN-1, step 3: five bytes from a distance of two. -/
theorem test_winRepgen :
    runs 0x35000000 (args (pushed State.reset) 2 5) (fun t => t.wtotal == 8 && t.wflushed == 4 &&
      t.out == bytes [0x61, 0x62, 0x63, 0x62] && byteList t.wbuf 0 4 == [0x63, 0x62, 0x63, 0x62]) = true := by
  decide +kernel

/-- V-WIN-8. -/
theorem test_winRepgen_distance :
    runs 0x35000000 (args (pushed State.reset) 4 1) (fun t => faultedWith t 0x1202 0x35000000 && t.wtotal == 3) = true := by
  decide +kernel

/-- V-WIN-1, step 5: the distance of the whole window. -/
theorem test_winRepeat :
    runs 0x34000000 { args State.reset 4 4 with
        wconf := true, winCap := 4, wtotal := 13, wflushed := 9, wbuf := Memory.ofList (bytes [0x56, 0x59, 0x5A, 0x57]) }
      (fun t => t.wtotal == 17 && t.wflushed == 13 && t.out == bytes [0x59, 0x5A, 0x57, 0x56] &&
        byteList t.wbuf 0 4 == [0x56, 0x59, 0x5A, 0x57]) = true := by decide +kernel

/-- V-WIN-11. -/
theorem test_winRepeat_overlap :
    runs 0x34000000 (args (pushed State.reset) 2 3) (fun t => faultedWith t 0x1306 0x34000000) = true := by decide +kernel

/-- V-WIN-14, the flush. -/
theorem test_winFlush :
    runs 0x36000000 (pushed State.reset) (fun t => t.out == bytes [0x61, 0x62, 0x63] && t.wflushed == 3 && t.wtotal == 3)
      = true := by decide +kernel

/-! ### The host port -/

/-- V-CTL-6: a read of `ARG0` while `BUSY`. -/
theorem test_busy_read :
    nextSat (step { State.reset with busy := true, pending := some 0, schedule := [.host (.read 0x18 .w32)] })
      (fun t => faultedWith t 0x1606 0x18 && t.hostReads == [0]) = true := by decide +kernel

/-- V-CTL-13. -/
theorem test_power_on_reads :
    (memRead 0x00 .w32 State.reset).1 = 0x535A4457 ∧ (memRead 0x04 .w32 State.reset).1 = 7 ∧
    (memRead 0x08 .w32 State.reset).1 = 0 := by decide +kernel

/-- 20_memory.md R63: the first and last words of each window, and the first address after it. -/
theorem test_map_edges :
    targetAt 4096 0x11FFFF = .ibuf 131071 ∧ targetAt 4096 0x120000 = .lbuf 0 ∧ targetAt 4096 0x141FFC = .ncount 7 255 ∧
    targetAt 4096 0x142000 = .unmapped ∧ targetAt 4096 0x153FFC = .dt 7 511 ∧ targetAt 4096 0x154000 = .unmapped ∧
    targetAt 4096 0x1603FC = .w 255 ∧ targetAt 4096 0x162FFC = .ht 2047 ∧ targetAt 4096 0x163000 = .unmapped ∧
    targetAt 4096 0x1000FFF = .wbuf 4095 ∧ targetAt 4096 0x1001000 = .unmapped := by decide +kernel

/-- R254: a poll that reads `BUSY` = 1 lets the sink move, and is made again. -/
theorem test_poll_waits :
    nextSat (step { State.reset with busy := true, pending := some 0, sinkReady := false, schedule := [.poll, .sink true] })
      (fun t => t.schedule == [.sink true, .poll] && t.hostReads == [1] && t.pending == some 0) = true := by
  decide +kernel

/-- R254: with nothing else to move, the block runs the pending word, a fault's too, before the next poll. -/
theorem test_poll_runs_the_block :
    nextSat (step { State.reset with busy := true, pending := some 0x04000000, schedule := [.poll] })
      (fun t => faultedWith t 0x106 0x04000000 && t.schedule == [.poll] && t.hostReads == [1]) = true := by decide +kernel

/-- R96, R97, R254: the items of `BBR.OPEN 3, 2`, and an item whose word spells no command. -/
theorem test_programEvents :
    programEvents (bbrOpen 3 2 ++ [⟨[], 0x04000000⟩]) =
      [.poll, .host (.write 0x18 .w32 3), .host (.write 0x1C .w32 2), .host (.write 0x14 .w32 0x01000000),
       .poll, .host (.write 0x14 .w32 0x02000000), .poll, .host (.write 0x14 .w32 0x04000000), .poll] := by decide +kernel

/-! ### Witnesses: a concrete state and operands that meet all the hypotheses of a statement, clause by clause

A statement about a state alone, with no hypothesis, needs none. -/

/-- Power-on with the word `w` pending and the block's turn next. -/
def pendingWord (w : Word) : State := { State.reset with pending := some w, busy := true, schedule := [.block] }

/-- Power-on with the host's access `a` next. -/
def accessing (a : HostAccess) : State := { State.reset with schedule := [.host a] }

/-- Power-on with a fault held. -/
def holding : State := { State.reset with fault := true, code := 0x0A, faultInfo := 0x16000000 }

theorem witness_DecodeInvertsEncode : (Instr.bbrRead 64).wellFormed = true := by decide

theorem witness_EncodeInvertsDecode : decode 0x03000040#32 = .ok (.bbrRead 64) := by decide +kernel

theorem witness_LegalWordsMatchTheTable : decode 0x12000002#32 = .ok (.fsePredef 0 2) := by decide +kernel

theorem witness_StepRunsThePendingCommand :
    ((pendingWord 0).pending = some 0 ∧ (pendingWord 0).fault = false ∧ (pendingWord 0).sinkReady = true ∧
      decode 0 = .ok .nop ∧ (pendingWord 0).schedule = .block :: []) ∧
    ({ pendingWord 0 with schedule := [] }.pending = some 0 ∧ { pendingWord 0 with schedule := [] }.fault = false ∧
      { pendingWord 0 with schedule := [] }.sinkReady = true ∧ { pendingWord 0 with schedule := [] }.schedule = []) := by
  decide +kernel

theorem witness_IllegalWordFaults :
    (pendingWord 0x04000000).pending = some 0x04000000 ∧ (pendingWord 0x04000000).fault = false ∧
    decode 0x04000000 = .error .reservedOpcode ∧ (pendingWord 0x04000000).schedule = .block :: [] := by decide +kernel

theorem witness_NoStepUnlessEnabled :
    (State.reset.pending = none ∧ State.reset.schedule = []) ∧
    ({ holding with schedule := [.block] }.fault = true ∧ { holding with schedule := [.block] }.schedule = .block :: []) := by
  decide +kernel

/-- A sink that does not accept: with a flush, which gives it bytes, and with a command that gives it none. -/
def stalled (w : Word) : State := { pushed (pendingWord w) with sinkReady := false }

theorem witness_StepWaitsForTheSink :
    ((stalled 0x36000000).pending = some 0x36000000 ∧ (stalled 0x36000000).fault = false ∧
      (stalled 0x36000000).sinkReady = false ∧ decode 0x36000000#32 = .ok .winFlush ∧
      (stalled 0x36000000).schedule = .block :: [] ∧
      ∃ t, exec .winFlush { stalled 0x36000000 with schedule := [] } = .next t ∧
        decide (t.out ≠ (stalled 0x36000000).out) = true) ∧
    ((stalled 0).pending = some 0 ∧ (stalled 0).fault = false ∧ (stalled 0).sinkReady = false ∧ decode 0#32 = .ok .nop ∧
      (stalled 0).schedule = .block :: [] ∧
      ∃ t, exec .nop { stalled 0 with schedule := [] } = .next t ∧ decide (t.out = (stalled 0).out) = true) ∧
    ({ stalled 0x36000000 with schedule := [] }.schedule = [] ∧ { stalled 0 with schedule := [] }.schedule = []) :=
  ⟨⟨rfl, rfl, rfl, by decide +kernel, rfl, exists_next (by decide +kernel)⟩,
    ⟨rfl, rfl, rfl, by decide +kernel, rfl, exists_next (by decide +kernel)⟩, rfl, rfl⟩

/-- Any command's next state: a completion for `CommandsKeepOperandsAndInput` and its like, and a fault. -/
theorem witness_CommandsKeepOperandsAndInput :
    ∃ t, exec .winFlush (pushed State.reset) = .next t ∧ (t.wflushed == 3) = true := exists_next (by decide +kernel)

theorem witness_ResWrittenOnlyByResultCommands :
    Instr.mnemonic .nop ∉ ["BBR.READ", "FBR.READ", "FSE.READNC", "FSE.PEEK", "HUF.READW", "HUF.DECODE"] ∧
    (∃ t, exec .nop State.reset = .next t ∧ (t.fault == false) = true) ∧
    ∃ t, exec (.fsePeek 0) State.reset = .next t ∧ t.fault = true :=
  ⟨by decide, exists_next (by decide +kernel), exists_next (by decide +kernel)⟩

/-- The last byte an appending command may add, and a command that adds none where `WTOTAL` is at its end. -/
theorem witness_CommandCompletesOrRecordsOneFault :
    State.reset.fault = false ∧ (∃ t, exec .nop State.reset = .next t ∧ (t.fault == false) = true) ∧
    (∃ t, exec (.fsePeek 0) State.reset = .next t ∧ (t.fault && !t.prog) = true) ∧
    (∃ t, exec .winFlush State.reset = .next t ∧ (t.fault && t.prog) = true) ∧
    (let s : State := { pushed State.reset with wtotal := 0xFFFFFFFFFFFFFFFE, arg1 := 1 };
      ¬ (Instr.mnemonic .winPushi ∈ ["WIN.PUSHI", "WIN.PUSHL", "WIN.PUSHR", "WIN.REPEAT", "WIN.REPGEN"] ∧
        2 ^ 64 ≤ s.wtotal.toNat + s.arg1.toNat)) ∧
    (let s : State := { pushed State.reset with wtotal := 0xFFFFFFFFFFFFFFFF, arg1 := 1 };
      ¬ (Instr.mnemonic .winFlush ∈ ["WIN.PUSHI", "WIN.PUSHL", "WIN.PUSHR", "WIN.REPEAT", "WIN.REPGEN"] ∧
        2 ^ 64 ≤ s.wtotal.toNat + s.arg1.toNat)) :=
  ⟨rfl, exists_next (by decide +kernel), exists_next (by decide +kernel), exists_next (by decide +kernel),
    by decide +kernel, by decide +kernel⟩

theorem witness_SinkOnlyGrows :
    ∃ t, step { pushed State.reset with pending := some 0x36000000, busy := true } = .next t ∧ (t.out.length == 3) = true :=
  exists_next (by decide +kernel)

/-- A step that is a write of `CTRL` with bit 0 clear. -/
theorem witness_FaultHeldUntilReset :
    { holding with schedule := [.host (.write 0x10 .w32 2)] }.fault = true ∧
    { holding with schedule := [.host (.write 0x10 .w32 2)] }.pending = none ∧
    (∃ t, step { holding with schedule := [.host (.write 0x10 .w32 2)] } = .next t ∧ t.fault = true) ∧
    ∀ (v : Word) (rest : List Event),
      { holding with schedule := [.host (.write 0x10 .w32 2)] }.schedule = .host (.write 0x10 .w32 v) :: rest →
      v.getLsbD 0 = false := by
  refine ⟨rfl, rfl, exists_next (by decide +kernel), fun v rest h => ?_⟩
  simp only [List.cons.injEq, Event.host.injEq, HostAccess.write.injEq, true_and] at h
  rw [← h.1]; decide

theorem witness_HufReadwKeepsReadersAndSlots :
    ∃ t, exec .hufReadw (args (withIbuf [0x80, 0x50]) 0 2) = .next t ∧ (t.hufNw == 1) = true :=
  exists_next (by decide +kernel)

/-- A next state of one command of each list: the readers' lists, then the FSE states' list. -/
theorem witness_ReadersAndFseLeaveOtherUnits :
    (∃ t, exec .bbrInit State.reset = .next t ∧ (!t.fault) = true) ∧
    (∃ t, exec (.fbrRead 0) State.reset = .next t ∧ (!t.fault) = true) ∧
    (∃ t, exec (.fseBuild 0) described = .next t ∧ (!t.fault) = true) ∧
    (∃ t, exec (.fsePeek 0) (State.setFse (walking 13) 0 ⟨14, 0, true⟩) = .next t ∧ (!t.fault) = true) ∧
    Instr.mnemonic .bbrInit = "BBR.INIT" ∧ Instr.mnemonic (.fbrRead 0) = "FBR.READ" ∧
    Instr.mnemonic (.fseBuild 0) = "FSE.BUILD" ∧ Instr.mnemonic (.fsePeek 0) = "FSE.PEEK" :=
  ⟨exists_next (by decide +kernel), exists_next (by decide +kernel), exists_next (by decide +kernel),
    exists_next (by decide +kernel), rfl, rfl, rfl, rfl⟩

/-- A next state of one command of each list. -/
theorem witness_HuffmanAndWindowLeaveOtherUnits :
    (∃ t, exec .hufReadw (args (withIbuf [0x80, 0x50]) 0 2) = .next t ∧ (!t.fault) = true) ∧
    (∃ t, exec .hufBuild weighted = .next t ∧ (!t.fault) = true) ∧
    (∃ t, exec .hufDecode { args (tabled (withIbuf [0x01])) 0 1 with arg3 := 4 } = .next t ∧ (!t.fault) = true) ∧
    (∃ t, exec .winFlush (pushed State.reset) = .next t ∧ (!t.fault) = true) ∧
    Instr.mnemonic .hufReadw = "HUF.READW" ∧ Instr.mnemonic .hufBuild = "HUF.BUILD" ∧
    Instr.mnemonic .hufDecode = "HUF.DECODE" ∧ Instr.mnemonic .winFlush = "WIN.FLUSH" :=
  ⟨exists_next (by decide +kernel), exists_next (by decide +kernel), exists_next (by decide +kernel),
    exists_next (by decide +kernel), rfl, rfl, rfl, rfl⟩

/-- A range that ends at IBUF's end, and one byte more. -/
theorem witness_InitOpensItsReader :
    (args State.reset 131071 1).arg0.toNat + (args State.reset 131071 1).arg1.toNat ≤ 131072 ∧
    131072 < (args State.reset 131071 2).arg0.toNat + (args State.reset 131071 2).arg1.toNat ∧
    (args State.reset 131071 2).fault = false := by decide +kernel

/-- A last byte with bit 7 highest, a last byte 0, and no byte. -/
theorem witness_SkippadCountsRealBits :
    (let s : State := { withIbuf [0x55, 0x80] with br := ⟨0, 2, 16⟩ };
      s.br.len ≠ 0 ∧ s.ibuf.get? (s.br.base.toNat + s.br.len.toNat - 1) = some 0x80 ∧ (0x80 : Byte).getLsbD 7 = true ∧
      ∀ q, 7 < q → q < 8 → (0x80 : Byte).getLsbD q = false) ∧
    (let s : State := { withIbuf [0x12, 0x00] with br := ⟨0, 2, 16⟩ };
      s.br.len ≠ 0 ∧ s.ibuf.get? (s.br.base.toNat + s.br.len.toNat - 1) = some 0 ∧ s.fault = false) ∧
    State.reset.br.len = 0 ∧ State.reset.fault = false :=
  ⟨⟨by decide +kernel, by decide +kernel, by decide, fun q h h' => by omega⟩, by decide +kernel, rfl, rfl⟩

/-- The lowest cursor a read of 64 bits may leave, over an empty string of bytes; and V-BBR-4's read of a whole string. -/
theorem witness_BbrReadReturnsTheBitsBelowTheCursor :
    (let s : State := { State.reset with br := ⟨0, 0, 0x80000040⟩ };
      (64 : BitVec 16).toNat ≤ 64 ∧ -2 ^ 31 ≤ s.br.rem.toInt - (64 : BitVec 16).toNat ∧
      s.ibuf.holds s.br.base.toNat [] ∧ s.br.rem.toInt ≤ 8 * ([] : List Byte).length) ∧
    (let s : State := { withIbuf [1, 2, 3, 4, 5, 6, 7, 0x88] with br := ⟨0, 8, 64⟩ };
      -2 ^ 31 ≤ s.br.rem.toInt - (64 : BitVec 16).toNat ∧
      s.ibuf.holds s.br.base.toNat (bytes [1, 2, 3, 4, 5, 6, 7, 0x88]) ∧
      s.br.rem.toInt ≤ 8 * (bytes [1, 2, 3, 4, 5, 6, 7, 0x88]).length) := by
  unfold Memory.holds; decide +kernel

/-- The cursor one below what a read of 1 bit, of `AL` = 6 bits and of `nbBits` = 5 bits may take. -/
theorem witness_BackwardCursorBoundFaults :
    (let s : State := { State.reset with br := ⟨0, 0, 0x80000000⟩ };
      s.fault = false ∧ (1 : BitVec 16).toNat ≤ 64 ∧ s.br.rem.toInt - (1 : BitVec 16).toNat < -2 ^ 31) ∧
    (let s : State := walking 0x80000005;
      s.fault = false ∧ (s.slot 0).valid = true ∧ s.br.rem.toInt - (s.slot 0).al.toNat < -2 ^ 31) ∧
    (let s : State := State.setFse (walking 0x80000004) 0 ⟨14, 0, true⟩;
      s.fault = false ∧ (s.fse 0).bound = true ∧
      (s.slot (s.fse 0).bind).dt.get? (s.fse 0).state.toNat = some ⟨21, 5, 0⟩ ∧
      s.br.rem.toInt - (5 : BitVec 4).toNat < -2 ^ 31) := by decide +kernel

/-- A read of 64 bits that ends at the stream's end, and the same from one bit further on. -/
theorem witness_FbrReadReturnsTheBitsAtTheCursor :
    (let s : State := { withIbuf [1, 2, 3, 4, 5, 6, 7, 0x88] with fr := ⟨0, 8, 0, false⟩ };
      (64 : BitVec 16).toNat ≤ 64 ∧ s.fr.pos.toNat + (64 : BitVec 16).toNat ≤ 8 * s.fr.len.toNat ∧
      s.ibuf.holds s.fr.base.toNat (bytes [1, 2, 3, 4, 5, 6, 7, 0x88]) ∧
      s.fr.pos.toNat + (64 : BitVec 16).toNat ≤ 8 * (bytes [1, 2, 3, 4, 5, 6, 7, 0x88]).length) ∧
    (let s : State := { withIbuf [1, 2, 3, 4, 5, 6, 7, 0x88] with fr := ⟨0, 8, 1, false⟩ };
      8 * s.fr.len.toNat < s.fr.pos.toNat + (64 : BitVec 16).toNat ∧ s.fault = false) := by
  unfold Memory.holds; decide +kernel

theorem witness_UnwindGivesBackOneBit :
    { State.reset with fr := ⟨0, 2, 4, true⟩ }.fr.unw = true ∧ State.reset.fr.unw = false ∧ State.reset.fault = false := by
  decide +kernel

/-- Two values written by each writer: those of V-FBR-1. -/
theorem witness_ReadersInvertWriters :
    (∀ p ∈ [(4, 0), (6, 0x33)], p.1 ≤ 64 ∧ p.2 < 2 ^ p.1) ∧
    (let s : State := args (withIbuf [0x33, 0x04]) 0 2;
      s.arg0.toNat + s.arg1.toNat ≤ 131072 ∧ s.fault = false ∧
      packBits (backwardBits [(4, 0), (6, 0x33)]) = bytes [0x33, 0x04] ∧ s.arg1.toNat = (bytes [0x33, 0x04]).length ∧
      s.ibuf.holds s.arg0.toNat (bytes [0x33, 0x04])) ∧
    (let s : State := args (withIbuf [0x30, 0x03]) 0 2;
      s.arg0.toNat + s.arg1.toNat ≤ 131072 ∧ s.fault = false ∧
      packBits (forwardBits [(4, 0), (6, 0x33)]) = bytes [0x30, 0x03] ∧ s.arg1.toNat = (bytes [0x30, 0x03]).length ∧
      s.ibuf.holds s.arg0.toNat (bytes [0x30, 0x03])) := by
  unfold Memory.holds; decide +kernel

/-- V-FSE-2's description, as a derivation: the bits of 30 2F 53 36 after the first four. -/
theorem witness_Describes :
    ∃ bits, Describes (2 ^ 5 + 1) [18, 6, 0, 0, 0, 0, 4, -1, 2, 1] bits ∧
      packBits (bitsOf 4 (5 - 5) ++ bits) = bytes [0x30, 0x2F, 0x53, 0x36] := by
  refine ⟨_, .nonzero (by decide) (by decide) (by decide) (by decide)
    (.nonzero (by decide) (by decide) (by decide) (by decide)
    (.zero (z := 3) (by decide)
    (.nonzero (by decide) (by decide) (by decide) (by decide)
    (.nonzero (by decide) (by decide) (by decide) (by decide)
    (.nonzero (by decide) (by decide) (by decide) (by decide)
    (.nonzero (by decide) (by decide) (by decide) (by decide) .nil)))))), ?_⟩
  decide +kernel

/-- V-FSE-2's bytes (`witness_Describes`) with one more after them, and `maxSym` at its least. -/
theorem witness_ReadncReadsADescription :
    let s : State := { withIbuf [0x30, 0x2F, 0x53, 0x36, 0x00] with fr := ⟨0, 5, 0, false⟩ }
    5 ≤ (9 : BitVec 4).toNat ∧ (9 : BitVec 4).toNat ≤ 9 ∧
    ([18, 6, 0, 0, 0, 0, 4, -1, 2, 1] : List Int).length ≤ (9 : BitVec 8).toNat + 1 ∧ s.fr.pos.toNat % 8 = 0 ∧
    8 * s.fr.len.toNat < 2 ^ 32 ∧
    s.ibuf.holds (s.fr.base.toNat + s.fr.pos.toNat / 8) (bytes [0x30, 0x2F, 0x53, 0x36] ++ [0]) ∧
    s.fr.pos.toNat / 8 + (bytes [0x30, 0x2F, 0x53, 0x36] ++ [0]).length ≤ s.fr.len.toNat := by
  unfold Memory.holds; decide +kernel

theorem witness_ReadncLeavesADistribution :
    ∃ t, exec (.fseReadnc 0 9 255) describing = .next t ∧ (!t.fault) = true := exists_next (by decide +kernel)

/-- `ParserFaults` as a search of `fuel` fields: the code, the reader's position and its bit to unwind. -/
def parserFault (x len maxSym : Nat) : (fuel : Nat) → Bool → (remaining sym pos : Nat) → Bool → Option (Byte × Nat × Bool)
  | 0, _, _, _, _, _ => none
  | fuel + 1, false, remaining, sym, pos, unw =>
    if 2 ≤ remaining then
      if sym ≤ maxSym then
        if pos + fieldWidth remaining ≤ len then
          parserFault x len maxSym fuel (decide ((fieldAt x pos remaining).1 = 0))
            (remaining - (fieldAt x pos remaining).1.natAbs) (sym + 1) (pos + (fieldAt x pos remaining).2)
            (decide ((fieldAt x pos remaining).2 = fieldWidth remaining))
        else some (0x03, pos, unw)
      else some (0x08, pos, unw)
    else none
  | fuel + 1, true, remaining, sym, pos, unw =>
    if pos + 2 ≤ len then
      if sym + bitsFrom x pos 2 ≤ maxSym then
        parserFault x len maxSym fuel (decide (bitsFrom x pos 2 = 3)) remaining (sym + bitsFrom x pos 2) (pos + 2) true
      else some (0x08, pos + 2, true)
    else some (0x03, pos, unw)

theorem parserFaults_of_search {x len maxSym fuel remaining sym pos pos' : Nat} {run unw unw' : Bool} {code : Byte}
    (h : parserFault x len maxSym fuel run remaining sym pos unw = some (code, pos', unw')) :
    ParserFaults x len maxSym run remaining sym pos unw code pos' unw' := by
  induction fuel generalizing run remaining sym pos unw with
  | zero => cases h
  | succ fuel ih =>
    cases run <;> simp only [parserFault] at h <;> split at h
    · split at h
      · split at h
        · exact .field ‹_› ‹_› ‹_› (ih h)
        · cases h; exact .fieldEnd ‹_› ‹_› (by omega)
      · cases h; exact .symbol ‹_› (by omega)
    · cases h
    · split at h
      · exact .runField ‹_› ‹_› (ih h)
      · cases h; exact .runSymbol ‹_› (by omega)
    · cases h; exact .runEnd (by omega)

theorem witness_ReadncFaultEffects :
    describing.fault = false ∧ (9 : BitVec 4).toNat ≤ 9 ∧ { describing with fr := ⟨0, 4, 4, true⟩ }.fr.pos.toNat % 8 ≠ 0 ∧
    describing.fr.pos.toNat % 8 = 0 ∧ ∃ t, exec (.fseReadnc 0 9 8) describing = .next t ∧ t.fault = true :=
  ⟨rfl, by decide, by decide +kernel, by decide +kernel, exists_next (by decide +kernel)⟩

/-- No bit left; V-FSE-5's limit; V-FSE-7 and V-FSE-9. `witness_Describes` with V-FSE-7's 9 symbols meets the last clause. -/
theorem witness_ReadncFaultEffects_parser :
    (let s : State := { describing with fr := ⟨0, 4, 32, false⟩ };
      s.fr.pos.toNat % 8 = 0 ∧ 8 * s.fr.len.toNat < s.fr.pos.toNat + 4) ∧
    (bytes [0x30, 0x2F, 0x53, 0x36]).length = describing.fr.len.toNat ∧
    describing.ibuf.holds describing.fr.base.toNat (bytes [0x30, 0x2F, 0x53, 0x36]) ∧
    describing.fr.pos.toNat + 4 ≤ 8 * describing.fr.len.toNat ∧
    (4 : BitVec 4).toNat < bitsFrom (leInt (bytes [0x30, 0x2F, 0x53, 0x36])) describing.fr.pos.toNat 4 + 5 ∧
    5 = bitsFrom (leInt (bytes [0x30, 0x2F, 0x53, 0x36])) describing.fr.pos.toNat 4 + 5 ∧ 5 ≤ (9 : BitVec 4).toNat ∧
    (∃ pos' unw', ParserFaults (leInt (bytes [0x30, 0x2F, 0x53, 0x36])) (8 * describing.fr.len.toNat) 8 false (2 ^ 5 + 1) 0
      4 true 0x08 pos' unw') ∧
    (∃ pos' unw', ParserFaults (leInt (bytes [0x30, 0x2F, 0x53])) (8 * 3) 255 false (2 ^ 5 + 1) 0 4 true 0x03 pos' unw') ∧
    (8 : BitVec 8).toNat + 1 < ([18, 6, 0, 0, 0, 0, 4, -1, 2, 1] : List Int).length := by
  refine ⟨by decide +kernel, by decide +kernel, by unfold Memory.holds; decide +kernel, by decide +kernel,
    by decide +kernel, by decide +kernel, by decide, ⟨28, true, parserFaults_of_search (fuel := 20) ?_⟩,
    ⟨23, false, parserFaults_of_search (fuel := 20) ?_⟩, by decide⟩ <;> decide +kernel

theorem witness_BuildMakesATable :
    (described.slot 0).ncValid = true ∧ (described.slot 0).countsOk ∧ (described.slot 0).nsym.toNat ≤ 256 := by
  unfold Slot.countsOk IsDistribution; decide +kernel

theorem witness_BuildTilesTheStates :
    (described.slot 0).countsOk ∧ (described.slot 0).nsym.toNat ≤ 256 ∧ described.fault = false ∧
    (∃ t, exec (.fseBuild 0) described = .next t ∧ (!t.fault) = true) ∧ (described.slot 0).counts.getD 7 0 ≠ 0 ∧
    31 < 2 ^ (described.slot 0).al.toNat :=
  ⟨witness_BuildMakesATable.2.1, by decide +kernel, rfl, exists_next (by decide +kernel), by decide +kernel,
    by decide +kernel⟩

theorem witness_PredefLoadsTheTables :
    (2#16, 5, 29, offsetCounts, offsetTable) ∈
      [(0#16, 6, 36, literalLengthCounts, literalLengthTable), (1#16, 6, 53, matchLengthCounts, matchLengthTable),
       (2#16, 5, 29, offsetCounts, offsetTable)] :=
  List.mem_cons_of_mem _ (List.mem_cons_of_mem _ List.mem_cons_self)

theorem witness_InitSeedsAndBindsAState :
    let s : State := walking 23
    (s.slot 0).valid = true ∧ (s.slot 0).al.toNat ≤ 9 ∧ -2 ^ 31 ≤ s.br.rem.toInt - (s.slot 0).al.toNat ∧
    s.ibuf.holds s.br.base.toNat (bytes [0x5A, 0xC3, 0x81]) ∧ s.br.rem.toInt ≤ 8 * (bytes [0x5A, 0xC3, 0x81]).length := by
  unfold Memory.holds; decide +kernel

theorem witness_PeekReturnsTheSymbol :
    let s : State := State.setFse (walking 13) 0 ⟨14, 0, true⟩
    (s.fse 0).bound = true ∧ (s.slot (s.fse 0).bind).dt.get? (s.fse 0).state.toNat = some ⟨21, 5, 0⟩ := by decide +kernel

theorem witness_NextMovesTheState :
    let s : State := State.setFse (walking 3) 0 ⟨11, 0, true⟩
    (s.fse 0).bound = true ∧ (s.slot (s.fse 0).bind).dt.get? (s.fse 0).state.toNat = some ⟨16, 5, 0⟩ ∧
    -2 ^ 31 ≤ s.br.rem.toInt - (5 : BitVec 4).toNat ∧ s.ibuf.holds s.br.base.toNat (bytes [0x5A, 0xC3, 0x81]) ∧
    s.br.rem.toInt ≤ 8 * (bytes [0x5A, 0xC3, 0x81]).length := by
  unfold Memory.holds; decide +kernel

theorem witness_NoTableFaults :
    State.reset.fault = false ∧ (State.reset.slot 7).ncValid = false ∧ (State.reset.slot 7).valid = false ∧
    (State.reset.fse 3).bound = false ∧ State.reset.hufValid = false := by decide +kernel

/-- A direct header with exactly its bytes available: P2's. -/
theorem witness_ReadwDirectReadsNibbles :
    let s : State := args (withIbuf [0x84, 0x43, 0x20, 0x10]) 0 4
    s.arg0.toNat + s.arg1.toNat ≤ 131072 ∧ s.ibuf.get? s.arg0.toNat = some 0x84 ∧ 128 ≤ (0x84 : Byte).toNat ∧
    1 + ((0x84 : Byte).toNat - 127 + 1) / 2 ≤ s.arg1.toNat := by decide +kernel

/-- V-HUF-3: its table's entries come from `buildTable` here, and from the vector in `test_hufReadw_compressed`'s result. -/
theorem witness_ReadwCompressedReadsItsStream :
    (∃ bits, Describes (2 ^ 6 + 1) [20, 12, 14, 10, 8] bits ∧
      packBits (bitsOf 4 (6 - 5) ++ bits) = bytes [0x51, 0xB5, 0xB7, 0x0F]) ∧
    (∃ table, buildTable 6 [20, 12, 14, 10, 8] = some table ∧
      WeightStream table (leInt (bytes [0xD9, 0x1E, 0x3F])) (8 * (3 - 1) + hsb (0x3F : Byte).toNat - 2 * 6)
        (bitsBelow (leInt (bytes [0xD9, 0x1E, 0x3F])) (8 * (3 - 1) + hsb (0x3F : Byte).toNat) 6)
        (bitsBelow (leInt (bytes [0xD9, 0x1E, 0x3F])) (8 * (3 - 1) + hsb (0x3F : Byte).toNat - 6) 6) [4, 2, 1, 1, 0]) ∧
    (let s : State := args (withIbuf [0x07, 0x51, 0xB5, 0xB7, 0x0F, 0xD9, 0x1E, 0x3F]) 0 8;
      (bytes [0xD9, 0x1E, 0x3F]).getLast? = some 0x3F ∧ s.arg0.toNat + s.arg1.toNat ≤ 131072 ∧ 1 + 7 ≤ s.arg1.toNat ∧
      s.ibuf.holds s.arg0.toNat
        (BitVec.ofNat 8 7 :: (bytes [0x51, 0xB5, 0xB7, 0x0F] ++ bytes [0xD9, 0x1E, 0x3F]))) := by
  refine ⟨⟨_, .nonzero (by decide) (by decide) (by decide) (by decide)
    (.nonzero (by decide) (by decide) (by decide) (by decide)
    (.nonzero (by decide) (by decide) (by decide) (by decide)
    (.nonzero (by decide) (by decide) (by decide) (by decide)
    (.nonzero (by decide) (by decide) (by decide) (by decide) .nil)))), by decide +kernel⟩, ?_, ?_⟩
  · refine ⟨(buildTable 6 [20, 12, 14, 10, 8]).getD [], by decide +kernel, ?_⟩
    exact .more (by decide +kernel) (.more (by decide +kernel) (.more (by decide +kernel) (.last (by decide +kernel))))
  · unfold Memory.holds; decide +kernel

/-- `WeightsAtLeast`, decided. -/
def emitsAtLeast (table : List DtEntry) (x : Nat) : (n : Nat) → (rem : Int) → (a b : Nat) → Bool
  | 0, _, _, _ => true
  | n + 1, rem, a, b =>
    if 0 ≤ rem - (table.getD a ⟨0, 0, 0⟩).nbBits.toNat then
      emitsAtLeast table x n (rem - (table.getD a ⟨0, 0, 0⟩).nbBits.toNat) b
        ((table.getD a ⟨0, 0, 0⟩).baseline.toNat + bitsBelow x rem (table.getD a ⟨0, 0, 0⟩).nbBits.toNat)
    else decide (n + 1 ≤ 2)

theorem weightsAtLeast_of_emits {table : List DtEntry} {x n a b : Nat} {rem : Int}
    (h : emitsAtLeast table x n rem a b = true) : WeightsAtLeast table x rem a b n := by
  induction n generalizing rem a b with
  | zero => exact .zero
  | succ n ih =>
    simp only [emitsAtLeast] at h
    split at h
    · exact .more ‹_› (ih h)
    · exact .last (by omega) (of_decide_eq_true h)

theorem witness_ReadwFaultEffects :
    131072 < (args State.reset 131071 2).arg0.toNat + (args State.reset 131071 2).arg1.toNat ∧
    (args State.reset 131071 2).fault = false ∧ (args State.reset 0 0).fault = false ∧
    (args State.reset 0 0).arg0.toNat + (args State.reset 0 0).arg1.toNat ≤ 131072 ∧ (args State.reset 0 0).arg1 = 0 ∧
    ∃ t, exec .hufReadw (args State.reset 0 0) = .next t ∧ t.fault = true :=
  ⟨by decide +kernel, rfl, rfl, by decide +kernel, rfl, exists_next (by decide +kernel)⟩

/-- The least direct header one byte short (as V-HUF-18 is), V-HUF-23, V-HUF-20; a 4-bit field of 2; a description cut off
in its first field. -/
theorem witness_ReadwFaultEffects_header :
    (let s : State := args (withIbuf [0x80]) 0 1;
      1 ≤ s.arg1.toNat ∧ s.ibuf.get? s.arg0.toNat = some 0x80 ∧ 128 ≤ (0x80 : Byte).toNat ∧
      s.arg1.toNat < 1 + ((0x80 : Byte).toNat - 127 + 1) / 2) ∧
    (let s : State := args (withIbuf [0x07, 0x51, 0xB5, 0xB7, 0x0F, 0xD9, 0x1E, 0x3F]) 0 7;
      1 ≤ s.arg1.toNat ∧ s.ibuf.get? s.arg0.toNat = some 0x07 ∧ s.arg1.toNat < 1 + (0x07 : Byte).toNat) ∧
    (let s : State := args (withIbuf [0x00]) 0 1;
      1 + ([] : List Byte).length ≤ s.arg1.toNat ∧ s.ibuf.holds s.arg0.toNat (BitVec.ofNat 8 ([] : List Byte).length :: [])) ∧
    (let s : State := args (withIbuf [0x01, 0x02]) 0 2;
      s.ibuf.holds s.arg0.toNat (BitVec.ofNat 8 (bytes [0x02]).length :: bytes [0x02]) ∧ bytes [0x02] ≠ [] ∧
      6 < bitsFrom (leInt (bytes [0x02])) 0 4 + 5) ∧
    (let s : State := args (withIbuf [0x01, 0x31]) 0 2;
      s.ibuf.holds s.arg0.toNat (BitVec.ofNat 8 (bytes [0x31]).length :: bytes [0x31]) ∧ bytes [0x31] ≠ [] ∧
      6 = bitsFrom (leInt (bytes [0x31])) 0 4 + 5) ∧
    ParserFaults (leInt (bytes [0x31])) (8 * 1) 11 false (2 ^ 6 + 1) 0 4 true 0x03 4 true := by
  unfold Memory.holds
  exact ⟨by decide +kernel, by decide +kernel, by decide +kernel, by decide +kernel, by decide +kernel,
    parserFaults_of_search (fuel := 1) (by decide +kernel)⟩

/-- V-HUF-21 and V-HUF-22, over V-HUF-3's description (`witness_ReadwCompressedReadsItsStream`); and a table of the counts
31 and 1, most of whose transitions read nothing, over four bytes. -/
theorem witness_ReadwFaultEffects_stream :
    (∃ bits, Describes (2 ^ 6 + 1) [20, 12, 14, 10, 8] bits ∧
      bytes [0x51, 0xB5, 0xB7, 0x0F] = packBits (bitsOf 4 (6 - 5) ++ bits) ++ [] ∧
      descriptionBits [20, 12, 14, 10, 8] bits ≤ 8 * (bytes [0x51, 0xB5, 0xB7, 0x0F]).length ∧
      bytes [0x51, 0xB5, 0xB7, 0x0F, 0xD9, 0x1E, 0x00] =
        packBits (bitsOf 4 (6 - 5) ++ bits) ++ bytes [0xD9, 0x1E, 0x00]) ∧
    (bytes [0xD9, 0x1E, 0x00]).getLast? = some 0 ∧ (∃ table, buildTable 6 [20, 12, 14, 10, 8] = some table) ∧
    (∃ bits, Describes (2 ^ 5 + 1) [31, 1] bits ∧
      bytes [0xE0, 0x0F, 0, 0, 0, 1] = packBits (bitsOf 4 (5 - 5) ++ bits) ++ bytes [0, 0, 0, 1]) ∧
    (bytes [0, 0, 0, 1]).getLast? = some 1 ∧
    ∃ table, buildTable 5 [31, 1] = some table ∧
      WeightsAtLeast table (leInt (bytes [0, 0, 0, 1])) (8 * (4 - 1) + hsb (1 : Byte).toNat - 2 * 5)
        (bitsBelow (leInt (bytes [0, 0, 0, 1])) (8 * (4 - 1) + hsb (1 : Byte).toNat) 5)
        (bitsBelow (leInt (bytes [0, 0, 0, 1])) (8 * (4 - 1) + hsb (1 : Byte).toNat - 5) 5) 256 := by
  refine ⟨⟨_, .nonzero (by decide) (by decide) (by decide) (by decide)
    (.nonzero (by decide) (by decide) (by decide) (by decide)
    (.nonzero (by decide) (by decide) (by decide) (by decide)
    (.nonzero (by decide) (by decide) (by decide) (by decide)
    (.nonzero (by decide) (by decide) (by decide) (by decide) .nil)))), by decide +kernel, by decide +kernel,
      by decide +kernel⟩, by decide +kernel, ⟨(buildTable 6 [20, 12, 14, 10, 8]).getD [], by decide +kernel⟩,
    ⟨_, .nonzero (by decide) (by decide) (by decide) (by decide)
    (.nonzero (by decide) (by decide) (by decide) (by decide) .nil), by decide +kernel⟩, by decide +kernel,
    (buildTable 5 [31, 1]).getD [], by decide +kernel, weightsAtLeast_of_emits (by decide +kernel)⟩

/-- V-HUF-1's weights, whose shares sum to 2^4 − 2^0. -/
theorem witness_HufBuildMakesAPrefixTable :
    [4, 3, 2, 0, 1].length = weighted.hufNw.toNat ∧ 1 ≤ [4, 3, 2, 0, 1].length ∧
    (∀ i, ∀ h : i < [4, 3, 2, 0, 1].length, weighted.w.get? i = some (BitVec.ofNat 4 [4, 3, 2, 0, 1][i])) ∧
    (∀ x ∈ [4, 3, 2, 0, 1], x ≤ 11) ∧ 0 < 4 ∧ 4 ≤ 11 ∧
    shareSum [4, 3, 2, 0, 1] + 2 ^ 0 = 2 ^ 4 ∧
    2 ≤ ([4, 3, 2, 0, 1] ++ [0 + 1]).count 1 := by decide +kernel

/-- No weight; one of 12; two of 0; shares of just 2^11; shares of 5, three below 8; a last weight that is 2, beside one
of 2. -/
theorem witness_HufBuildRefusesBadWeights :
    (State.reset.fault = false ∧ ([] : List Nat).length = State.reset.hufNw.toNat ∧ State.reset.hufNw = 0) ∧
    (let s : State := { State.reset with w := Memory.ofList [12], hufNw := 1 };
      [12].length = s.hufNw.toNat ∧ (∀ i, ∀ h : i < [12].length, s.w.get? i = some (BitVec.ofNat 4 [12][i])) ∧
      (∀ x ∈ [12], x < 16) ∧ ∃ x ∈ [12], 11 < x) ∧
    (let s : State := { State.reset with w := Memory.ofList [0, 0], hufNw := 2 };
      [0, 0].length = s.hufNw.toNat ∧ (∀ i, ∀ h : i < [0, 0].length, s.w.get? i = some (BitVec.ofNat 4 [0, 0][i])) ∧
      (∀ x ∈ [0, 0], x = 0)) ∧
    (let s : State := { State.reset with w := Memory.ofList [11, 11], hufNw := 2 };
      [11, 11].length = s.hufNw.toNat ∧ (∀ i, ∀ h : i < [11, 11].length, s.w.get? i = some (BitVec.ofNat 4 [11, 11][i])) ∧
      (∀ x ∈ [11, 11], x ≤ 11) ∧ 2 ^ 11 ≤ shareSum [11, 11]) ∧
    (let s : State := { State.reset with w := Memory.ofList [3, 1], hufNw := 2 };
      [3, 1].length = s.hufNw.toNat ∧ (∀ i, ∀ h : i < [3, 1].length, s.w.get? i = some (BitVec.ofNat 4 [3, 1][i])) ∧
      (∀ x ∈ [3, 1], x ≤ 11) ∧ 2 ^ (3 - 1) ≤ shareSum [3, 1] ∧ shareSum [3, 1] < 2 ^ 3) ∧
    (let s : State := { State.reset with w := Memory.ofList [2], hufNw := 1 };
      [2].length = s.hufNw.toNat ∧ (∀ i, ∀ h : i < [2].length, s.w.get? i = some (BitVec.ofNat 4 [2][i])) ∧
      (∀ x ∈ [2], x ≤ 11) ∧ 1 < 2 ∧ shareSum [2] + 2 ^ 1 = 2 ^ 2 ∧ ([2] ++ [1 + 1]).count 1 < 2) := by
  decide +kernel

/-- The complement of 5 to 8 is no power of two. -/
theorem witness_complement : ∀ r : Nat, shareSum [3, 1] + 2 ^ r ≠ 2 ^ 3 := by
  intro r h
  have : shareSum [3, 1] = 5 := by decide +kernel
  rcases Nat.lt_or_ge r 2 with hr | hr
  · interval_cases r <;> simp [this] at h
  · have := Nat.pow_le_pow_right (n := 2) (by norm_num) hr
    omega

theorem witness_HufDecodeEndsExactly :
    (∃ t, exec .hufDecode { args (tabled (withIbuf [0x1D, 0x90, 0x06])) 0 3 with arg3 := 8 } = .next t ∧ (!t.fault) = true) ∧
    ∃ t, exec .hufDecode { args (tabled (withIbuf [0x1D, 0x90, 0x06])) 0 3 with arg3 := 7 } = .next t ∧ t.fault = true :=
  ⟨exists_next (by decide +kernel), exists_next (by decide +kernel)⟩

/-- One byte beyond each buffer; an empty stream at IBUF's end and a last byte 0. -/
theorem witness_HufDecodeEndsExactly_checks :
    (let s : State := args (tabled State.reset) 131072 1;
      s.fault = false ∧ s.hufValid = true ∧ 131072 < s.arg0.toNat + s.arg1.toNat) ∧
    (let s : State := { tabled State.reset with arg2 := 131072, arg3 := 1 };
      s.fault = false ∧ s.hufValid = true ∧ 131072 < s.arg2.toNat + s.arg3.toNat) ∧
    (let s : State := { args (tabled State.reset) 131072 0 with arg2 := 131072 };
      s.arg0.toNat + s.arg1.toNat ≤ 131072 ∧ s.arg2.toNat + s.arg3.toNat ≤ 131072 ∧ s.arg1 = 0) ∧
    (let s : State := args (tabled (withIbuf [0x12, 0x00])) 0 2;
      s.arg0.toNat + s.arg1.toNat ≤ 131072 ∧ s.ibuf.get? (s.arg0.toNat + s.arg1.toNat - 1) = some 0) := by decide +kernel

/-- V-HUF-1's table. A stream 01 ends at −4 with no symbol; a stream 02 (V-HUF-27) ends at −7 with one symbol, and holds a
bit more where the limit is 0. -/
theorem witness_HufDecodeEndsExactly_ends :
    (let s : State := args (tabled (withIbuf [0x01])) 0 1;
      s.fault = false ∧ s.hufValid = true ∧ (bytes [0x01]).length = s.arg1.toNat ∧
      s.ibuf.holds s.arg0.toNat (bytes [0x01]) ∧ (bytes [0x01]).getLast? = some 0x01) ∧
    DecodeSteps (tabled State.reset).ht 4 (leInt (bytes [0x01])) (8 * (1 - 1) + hsb (0x01 : Byte).toNat - 4)
      (bitsBelow (leInt (bytes [0x01])) (8 * (1 - 1) + hsb (0x01 : Byte).toNat) 4) [] (-4) ∧
    (let s : State := { args (tabled (withIbuf [0x02])) 0 1 with arg3 := 1 };
      s.fault = false ∧ s.hufValid = true ∧ (bytes [0x02]).length = s.arg1.toNat ∧
      s.ibuf.holds s.arg0.toNat (bytes [0x02]) ∧ (bytes [0x02]).getLast? = some 0x02) ∧
    DecodeSteps (tabled State.reset).ht 4 (leInt (bytes [0x02])) (8 * (1 - 1) + hsb (0x02 : Byte).toNat - 4)
      (bitsBelow (leInt (bytes [0x02])) (8 * (1 - 1) + hsb (0x02 : Byte).toNat) 4) [4] (-7) ∧
    DecodeSteps (tabled State.reset).ht 4 (leInt (bytes [0x02])) (8 * (1 - 1) + hsb (0x02 : Byte).toNat - 4)
      (bitsBelow (leInt (bytes [0x02])) (8 * (1 - 1) + hsb (0x02 : Byte).toNat) 4) [] (-3) := by
  have h1 : (8 * (1 - 1) + hsb (0x01 : Byte).toNat - 4 : Int) = -4 := by decide +kernel
  have h2 : (8 * (1 - 1) + hsb (0x02 : Byte).toNat - 4 : Int) = -3 := by decide +kernel
  refine ⟨by unfold Memory.holds; decide +kernel, h1 ▸ .nil, by unfold Memory.holds; decide +kernel, ?_, h2 ▸ .nil⟩
  rw [h2]
  exact .cons (e := ⟨4, 4⟩) (by decide) (by decide +kernel) .nil

/-- A prefix table, checked index by index. -/
theorem prefixTable_of_check {ht : Memory HtEntry} {mb : Nat}
    (h : ∀ u < 2 ^ mb, (ht.get? u).any (fun e => decide (1 ≤ e.nbBits.toNat ∧ e.nbBits.toNat ≤ mb ∧
      ∀ v < 2 ^ mb, v >>> (mb - e.nbBits.toNat) = u >>> (mb - e.nbBits.toNat) → ht.get? v = some e)) = true) :
    PrefixTable ht mb := by
  intro u hu
  have := h u hu
  cases he : ht.get? u with
  | none => simp [he] at this
  | some e =>
    rw [he] at this
    exact ⟨e, rfl, of_decide_eq_true this⟩

/-- V-HUF-1's table and V-HUF-2's stream, with a limit of just its symbols. -/
theorem witness_HufDecodeRoundTrip :
    let s : State := { args (tabled (withIbuf [0x1D, 0x90, 0x06])) 0 3 with arg3 := 8 }
    s.hufValid = true ∧ PrefixTable s.ht s.hufMaxbits.toNat ∧ s.hufMaxbits.toNat ≤ 11 ∧
    (∀ u ∈ [8, 4, 2, 0, 1, 8, 8, 4], u < 2 ^ s.hufMaxbits.toNat) ∧
    packBits (backwardBits (codesAt s.ht s.hufMaxbits.toNat [8, 4, 2, 0, 1, 8, 8, 4])) = bytes [0x1D, 0x90, 0x06] ∧
    s.arg1.toNat = (bytes [0x1D, 0x90, 0x06]).length ∧ s.arg0.toNat + s.arg1.toNat ≤ 131072 ∧
    s.arg2.toNat + s.arg3.toNat ≤ 131072 ∧ [8, 4, 2, 0, 1, 8, 8, 4].length ≤ s.arg3.toNat ∧
    s.ibuf.holds s.arg0.toNat (bytes [0x1D, 0x90, 0x06]) := by
  refine ⟨by decide +kernel, prefixTable_of_check (by decide +kernel), by decide +kernel, by decide +kernel,
    by decide +kernel, by decide +kernel, by decide +kernel, by decide +kernel, by decide +kernel, ?_⟩
  unfold Memory.holds; decide +kernel

/-- The smallest and the largest capacity, and one beyond each; an unflushed window. -/
theorem witness_ConfigStartsAnEmptyHistory :
    1 ≤ (args State.reset 1 0).arg0.toNat ∧ (args State.reset 4278190080 0).arg0.toNat ≤ State.reset.winCapMax ∧
    State.reset.wconf = false ∧ (args State.reset 0 0).arg0 = 0 ∧
    State.reset.winCapMax < (args State.reset 4278190081 0).arg0.toNat ∧
    (pushed State.reset).wconf = true ∧ (pushed State.reset).wflushed ≠ (pushed State.reset).wtotal := by decide +kernel

/-- The history "abc" of a window of four bytes, whatever the operands. -/
theorem pushed_history (a b : Nat) : (args (pushed State.reset) a b).windowOk ∧
    (args (pushed State.reset) a b).hasHistory (bytes [0x61, 0x62, 0x63]) := by
  have h : (pushed State.reset).windowOk ∧ (pushed State.reset).hasHistory (bytes [0x61, 0x62, 0x63]) := by
    unfold State.windowOk State.hasHistory; decide +kernel
  exact h

/-- A range that ends at the buffer's end. -/
theorem witness_PushAppendsToTheHistory :
    let s : State := args (pushed State.reset) 131071 1
    s.windowOk ∧ s.hasHistory (bytes [0x61, 0x62, 0x63]) ∧ s.wtotal.toNat + s.arg1.toNat < 2 ^ 64 ∧
    s.arg0.toNat + s.arg1.toNat ≤ 131072 :=
  ⟨(pushed_history _ _).1, (pushed_history _ _).2, by decide +kernel⟩

/-- The distance of the whole history, with more bytes than that; and a length of 0. -/
theorem witness_RepgenAppendsThePeriod :
    (let s : State := args (pushed State.reset) 3 5;
      s.windowOk ∧ s.hasHistory (bytes [0x61, 0x62, 0x63]) ∧ s.wtotal.toNat + s.arg1.toNat < 2 ^ 64 ∧
      1 ≤ s.arg0.toNat ∧ s.arg0.toNat ≤ s.wtotal.toNat ∧ s.arg0.toNat ≤ s.winCap.toNat) ∧
    (let s : State := args (pushed State.reset) 0 0;
      s.windowOk ∧ s.hasHistory (bytes [0x61, 0x62, 0x63]) ∧ s.wtotal.toNat + s.arg1.toNat < 2 ^ 64 ∧ s.arg1 = 0) :=
  ⟨⟨(pushed_history _ _).1, (pushed_history _ _).2, by decide +kernel⟩,
    ⟨(pushed_history _ _).1, (pushed_history _ _).2, by decide +kernel⟩⟩

/-- The distance of the whole history, with just as many bytes; and a length of 0. -/
theorem witness_RepeatAppendsThePast :
    (let s : State := args (pushed State.reset) 3 3;
      s.windowOk ∧ s.hasHistory (bytes [0x61, 0x62, 0x63]) ∧ s.wtotal.toNat + s.arg1.toNat < 2 ^ 64 ∧
      1 ≤ s.arg0.toNat ∧ s.arg0.toNat ≤ s.wtotal.toNat ∧ s.arg0.toNat ≤ s.winCap.toNat ∧ s.arg1.toNat ≤ s.arg0.toNat) ∧
    (let s : State := args (pushed State.reset) 0 0;
      s.windowOk ∧ s.hasHistory (bytes [0x61, 0x62, 0x63]) ∧ s.wtotal.toNat + s.arg1.toNat < 2 ^ 64 ∧ s.arg1 = 0) :=
  ⟨⟨(pushed_history _ _).1, (pushed_history _ _).2, by decide +kernel⟩,
    ⟨(pushed_history _ _).1, (pushed_history _ _).2, by decide +kernel⟩⟩

theorem witness_FlushDrainsTheHistory :
    (args (pushed State.reset) 0 0).windowOk ∧ (args (pushed State.reset) 0 0).hasHistory (bytes [0x61, 0x62, 0x63]) :=
  pushed_history 0 0

/-- An unconfigured window; a distance of 0, one beyond the history, one beyond the window; one byte too many to repeat; one
byte beyond a buffer. -/
theorem witness_WindowCommandFaults :
    (State.reset.fault = false ∧ State.reset.wconf = false) ∧ (pushed State.reset).fault = false ∧
    (pushed State.reset).wconf = true ∧
    (let s : State := args (pushed State.reset) 0 1; s.arg1 ≠ 0 ∧ s.arg0 = 0) ∧
    (let s : State := args (pushed State.reset) 4 1; s.arg1 ≠ 0 ∧ s.wtotal.toNat < s.arg0.toNat) ∧
    (let s : State := args (pushed State.reset) 5 1; s.arg1 ≠ 0 ∧ s.winCap.toNat < s.arg0.toNat) ∧
    (let s : State := args (pushed State.reset) 3 4;
      1 ≤ s.arg0.toNat ∧ s.arg0.toNat ≤ s.wtotal.toNat ∧ s.arg0.toNat ≤ s.winCap.toNat ∧ s.arg0.toNat < s.arg1.toNat) ∧
    (let s : State := args (pushed State.reset) 131072 1; 131072 < s.arg0.toNat + s.arg1.toNat) := by decide +kernel

/-- The last byte before the overflow, and one more, for operands at the ends of their ranges. -/
theorem witness_TotalOverflowIsRefused :
    (let s : State := { pushed State.reset with wtotal := 0xFFFFFFFFFFFFFFFE, arg0 := 131071, arg1 := 1 };
      s.wconf = true ∧ s.arg0.toNat + s.arg1.toNat ≤ 131072 ∧ s.wtotal.toNat + s.arg1.toNat < 2 ^ 64) ∧
    (let s : State := { pushed State.reset with wtotal := 0xFFFFFFFFFFFFFFFF, arg0 := 131071, arg1 := 1 };
      s.wconf = true ∧ s.arg0.toNat + s.arg1.toNat ≤ 131072 ∧ 2 ^ 64 ≤ s.wtotal.toNat + s.arg1.toNat) ∧
    (let s : State := { pushed State.reset with wtotal := 0xFFFFFFFFFFFFFFFB, arg0 := 4, arg1 := 4 };
      s.wconf = true ∧ 1 ≤ s.arg0.toNat ∧ s.arg0.toNat ≤ s.wtotal.toNat ∧ s.arg0.toNat ≤ s.winCap.toNat ∧
      s.arg1.toNat ≤ s.arg0.toNat ∧ s.wtotal.toNat + s.arg1.toNat < 2 ^ 64) ∧
    (let s : State := { pushed State.reset with wtotal := 0xFFFFFFFFFFFFFFFF, arg0 := 1, arg1 := 1 };
      s.wconf = true ∧ 1 ≤ s.arg0.toNat ∧ s.arg0.toNat ≤ s.wtotal.toNat ∧ s.arg0.toNat ≤ s.winCap.toNat ∧
      s.arg1.toNat ≤ s.arg0.toNat ∧ 2 ^ 64 ≤ s.wtotal.toNat + s.arg1.toNat) := by decide +kernel

/-- A write of `CMD` with and without a fault held. -/
theorem witness_CmdWriteIssuesACommand :
    (accessing (.write 0x14 .w32 0)).busy = false ∧ (accessing (.write 0x14 .w32 0)).fault = false ∧
    (accessing (.write 0x14 .w32 0)).schedule = .host (.write 0x14 .w32 0) :: [] ∧
    { holding with schedule := [.host (.write 0x14 .w32 0)] }.busy = false ∧
    { holding with schedule := [.host (.write 0x14 .w32 0)] }.fault = true := by decide +kernel

/-- A poll while idle; while busy with the sink's event behind the host's; while busy with only the host's. -/
theorem witness_CmdWriteIssuesACommand_poll :
    { State.reset with schedule := [.poll] }.busy = false ∧
    (let s : State := { pendingWord 0 with schedule := [.poll, .host (.read 0x28 .w32), .sink true, .block] };
      s.busy = true ∧ (∀ h ∈ [Event.host (.read 0x28 .w32)], h.isHost = true) ∧ (Event.sink true).isHost = false ∧
      s.schedule = .poll :: ([.host (.read 0x28 .w32)] ++ .sink true :: [.block])) ∧
    (let s : State := { pendingWord 0 with schedule := [.poll, .host (.read 0x28 .w32), .poll] };
      s.busy = true ∧ (∀ h ∈ [Event.host (.read 0x28 .w32), .poll], h.isHost = true) ∧ s.pending = some 0 ∧
      decode 0 = .ok .nop ∧ s.fault = false ∧ s.sinkReady = true) := by decide +kernel

/-- The two accesses allowed while busy with the width wrong, and the one read that is allowed. -/
theorem witness_BusyAccessCancelsTheCommand :
    (pendingWord 0).busy = true ∧ (pendingWord 0).fault = false ∧
    ¬ ((0x08 : Word) = 0x08 ∧ Width.w8 = .w32) ∧ ¬ ((0x10 : Word) = 0x10 ∧ Width.w8 = .w32) ∧
    { pendingWord 0 with schedule := [.host (.read 0x08 .w32)] }.schedule = .host (.read 0x08 .w32) :: [] := by
  decide +kernel

/-- Each hole of the map at its edges, a misaligned word, and a byte access of a register; with and without a fault held. -/
theorem witness_BadAccessFaults :
    (∀ a ∈ [0x3C, 0x3F, 0x88, 0x8F, 0x9C, 0x9F, 0xB0, 0xFFFFF, 0x142000, 0x14FFFF, 0x154000, 0x15FFFF, 0x160400, 0x160FFF,
      0x163000, 0xFFFFFF, 0x1001000], Unmapped 4096 a) ∧
    (0x02 : Word).toNat % 4 ≠ 0 ∧ ¬ ByteAddress 4096 (0x08 : Word).toNat ∧ State.reset.fault = false ∧
    holding.fault = true ∧ holding.busy = false ∧ holding.pending = none := by
  unfold Unmapped ByteAddress; decide +kernel

theorem witness_HostReadHasNoSideEffect :
    ∃ t, step (accessing (.read 0x100000 .w8)) = .next t ∧ (!t.fault) = true :=
  exists_next (by decide +kernel)

/-- The last register, and the last entry, byte and word of each window, of a state in which they are written; a negative
count. -/
theorem witness_HostReadHasNoSideEffect_values :
    (accessing (.read 0xAC .w32)).busy = false ∧ (accessing (.read 0xAC .w32)).Shows .w32 0xAC 0 ∧
    { State.reset with ibuf := [(131071, 0x5A)] }.Shows .w8 0x11FFFF 0x5A ∧
    { State.reset with ibuf := [(131068, 1), (131069, 2), (131070, 3), (131071, 0x84)] }.Shows .w32 0x11FFFC 0x84030201 ∧
    { State.reset with lbuf := [(131071, 0x5A)] }.Shows .w8 0x13FFFF 0x5A ∧
    { State.reset with lbuf := [(131068, 1), (131069, 2), (131070, 3), (131071, 0x84)] }.Shows .w32 0x13FFFC 0x84030201 ∧
    { State.reset with winCapMax := 4096, wbuf := [(4095, 0x5A)] }.Shows .w8 0x1000FFF 0x5A ∧
    { State.reset with winCapMax := 4096, wbuf := [(4092, 1), (4093, 2), (4094, 3), (4095, 0x84)] }.Shows .w32 0x1000FFC
      0x84030201 ∧
    (State.setSlot State.reset 7 { Slot.reset with ncount := [(255, 0xFFFF)] }).Shows .w32 0x141FFC 0xFFFFFFFF ∧
    (State.setSlot State.reset 7 { Slot.reset with dt := [(511, ⟨0x5A, 9, 511⟩)] }).Shows .w32 0x153FFC 0x01FF095A ∧
    { State.reset with w := [(255, 11)] }.Shows .w32 0x1603FC 11 ∧
    { State.reset with ht := [(2047, ⟨0x5A, 11⟩)] }.Shows .w32 0x162FFC 0x0B5A :=
  ⟨by decide +kernel, .reg (by decide +kernel), .ibuf8 (a := 131071) (b := 0x5A) (by decide) (by decide +kernel),
    .ibuf32 (a := 131068) (bs := [1, 2, 3, 0x84]) (by decide) (by decide) rfl (by unfold Memory.holds; decide +kernel),
    .lbuf8 (a := 131071) (b := 0x5A) (by decide) (by decide +kernel),
    .lbuf32 (a := 131068) (bs := [1, 2, 3, 0x84]) (by decide) (by decide) rfl (by unfold Memory.holds; decide +kernel),
    .wbuf8 (a := 4095) (b := 0x5A) (by decide) (by decide +kernel),
    .wbuf32 (a := 4092) (bs := [1, 2, 3, 0x84]) (by decide) (by decide) rfl (by unfold Memory.holds; decide +kernel),
    .ncount (τ := 7) (i := 255) (c := 0xFFFF) (by decide) (by decide +kernel),
    .dt (τ := 7) (u := 511) (e := ⟨0x5A, 9, 511⟩) (by decide) (by decide +kernel),
    .w (i := 255) (c := 11) (by decide) (by decide +kernel),
    .ht (u := 2047) (e := ⟨0x5A, 11⟩) (by decide) (by decide +kernel)⟩

/-- The last word and the last byte of each buffer. -/
theorem witness_BufferWordsReadBack :
    131068 < 131072 ∧ 131068 % 4 = 0 ∧ 131071 < 131072 ∧
    (accessing (.write (BitVec.ofNat 32 (0x100000 + 131068)) .w32 7)).busy = false ∧
    (accessing (.write (BitVec.ofNat 32 (0x120000 + 131068)) .w32 7)).busy = false ∧
    (accessing (.write (BitVec.ofNat 32 (0x100000 + 131071)) .w8 0x107)).busy = false ∧
    (accessing (.write (BitVec.ofNat 32 (0x120000 + 131071)) .w8 0x107)).busy = false := by decide +kernel

theorem witness_WeightWritesClearHufValid :
    (∀ a ∈ [0x18, 0x1C, 0x20, 0x24, 0x84, 0x160000 + 4 * 255],
      (accessing (.write (BitVec.ofNat 32 a) .w32 5)).busy = false ∧
      (accessing (.write (BitVec.ofNat 32 a) .w32 5)).schedule = .host (.write (BitVec.ofNat 32 a) .w32 5) :: []) ∧
    255 < 256 := by decide +kernel

/-- The last register; the ends of each window. -/
theorem witness_ReadOnlyRegistersIgnoreWrites :
    (∀ a ∈ [0x00, 0xAC, 0x140000, 0x141FFC, 0x150000, 0x153FFC, 0x161000, 0x162FFC, 0x1000000, 0x1000FFC],
      ReadOnlyAddress 4096 .w32 (BitVec.ofNat 32 a).toNat) ∧
    (∀ a ∈ [0x1000000, 0x1000FFF], ReadOnlyAddress 4096 .w8 (BitVec.ofNat 32 a).toNat) ∧
    (accessing (.write (BitVec.ofNat 32 0xAC) .w32 1)).busy = false := by
  unfold ReadOnlyAddress; decide +kernel

theorem witness_SoftResetKeepsMemoriesAndOutput :
    (accessing (.write 0x10 .w32 1)).schedule = .host (.write 0x10 .w32 1) :: [] ∧ (1 : Word).getLsbD 0 = true ∧
    (2 : Word).getLsbD 0 = false := by decide +kernel

/-- A well-formed state with a fault held, which is not the state at reset, and a step from it. -/
theorem holding_wf : holding.Wf where
  winCapMax := by decide
  ibuf := rfl
  lbuf := rfl
  wbuf := rfl
  w := rfl
  ht := rfl
  slotMem := by decide +kernel
  busy := rfl
  held := by decide +kernel
  clear := nofun
  back := by decide +kernel
  fwd := by decide +kernel
  slots := fun t => by
    have h : holding.slot t = Slot.reset := by revert t; decide +kernel
    rw [h]
    exact ⟨by decide, by decide, nofun, nofun⟩
  bound := fun k h => by
    have h' : (holding.fse k).bound = false := by clear h; revert k; decide +kernel
    rw [h'] at h; cases h
  huf := ⟨by decide +kernel, by decide +kernel, nofun⟩
  window := ⟨by decide +kernel, nofun⟩

theorem witness_StepKeepsStatesWellFormed : holding.Wf ∧ ∃ t, step holding = .next t ∧ t.fault = true :=
  ⟨holding_wf, exists_next (by decide +kernel)⟩

end Sys2Proof.Tests
end

/-! ## What every command keeps (10_state.md R26, R27; 20_memory.md R61) -/

namespace Sys2Proof.Machine

/-! ### The fields no command writes before its end -/

/-- `t` differs from `s` at most in what some command writes before its end: not in the operands, IBUF, the fault state,
`PENDING`, or the model's own fields but the count of draws. -/
def SameControl (s t : State) : Prop :=
  t = { s with
    res := t.res, br := t.br, fr := t.fr, slots := t.slots, states := t.states
    w := t.w, hufNw := t.hufNw, hufValid := t.hufValid, hufMaxbits := t.hufMaxbits, hufNsym := t.hufNsym, ht := t.ht
    wconf := t.wconf, winCap := t.winCap, wtotal := t.wtotal, wflushed := t.wflushed, wbuf := t.wbuf
    lbuf := t.lbuf, out := t.out, draws := t.draws }

/-- Every command's frame is within `SameControl`. -/
theorem ending_sameControl (i : Instr) (s : State) : (ending i s).All (SameControl s) := by
  cases i with
  | nop => exact rfl
  | bbrInit => exact (bbrInit_frame s).imp fun t h => by rw [h]; rfl
  | bbrSkippad => exact (bbrSkippad_frame s).imp fun t h => by rw [h]; rfl
  | bbrRead n => exact (bbrRead_frame n s).imp fun t h => by rw [h]; rfl
  | fbrInit => exact (fbrInit_frame s).imp fun t h => by rw [h]; rfl
  | fbrRead n => exact (fbrRead_frame n s).imp fun t h => by rw [h]; rfl
  | fbrUnwind => exact (fbrUnwind_frame s).imp fun t h => by rw [h]; rfl
  | fseReadnc τ maxAl maxSym => exact (fseReadnc_frame τ maxAl maxSym s).imp fun t h => by rw [h]; rfl
  | fseBuild τ => exact (fseBuild_frame τ s).imp fun t h => by rw [h]; rfl
  | fsePredef τ which => exact (fsePredef_frame τ which s).imp fun t h => by rw [h]; rfl
  | fseRle τ b => exact (fseRle_frame τ b s).imp fun t h => by rw [h]; rfl
  | fseInit k τ => exact (fseInit_frame k τ s).imp fun t h => by rw [h]; rfl
  | fsePeek k => exact (fsePeek_frame k s).imp fun t h => by rw [h]; rfl
  | fseNext k => exact (fseNext_frame k s).imp fun t h => by rw [h]; rfl
  | hufReadw => exact (hufReadw_frame s).imp fun t h => by rw [h]; rfl
  | hufBuild => exact (hufBuild_frame s).imp fun t h => by rw [h]; rfl
  | hufDecode => exact (hufDecode_frame s).imp fun t h => by rw [h]; rfl
  | winConfig => exact (winConfig_frame s).imp fun t h => by rw [h]; rfl
  | winPushi => exact (winPushi_frame s).imp fun t h => by rw [h]; rfl
  | winPushl => exact (winPushl_frame s).imp fun t h => by rw [h]; rfl
  | winPushr b => exact (winPushr_frame b s).imp fun t h => by rw [h]; rfl
  | winRepeat => exact (winRepeat_frame s).imp fun t h => by rw [h]; rfl
  | winRepgen => exact (winRepgen_frame s).imp fun t h => by rw [h]; rfl
  | winFlush => exact (winFlush_frame s).imp fun t h => by rw [h]; rfl

/-- `t` has the operands, IBUF, `WIN_CAP_MAX`, the schedule, the sink's readiness and the host's reads of `s`. -/
def SameInput (s t : State) : Prop :=
  t.arg0 = s.arg0 ∧ t.arg1 = s.arg1 ∧ t.arg2 = s.arg2 ∧ t.arg3 = s.arg3 ∧ t.ibuf = s.ibuf ∧
  t.winCapMax = s.winCapMax ∧ t.schedule = s.schedule ∧ t.sinkReady = s.sinkReady ∧ t.hostReads = s.hostReads

theorem SameControl.sameInput {s t : State} (h : SameControl s t) : SameInput s t := by
  rw [h]
  exact ⟨rfl, rfl, rfl, rfl, rfl, rfl, rfl, rfl, rfl⟩

theorem SameControl.fault {s t : State} (h : SameControl s t) : t.fault = s.fault := by rw [h]

/-- Settles O10: every command's frame leaves these fields out, and neither end of a command writes them. -/
theorem commandsKeepOperandsAndInput : Obligations.CommandsKeepOperandsAndInput := by
  unfold Obligations.CommandsKeepOperandsAndInput
  intro i s t ht
  rw [exec_eq] at ht
  have h : (ending i s).All (SameInput s) := (ending_sameControl i s).imp fun _ h => h.sameInput
  refine h.finish (fun u hu => hu) (fun c u hu => ?_) ht
  simpa [SameInput] using hu

/-! ### `RES` (10_state.md R27) -/

/-- The commands that write `RES` (R27), by mnemonic. -/
def resultMnemonics : List String := ["BBR.READ", "FBR.READ", "FSE.READNC", "FSE.PEEK", "HUF.READW", "HUF.DECODE"]

/-- A command that is none of the six of R27 has no `RES` in its frame. -/
theorem ending_res_of_not_result (i : Instr) (s : State) (hi : i.mnemonic ∉ resultMnemonics) :
    (ending i s).All fun t => t.res = s.res := by
  cases i with
  | nop => exact rfl
  | bbrInit => exact (bbrInit_frame s).imp fun t h => by rw [h]
  | bbrSkippad => exact (bbrSkippad_frame s).imp fun t h => by rw [h]
  | fbrInit => exact (fbrInit_frame s).imp fun t h => by rw [h]
  | fbrUnwind => exact (fbrUnwind_frame s).imp fun t h => by rw [h]
  | fseBuild τ => exact (fseBuild_frame τ s).imp fun t h => by rw [h]
  | fsePredef τ which => exact (fsePredef_frame τ which s).imp fun t h => by rw [h]
  | fseRle τ b => exact (fseRle_frame τ b s).imp fun t h => by rw [h]
  | fseInit k τ => exact (fseInit_frame k τ s).imp fun t h => by rw [h]
  | fseNext k => exact (fseNext_frame k s).imp fun t h => by rw [h]
  | hufBuild => exact (hufBuild_frame s).imp fun t h => by rw [h]
  | winConfig => exact (winConfig_frame s).imp fun t h => by rw [h]
  | winPushi => exact (winPushi_frame s).imp fun t h => by rw [h]
  | winPushl => exact (winPushl_frame s).imp fun t h => by rw [h]
  | winPushr b => exact (winPushr_frame b s).imp fun t h => by rw [h]
  | winRepeat => exact (winRepeat_frame s).imp fun t h => by rw [h]
  | winRepgen => exact (winRepgen_frame s).imp fun t h => by rw [h]
  | winFlush => exact (winFlush_frame s).imp fun t h => by rw [h]
  | bbrRead | fbrRead | fseReadnc | fsePeek | hufReadw | hufDecode =>
    exact absurd (by simp [resultMnemonics, Instr.mnemonic]) hi

/-- `P` holds of the state written so far where a command raises a fault. -/
def Ending.OnRaise (P : State → Prop) : Ending → Prop
  | .raise _ s => P s
  | .done _ | .outside _ => True

theorem Ending.All.onRaise {P : State → Prop} {e : Ending} (h : e.All P) : e.OnRaise P := by
  cases e with
  | raise c s => exact h
  | done s => trivial
  | outside r => trivial

/-- The six commands of R27 write `RES` last, so a fault finds it as it was (60_exceptions.md R273). -/
theorem ending_raise_res (i : Instr) (s : State) : (ending i s).OnRaise fun t => t.res = s.res := by
  by_cases hi : i.mnemonic ∉ resultMnemonics
  · exact (ending_res_of_not_result i s hi).onRaise
  cases i with
  | bbrRead n =>
    simp only [ending, bbrRead]
    split
    · exact rfl
    · split
      · trivial
      · exact rfl
  | fbrRead n =>
    simp only [ending, fbrRead]
    split
    · exact rfl
    · split
      · trivial
      · exact rfl
  | fseReadnc τ maxAl maxSym =>
    simp only [ending, fseReadnc]
    split
    · exact rfl
    · split
      · exact rfl
      · split
        · simp only [Ending.OnRaise, State.setSlot_res, State.setFwd_res, invalidate_res]
        · trivial
  | fsePeek k =>
    simp only [ending, fsePeek]
    split
    · trivial
    · exact rfl
  | hufReadw =>
    simp only [ending, hufReadw]
    split
    · split
      · exact rfl
      · split
        · exact rfl
        · trivial
    · exact rfl
  | hufDecode =>
    simp only [ending, hufDecode]
    split
    · split
      · have h := hufStream_frame s.opArg0 s.opArg1 s.opArg2 s.opArg3 s
        split
        · rename_i he
          rw [he] at h
          simp only [Ending.OnRaise]
          rw [h]
        · trivial
      · exact rfl
    · exact rfl
  | _ => exact absurd (by simp [resultMnemonics, Instr.mnemonic]) hi

/-- Settles O11: the frames of the other commands leave `RES` out, and the six write it only where they complete. -/
theorem resWrittenOnlyByResultCommands : Obligations.ResWrittenOnlyByResultCommands := by
  unfold Obligations.ResWrittenOnlyByResultCommands
  intro i s t ht
  rw [exec_eq] at ht
  refine ⟨fun hi => ?_, fun hs hf => ?_⟩
  · exact (ending_res_of_not_result i s hi).finish (P := fun u => u.res = s.res) (fun u hu => hu)
      (fun c u hu => by simpa using hu) ht
  · rcases finish_next ht with ⟨u, he, rfl⟩ | ⟨c, u, he, rfl⟩
    · have h := ending_sameControl i s
      rw [he] at h
      have : u.fault = true := hf
      simp [h.fault, hs] at this
    · have h := ending_raise_res i s
      rw [he] at h
      exact (faultEntry_res c (encode i) u).trans h

end Sys2Proof.Machine

/-! ## The host's writes and polls (10_state.md R25, R26, R37; 20_memory.md R63 to R68; 44_control.md R254) -/

namespace Sys2Proof.Machine

/-! ### The map of R63, window by window -/

section
variable (c : Nat) {a : Nat}

theorem targetAt_reg {r : Reg} (ha : a < 0x100) (hr : registerMap.lookup a = some r) : targetAt c a = .reg r := by
  rw [targetAt, if_pos ha, hr]

theorem targetAt_ncount (hl : 0x140000 ≤ a) (hu : a < 0x142000) :
    targetAt c a = .ncount (Fin.ofNat 8 ((a - 0x140000) / 0x400)) ((a - 0x140000) % 0x400 / 4) := by
  simp (disch := omega) only [targetAt, Config.ibufBytes, Config.lbufBytes, Config.wEntries, Config.htEntries,
    if_neg, if_pos]

theorem targetAt_dt (hl : 0x150000 ≤ a) (hu : a < 0x154000) :
    targetAt c a = .dt (Fin.ofNat 8 ((a - 0x150000) / 0x800)) ((a - 0x150000) % 0x800 / 4) := by
  simp (disch := omega) only [targetAt, Config.ibufBytes, Config.lbufBytes, Config.wEntries, Config.htEntries,
    if_neg, if_pos]

theorem targetAt_w (hl : 0x160000 ≤ a) (hu : a < 0x160400) : targetAt c a = .w ((a - 0x160000) / 4) := by
  simp (disch := omega) only [targetAt, Config.ibufBytes, Config.lbufBytes, Config.wEntries, Config.htEntries,
    if_neg, if_pos]

theorem targetAt_ht (hl : 0x161000 ≤ a) (hu : a < 0x163000) : targetAt c a = .ht ((a - 0x161000) / 4) := by
  simp (disch := omega) only [targetAt, Config.ibufBytes, Config.lbufBytes, Config.wEntries, Config.htEntries,
    if_neg, if_pos]

theorem targetAt_wbuf (hl : 0x1000000 ≤ a) (hu : a < 0x1000000 + c) : targetAt c a = .wbuf (a - 0x1000000) := by
  simp (disch := omega) only [targetAt, Config.ibufBytes, Config.lbufBytes, Config.wEntries, Config.htEntries,
    if_neg, if_pos]

end

/-! ### A legal write by an idle block's host -/

/-- The step of a scheduled write that raises no fault is the effect of its target. -/
theorem step_host_write {s : State} {addr v : Word} {width : Width} {rest : List Event}
    (hs : s.schedule = .host (.write addr width v) :: rest)
    (hf : accessFaults s (.write addr width v) = false) :
    step s = .next (targetWrite width v { s with schedule := rest } (targetAt s.winCapMax addr.toNat)) := by
  have hf' : accessFaults { s with schedule := rest } (.write addr width v) = false := hf
  rw [step, hs]
  simp only [takeEvent, hostAccess]
  rcases memWrite_cases addr width v { s with schedule := rest } with ⟨h, -⟩ | ⟨-, h⟩
  · rw [hf'] at h
    cases h
  · rw [h]

/-- An idle block's host may make every legal access (R67). -/
theorem accessFaults_idle {s : State} {a : HostAccess} (hb : s.busy = false)
    (hl : accessLegal s a.addr a.width = true) : accessFaults s a = false := by
  simp [accessFaults, hb, hl]

/-- An aligned 32-bit access of anything mapped but the window is legal (R67). -/
theorem accessLegal_word {s : State} {addr : Word} {g : Target} (hg : targetAt s.winCapMax addr.toNat = g)
    (hm : g ≠ .unmapped) (hw : ∀ i, g ≠ .wbuf i) (ha : addr.toNat % 4 = 0) : accessLegal s addr .w32 = true := by
  cases g with
  | unmapped => exact absurd rfl hm
  | wbuf i => exact absurd rfl (hw i)
  | reg _ | ibuf _ | lbuf _ | ncount _ _ | dt _ _ | w _ | ht _ => simp [accessLegal, hg, ha]

/-- An access of the window is legal where it is a byte, or an aligned word with all its bytes (R67; log 12). -/
theorem accessLegal_wbuf {s : State} {addr : Word} {width : Width} {i : Nat}
    (hg : targetAt s.winCapMax addr.toNat = .wbuf i)
    (hw : width = .w32 → addr.toNat % 4 = 0 ∧ i + 3 < s.winCapMax) : accessLegal s addr width = true := by
  cases width with
  | w8 => simp [accessLegal, hg]
  | w32 => simp [accessLegal, hg, hw rfl]

/-- A 32-bit write of a register steps to the register's own effect. -/
theorem step_write_reg {s : State} {addr v : Word} {rest : List Event} {r : Reg}
    (hs : s.schedule = .host (.write addr .w32 v) :: rest) (hb : s.busy = false)
    (ht : targetAt s.winCapMax addr.toNat = .reg r) (ha : addr.toNat % 4 = 0) :
    step s = .next (r.write v { s with schedule := rest }) := by
  have hl : accessLegal s addr .w32 = true := accessLegal_word ht nofun nofun ha
  rw [step_host_write hs (accessFaults_idle hb hl), ht]
  rfl

/-- Settles O55: each address names its register or weight, whose write is the whole effect. -/
theorem weightWritesClearHufValid : Obligations.WeightWritesClearHufValid := by
  unfold Obligations.WeightWritesClearHufValid
  intro s v i rest hb hi
  refine ⟨fun hs => ?_, fun hs => ?_, fun hs => ?_, fun hs => ?_, fun hs => ?_, fun hs => ?_⟩
  · exact step_write_reg (r := .arg0) hs hb rfl rfl
  · exact step_write_reg (r := .arg1) hs hb rfl rfl
  · exact step_write_reg (r := .arg2) hs hb rfl rfl
  · exact step_write_reg (r := .arg3) hs hb rfl rfl
  · exact step_write_reg (r := .hufNw) hs hb rfl rfl
  · have ha : (BitVec.ofNat 32 (0x160000 + 4 * i)).toNat = 0x160000 + 4 * i := by
      rw [BitVec.toNat_ofNat, Nat.mod_eq_of_lt (by omega)]
    have ht : targetAt s.winCapMax (BitVec.ofNat 32 (0x160000 + 4 * i)).toNat = .w i := by
      rw [ha, targetAt_w _ (by omega) (by omega), Nat.add_sub_cancel_left, Nat.mul_div_cancel_left _ (by omega)]
    have hl : accessLegal s (BitVec.ofNat 32 (0x160000 + 4 * i)) .w32 = true :=
      accessLegal_word ht nofun nofun (by omega)
    refine ⟨s.w.put i (v.extractLsb' 0 4), ?_, Memory.get?_put_same _ _ _, fun j hj => Memory.get?_put_ne _ _ hj⟩
    rw [step_host_write hs (accessFaults_idle hb hl), ht]
    rfl

/-! ### Read-only targets (10_state.md R37; 20_memory.md R63) -/

/-- The targets that are mapped and ignore a write (R37, R63). -/
def Target.readOnly : Target → Bool
  | .reg r => !decide (r ∈ [.ctrl, .cmd, .arg0, .arg1, .arg2, .arg3, .hufNw])
  | .wbuf _ | .ncount _ _ | .dt _ _ | .ht _ => true
  | .ibuf _ | .lbuf _ | .w _ | .unmapped => false

theorem targetWrite_readOnly {g : Target} (hg : g.readOnly = true) (width : Width) (v : Word) (s : State) :
    targetWrite width v s g = s := by
  cases g with
  | reg r => cases r <;> first | rfl | cases hg
  | wbuf _ | ncount _ _ | dt _ _ | ht _ => rfl
  | ibuf _ | lbuf _ | w _ | unmapped => cases hg

/-- The addresses of the read-only registers (R37). -/
def readOnlyRegisters : List Nat :=
  [0x00, 0x04, 0x08, 0x0C, 0x28, 0x2C, 0x30, 0x34, 0x38, 0x40, 0x44, 0x48, 0x4C, 0x50, 0x54, 0x58, 0x5C, 0x60,
    0x64, 0x68, 0x6C, 0x70, 0x74, 0x78, 0x7C, 0x80, 0x90, 0x94, 0x98, 0xA0, 0xA4, 0xA8, 0xAC]

/-- Every read-only register's address is aligned and names it in the map of R37. -/
theorem registerMap_readOnly : ∀ a ∈ readOnlyRegisters, a < 0x100 ∧ a % 4 = 0 ∧
    ∃ r, registerMap.lookup a = some r ∧ (Target.reg r).readOnly = true := by
  have h : readOnlyRegisters.all fun a => decide (a < 0x100) && decide (a % 4 = 0) &&
      (registerMap.lookup a).any fun r => (Target.reg r).readOnly := by decide +kernel
  intro a ha
  have := List.all_eq_true.1 h a ha
  simp only [Bool.and_eq_true, decide_eq_true_eq, Option.any_eq_true] at this
  exact ⟨this.1.1, this.1.2, this.2⟩

/-- Each of the read-only addresses may be accessed, and names a read-only target. -/
theorem ReadOnlyAddress.target {s : State} {addr : Word} {width : Width}
    (h : ReadOnlyAddress s.winCapMax width addr.toNat) :
    accessLegal s addr width = true ∧ (targetAt s.winCapMax addr.toNat).readOnly = true := by
  obtain ⟨rfl, hreg | ⟨ha, hn | hd | hh | hw⟩⟩ | ⟨rfl, hw⟩ := h
  · obtain ⟨hlt, ha, r, hr, hro⟩ := registerMap_readOnly _ hreg
    have ht := targetAt_reg s.winCapMax hlt hr
    exact ⟨accessLegal_word ht nofun nofun ha, ht ▸ hro⟩
  · have ht := targetAt_ncount s.winCapMax hn.1 hn.2
    exact ⟨accessLegal_word ht nofun nofun ha, ht ▸ rfl⟩
  · have ht := targetAt_dt s.winCapMax hd.1 hd.2
    exact ⟨accessLegal_word ht nofun nofun ha, ht ▸ rfl⟩
  · have ht := targetAt_ht s.winCapMax hh.1 hh.2
    exact ⟨accessLegal_word ht nofun nofun ha, ht ▸ rfl⟩
  · have ht := targetAt_wbuf s.winCapMax hw.1 (by omega)
    exact ⟨accessLegal_wbuf ht fun _ => ⟨ha, by omega⟩, ht ▸ rfl⟩
  · have ht := targetAt_wbuf s.winCapMax hw.1 hw.2
    exact ⟨accessLegal_wbuf ht nofun, ht ▸ rfl⟩

/-- Settles O56: each such address is legal and names a target that ignores a write. -/
theorem readOnlyRegistersIgnoreWrites : Obligations.ReadOnlyRegistersIgnoreWrites := by
  unfold Obligations.ReadOnlyRegistersIgnoreWrites
  intro s addr v width rest hb ha hs
  obtain ⟨hl, ht⟩ := ha.target
  rw [step_host_write hs (accessFaults_idle hb hl), targetWrite_readOnly ht]

/-! ### The issue protocol (10_state.md R25; 44_control.md R254) -/

/-- Where nothing holds the block back, its last turn runs the pending command. -/
theorem lastTurn_runs {s : State} {w : Word} {i : Instr} (hp : s.pending = some w) (hf : s.fault = false)
    (hr : s.sinkReady = true) (hd : decode w = .ok i) : lastTurn s = exec i s := by
  have hw : ∀ t, s.waits t = false := fun t => by simp [State.waits, hr]
  have he : execute w s = exec i s := by simp only [execute, hd]
  simp only [lastTurn, hp, hf, he, hw, Bool.false_eq_true, if_false]
  cases exec i s <;> rfl

/-- The step of a scheduled poll is the poll. -/
theorem step_poll {s : State} {rest : List Event} (hs : s.schedule = .poll :: rest) :
    step s = pollTurn { s with schedule := rest } := by
  rw [step, hs]
  rfl

/-- Settles O50: a `CMD` write is a register write, and a poll is one of the three cases of `pollTurn_cases`. -/
theorem cmdWriteIssuesACommand : Obligations.CmdWriteIssuesACommand := by
  unfold Obligations.CmdWriteIssuesACommand
  intro s rest
  refine ⟨fun v hb hs => ?_, fun hs => ?_⟩
  · have h : step s = .next (writeCmd v { s with schedule := rest }) :=
      step_write_reg (r := .cmd) hs hb rfl rfl
    refine ⟨fun hf => ?_, fun hf => ?_⟩
    · rw [h]; simp [writeCmd, hf]
    · rw [h]; simp [writeCmd, hf]
  · rw [step_poll hs]
    have hc := pollTurn_cases { s with schedule := rest }
    refine ⟨fun hb => ?_, fun hb hosts others e hh he hr => ?_, fun hb hh w i hp hd hf hr => ?_⟩
    · rcases hc with ⟨-, h⟩ | ⟨h, -⟩ | ⟨h, -⟩
      · exact h
      · simp [hb] at h
      · simp [hb] at h
    · have hn : nextOther rest = some (e, hosts ++ others) := hr ▸ nextOther_append hh he
      rcases hc with ⟨h, -⟩ | ⟨-, e', rest', hn', h⟩ | ⟨-, hn', -⟩
      · simp [hb] at h
      · obtain ⟨rfl, rfl⟩ : e = e' ∧ hosts ++ others = rest' := by simpa [hn] using hn'
        exact h
      · simp [hn] at hn'
    · have hn : nextOther rest = none := nextOther_none hh
      rcases hc with ⟨h, -⟩ | ⟨-, e', rest', hn', -⟩ | ⟨-, -, h⟩
      · simp [hb] at h
      · simp [hn] at hn'
      · rw [h]
        exact lastTurn_runs hp hf hr hd

end Sys2Proof.Machine

/-! ## The invariant `State.Wf`, unit by unit (10_state.md R39) -/

namespace Sys2Proof.Machine

/-! ### What the invariant asks of one unit -/

/-- A backward reader whose range is in IBUF and whose cursor is not past its end (40_bitreaders.md R113). -/
def BackReader.Ok (r : BackReader) : Prop :=
  r.base.toNat + r.len.toNat ≤ Config.ibufBytes ∧ r.rem.toInt ≤ 8 * r.len.toNat

/-- A forward reader whose range is in IBUF, whose cursor is within it, and whose bit to unwind has been read. -/
def FwdReader.Ok (r : FwdReader) : Prop :=
  r.base.toNat + r.len.toNat ≤ Config.ibufBytes ∧ r.pos.toNat ≤ 8 * r.len.toNat ∧ (r.unw = true → 1 ≤ r.pos.toNat)

/-- A slot whose memories and fields are in their ranges, and which is usable where it is marked so. -/
structure Slot.Ok (t : Slot) : Prop where
  ncountWf : t.ncount.wf Config.ncountEntries = true
  dtWf : t.dt.wf Config.dtEntries = true
  al : t.al.toNat ≤ Config.fseMaxAl
  nsym : t.nsym.toNat ≤ 256
  counts : t.ncValid = true → t.countsOk
  table : t.valid = true → t.tableOk

/-- No state register is bound to slot `t`. -/
def State.Unbound (s : State) (t : Fin 8) : Prop := ∀ k, (s.fse k).bound = true → (s.fse k).bind ≠ t

theorem invalidate_unbound (s : State) (t : Fin 8) : (invalidate t s).Unbound t := by
  intro k
  rw [invalidate_fse]
  split_ifs with h
  · exact nofun
  · exact fun hb e => h ⟨hb, e⟩

namespace State.Wf

variable {s : State}

theorem slotOk (h : s.Wf) (t : Fin 8) : (s.slot t).Ok :=
  ⟨(h.slotMem t).1, (h.slotMem t).2, (h.slots t).1, (h.slots t).2.1, (h.slots t).2.2.1, (h.slots t).2.2.2⟩

/-! ### Updates of one unit -/

/-- The invariant does not depend on the operands, `RES`, `HUF_NW`, `OUT` or what is outside the block. -/
theorem free (h : s.Wf) {a0 a1 a2 a3 : Word} {res : DWord} {nw : BitVec 8} {out : List Byte} {draws : Nat}
    {schedule : List Event} {ready : Bool} {reads : List Word} :
    State.Wf { s with
      arg0 := a0, arg1 := a1, arg2 := a2, arg3 := a3, res := res, hufNw := nw, out := out, draws := draws
      schedule := schedule, sinkReady := ready, hostReads := reads } :=
  { h with }

theorem setBack (h : s.Wf) {c : BackCursor} (hc : c.reader.Ok) : (s.setBack c).Wf := { h with back := hc }

theorem setFwd (h : s.Wf) {c : FwdCursor} (hc : c.reader.Ok) : (s.setFwd c).Wf := { h with fwd := hc }

theorem setLbuf (h : s.Wf) {m : Memory Byte} (hm : m.wf Config.lbufBytes = true) : State.Wf { s with lbuf := m } :=
  { h with lbuf := hm }

theorem setIbuf (h : s.Wf) {m : Memory Byte} (hm : m.wf Config.ibufBytes = true) : State.Wf { s with ibuf := m } :=
  { h with ibuf := hm }

theorem setW (h : s.Wf) {m : Memory (BitVec 4)} (hm : m.wf Config.wEntries = true) : State.Wf { s with w := m } :=
  { h with w := hm }

theorem clearHufValid (h : s.Wf) : State.Wf { s with hufValid := false } :=
  { h with huf := ⟨h.huf.1, h.huf.2.1, nofun⟩ }

/-- A new table that serves every index may be marked valid (42_huffman.md R197). -/
theorem setHt (h : s.Wf) {m : Memory HtEntry} {mb : BitVec 4} {nsym : BitVec 9} (hm : m.wf Config.htEntries = true)
    (hmb : mb.toNat ≤ Config.hufMaxBits) (hn : nsym.toNat ≤ 256) (hs : TableServes m mb.toNat) :
    State.Wf { s with ht := m, hufMaxbits := mb, hufNsym := nsym, hufValid := true } :=
  { h with ht := hm, huf := ⟨hmb, hn, fun _ => hs⟩ }

/-- A slot may be rewritten while no state is bound to it. -/
theorem setSlot (h : s.Wf) {t : Fin 8} {v : Slot} (hu : s.Unbound t) (hv : v.Ok) : (s.setSlot t v).Wf :=
  have hs : ∀ u, ((s.setSlot t v).slot u).Ok := fun u => by
    rw [State.slot_setSlot]
    split_ifs
    · exact hv
    · exact h.slotOk u
  { h with
    slotMem := fun u => ⟨(hs u).ncountWf, (hs u).dtWf⟩
    slots := fun u => ⟨(hs u).al, (hs u).nsym, (hs u).counts, (hs u).table⟩
    bound := fun k hk => by
      rw [State.fse_setSlot] at hk ⊢
      rw [State.slot_setSlot, if_neg (hu k hk)]
      exact h.bound k hk }

/-- A state register may be bound to a usable slot, in a state of its table. -/
theorem setFse (h : s.Wf) {k : Fin 4} {v : FseState} (hv : (s.slot v.bind).valid = true)
    (hx : v.state.toNat < 2 ^ (s.slot v.bind).al.toNat) : (s.setFse k v).Wf :=
  { h with
    bound := fun l hl => by
      rw [State.fse_setFse] at hl ⊢
      split_ifs at hl ⊢
      · exact ⟨hv, hx⟩
      · exact h.bound l hl }

protected theorem invalidate (h : s.Wf) (t : Fin 8) : (invalidate t s).Wf :=
  have hs : ∀ u, ((invalidate t s).slot u).Ok := fun u => by
    rw [invalidate_slot]
    split_ifs
    · exact { h.slotOk t with table := nofun }
    · exact h.slotOk u
  { h with
    slotMem := fun u => ⟨(hs u).ncountWf, (hs u).dtWf⟩
    slots := fun u => ⟨(hs u).al, (hs u).nsym, (hs u).counts, (hs u).table⟩
    bound := fun k hk => by
      have hb := invalidate_unbound s t k hk
      rw [invalidate_slot, if_neg hb]
      rw [invalidate_fse] at hk hb ⊢
      split_ifs at hk hb ⊢
      exact h.bound k hk }

/-! ### The ends of a command, and the resets -/

protected theorem complete (h : s.Wf) : (complete s).Wf :=
  { h with busy := rfl, held := fun hf => ⟨rfl, (h.held hf).2⟩ }

protected theorem faultEntry (h : s.Wf) (c : FaultCode) (info : Word) : (faultEntry c info s).Wf := by
  cases hf : s.fault with
  | true => exact faultEntry_held hf c info ▸ h.complete
  | false =>
    rw [faultEntry_eq_faulted hf]
    refine { h with busy := rfl, held := fun _ => ⟨rfl, ?_⟩, clear := nofun }
    show if c.isProgramming = true then c.number ∈ programmingCodes else c.number ∈ corruptionCodes
    rcases c.number_mem with ⟨hc, hm⟩ | ⟨hc, hm⟩ <;> simpa [hc] using hm

end State.Wf

/-- A slot with nothing marked usable. -/
theorem Slot.reset_ok {m : Memory (BitVec 16)} {d : Memory DtEntry} (hm : m.wf Config.ncountEntries = true)
    (hd : d.wf Config.dtEntries = true) : Slot.Ok { Slot.reset with ncount := m, dt := d } :=
  ⟨hm, hd, Nat.zero_le _, Nat.zero_le _, nofun, nofun⟩

theorem BackReader.reset_ok : BackReader.reset.Ok := by unfold BackReader.Ok; decide

theorem FwdReader.reset_ok : FwdReader.reset.Ok := by unfold FwdReader.Ok; decide

@[simp] theorem softReset_slot (s : State) (t : Fin 8) :
    (softReset s).slot t = { Slot.reset with ncount := (s.slot t).ncount, dt := (s.slot t).dt } := by
  simp only [State.slot, softReset, Fin.getElem_fin, Vector.getElem_map]

@[simp] theorem softReset_fse (s : State) (k : Fin 4) : (softReset s).fse k = FseState.reset := by
  simp only [State.fse, softReset_states, Fin.getElem_fin, Vector.getElem_replicate]

/-- The memories are in canonical form and within their sizes: what the invariant asks where nothing is marked
usable. -/
structure State.MemoriesOk (s : State) : Prop where
  winCapMax : 1 ≤ s.winCapMax ∧ s.winCapMax ≤ Config.winCapMaxBound
  ibuf : s.ibuf.wf Config.ibufBytes = true
  lbuf : s.lbuf.wf Config.lbufBytes = true
  wbuf : s.wbuf.wf s.winCapMax = true
  w : s.w.wf Config.wEntries = true
  ht : s.ht.wf Config.htEntries = true
  slotMem : ∀ t, (s.slot t).ncount.wf Config.ncountEntries = true ∧ (s.slot t).dt.wf Config.dtEntries = true

theorem State.Wf.memoriesOk {s : State} (h : s.Wf) : s.MemoriesOk :=
  ⟨h.winCapMax, h.ibuf, h.lbuf, h.wbuf, h.w, h.ht, h.slotMem⟩

/-- A soft reset keeps the memories as they are and marks nothing usable (70_reset_and_hazards.md R301). -/
theorem State.MemoriesOk.softReset_wf {s : State} (h : s.MemoriesOk) : (softReset s).Wf :=
  have hs : ∀ u, ((softReset s).slot u).Ok := fun u => by
    rw [softReset_slot]
    exact Slot.reset_ok (h.slotMem u).1 (h.slotMem u).2
  { winCapMax := h.winCapMax
    ibuf := h.ibuf
    lbuf := h.lbuf
    wbuf := h.wbuf
    w := h.w
    ht := h.ht
    slotMem := fun u => ⟨(hs u).ncountWf, (hs u).dtWf⟩
    busy := rfl
    held := nofun
    clear := fun _ => ⟨rfl, rfl, rfl⟩
    back := BackReader.reset_ok
    fwd := FwdReader.reset_ok
    slots := fun u => ⟨(hs u).al, (hs u).nsym, (hs u).counts, (hs u).table⟩
    bound := fun k hk => by
      rw [softReset_fse] at hk
      cases hk
    huf := ⟨Nat.zero_le _, Nat.zero_le _, nofun⟩
    window := ⟨le_rfl, nofun⟩ }

/-- Power-on is a soft reset of itself, with memories that hold nothing. -/
theorem softReset_reset : softReset State.reset = State.reset := by
  simp only [softReset, State.reset, Vector.map_replicate, Slot.reset]

theorem State.reset_memoriesOk : State.reset.MemoriesOk where
  winCapMax := by decide
  ibuf := rfl
  lbuf := rfl
  wbuf := rfl
  w := rfl
  ht := rfl
  slotMem t := by
    have ht : State.reset.slot t = Slot.reset := by
      simp only [State.slot, State.reset, Fin.getElem_fin, Vector.getElem_replicate]
    rw [ht]
    exact ⟨rfl, rfl⟩

/-- Settles O59: power-on is a soft reset with empty memories. -/
theorem resetIsWellFormed : Obligations.ResetIsWellFormed := by
  unfold Obligations.ResetIsWellFormed
  rw [← softReset_reset]
  exact State.reset_memoriesOk.softReset_wf

end Sys2Proof.Machine

/-! ## The bit readers keep their ranges (40_bitreaders.md) -/

namespace Sys2Proof.Machine

/-! ### The readers -/

/-- A legal stretch of IBUF fits the registers of a reader (00_scope.md R9). -/
theorem toNat_ofNat_of_inIbuf {base len : Nat} (h : inIbuf base len = true) :
    (BitVec.ofNat 32 base).toNat = base ∧ (BitVec.ofNat 32 len).toNat = len := by
  rw [inIbuf_iff] at h
  constructor <;> rw [BitVec.toNat_ofNat, Nat.mod_eq_of_lt (by omega)]

/-- A small cursor reads as a signed number as it is. -/
theorem toInt_ofNat_of_lt {n : Nat} (h : n < 2 ^ 31) : (BitVec.ofNat 32 n).toInt = n := by
  have hn : (BitVec.ofNat 32 n).toNat = n := by rw [BitVec.toNat_ofNat, Nat.mod_eq_of_lt (by omega)]
  rw [BitVec.toInt_eq_toNat_of_lt (by omega), hn]

theorem BackReader.opened_ok {base len : Nat} (h : inIbuf base len = true) : (BackReader.opened base len).Ok := by
  obtain ⟨hb, hl⟩ := toNat_ofNat_of_inIbuf h
  rw [inIbuf_iff] at h
  refine ⟨?_, ?_⟩
  · show (BitVec.ofNat 32 base).toNat + (BitVec.ofNat 32 len).toNat ≤ 131072
    rw [hb, hl]
    exact h
  · show (BitVec.ofNat 32 (8 * len)).toInt ≤ 8 * ((BitVec.ofNat 32 len).toNat : Int)
    rw [hl, toInt_ofNat_of_lt (by omega)]
    push_cast
    omega

theorem FwdReader.opened_ok {base len : Nat} (h : inIbuf base len = true) : (FwdReader.opened base len).Ok := by
  obtain ⟨hb, hl⟩ := toNat_ofNat_of_inIbuf h
  rw [inIbuf_iff] at h
  refine ⟨?_, Nat.zero_le _, nofun⟩
  show (BitVec.ofNat 32 base).toNat + (BitVec.ofNat 32 len).toNat ≤ 131072
  rw [hb, hl]
  exact h

theorem BackCursor.read_ok {c : BackCursor} (h : c.reader.Ok) (ibuf : Memory Byte) (n : Nat) :
    (c.read ibuf n).All fun d => d.reader.Ok := by
  rcases c.read_cases ibuf n with ⟨-, hr⟩ | ⟨hlo, v, d, -, -, hr⟩ <;> rw [hr]
  · exact h
  · refine ⟨h.1, ?_⟩
    have hrem := c.reader.rem.toInt_lt
    show (BitVec.ofInt 32 (c.reader.rem.toInt - n)).toInt ≤ 8 * (c.reader.len.toNat : Int)
    rw [BitVec.toInt_ofInt_eq_self (by norm_num) hlo (by omega)]
    have := h.2
    omega

theorem BackCursor.skipPad_ok {c : BackCursor} (h : c.reader.Ok) (ibuf : Memory Byte) :
    (c.skipPad ibuf).All fun d => d.reader.Ok := by
  rcases c.skipPad_cases ibuf with ⟨-, hr⟩ | ⟨hlen, b, d, -, ⟨-, hr⟩ | ⟨hb, hr⟩⟩ <;> rw [hr]
  · exact h
  · exact h
  · refine ⟨h.1, ?_⟩
    have hmax : c.reader.base.toNat + c.reader.len.toNat ≤ 131072 := h.1
    have hpos : c.reader.len.toNat ≠ 0 := fun e => hlen (BitVec.eq_of_toNat_eq (by simpa using e))
    have hbit : hsb b.toNat < 8 := (Nat.log2_lt fun e => hb (BitVec.eq_of_toNat_eq (by simpa using e))).2 b.isLt
    show (BitVec.ofNat 32 (8 * (c.reader.len.toNat - 1) + hsb b.toNat)).toInt ≤ 8 * (c.reader.len.toNat : Int)
    rw [toInt_ofNat_of_lt (by omega)]
    omega

theorem FwdCursor.read_ok {c : FwdCursor} (h : c.reader.Ok) (ibuf : Memory Byte) (n : Nat) :
    (c.read ibuf n).All fun d => d.reader.Ok := by
  rcases c.read_cases ibuf n with ⟨-, hr⟩ | ⟨hle, v, d, -, -, hr⟩ <;> rw [hr]
  · exact h
  · obtain ⟨hmax, -, hunw⟩ := h
    have hmax' : c.reader.base.toNat + c.reader.len.toNat ≤ 131072 := hmax
    have hpos : (BitVec.ofNat 32 (c.reader.pos.toNat + n)).toNat = c.reader.pos.toNat + n := by
      rw [BitVec.toNat_ofNat, Nat.mod_eq_of_lt (by omega)]
    refine ⟨hmax, ?_, fun hu => ?_⟩
    · show (BitVec.ofNat 32 (c.reader.pos.toNat + n)).toNat ≤ _
      rw [hpos]
      exact hle
    · show 1 ≤ (BitVec.ofNat 32 (c.reader.pos.toNat + n)).toNat
      rw [hpos]
      rcases Bool.or_eq_true_iff.1 hu with hu | hu
      · exact (hunw hu).trans (Nat.le_add_right _ _)
      · exact (of_decide_eq_true hu).trans (Nat.le_add_left _ _)

theorem FwdCursor.unwind_ok {c : FwdCursor} (h : c.reader.Ok) : c.unwind.All fun d => d.reader.Ok := by
  rcases c.unwind_cases with ⟨hu, hr⟩ | ⟨-, hr⟩ <;> rw [hr]
  · obtain ⟨hmax, hle, hunw⟩ := h
    refine ⟨hmax, ?_, nofun⟩
    show (c.reader.pos - 1#32).toNat ≤ _
    have hpos := hunw hu
    rw [BitVec.toNat_sub_of_le (by simpa [BitVec.le_def] using hpos)]
    exact (Nat.sub_le _ _).trans hle
  · exact h

/-! ### The commands -/

section
variable {s : State} (h : s.Wf)
include h

theorem bbrInit_wf : (bbrInit s).All State.Wf := by
  unfold bbrInit
  split
  · exact h.setBack (c := ⟨_, s.draws⟩) (BackReader.opened_ok ‹_›)
  · exact h

theorem bbrSkippad_wf : (bbrSkippad s).All State.Wf := by
  have hr := BackCursor.skipPad_ok (c := s.back) h.back s.ibuf
  unfold bbrSkippad
  split <;> rename_i he <;> rw [he] at hr <;> exact h.setBack hr

theorem bbrRead_wf (n : BitVec 16) : (bbrRead n s).All State.Wf := by
  have hr := BackCursor.read_ok (c := s.back) h.back s.ibuf n.toNat
  unfold bbrRead
  split
  · exact h
  · split <;> rename_i he <;> rw [he] at hr
    · exact (h.setBack hr).free
    · exact h.setBack hr

theorem fbrInit_wf : (fbrInit s).All State.Wf := by
  unfold fbrInit
  split
  · exact h.setFwd (c := ⟨_, s.draws⟩) (FwdReader.opened_ok ‹_›)
  · exact h

theorem fbrRead_wf (n : BitVec 16) : (fbrRead n s).All State.Wf := by
  have hr := FwdCursor.read_ok (c := s.fwd) h.fwd s.ibuf n.toNat
  unfold fbrRead
  split
  · exact h
  · split <;> rename_i he <;> rw [he] at hr
    · exact (h.setFwd hr).free
    · exact h.setFwd hr

theorem fbrUnwind_wf : (fbrUnwind s).All State.Wf := by
  have hr := FwdCursor.unwind_ok (c := s.fwd) h.fwd
  unfold fbrUnwind
  split <;> rename_i he <;> rw [he] at hr <;> exact h.setFwd hr

end

end Sys2Proof.Machine

/-! ## The description parser leaves a distribution (41_fse.md R141 to R144) -/

namespace Sys2Proof.Machine

/-! ### What every read and unwind keeps, the parser keeps -/

section
variable {P : FwdCursor → Prop} {ibuf : Memory Byte}
  (hread : ∀ n c, P c → (c.read ibuf n).All P) (hunwind : ∀ c, P c → c.unwind.All P)
include hread

theorem readZeroRun_keeps (maxSym fuel sym : Nat) {c : FwdCursor} (h : P c) :
    (readZeroRun ibuf maxSym fuel sym c).All P := by
  induction fuel generalizing sym c with
  | zero => exact h
  | succ fuel ih =>
    have hr := hread 2 c h
    unfold readZeroRun
    split <;> rename_i he <;> rw [he] at hr
    · exact hr
    · simp only []
      split
      · exact hr
      · split
        · exact ih _ hr
        · exact hr

include hunwind

theorem readCountField_keeps (l : NcLoop) {c : FwdCursor} (h : P c) : (readCountField ibuf l c).All P := by
  have hr := hread l.nbBits c h
  unfold readCountField
  simp only []
  split <;> rename_i he <;> rw [he] at hr
  · exact hr
  · split
    · have hu := hunwind _ hr
      split <;> rename_i hue <;> rw [hue] at hu <;> exact hu
    · split <;> exact hr

theorem readCounts_keeps (maxSym fuel : Nat) (l : NcLoop) {c : FwdCursor} (h : P c) :
    (readCounts ibuf maxSym fuel l c).All P := by
  induction fuel generalizing l c with
  | zero => unfold readCounts; split <;> exact h
  | succ fuel ih =>
    have hf := readCountField_keeps hread hunwind l h
    unfold readCounts
    split
    · split
      · exact h
      · split <;> rename_i he <;> rw [he] at hf
        · exact hf
        · simp only []
          split
          · have hz := readZeroRun_keeps hread maxSym (maxSym + 1) (l.counts ++ [‹Int› - 1]).length hf
            split <;> rename_i hze <;> rw [hze] at hz
            · exact hz
            · exact ih _ hz
          · exact ih _ hf
    · exact h

end

/-- The variables at the start of the loop of R141, for an accuracy log of `al`. -/
abbrev NcLoop.start (al : Nat) : NcLoop :=
  { remaining := 2 ^ al + 1, threshold := 2 ^ al, nbBits := al + 1, counts := [] }

/-- A description that starts at a byte leaves the reader at a byte, within its range (R141). -/
theorem readNCount_ok {c : FwdCursor} (h : c.reader.Ok) (ha : c.reader.pos.toNat % 8 = 0) (ibuf : Memory Byte)
    (maxSym maxAl : Nat) : (readNCount ibuf maxSym maxAl c).All fun d => d.reader.Ok := by
  have hr := FwdCursor.read_ok h ibuf 4
  have hm := c.read_moved ibuf 4
  unfold readNCount
  simp only []
  split <;> rename_i he <;> rw [he] at hr hm
  · exact hr
  · split
    · exact hr
    · rename_i v c₁ _
      have hk := readCounts_keeps (fun n _ hc => FwdCursor.read_ok hc ibuf n) (fun _ hc => FwdCursor.unwind_ok hc)
        maxSym (maxSym + 1) (NcLoop.start (v + 5)) hr
      have hm' := readCounts_moved ibuf maxSym (maxSym + 1) (NcLoop.start (v + 5)) c₁
      split <;> rename_i hc <;> rw [hc] at hk hm'
      · exact hk
      · rename_i counts c₂
        have hlen : c₂.reader.len = c.reader.len := (hm.trans hm').2
        obtain ⟨hmax, hle, -⟩ := hk
        have hmax' : c₂.reader.base.toNat + c₂.reader.len.toNat ≤ 131072 := hmax
        have hle₀ : c.reader.pos.toNat ≤ 8 * c₂.reader.len.toNat := hlen ▸ h.2.1
        have hn : ceilDiv (c₂.reader.pos.toNat - c.reader.pos.toNat) 8 ≤
            c₂.reader.len.toNat - c.reader.pos.toNat / 8 := (ceilDiv_le_iff (by omega)).2 (by omega)
        refine ⟨hmax, ?_, nofun⟩
        show (BitVec.ofNat 32 _).toNat ≤ 8 * c₂.reader.len.toNat
        rw [BitVec.toNat_ofNat, Nat.mod_eq_of_lt (by omega)]
        omega

/-! ### The loop's variables -/

/-- `narrow` finds the power of two that `remaining` lies above, and its width. -/
theorem narrow_spec {r : Int} (hr : 1 ≤ r) (k : Nat) (hlt : r < 2 ^ (k + 1)) :
    ∃ j, narrow r (k + 1) (2 ^ k) = (j + 1, 2 ^ j) ∧ 2 ^ j ≤ r ∧ r < 2 ^ (j + 1) := by
  induction k with
  | zero => exact ⟨0, by simp [narrow, show ¬ r < 1 by omega], by simpa using hr, hlt⟩
  | succ k ih =>
    by_cases h : r < 2 ^ (k + 1)
    · obtain ⟨j, hj, hb⟩ := ih h
      refine ⟨j, ?_, hb⟩
      rw [narrow, if_pos (by exact_mod_cast h), ← hj, Nat.shiftRight_one, pow_succ, Nat.mul_div_cancel _ (by omega)]
    · exact ⟨k + 1, by rw [narrow, if_neg (by exact_mod_cast h)], by exact_mod_cast not_lt.1 h, hlt⟩

/-- The invariant of the loop of R141: a field is `nbBits` wide, `threshold` is the power of two below `remaining`, and
the counts so far leave `remaining − 1` of `2^al` to describe. -/
structure NcLoop.Ok (al maxSym : Nat) (l : NcLoop) : Prop where
  width : ∃ k, l.nbBits = k + 1 ∧ l.threshold = 2 ^ k ∧ 2 ^ k ≤ l.remaining ∧ l.remaining < 2 ^ (k + 1)
  counts : ∀ c ∈ l.counts, -1 ≤ c
  sum : ((l.counts.map Int.natAbs).sum : Int) + l.remaining = 2 ^ al + 1
  length : l.counts.length ≤ maxSym + 1

theorem NcLoop.Ok.one_le {al maxSym : Nat} {l : NcLoop} (h : l.Ok al maxSym) : 1 ≤ l.remaining := by
  obtain ⟨k, -, -, hk, -⟩ := h.width
  have : (1 : Int) ≤ 2 ^ k := one_le_pow₀ (by norm_num)
  omega

theorem NcLoop.start_ok {al : Nat} (maxSym : Nat) (hal : 1 ≤ al) : (NcLoop.start al).Ok al maxSym := by
  have hone : (1 : Int) < 2 ^ al := one_lt_pow₀ (by norm_num) (by omega)
  refine ⟨⟨al, rfl, rfl, ?_, ?_⟩, nofun, ?_, Nat.zero_le _⟩
  · show (2 : Int) ^ al ≤ 2 ^ al + 1
    omega
  · show (2 : Int) ^ al + 1 < 2 ^ (al + 1)
    rw [pow_succ]
    omega
  · simp

/-- A probability field never takes more than is left: `|proba| ≤ remaining − 1` (R141). -/
theorem readCountField_bounds {ibuf : Memory Byte} {al maxSym : Nat} {l : NcLoop} {c d : FwdCursor} {count : Int}
    (hl : l.Ok al maxSym) (hr : 1 < l.remaining) (h : readCountField ibuf l c = .ok count d) :
    0 ≤ count ∧ |count - 1| ≤ l.remaining - 1 := by
  obtain ⟨k, hnb, ht, hlo, hhi⟩ := hl.width
  have hpos : 1 ≤ 2 ^ k := Nat.one_le_two_pow
  have hlo' : ((2 ^ k : Nat) : Int) ≤ l.remaining := by exact_mod_cast hlo
  have hhi' : l.remaining < 2 * ((2 ^ k : Nat) : Int) := by
    push_cast
    rw [pow_succ] at hhi
    omega
  rw [abs_le]
  rcases c.read_cases ibuf l.nbBits with ⟨-, he⟩ | ⟨-, v, draws, hv, -, he⟩
  · simp only [readCountField, he] at h
    cases h
  · rw [hnb, pow_succ] at hv
    have hmod : v &&& (2 ^ k - 1) = v % 2 ^ k := Nat.and_two_pow_sub_one_eq_mod v k
    have hlt : v % 2 ^ k < 2 ^ k := Nat.mod_lt _ (by omega)
    simp only [readCountField, he, ht, hmod] at h
    generalize hT : 2 ^ k = T at *
    split_ifs at h with h1 h2
    · split at h
      · cases h
      · cases h
        omega
    · cases h
      have hge : v % T = v - T := by rw [Nat.mod_eq_sub_mod h2, Nat.mod_eq_of_lt (by omega)]
      omega
    · cases h
      rw [Nat.mod_eq_of_lt (by omega)] at h1
      omega

/-- A zero-probability run ends at a legal symbol, at or after its start. -/
theorem readZeroRun_bounds {ibuf : Memory Byte} {maxSym fuel sym sym' : Nat} {c d : FwdCursor}
    (h : readZeroRun ibuf maxSym fuel sym c = .ok sym' d) : sym ≤ sym' ∧ sym' ≤ maxSym := by
  induction fuel generalizing sym c with
  | zero => cases h
  | succ fuel ih =>
    unfold readZeroRun at h
    split at h
    · cases h
    · simp only [] at h
      split_ifs at h
      · have := ih h
        omega
      · cases h
        omega

/-- One more count keeps the loop's invariant, and so do the zeros of its run. -/
theorem NcLoop.Ok.next {al maxSym z : Nat} {l : NcLoop} {p : Int} (hl : l.Ok al maxSym) (hp : -1 ≤ p)
    (habs : |p| ≤ l.remaining - 1) (hlen : l.counts.length + 1 + z ≤ maxSym + 1) :
    NcLoop.Ok al maxSym
      { remaining := l.remaining - |p|
        threshold := (narrow (l.remaining - |p|) l.nbBits l.threshold).2
        nbBits := (narrow (l.remaining - |p|) l.nbBits l.threshold).1
        counts := l.counts ++ [p] ++ List.replicate z 0 } := by
  obtain ⟨k, hnb, ht, -, hhi⟩ := hl.width
  have habs0 := abs_nonneg p
  obtain ⟨j, hj, hlo, hhi'⟩ := narrow_spec (r := l.remaining - |p|) (by omega) k (by omega)
  refine ⟨⟨j, ?_, ?_, hlo, hhi'⟩, ?_, ?_, ?_⟩
  · rw [hnb, ht, hj]
  · rw [hnb, ht, hj]
  · intro c hc
    simp only [List.mem_append, List.mem_singleton, List.mem_replicate] at hc
    rcases hc with (hc | rfl) | ⟨-, rfl⟩
    · exact hl.counts c hc
    · exact hp
    · omega
  · have hs := hl.sum
    have hz : ((List.replicate z (0 : Int)).map Int.natAbs).sum = 0 := by simp
    simp only [List.map_append, List.sum_append, hz, List.map_cons, List.map_nil, List.sum_cons, List.sum_nil]
    rw [add_zero, add_zero, Nat.cast_add, Int.natCast_natAbs]
    omega
  · simp only [List.length_append, List.length_cons, List.length_nil, List.length_replicate]
    omega

/-- The main loop of R141 ends with a distribution of at most `maxSym + 1` symbols. -/
theorem readCounts_distribution {ibuf : Memory Byte} {al maxSym fuel : Nat} {l : NcLoop} {c d : FwdCursor}
    {counts : List Int} (hl : l.Ok al maxSym) (h : readCounts ibuf maxSym fuel l c = .ok counts d) :
    IsDistribution al counts ∧ counts.length ≤ maxSym + 1 := by
  have hend : ∀ {l : NcLoop}, l.Ok al maxSym → ¬ l.remaining > 1 →
      IsDistribution al l.counts ∧ l.counts.length ≤ maxSym + 1 := fun {l} hl hr => by
    have hone := hl.one_le
    have hs := hl.sum
    have hsum : ((l.counts.map Int.natAbs).sum : Int) = ((2 ^ al : Nat) : Int) := by
      rw [Nat.cast_pow, Nat.cast_ofNat]
      omega
    exact ⟨⟨hl.counts, by exact_mod_cast hsum⟩, hl.length⟩
  induction fuel generalizing l c with
  | zero =>
    unfold readCounts at h
    split_ifs at h with hr
    cases h
    exact hend hl hr
  | succ fuel ih =>
    unfold readCounts at h
    split_ifs at h with hr hs
    · split at h
      · cases h
      · rename_i count c₁ hf
        obtain ⟨hc0, habs⟩ := readCountField_bounds hl hr hf
        have hsym : l.counts.length ≤ maxSym := not_lt.1 hs
        simp only [] at h
        split_ifs at h with hp
        · split at h
          · cases h
          · rename_i sym c₂ hz
            obtain ⟨hlo, hhi⟩ := readZeroRun_bounds hz
            simp only [List.length_append, List.length_cons, List.length_nil] at hlo h
            exact ih (hl.next (z := sym - (l.counts.length + 1)) (by omega) habs (by omega)) h
        · exact ih (by simpa using hl.next (z := 0) (by omega) habs (by omega)) h
    · cases h
      exact hend hl hr

/-- What a completed description holds (R141): a legal accuracy log, and a distribution of it. -/
theorem readNCount_distribution {ibuf : Memory Byte} {maxSym maxAl : Nat} {c c' : FwdCursor} {d : Description}
    (h : readNCount ibuf maxSym maxAl c = .ok d c') :
    5 ≤ d.al ∧ d.al ≤ maxAl ∧ IsDistribution d.al d.counts ∧ d.counts.length ≤ maxSym + 1 := by
  unfold readNCount at h
  simp only [] at h
  split at h
  · cases h
  · rename_i v c₁ _
    split_ifs at h with hal
    split at h
    · cases h
    · rename_i counts c₂ hc
      cases h
      obtain ⟨hd, hlen⟩ := readCounts_distribution (NcLoop.start_ok maxSym (Nat.le_add_left 1 _)) hc
      exact ⟨Nat.le_add_left _ _, not_lt.1 hal, hd, hlen⟩

end Sys2Proof.Machine

/-! ## The FSE commands keep the invariant (41_fse.md R140 to R157) -/

namespace Sys2Proof.Machine

/-- A table of a legal accuracy log fits `DT` (20_memory.md R61). -/
theorem two_pow_le_of_al {al : Nat} (h : al ≤ 9) : 2 ^ al ≤ 512 := Nat.pow_le_pow_right (by norm_num) h

/-! ### A table that is built stays in itself (R145, R157) -/

/-- The transitions of the entry are states of a table of accuracy log `al`. -/
def DtEntry.StaysIn (al : Nat) (e : DtEntry) : Prop := e.baseline.toNat + 2 ^ e.nbBits.toNat ≤ 2 ^ al

/-- A counter below twice the table's size gives transitions within the table. -/
theorem dtEntry_staysIn {al x : Nat} (sym : Nat) (hal : al ≤ 9) (hx : x < 2 ^ (al + 1)) :
    (dtEntry al sym x).StaysIn al := by
  have hle : hsb x ≤ al := by
    rcases Nat.eq_zero_or_pos x with rfl | hpos
    · exact Nat.zero_le _
    · exact Nat.lt_add_one_iff.1 ((Nat.log2_lt (by omega)).2 hx)
  have hsize := two_pow_le_of_al hal
  have hone : 1 ≤ 2 ^ (al - hsb x) := Nat.one_le_two_pow
  have hmul : (x + 1) * 2 ^ (al - hsb x) ≤ 2 * 2 ^ al := by
    calc (x + 1) * 2 ^ (al - hsb x) ≤ 2 ^ (hsb x + 1) * 2 ^ (al - hsb x) := Nat.mul_le_mul_right _ (lt_hsb x)
      _ = 2 * 2 ^ al := by rw [← pow_add, show hsb x + 1 + (al - hsb x) = al + 1 by omega, pow_succ, mul_comm]
  rw [add_mul, one_mul] at hmul
  have hnb : (BitVec.ofNat 4 (al - hsb x)).toNat = al - hsb x := by
    rw [BitVec.toNat_ofNat, Nat.mod_eq_of_lt (by omega)]
  simp only [DtEntry.StaysIn, dtEntry, hnb, Nat.shiftLeft_eq]
  rw [BitVec.toNat_ofNat, Nat.mod_eq_of_lt (by omega)]
  have hpow : 2 ^ (al - hsb x) ≤ 2 ^ al := Nat.pow_le_pow_right (by norm_num) (by omega)
  omega

/-- The counters start at most at the table's size and rise by one per state, so no entry leaves the table. -/
theorem dtEntries_staysIn {al : Nat} (hal : al ≤ 9) (syms next : List Nat) (hlen : syms.length ≤ 2 ^ (al + 1))
    (hn : ∀ x ∈ next, x + syms.length ≤ 2 ^ (al + 1)) : ∀ e ∈ dtEntries al syms next, e.StaysIn al := by
  induction syms generalizing next with
  | nil => exact nofun
  | cons sym syms ih =>
    rw [List.length_cons] at hlen hn
    have hx : next.getD sym 0 + (syms.length + 1) ≤ 2 ^ (al + 1) := by
      rw [List.getD_eq_getElem?_getD]
      cases h : next[sym]? with
      | none => rwa [Option.getD_none, Nat.zero_add]
      | some x => exact hn x (List.mem_of_getElem? h)
    simp only [dtEntries, List.mem_cons, forall_eq_or_imp]
    refine ⟨dtEntry_staysIn sym hal (by omega), ih _ (by omega) fun x hm => ?_⟩
    rcases List.mem_or_eq_of_mem_set hm with hm | rfl
    · exact (Nat.add_le_add_left (Nat.le_succ _) x).trans (hn x hm)
    · omega

/-- No count of a distribution is more than its sum. -/
theorem IsDistribution.natAbs_le {al : Nat} {counts : List Int} (h : IsDistribution al counts) :
    ∀ c ∈ counts, c.natAbs ≤ 2 ^ al := fun _ hc =>
  h.2 ▸ List.single_le_sum (fun _ _ => Nat.zero_le _) _ (List.mem_map_of_mem hc)

/-- Every entry of a table built from a distribution stays in the table (R157). -/
theorem buildTable_staysIn {al : Nat} {counts : List Int} {es : List DtEntry} (hal : al ≤ 9)
    (hd : IsDistribution al counts) (h : buildTable al counts = some es) : ∀ e ∈ es, e.StaysIn al := by
  have hlen := buildTable_length h
  unfold buildTable at h
  simp only [] at h
  split at h
  · cases h
    rw [length_dtEntries] at hlen
    refine dtEntries_staysIn hal _ _ (by rw [hlen, pow_succ]; omega) fun x hx => ?_
    obtain ⟨c, hc, rfl⟩ := List.mem_map.1 hx
    have hle := hd.natAbs_le c hc
    have hone : 1 ≤ 2 ^ al := Nat.one_le_two_pow
    rw [hlen, pow_succ]
    split_ifs <;> omega
  · cases h

/-! ### The image of a distribution in `NCOUNT` (R141, R150) -/

theorem countImage_wf (counts : List Int) : (countImage counts).wf Config.ncountEntries = true :=
  Memory.ofList_wf (by simp)

theorem get?_countImage (counts : List Int) {i : Nat} (hi : i < 256) :
    (countImage counts).get? i = some (BitVec.ofInt 16 (counts.getD i 0)) := by
  simp [countImage, Config.ncountEntries, hi]

/-- A slot whose `NCOUNT` is the image of small counts holds those counts. -/
theorem Slot.counts_countImage {t : Slot} {counts : List Int} (hn : t.nsym = BitVec.ofNat 9 counts.length)
    (hc : t.ncount = countImage counts) (hlen : counts.length ≤ 256) (hsmall : ∀ c ∈ counts, c.natAbs ≤ 512) :
    t.counts = counts := by
  have hlen' : (BitVec.ofNat 9 counts.length).toNat = counts.length := by
    rw [BitVec.toNat_ofNat, Nat.mod_eq_of_lt (by omega)]
  apply List.ext_getElem
  · simp [Slot.counts, hn, hlen']
  · intro i h₁ h₂
    have hc' := hsmall _ (List.getElem_mem h₂)
    simp only [Slot.counts, List.getElem_map, List.getElem_range, hc, get?_countImage counts (show i < 256 by omega),
      Option.getD_some, List.getD_eq_getElem _ _ h₂]
    exact BitVec.toInt_ofInt_eq_self (by norm_num) (by omega) (by omega)

/-- `t` with the distribution `counts` of accuracy log `al` in `NCOUNT` (R141, R150). -/
def Slot.load (t : Slot) (al : Nat) (counts : List Int) : Slot :=
  { t with
    ncValid := true, al := BitVec.ofNat 4 al, nsym := BitVec.ofNat 9 counts.length, ncount := countImage counts }

section
variable {t : Slot} {al : Nat} {counts : List Int} (hhi : al ≤ 9)
include hhi

theorem Slot.load_al : (t.load al counts).al.toNat = al := by
  show (BitVec.ofNat 4 al).toNat = al
  rw [BitVec.toNat_ofNat, Nat.mod_eq_of_lt (by omega)]

/-- A slot into which a distribution of a legal accuracy log is loaded holds it. -/
theorem Slot.load_countsOk (hlo : 5 ≤ al) (hd : IsDistribution al counts) (hlen : counts.length ≤ 256) :
    (t.load al counts).countsOk := by
  have hsize := two_pow_le_of_al hhi
  have hc : (t.load al counts).counts = counts :=
    Slot.counts_countImage rfl rfl hlen fun c hc => (hd.natAbs_le c hc).trans hsize
  unfold Slot.countsOk
  rw [Slot.load_al hhi, hc]
  refine ⟨hlo, hhi, fun i hi => ?_, hd⟩
  show ((countImage counts).get? i).isSome = true
  rw [get?_countImage counts hi]
  rfl

theorem Slot.Ok.load (ht : t.Ok) (hv : t.valid = false) (hlo : 5 ≤ al) (hd : IsDistribution al counts)
    (hlen : counts.length ≤ 256) : (t.load al counts).Ok where
  ncountWf := countImage_wf counts
  dtWf := ht.dtWf
  al := (Slot.load_al hhi).trans_le hhi
  nsym := by
    show (BitVec.ofNat 9 counts.length).toNat ≤ 256
    rw [BitVec.toNat_ofNat, Nat.mod_eq_of_lt (by omega)]
    exact hlen
  counts := fun _ => Slot.load_countsOk hhi hlo hd hlen
  table := fun h => absurd (hv.symm.trans h) Bool.false_ne_true

end

/-- The rows of R149 are distributions of their accuracy logs. -/
theorem predefined_distribution (which : Nat) : 5 ≤ (predefined which).al ∧ (predefined which).al ≤ 9 ∧
    IsDistribution (predefined which).al (predefined which).counts ∧ (predefined which).counts.length ≤ 256 := by
  have hrow : ∀ p ∈ [predefinedLl, predefinedMl, predefinedOf], 5 ≤ p.al ∧ p.al ≤ 9 ∧
      IsDistribution p.al p.counts ∧ p.counts.length ≤ 256 := by
    unfold IsDistribution
    decide +kernel
  apply hrow
  unfold predefined
  split <;> simp

/-! ### The commands -/

/-- The entries written by `BuildTable` make the slot's table usable. -/
theorem Slot.tableOk_putList {t : Slot} {m : Memory DtEntry} {es : List DtEntry} (hd : t.dt = m.putList 0 es)
    (hlen : es.length = 2 ^ t.al.toNat) (hes : ∀ e ∈ es, e.StaysIn t.al.toNat) : t.tableOk := by
  intro u hu
  have hu' : u < es.length := hlen ▸ hu
  refine ⟨es[u], ?_, hes _ (List.getElem_mem hu')⟩
  rw [hd, Memory.get?_putList, if_pos (by omega)]
  exact List.getElem?_eq_getElem hu'

/-- What a property of every result says of a given one. -/
theorem Res.All.of_eq {σ α : Type} {P : σ → Prop} {r r' : Res σ α} (he : r = r') (h : r.All P) : r'.All P := he ▸ h

/-- Slot `t` with its table and its counts out of use, as `FSE.READNC` leaves it before it parses (R140, R144). -/
def State.retire (s : State) (t : Fin 8) : State :=
  (invalidate t s).setSlot t { (invalidate t s).slot t with ncValid := false }

section
variable {s : State} (h : s.Wf)
include h

/-- `BuildTable` over a distribution keeps the invariant, done or not (R148). -/
theorem buildSlot_wf {t : Fin 8} {counts : List Int} (hu : s.Unbound t)
    (hd : IsDistribution (s.slot t).al.toNat counts) : (buildSlot t counts s).All State.Wf := by
  have ht := h.slotOk t
  unfold buildSlot
  simp only []
  split
  · exact h
  · rename_i es he
    have hlen := buildTable_length he
    have hfit : 0 + es.length ≤ Config.dtEntries := by
      rw [hlen, Nat.zero_add]
      exact two_pow_le_of_al ht.al
    exact h.setSlot hu
      { ht with
        dtWf := Memory.putList_wf es ht.dtWf hfit
        table := fun _ => Slot.tableOk_putList rfl hlen (buildTable_staysIn ht.al hd he) }

/-- A distribution may be loaded into a slot that has been invalidated. -/
theorem State.Wf.load {t : Fin 8} {al : Nat} {counts : List Int} (hhi : al ≤ 9) (hlo : 5 ≤ al)
    (hd : IsDistribution al counts) (hlen : counts.length ≤ 256) :
    ((invalidate t s).setSlot t (((invalidate t s).slot t).load al counts)).Wf :=
  (h.invalidate t).setSlot (invalidate_unbound s t)
    (((h.invalidate t).slotOk t).load hhi (by rw [invalidate_slot, if_pos rfl]) hlo hd hlen)

theorem fseBuild_wf (t : Fin 8) : (fseBuild t s).All State.Wf := by
  unfold fseBuild
  split
  · rename_i hv
    obtain ⟨hlo, hhi, hall, hd⟩ := (h.slotOk t).counts hv
    have hslot : (invalidate t s).slot t = { s.slot t with valid := false } := by rw [invalidate_slot, if_pos rfl]
    have hread : (s.slot t).ncount.readCounts (s.slot t).nsym.toNat 0 s.draws = ((s.slot t).counts, s.draws) := by
      have hn : (s.slot t).nsym.toNat ≤ 256 := (h.slotOk t).nsym
      rw [Memory.readCounts_listed fun j _ hj => hall j (lt_of_lt_of_le hj (by rw [Nat.zero_add]; exact hn)),
        Slot.counts, List.range_eq_range']
    simp only [hslot, invalidate_draws, hread]
    refine buildSlot_wf (h.invalidate t).free (invalidate_unbound s t) ?_
    show IsDistribution ((invalidate t s).slot t).al.toNat _
    rw [hslot]
    exact hd
  · exact h

theorem fsePredef_wf (t : Fin 8) (which : BitVec 16) : (fsePredef t which s).All State.Wf := by
  unfold fsePredef
  split
  · exact h
  · obtain ⟨hlo, hhi, hd, hlen⟩ := predefined_distribution which.toNat
    have hl := h.load (t := t) hhi hlo hd hlen
    refine buildSlot_wf hl (invalidate_unbound s t) ?_
    rw [State.slot_setSlot, if_pos rfl, Slot.load_al hhi]
    exact hd

theorem fseRle_wf (t : Fin 8) (b : Byte) : (fseRle t b s).All State.Wf := by
  have ht := (h.invalidate t).slotOk t
  have hb := b.isLt
  refine (h.invalidate t).setSlot (invalidate_unbound s t)
    { ncountWf := ht.ncountWf
      dtWf := Memory.put_wf _ ht.dtWf (by decide)
      al := Nat.zero_le _
      nsym := ?_
      counts := nofun
      table := fun _ u hu => ?_ }
  · show (BitVec.ofNat 9 (b.toNat + 1)).toNat ≤ 256
    rw [BitVec.toNat_ofNat, Nat.mod_eq_of_lt (by omega)]
    omega
  · obtain rfl : u = 0 := by simpa using hu
    exact ⟨_, Memory.get?_put_same _ _ _, le_rfl⟩

omit h in
theorem State.retire_slot (s : State) (t : Fin 8) :
    ((s.retire t).slot t).valid = false ∧ ((s.retire t).slot t).ncValid = false := by
  rw [State.retire, State.slot_setSlot, if_pos rfl, invalidate_slot, if_pos rfl]
  exact ⟨rfl, rfl⟩

theorem State.Wf.retire (t : Fin 8) : (s.retire t).Wf :=
  (h.invalidate t).setSlot (invalidate_unbound s t) { (h.invalidate t).slotOk t with counts := nofun }

theorem fseReadnc_wf (t : Fin 8) (maxAl : BitVec 4) (maxSym : BitVec 8) :
    (fseReadnc t maxAl maxSym s).All State.Wf := by
  unfold fseReadnc
  split
  · exact h
  split
  · exact h
  rename_i hmax halign
  have hu := invalidate_unbound s t
  have hw := h.retire t
  have ht := hw.slotOk t
  have hr := readNCount_ok hw.fwd (not_not.1 halign) s.ibuf maxSym.toNat maxAl.toNat (c := (s.retire t).fwd)
  simp only []
  split <;> rename_i he <;> replace hr := Res.All.of_eq he hr
  · refine (hw.setFwd hr).setSlot hu { ht with ncountWf := Memory.forget_wf _ _ ht.ncountWf, counts := fun hn => ?_ }
    exact absurd ((State.retire_slot s t).2.symm.trans hn) Bool.false_ne_true
  · rename_i d c
    obtain ⟨hlo, hhi, hd, hlen⟩ := readNCount_distribution he
    have hsym := maxSym.isLt
    exact ((hw.setFwd hr).setSlot hu
      (ht.load (hhi.trans (not_lt.1 hmax)) (State.retire_slot s t).1 hlo hd (by omega))).free

theorem fseInit_wf (k : Fin 4) (t : Fin 8) : (fseInit k t s).All State.Wf := by
  unfold fseInit
  split
  · rename_i hv
    have hsize := two_pow_le_of_al (h.slotOk t).al
    have hr := BackCursor.read_ok (c := s.back) h.back s.ibuf (s.slot t).al.toNat
    rcases s.back.read_cases s.ibuf (s.slot t).al.toNat with ⟨-, he⟩ | ⟨-, v, d, hlt, -, he⟩
    · rw [he] at hr ⊢
      exact h.setBack hr
    · rw [he] at hr ⊢
      refine (h.setBack hr).setFse hv ?_
      show (BitVec.ofNat 9 v).toNat < 2 ^ (s.slot t).al.toNat
      rwa [BitVec.toNat_ofNat, Nat.mod_eq_of_lt (by omega)]
  · exact h

theorem fsePeek_wf (k : Fin 4) : (fsePeek k s).All State.Wf := by
  unfold fsePeek
  split
  · exact h.free
  · exact h

/-- The entry of a bound state register is written, and its transitions are states of the slot's table (R157). -/
theorem State.Wf.fseEntry {k : Fin 4} (hk : (s.fse k).bound = true) :
    ∃ e, s.fseEntry k = (e, s.draws) ∧ e.StaysIn (s.slot (s.fse k).bind).al.toNat := by
  obtain ⟨hv, hlt⟩ := h.bound k hk
  obtain ⟨e, he, hs⟩ := (h.slotOk _).table hv _ hlt
  exact ⟨e, Memory.readDt_listed he _, hs⟩

theorem fseNext_wf (k : Fin 4) : (fseNext k s).All State.Wf := by
  unfold fseNext
  split
  · rename_i hk
    obtain ⟨hv, -⟩ := h.bound k hk
    obtain ⟨e, he, hs⟩ := State.Wf.fseEntry h hk
    have hsize := two_pow_le_of_al (h.slotOk (s.fse k).bind).al
    have hr := BackCursor.read_ok (c := s.back) h.back s.ibuf e.nbBits.toNat
    simp only [he]
    rcases s.back.read_cases s.ibuf e.nbBits.toNat with ⟨-, hread⟩ | ⟨-, v, d, hlt, -, hread⟩
    · rw [hread] at hr ⊢
      exact h.setBack hr
    · rw [hread] at hr ⊢
      refine (h.setBack hr).setFse hv ?_
      show (BitVec.ofNat 9 (e.baseline.toNat + v)).toNat < 2 ^ (s.slot (s.fse k).bind).al.toNat
      unfold DtEntry.StaysIn at hs
      rw [BitVec.toNat_ofNat, Nat.mod_eq_of_lt (by omega)]
      omega
  · exact h

end

end Sys2Proof.Machine

/-! ## The Huffman commands keep the invariant (42_huffman.md R195 to R201) -/

namespace Sys2Proof.Machine

/-! ### The entries of the table (R196) -/

/-- Every entry of a weight class has the code length of its weight. -/
theorem nbBits_of_mem_classEntries {mb w : Nat} {ws : List Nat} {sym : Nat} {e : HtEntry}
    (h : e ∈ classEntries mb w ws sym) : e.nbBits = BitVec.ofNat 4 (mb + 1 - w) := by
  induction ws generalizing sym with
  | nil => cases h
  | cons x ws ih =>
    unfold classEntries at h
    split_ifs at h
    · rcases List.mem_append.1 h with h | h
      · rw [List.eq_of_mem_replicate h]
      · exact ih h
    · exact ih h

/-- Every entry of the classes `w .. w + n − 1` has a code length between 1 and `mb`. -/
theorem nbBits_of_mem_htEntriesFrom {mb : Nat} (hmb : mb ≤ 11) {ws : List Nat} {n w : Nat} (hw : 1 ≤ w)
    (hn : w + n ≤ mb + 1) {e : HtEntry} (h : e ∈ htEntriesFrom mb ws n w) :
    1 ≤ e.nbBits.toNat ∧ e.nbBits.toNat ≤ mb := by
  induction n generalizing w with
  | zero => cases h
  | succ n ih =>
    rcases List.mem_append.1 h with h | h
    · rw [nbBits_of_mem_classEntries h, BitVec.toNat_ofNat, Nat.mod_eq_of_lt (by omega)]
      omega
    · exact ih (by omega) (by omega) h

/-- A weight's symbols have a share each (R191). -/
theorem count_mul_share (ws : List Nat) {w : Nat} (hw : 1 ≤ w) :
    ws.count w * 2 ^ (w - 1) = (ws.map fun x => if x = w then weightShare x else 0).sum := by
  induction ws with
  | nil => simp
  | cons x ws ih =>
    rw [List.map_cons, List.sum_cons, ← ih, List.count_cons]
    by_cases hx : x = w
    · subst hx
      simp only [weightShare, BEq.rfl, if_true, if_neg (show x ≠ 0 by omega)]
      ring
    · simp [hx]

/-- The classes `w .. w + n − 1` have as many entries as the shares of their weights. -/
theorem length_htEntriesFrom (mb : Nat) (ws : List Nat) (n w : Nat) (hw : 1 ≤ w) :
    (htEntriesFrom mb ws n w).length = (ws.map fun x => if w ≤ x ∧ x < w + n then weightShare x else 0).sum := by
  induction n generalizing w with
  | zero => simp [htEntriesFrom, show ∀ x, ¬ (w ≤ x ∧ x < w) by omega]
  | succ n ih =>
    rw [htEntriesFrom, List.length_append, length_classEntries, ih _ (by omega), count_mul_share ws hw,
      ← List.sum_map_add]
    congr 1
    refine List.map_congr_left fun x _ => ?_
    split_ifs <;> omega

/-- The table of weights up to `mb` has as many entries as the sum of their shares. -/
theorem length_htImage {mb : Nat} {ws : List Nat} (h : ∀ x ∈ ws, x ≤ mb) : (htImage mb ws).length = weightSum ws := by
  rw [htImage, length_htEntriesFrom mb ws mb 1 le_rfl, weightSum]
  congr 1
  refine List.map_congr_left fun x hx => ?_
  have := h x hx
  rcases Nat.eq_zero_or_pos x with rfl | hpos
  · rfl
  · rw [if_pos (by omega)]

/-- No weight's share is more than the sum (R196). -/
theorem weightShare_le_weightSum {ws : List Nat} {x : Nat} (h : x ∈ ws) : weightShare x ≤ weightSum ws :=
  List.single_le_sum (fun _ _ => Nat.zero_le _) _ (List.mem_map_of_mem h)

/-- A weight is at most one more than the highest bit of the sum. -/
theorem weight_le_hsb_weightSum {ws : List Nat} {x : Nat} (h : x ∈ ws) : x ≤ hsb (weightSum ws) + 1 := by
  rcases Nat.eq_zero_or_pos x with rfl | hpos
  · exact Nat.zero_le _
  · have hs := weightShare_le_weightSum h
    rw [weightShare, if_neg (by omega)] at hs
    have := (Nat.pow_lt_pow_iff_right (by norm_num : 1 < 2)).1 (hs.trans_lt (lt_hsb (weightSum ws)))
    omega

/-- The share of the implicit weight is what is left of the table (R196). -/
theorem weightSum_implicit {ws : List Nat} {rest : Nat} (h : isPow2 rest = true) :
    weightSum (ws ++ [hsb rest + 1]) = weightSum ws + rest := by
  rw [isPow2_iff] at h
  simp [weightSum, weightShare, ← h]

/-- The weights, the implicit one last, fill a table of `hsb(sum) + 1` bits (R196). -/
theorem length_htImage_implicit {ws : List Nat} (hsum : weightSum ws ≠ 0)
    (hpow : isPow2 (2 ^ (hsb (weightSum ws) + 1) - weightSum ws) = true) :
    (htImage (hsb (weightSum ws) + 1) (ws ++ [hsb (2 ^ (hsb (weightSum ws) + 1) - weightSum ws) + 1])).length =
      2 ^ (hsb (weightSum ws) + 1) := by
  have hlo := hsb_le hsum
  have hhi := lt_hsb (weightSum ws)
  rw [length_htImage, weightSum_implicit hpow]
  · omega
  · intro x hx
    rcases List.mem_append.1 hx with hx | hx
    · exact weight_le_hsb_weightSum hx
    · obtain rfl := List.mem_singleton.1 hx
      have hrest := (isPow2_iff _).1 hpow
      rw [pow_succ] at hrest hhi ⊢
      have := (Nat.pow_le_pow_iff_right (by norm_num : 1 < 2)).1
        (show 2 ^ hsb (2 ^ hsb (weightSum ws) * 2 - weightSum ws) ≤ 2 ^ hsb (weightSum ws) by omega)
      omega

/-- `HT` serves every index where the image of good weights has been written from 0. -/
theorem tableServes_putList {mb : Nat} (hmb : mb ≤ 11) {ws : List Nat} (ht : Memory HtEntry)
    (hlen : (htImage mb ws).length = 2 ^ mb) : TableServes (ht.putList 0 (htImage mb ws)) mb := by
  intro u hu
  have hu' : u < (htImage mb ws).length := hlen ▸ hu
  refine ⟨(htImage mb ws)[u], ?_,
    nbBits_of_mem_htEntriesFrom hmb le_rfl (Nat.add_comm _ _).le (List.getElem_mem hu')⟩
  rw [Memory.get?_putList, if_pos (by omega)]
  exact List.getElem?_eq_getElem hu'

/-! ### The commands -/

section
variable {s : State} (h : s.Wf)
include h

theorem hufReadw_wf : (hufReadw s).All State.Wf := by
  unfold hufReadw
  simp only []
  split
  · split
    · exact h.clearHufValid
    · split
      · exact h.clearHufValid.free
      · exact (h.clearHufValid.setW (weightImage_wf _)).free
  · exact h

/-- `BuildHuf` on at most 255 weights keeps the invariant, done or not (R196). -/
theorem buildHuf_wf {ws : List Nat} (hlen : ws.length ≤ 255) : (buildHuf ws s).All State.Wf := by
  have hput : ∀ v, (s.w.put ws.length v).wf Config.wEntries = true := fun v =>
    Memory.put_wf v h.w (Nat.lt_add_one_of_le hlen)
  unfold buildHuf
  simp only []
  split_ifs with h0 hbits hsum hmb hpow hones
  · exact h
  · exact h
  · exact h
  · exact h
  · exact h.setW (hput _)
  · have hmb' : hsb (weightSum ws) + 1 ≤ 11 := not_lt.1 hmb
    have hlen' := length_htImage_implicit hsum hpow
    have hsize : 2 ^ (hsb (weightSum ws) + 1) ≤ 2 ^ 11 := Nat.pow_le_pow_right (by norm_num) hmb'
    have hmbv : (BitVec.ofNat 4 (hsb (weightSum ws) + 1)).toNat = hsb (weightSum ws) + 1 := by
      rw [BitVec.toNat_ofNat, Nat.mod_eq_of_lt (by omega)]
    refine (h.setW (hput _)).setHt (Memory.putList_wf _ h.ht ?_) (hmbv.trans_le hmb') ?_ ?_
    · rw [hlen', Nat.zero_add]
      exact hsize
    · rw [BitVec.toNat_ofNat, Nat.mod_eq_of_lt (by omega)]
      omega
    · rw [hmbv]
      exact tableServes_putList hmb' s.ht hlen'
  · exact h

theorem hufBuild_wf : (hufBuild s).All State.Wf := by
  have hn := s.hufNw.isLt
  exact buildHuf_wf h.clearHufValid.free (by rw [Memory.length_readWeights]; omega)

theorem decodeSymbol_wf (mb idx : Nat) : (decodeSymbol mb idx s).All State.Wf := by
  have hr := BackCursor.read_ok (c := State.back { s with draws := (s.ht.readHt idx s.draws).2 }) h.back s.ibuf
    (s.ht.readHt idx s.draws).1.nbBits.toNat
  unfold decodeSymbol
  simp only []
  split <;> rename_i he <;> replace hr := Res.All.of_eq he hr
  · exact h.setBack hr
  · exact h.setBack hr

omit h in
theorem hufLoop_wf (mb : Nat) {dst limit : Nat} (hl : inLbuf dst limit = true) {fuel count : Nat} (idx : Nat)
    (hf : count + fuel ≤ limit) {s : State} (h : s.Wf) : (hufLoop mb dst fuel idx count s).All State.Wf := by
  rw [inLbuf_iff] at hl
  induction fuel generalizing idx count s with
  | zero => unfold hufLoop; split <;> exact h
  | succ fuel ih =>
    have hd := decodeSymbol_wf h mb idx
    unfold hufLoop
    split
    · split <;> rename_i he <;> replace hd := Res.All.of_eq he hd
      · exact hd
      · refine ih _ (by omega) (State.Wf.setLbuf hd (Memory.put_wf _ hd.lbuf ?_))
        show dst + count < 131072
        omega
    · exact h

theorem hufStream_wf {base len dst limit : Nat} (hi : inIbuf base len = true) (hl : inLbuf dst limit = true) :
    (hufStream base len dst limit s).All State.Wf := by
  have ho : (State.setBack s ⟨BackReader.opened base len, s.draws⟩).Wf := h.setBack (BackReader.opened_ok hi)
  have hp := BackCursor.skipPad_ok (c := ⟨BackReader.opened base len, s.draws⟩) ho.back s.ibuf
  unfold hufStream
  simp only []
  split <;> rename_i he <;> replace hp := Res.All.of_eq he hp
  · exact ho.setBack hp
  · have hr := BackCursor.read_ok hp s.ibuf s.hufMaxbits.toNat
    split <;> rename_i hre <;> replace hr := Res.All.of_eq hre hr
    · exact ho.setBack hr
    · have hloop := hufLoop_wf s.hufMaxbits.toNat hl (fuel := limit) (count := 0) ‹Nat› (by omega) (ho.setBack hr)
      split <;> rename_i hle <;> replace hloop := Res.All.of_eq hle hloop
      · exact hloop
      · split <;> exact hloop

theorem hufDecode_wf : (hufDecode s).All State.Wf := by
  unfold hufDecode
  split
  · split
    · rename_i hc
      obtain ⟨hi, hl⟩ := Bool.and_eq_true_iff.1 hc
      have hs := hufStream_wf h hi hl
      split <;> rename_i he <;> replace hs := Res.All.of_eq he hs
      · exact State.Wf.setLbuf hs (Memory.forget_wf _ _ hs.lbuf)
      · exact State.Wf.free hs
    · exact h
  · exact h

end

end Sys2Proof.Machine

/-! ## The window commands, the host and the step keep the invariant (43_window.md R231, R232; 20_memory.md) -/

namespace Sys2Proof.Machine

/-! ### The window (43_window.md R231 to R240) -/

section
variable {s : State} (h : s.Wf)
include h

/-- The eviction of a full window's oldest byte leaves room for one (R232). -/
theorem evict_wf (hw : s.wconf = true) (hfull : s.wtotal.toNat = s.wflushed.toNat + s.winCap.toNat) :
    (evict s).Wf ∧ (evict s).wtotal.toNat - (evict s).wflushed.toNat < s.winCap.toNat := by
  obtain ⟨hcap, hmax, -, hres⟩ := h.window.2 hw
  have hlt := s.wtotal.isLt
  have hf : (s.wflushed + 1).toNat = s.wflushed.toNat + 1 := by
    rw [BitVec.toNat_add, Nat.mod_eq_of_lt (by simp; omega)]
    rfl
  have hroom : s.wtotal.toNat - (s.wflushed + 1).toNat < s.winCap.toNat := by omega
  refine ⟨{ h with window := ⟨?_, fun _ => ⟨hcap, hmax, hroom.le, hres⟩⟩ }, hroom⟩
  show (s.wflushed + 1).toNat ≤ s.wtotal.toNat
  omega

/-- A byte stored in a window with room is resident (R232). -/
theorem storeByte_wf (hw : s.wconf = true) (hroom : s.wtotal.toNat - s.wflushed.toNat < s.winCap.toNat)
    (hn : s.wtotal.toNat + 1 < 2 ^ 64) (b : Byte) :
    State.Wf { s with wbuf := s.wbuf.put (s.wtotal.toNat % s.winCap.toNat) b, wtotal := s.wtotal + 1 } := by
  obtain ⟨hle, hconf⟩ := h.window
  obtain ⟨hcap, hmax, -, hres⟩ := hconf hw
  have ht : (s.wtotal + 1).toNat = s.wtotal.toNat + 1 := by
    rw [BitVec.toNat_add, Nat.mod_eq_of_lt (by simpa using hn)]
    rfl
  have hslot : s.wtotal.toNat % s.winCap.toNat < s.winCap.toNat := Nat.mod_lt _ hcap
  refine
    { h with
      wbuf := Memory.put_wf b h.wbuf (hslot.trans_le hmax)
      window := ⟨?_, fun _ => ⟨hcap, hmax, ?_, fun i hi hr => ?_⟩⟩ }
  · show s.wflushed.toNat ≤ (s.wtotal + 1).toNat
    omega
  · show (s.wtotal + 1).toNat - s.wflushed.toNat ≤ s.winCap.toNat
    omega
  · change i < (s.wtotal + 1).toNat at hi
    change (s.wtotal + 1).toNat ≤ i + s.winCap.toNat at hr
    show ((s.wbuf.put (s.wtotal.toNat % s.winCap.toNat) b).get? (i % s.winCap.toNat)).isSome = true
    rw [Memory.get?_put]
    split_ifs with hi'
    · rfl
    · have hne : i ≠ s.wtotal.toNat := fun e => hi' (by rw [e])
      exact hres i (by omega) (by omega)

theorem appendByte_wf (hw : s.wconf = true) (hn : s.wtotal.toNat + 1 < 2 ^ 64) (b : Byte) : (appendByte b s).Wf := by
  obtain ⟨hle, hconf⟩ := h.window
  obtain ⟨-, -, hcap, -⟩ := hconf hw
  unfold appendByte
  split
  · obtain ⟨he, hroom⟩ := evict_wf h hw ‹_›
    exact storeByte_wf he hw hroom hn b
  · exact storeByte_wf h hw (by omega) hn b

omit h in
/-- A loop of appends that keeps `WTOTAL` in its range keeps the invariant, if its source touches only the draws. -/
theorem appendLoop_wf {source : Nat → State → Byte × State}
    (hs : ∀ j s, (source j s).2 = { s with draws := (source j s).2.draws }) (n j : Nat) {s : State} (h : s.Wf)
    (hw : s.wconf = true) (hn : s.wtotal.toNat + n < 2 ^ 64) : (appendLoop source n j s).Wf := by
  induction n generalizing j s with
  | zero => exact h
  | succ n ih =>
    have hsrc : (source j s).2.Wf := hs j s ▸ h.free
    have hw' : (source j s).2.wconf = true := by rw [hs, hw]
    have ht : (source j s).2.wtotal = s.wtotal := by rw [hs]
    have hwin := appendByte_window (source j s).1 (source j s).2
    have htot : (appendByte (source j s).1 (source j s).2).wtotal.toNat = s.wtotal.toNat + 1 := by
      rw [hwin.1, ht, BitVec.toNat_add, Nat.mod_eq_of_lt (by simp; omega)]
      rfl
    refine ih (j + 1) (appendByte_wf hsrc hw' (by rw [ht]; omega) _) ?_ (by rw [htot]; omega)
    rw [appendByte_frame (source j s).1 (source j s).2]
    exact hw'

theorem appendAll_wf {source : Nat → State → Byte × State}
    (hs : ∀ j s, (source j s).2 = { s with draws := (source j s).2.draws }) (n : Nat) (hw : s.wconf = true) :
    (appendAll source n s).All State.Wf := by
  rcases appendAll_cases source n s with ⟨hn, he⟩ | ⟨-, he⟩ <;> rw [he]
  · exact appendLoop_wf hs n 0 h hw hn
  · trivial

theorem winConfig_wf : (winConfig s).All State.Wf := by
  unfold winConfig
  simp only []
  split_ifs with hcap hflushed
  · exact h
  · exact h
  · obtain ⟨hpos, hmax⟩ := not_or.1 hcap
    have hempty : ∀ i < 0, 0 ≤ i + s.arg0.toNat → (s.wbuf.get? (i % s.arg0.toNat)).isSome := nofun
    exact { h with
      window := ⟨le_rfl, fun _ => ⟨Nat.pos_of_ne_zero hpos, not_lt.1 hmax, Nat.zero_le _, hempty⟩⟩ }

theorem winPushi_wf : (winPushi s).All State.Wf := by
  unfold winPushi
  split_ifs with hw
  · exact appendAll_wf h (ibufSource_draws _) _ hw
  · exact h
  · exact h

theorem winPushl_wf : (winPushl s).All State.Wf := by
  unfold winPushl
  split_ifs with hw
  · exact appendAll_wf h (lbufSource_draws _) _ hw
  · exact h
  · exact h

theorem winPushr_wf (b : Byte) : (winPushr b s).All State.Wf := by
  unfold winPushr
  split_ifs with hw
  · exact appendAll_wf h (byteSource_draws b) _ hw
  · exact h

theorem winRepeat_wf : (winRepeat s).All State.Wf := by
  unfold winRepeat
  simp only []
  split_ifs with hw
  · exact h
  · exact h
  · exact h
  · exact appendAll_wf h (repeatSource_draws _ _) _ hw
  · exact h

theorem winRepgen_wf : (winRepgen s).All State.Wf := by
  unfold winRepgen
  simp only []
  split_ifs with hw
  · exact h
  · exact h
  · exact appendAll_wf h (repgenSource_draws _) _ hw
  · exact h

theorem winFlush_wf : (winFlush s).All State.Wf := by
  unfold winFlush
  split
  · simp only [Ending.All]
    rw [flushLoop_frame]
    refine { h with window := ⟨le_rfl, fun hw => ?_⟩ }
    obtain ⟨hcap, hmax, -, hres⟩ := h.window.2 hw
    exact ⟨hcap, hmax, (Nat.sub_self _).trans_le (Nat.zero_le _), hres⟩
  · exact h

/-! ### The block's step -/

/-- No command breaks the invariant, whether it is done or raises a fault. -/
theorem ending_wf (i : Instr) : (ending i s).All State.Wf := by
  cases i with
  | nop => exact h
  | bbrInit => exact bbrInit_wf h
  | bbrSkippad => exact bbrSkippad_wf h
  | bbrRead n => exact bbrRead_wf h n
  | fbrInit => exact fbrInit_wf h
  | fbrRead n => exact fbrRead_wf h n
  | fbrUnwind => exact fbrUnwind_wf h
  | fseReadnc t maxAl maxSym => exact fseReadnc_wf h t maxAl maxSym
  | fseBuild t => exact fseBuild_wf h t
  | fsePredef t which => exact fsePredef_wf h t which
  | fseRle t b => exact fseRle_wf h t b
  | fseInit k t => exact fseInit_wf h k t
  | fsePeek k => exact fsePeek_wf h k
  | fseNext k => exact fseNext_wf h k
  | hufReadw => exact hufReadw_wf h
  | hufBuild => exact hufBuild_wf h
  | hufDecode => exact hufDecode_wf h
  | winConfig => exact winConfig_wf h
  | winPushi => exact winPushi_wf h
  | winPushl => exact winPushl_wf h
  | winPushr b => exact winPushr_wf h b
  | winRepeat => exact winRepeat_wf h
  | winRepgen => exact winRepgen_wf h
  | winFlush => exact winFlush_wf h

theorem exec_wf {i : Instr} {t : State} (ht : exec i s = .next t) : t.Wf := by
  rw [exec_eq] at ht
  exact (ending_wf h i).finish (fun _ hs => hs.complete) (fun c _ hs => hs.faultEntry c _) ht

theorem execute_wf {w : Word} {t : State} (ht : execute w s = .next t) : t.Wf := by
  rcases execute_cases w s with ⟨i, -, he⟩ | ⟨e, -, he⟩ <;> rw [he] at ht
  · exact exec_wf h ht
  · cases ht
    exact h.faultEntry _ _

theorem blockTurn_wf {t : State} (ht : blockTurn s = .next t) : t.Wf := by
  rcases blockTurn_next ht with ⟨rfl, -⟩ | ⟨w, -, -, -, he⟩
  · exact h
  · exact execute_wf h he

theorem lastTurn_wf {t : State} (ht : lastTurn s = .next t) : t.Wf := by
  rcases lastTurn_next ht with ⟨rfl, -⟩ | ⟨w, -, -, -, he⟩
  · exact h
  · exact execute_wf h he

theorem pollTurn_wf {t : State} (ht : pollTurn s = .next t) : t.Wf := by
  rcases pollTurn_cases s with ⟨-, he⟩ | ⟨-, e, rest, -, he⟩ | ⟨-, -, he⟩ <;> rw [he] at ht
  · cases ht
    exact h.free
  · cases ht
    exact h.free
  · exact lastTurn_wf h.free ht

end

/-! ### The host's accesses (20_memory.md R63 to R67) -/

/-- The indexes of the target named by the address `a` lie in its memory, where the host may write it. -/
def Target.InRange (a : Nat) : Target → Prop
  | .ibuf i => a = 0x100000 + i ∧ i < Config.ibufBytes
  | .lbuf i => a = 0x120000 + i ∧ i < Config.lbufBytes
  | .w i => i < Config.wEntries
  | .reg _ | .wbuf _ | .ncount _ _ | .dt _ _ | .ht _ | .unmapped => True

theorem targetAt_inRange (c a : Nat) : (targetAt c a).InRange a := by
  unfold targetAt
  split
  · split <;> trivial
  · split_ifs <;> simp only [Target.InRange] <;> omega

/-- A little-endian write within a memory keeps its form (R65). -/
theorem writeBytes_wf {m : Memory Byte} {size a : Nat} {width : Width} (v : Word) (hm : m.wf size = true)
    (ha : a < size) (hw : width = .w32 → a + 3 < size) : (writeBytes m a width v).wf size = true := by
  cases width with
  | w8 => exact Memory.put_wf _ hm ha
  | w32 => exact Memory.putList_wf _ hm (Nat.succ_le_of_lt (hw rfl))

/-- A legal 32-bit access is aligned (R67). -/
theorem accessLegal_aligned {s : State} {addr : Word} (hl : accessLegal s addr .w32 = true) : addr.toNat % 4 = 0 := by
  cases hg : targetAt s.winCapMax addr.toNat <;> simp_all [accessLegal]

/-- An access that does not fault is legal (60_exceptions.md R286). -/
theorem accessLegal_of_not_accessFaults {s : State} {a : HostAccess} (hf : accessFaults s a = false) :
    accessLegal s a.addr a.width = true := by
  simp only [accessFaults, Bool.or_eq_false_iff, Bool.not_eq_false'] at hf
  exact hf.1

section
variable {s : State} (h : s.Wf)
include h

/-- A word becomes pending only where no fault is held (10_state.md R25). -/
theorem writeCmd_wf (v : Word) : (writeCmd v s).Wf := by
  unfold writeCmd
  split
  · exact h
  · rename_i hf
    exact { h with busy := rfl, held := fun hf' => absurd hf' hf }

/-- A register's write keeps the invariant (10_state.md R37). -/
theorem Reg.write_wf (r : Reg) (v : Word) : (r.write v s).Wf := by
  cases r with
  | ctrl =>
    show (if v.getLsbD 0 = true then softReset s else s).Wf
    split
    · exact h.memoriesOk.softReset_wf
    · exact h
  | cmd => exact writeCmd_wf h v
  | arg0 | arg1 | arg2 | arg3 => exact h.free
  | hufNw => exact h.clearHufValid.free
  | _ => exact h

/-- A target's write keeps the invariant, within its memory (20_memory.md R63). -/
theorem targetWrite_wf (width : Width) (v : Word) {g : Target} {a : Nat} (hr : g.InRange a)
    (ha : width = .w32 → a % 4 = 0) : (targetWrite width v s g).Wf := by
  cases g with
  | reg r => exact r.write_wf h v
  | ibuf i =>
    obtain ⟨hi, hlt⟩ : a = 0x100000 + i ∧ i < 131072 := hr
    refine h.setIbuf (writeBytes_wf v h.ibuf hlt fun e => ?_)
    have := ha e
    show i + 3 < 131072
    omega
  | lbuf i =>
    obtain ⟨hi, hlt⟩ : a = 0x120000 + i ∧ i < 131072 := hr
    refine h.setLbuf (writeBytes_wf v h.lbuf hlt fun e => ?_)
    have := ha e
    show i + 3 < 131072
    omega
  | w i => exact (h.setW (Memory.put_wf _ h.w hr)).clearHufValid
  | wbuf _ | ncount _ _ | dt _ _ | ht _ | unmapped => exact h

theorem memWrite_wf (addr : Word) (width : Width) (v : Word) : (memWrite addr width v s).Wf := by
  rcases memWrite_cases addr width v s with ⟨-, he⟩ | ⟨hf, he⟩ <;> rw [he]
  · exact h.faultEntry _ _
  · refine targetWrite_wf h width v (targetAt_inRange _ _) fun e => ?_
    subst e
    exact accessLegal_aligned (accessLegal_of_not_accessFaults hf)

theorem hostAccess_wf (a : HostAccess) : (hostAccess a s).Wf := by
  cases a with
  | read addr width =>
    simp only [hostAccess]
    rcases memRead_cases addr width s with ⟨-, he⟩ | ⟨-, v, draws, he⟩ <;> rw [he]
    · exact (h.faultEntry _ _).free
    · exact h.free
  | write addr width v => exact memWrite_wf h addr width v

end

/-! ### The step -/

theorem takeEvent_wf {s t : State} (h : s.Wf) (e : Event) (ht : takeEvent e s = .next t) : t.Wf := by
  cases e with
  | block => exact blockTurn_wf h ht
  | host a =>
    cases ht
    exact hostAccess_wf h a
  | poll => exact pollTurn_wf h ht
  | sink ready =>
    cases ht
    exact h.free

/-- Settles O60: the block's last turn and every event keep the invariant, by the lemma of each command and access. -/
theorem stepKeepsStatesWellFormed : Obligations.StepKeepsStatesWellFormed := by
  unfold Obligations.StepKeepsStatesWellFormed
  intro s t h ht
  rcases step_next ht with ⟨-, hl⟩ | ⟨e, rest, -, he⟩
  · exact lastTurn_wf h hl
  · exact takeEvent_wf h.free e he

end Sys2Proof.Machine

/-! ## The wait on the sink (20_memory.md R71; 44_control.md R252; 93_implementation_defined.md U10) -/

namespace Sys2Proof.Machine

/-! ### No command takes a byte back from the sink (10_state.md R35) -/

/-- A run of appends only adds to `OUT`, if its source leaves the sink alone. -/
theorem appendAll_out {source : Nat → State → Byte × State} (hs : ∀ j s, (source j s).2.out = s.out) (n : Nat)
    (s : State) : (appendAll source n s).All fun t => s.out <+: t.out := by
  rcases appendAll_cases source n s with ⟨-, h⟩ | ⟨-, h⟩ <;> rw [h]
  · obtain ⟨bs, hout⟩ := appendLoop_out hs n 0 s
    exact ⟨bs, hout.symm⟩
  · trivial

theorem flushLoop_out (n i : Nat) (s : State) : s.out <+: (flushLoop n i s).out := by
  induction n generalizing i s with
  | zero => exact List.prefix_rfl
  | succ n ih => exact (List.prefix_append s.out _).trans (ih (i + 1) (sink (readWindow i s).1 (readWindow i s).2))

theorem winPushi_out (s : State) : (winPushi s).All fun t => s.out <+: t.out := by
  unfold winPushi
  split_ifs
  · exact appendAll_out (fun _ _ => rfl) _ s
  · exact List.prefix_rfl
  · exact List.prefix_rfl

theorem winPushl_out (s : State) : (winPushl s).All fun t => s.out <+: t.out := by
  unfold winPushl
  split_ifs
  · exact appendAll_out (fun _ _ => rfl) _ s
  · exact List.prefix_rfl
  · exact List.prefix_rfl

theorem winPushr_out (b : Byte) (s : State) : (winPushr b s).All fun t => s.out <+: t.out := by
  unfold winPushr
  split_ifs
  · exact appendAll_out (fun _ _ => rfl) _ s
  · exact List.prefix_rfl

theorem winRepeat_out (s : State) : (winRepeat s).All fun t => s.out <+: t.out := by
  unfold winRepeat
  simp only []
  split_ifs
  · exact List.prefix_rfl
  · exact List.prefix_rfl
  · exact List.prefix_rfl
  · exact appendAll_out (fun _ _ => rfl) _ s
  · exact List.prefix_rfl

theorem winRepgen_out (s : State) : (winRepgen s).All fun t => s.out <+: t.out := by
  unfold winRepgen
  simp only []
  split_ifs
  · exact List.prefix_rfl
  · exact List.prefix_rfl
  · exact appendAll_out (fun _ _ => rfl) _ s
  · exact List.prefix_rfl

theorem winFlush_out (s : State) : (winFlush s).All fun t => s.out <+: t.out := by
  unfold winFlush
  split_ifs
  · exact flushLoop_out _ _ s
  · exact List.prefix_rfl

/-- The window commands add to `OUT`, and the frames of the other commands leave it out. -/
theorem ending_out (i : Instr) (s : State) : (ending i s).All fun t => s.out <+: t.out := by
  cases i with
  | nop => exact List.prefix_rfl
  | bbrInit => exact (bbrInit_frame s).imp fun t h => by rw [h]
  | bbrSkippad => exact (bbrSkippad_frame s).imp fun t h => by rw [h]
  | bbrRead n => exact (bbrRead_frame n s).imp fun t h => by rw [h]
  | fbrInit => exact (fbrInit_frame s).imp fun t h => by rw [h]
  | fbrRead n => exact (fbrRead_frame n s).imp fun t h => by rw [h]
  | fbrUnwind => exact (fbrUnwind_frame s).imp fun t h => by rw [h]
  | fseReadnc τ maxAl maxSym =>
    exact (fseReadnc_frame τ maxAl maxSym s).imp fun t h => by rw [h]
  | fseBuild τ => exact (fseBuild_frame τ s).imp fun t h => by rw [h]
  | fsePredef τ which => exact (fsePredef_frame τ which s).imp fun t h => by rw [h]
  | fseRle τ b => exact (fseRle_frame τ b s).imp fun t h => by rw [h]
  | fseInit k τ => exact (fseInit_frame k τ s).imp fun t h => by rw [h]
  | fsePeek k => exact (fsePeek_frame k s).imp fun t h => by rw [h]
  | fseNext k => exact (fseNext_frame k s).imp fun t h => by rw [h]
  | hufReadw => exact (hufReadw_frame s).imp fun t h => by rw [h]
  | hufBuild => exact (hufBuild_frame s).imp fun t h => by rw [h]
  | hufDecode => exact (hufDecode_frame s).imp fun t h => by rw [h]
  | winConfig => exact (winConfig_frame s).imp fun t h => by rw [h]
  | winPushi => exact winPushi_out s
  | winPushl => exact winPushl_out s
  | winPushr b => exact winPushr_out b s
  | winRepeat => exact winRepeat_out s
  | winRepgen => exact winRepgen_out s
  | winFlush => exact winFlush_out s

/-- A command's step only adds to `OUT`, whether it completes or faults. -/
theorem exec_out {i : Instr} {s t : State} (ht : exec i s = .next t) : s.out <+: t.out := by
  rw [exec_eq] at ht
  exact (ending_out i s).finish (fun u hu => hu) (fun c u hu => (faultEntry_out c _ u).symm ▸ hu) ht

/-! ### The block's turn on a command -/

section
variable {s t : State} {w : Word} {i : Instr}

variable (hr : s.sinkReady = false) (he : exec i s = .next t)
include hr he

/-- The model compares lengths to tell whether a step gave the sink a byte; since `OUT` only grows, they differ exactly
where `OUT` does. -/
theorem State.waits_exec : s.waits t = true ↔ t.out ≠ s.out := by
  have hlen : t.out.length = s.out.length ↔ t.out = s.out :=
    ⟨fun h => ((exec_out he).eq_of_length h.symm).symm, congrArg List.length⟩
  simp only [State.waits, hr, Bool.not_false, Bool.true_and, decide_eq_true_eq, ne_eq, hlen]

variable (hp : s.pending = some w) (hf : s.fault = false) (hd : decode w = .ok i)
include hp hf hd

/-- The block's turn holds the whole command back where its step would give the sink a byte (R71, R252). -/
theorem blockTurn_exec :
    (t.out ≠ s.out → blockTurn s = .next s) ∧ (t.out = s.out → blockTurn s = .next t) := by
  have hturn : blockTurn s = if s.waits t then .next s else .next t := by
    simp only [blockTurn, hp, hf, execute, hd, he, Bool.false_eq_true, if_false]
  simp only [State.waits_exec hr he] at hturn
  exact ⟨fun hout => hturn.trans (if_pos hout), fun hout => hturn.trans (if_neg (not_not.2 hout))⟩

/-- The block's last turn would hold it back for ever (U10). -/
theorem lastTurn_exec :
    (t.out ≠ s.out → lastTurn s = .fault .sinkNeverAccepts) ∧ (t.out = s.out → lastTurn s = .next t) := by
  have hturn : lastTurn s = if s.waits t then .fault .sinkNeverAccepts else .next t := by
    simp only [lastTurn, hp, hf, execute, hd, he, Bool.false_eq_true, if_false]
  simp only [State.waits_exec hr he] at hturn
  exact ⟨fun hout => hturn.trans (if_pos hout), fun hout => hturn.trans (if_neg (not_not.2 hout))⟩

end

/-- Settles O8: `OUT` only grows, so a turn waits exactly where the command's step would change it. -/
theorem stepWaitsForTheSink : Obligations.StepWaitsForTheSink := by
  unfold Obligations.StepWaitsForTheSink
  intro s t w i rest hp hf hr hd
  refine ⟨fun hs he => ?_, fun hs he => ?_⟩
  · have hstep : step s = blockTurn { s with schedule := rest } := by rw [step, hs]; rfl
    exact hstep ▸ blockTurn_exec (s := { s with schedule := rest }) hr he hp hf hd
  · have hstep : step s = lastTurn s := by rw [step, hs]
    exact hstep ▸ lastTurn_exec hr he hp hf hd

end Sys2Proof.Machine

/-! ## The host's accesses: bad ones, reads, and buffers written and read back (10_state.md R37; 20_memory.md R63 to R68) -/

namespace Sys2Proof.Machine

/-! ### Which addresses name what -/

/-- No address of a hole in the register block names a register (10_state.md R37). -/
theorem registerMap_hole : ∀ a < 0x100,
    a ∈ [0x3C, 0x3D, 0x3E, 0x3F, 0x88, 0x89, 0x8A, 0x8B, 0x8C, 0x8D, 0x8E, 0x8F, 0x9C, 0x9D, 0x9E, 0x9F] ∨ 0xB0 ≤ a →
    registerMap.lookup a = none := by decide +kernel

theorem targetAt_unmapped {c a : Nat} (h : Unmapped c a) : targetAt c a = .unmapped := by
  obtain hreg | hwin := h
  · have hlt : a < 0x100 := by revert a; decide
    rw [targetAt, if_pos hlt, registerMap_hole a hlt (.inl hreg)]
  · by_cases hlt : a < 0x100
    · rw [targetAt, if_pos hlt, registerMap_hole a hlt (.inr (by omega))]
    · simp (disch := omega) only [targetAt, Config.ibufBytes, Config.lbufBytes, Config.wEntries, Config.htEntries,
        if_neg]

theorem targetAt_ibuf (c : Nat) {i : Nat} (hi : i < 131072) : targetAt c (0x100000 + i) = .ibuf i := by
  simp (disch := omega) only [targetAt, Config.ibufBytes, if_neg, if_pos, Nat.add_sub_cancel_left]

theorem targetAt_lbuf (c : Nat) {i : Nat} (hi : i < 131072) : targetAt c (0x120000 + i) = .lbuf i := by
  simp (disch := omega) only [targetAt, Config.ibufBytes, Config.lbufBytes, if_neg, if_pos, Nat.add_sub_cancel_left]

/-- The targets that are bytes, where alone an 8-bit access is allowed (20_memory.md R64). -/
def Target.isByte : Target → Bool
  | .ibuf _ | .lbuf _ | .wbuf _ => true
  | .reg _ | .ncount _ _ | .dt _ _ | .w _ | .ht _ | .unmapped => false

theorem accessLegal_w8 (s : State) (addr : Word) :
    accessLegal s addr .w8 = (targetAt s.winCapMax addr.toNat).isByte := by
  cases hg : targetAt s.winCapMax addr.toNat <;> simp only [accessLegal, hg, Target.isByte]

theorem targetAt_isByte_of_not_byteAddress {c a : Nat} (h : ¬ ByteAddress c a) : (targetAt c a).isByte = false := by
  unfold ByteAddress at h
  simp (disch := omega) only [targetAt, Config.ibufBytes, Config.lbufBytes, if_neg]
  split
  · split <;> rfl
  · split_ifs <;> rfl

/-- An access of IBUF or LBUF is legal where it is a byte or an aligned word (R64, R67). -/
theorem accessLegal_buffer {s : State} {addr : Word} {width : Width} {i : Nat} {g : Target}
    (hg : targetAt s.winCapMax addr.toNat = g) (h : g = .ibuf i ∨ g = .lbuf i)
    (ha : width = .w32 → addr.toNat % 4 = 0) : accessLegal s addr width = true := by
  cases width with
  | w8 =>
    rw [accessLegal_w8, hg]
    obtain rfl | rfl := h <;> rfl
  | w32 => obtain rfl | rfl := h <;> exact accessLegal_word hg nofun nofun (ha rfl)

/-- The step of a scheduled access is the access. -/
theorem step_host {s : State} {a : HostAccess} {rest : List Event} (hs : s.schedule = .host a :: rest) :
    step s = .next (hostAccess a { s with schedule := rest }) := by
  rw [step, hs]
  rfl

/-! ### A bad access (20_memory.md R67; 60_exceptions.md R276, R286) -/

/-- Each kind of bad access is illegal. -/
theorem accessLegal_bad {s : State} {addr : Word} {width : Width}
    (h : Unmapped s.winCapMax addr.toNat ∨ (width = .w32 ∧ addr.toNat % 4 ≠ 0) ∨
      (width = .w8 ∧ ¬ ByteAddress s.winCapMax addr.toNat)) : accessLegal s addr width = false := by
  obtain hu | ⟨rfl, ha⟩ | ⟨rfl, hb⟩ := h
  · have ht := targetAt_unmapped hu
    cases width <;> simp only [accessLegal, ht]
  · exact Bool.eq_false_iff.2 fun hl => ha (accessLegal_aligned hl)
  · rw [accessLegal_w8, targetAt_isByte_of_not_byteAddress hb]

/-- An illegal access faults, whether the block is busy or not (60_exceptions.md R286). -/
theorem accessFaults_illegal {s : State} {a : HostAccess} (hl : accessLegal s a.addr a.width = false) :
    accessFaults s a = true := by
  simp only [accessFaults, hl, Bool.not_false, Bool.true_or]

section
variable {s : State} {addr : Word} {width : Width} {rest : List Event} (hl : accessLegal s addr width = false)
include hl

/-- An illegal read returns 0 and takes a fault (R67). -/
theorem step_read_illegal (hs : s.schedule = .host (.read addr width) :: rest) :
    step s = .next (faultEntry .hostAccess addr { s with schedule := rest, hostReads := s.hostReads ++ [0] }) := by
  have hf : accessFaults { s with schedule := rest } (.read addr width) = true := accessFaults_illegal hl
  rw [step_host hs]
  rcases memRead_cases addr width { s with schedule := rest } with ⟨-, he⟩ | ⟨h, -⟩
  · simp only [hostAccess, he, faultEntry]
    split <;> rfl
  · exact absurd (hf.symm.trans h) Bool.noConfusion

/-- An illegal write is ignored and takes a fault (R67). -/
theorem step_write_illegal {v : Word} (hs : s.schedule = .host (.write addr width v) :: rest) :
    step s = .next (faultEntry .hostAccess addr { s with schedule := rest }) := by
  have hf : accessFaults { s with schedule := rest } (.write addr width v) = true := accessFaults_illegal hl
  rw [step_host hs]
  rcases memWrite_cases addr width v { s with schedule := rest } with ⟨-, he⟩ | ⟨h, -⟩
  · simp only [hostAccess, he]
  · exact absurd (hf.symm.trans h) Bool.noConfusion

end

/-- Where a fault is held and nothing is pending, a further fault changes nothing (60_exceptions.md R276). -/
theorem faultEntry_idle {s : State} (hf : s.fault = true) (hb : s.busy = false) (hp : s.pending = none)
    (c : FaultCode) (info : Word) : faultEntry c info s = s := by
  rw [faultEntry_held hf, State.ended, ← hb, ← hp]

/-- Settles O52: a bad access is illegal, so its step is a fault entry, which changes nothing where a fault is held. -/
theorem badAccessFaults : Obligations.BadAccessFaults := by
  unfold Obligations.BadAccessFaults
  intro s rest addr v width hbad
  have hl : accessLegal s addr width = false := accessLegal_bad hbad
  refine ⟨fun hf => ⟨fun hs => ?_, fun hs => ?_⟩, fun hf hb hp => ⟨fun hs => ?_, fun hs => ?_⟩⟩
  · rw [step_read_illegal hl hs, faultEntry_eq_faulted (by exact hf)]
    rfl
  · rw [step_write_illegal hl hs, faultEntry_eq_faulted (by exact hf)]
    rfl
  · rw [step_read_illegal hl hs, faultEntry_idle (by exact hf) (by exact hb) (by exact hp)]
  · rw [step_write_illegal hl hs, faultEntry_idle (by exact hf) (by exact hb) (by exact hp)]

/-! ### The words the host sees (10_state.md R37; 20_memory.md R63, R65) -/

theorem toNat_append_add {m n : Nat} (x : BitVec m) (y : BitVec n) :
    (x ++ y).toNat = x.toNat * 2 ^ n + y.toNat := by
  rw [BitVec.toNat_append, ← Nat.shiftLeft_add_eq_or_of_lt y.isLt, Nat.shiftLeft_eq]

/-- A word is the word of its own integer. -/
theorem eq_ofNat_of_toNat {w : Word} {n : Nat} (h : w.toNat = n) : w = BitVec.ofNat 32 n := by
  rw [← h, BitVec.ofNat_toNat, BitVec.setWidth_eq]

theorem ofNat_lowWord (x : DWord) : BitVec.ofNat 32 (x.toNat % 2 ^ 32) = x.extractLsb' 0 32 := by
  rw [BitVec.extractLsb', Nat.shiftRight_zero, ← BitVec.toNat_ofNat, BitVec.ofNat_toNat, BitVec.setWidth_eq]

theorem ofNat_highWord (x : DWord) : BitVec.ofNat 32 (x.toNat / 2 ^ 32) = x.extractLsb' 32 32 := by
  rw [BitVec.extractLsb', Nat.shiftRight_eq_div_pow]

section
variable (s : State)

theorem State.statusWord_toNat : s.statusWord.toNat =
    s.busy.toNat + 2 * s.fault.toNat + 4 * s.prog.toNat + 2 ^ 8 * s.code.toNat := by
  rw [statusWord, toNat_append_add]
  simp only [toNat_append_add, bit, BitVec.toNat_ofBool, BitVec.toNat_ofNat]
  omega

theorem FwdReader.unwWord_toNat (r : FwdReader) : r.unwWord.toNat = r.unw.toNat := by
  rw [unwWord, toNat_append_add]
  simp only [bit, BitVec.toNat_ofBool, BitVec.toNat_ofNat]
  omega

theorem FseState.word_toNat (r : FseState) :
    r.word.toNat = r.state.toNat + 2 ^ 16 * r.bind.val + 2 ^ 31 * r.bound.toNat := by
  have hbind : (BitVec.ofFin (w := 3) r.bind).toNat = r.bind.val := rfl
  rw [word, toNat_append_add]
  simp only [toNat_append_add, bit, BitVec.toNat_ofBool, BitVec.toNat_ofNat, hbind]
  omega

theorem Slot.infoWord_toNat (t : Slot) : t.infoWord.toNat =
    t.al.toNat + 2 ^ 8 * t.nsym.toNat + 2 ^ 30 * t.ncValid.toNat + 2 ^ 31 * t.valid.toNat := by
  rw [infoWord, toNat_append_add]
  simp only [toNat_append_add, bit, BitVec.toNat_ofBool, BitVec.toNat_ofNat]
  omega

theorem State.hufInfoWord_toNat :
    s.hufInfoWord.toNat = s.hufMaxbits.toNat + 2 ^ 8 * s.hufNsym.toNat + 2 ^ 31 * s.hufValid.toNat := by
  rw [hufInfoWord, toNat_append_add]
  simp only [toNat_append_add, bit, BitVec.toNat_ofBool, BitVec.toNat_ofNat]
  omega

theorem State.allDirty_toNat :
    s.allDirty.toNat = if s.wconf = true ∧ s.winCap.toNat ≤ s.wtotal.toNat then 1 else 0 := by
  rw [allDirty, Bool.toNat, Bool.cond_eq_ite]
  simp only [Bool.and_eq_true, decide_eq_true_eq]

theorem State.winFlagsWord_toNat : s.winFlagsWord.toNat =
    s.wconf.toNat + 2 * (if s.wconf = true ∧ s.winCap.toNat ≤ s.wtotal.toNat then 1 else 0) := by
  rw [winFlagsWord, toNat_append_add]
  simp only [toNat_append_add, bit, BitVec.toNat_ofBool, BitVec.toNat_ofNat, State.allDirty_toNat]
  omega

theorem DtEntry.word_toNat (e : DtEntry) :
    e.word.toNat = e.symbol.toNat + 2 ^ 8 * e.nbBits.toNat + 2 ^ 16 * e.baseline.toNat := by
  rw [word, toNat_append_add]
  simp only [toNat_append_add, BitVec.toNat_ofNat]
  omega

theorem HtEntry.word_toNat (e : HtEntry) : e.word.toNat = e.symbol.toNat + 2 ^ 8 * e.nbBits.toNat := by
  rw [word, toNat_append_add]
  simp only [toNat_append_add, BitVec.toNat_ofNat]
  omega

theorem wordOfBytes_toNat (b0 b1 b2 b3 : Byte) : (wordOfBytes b0 b1 b2 b3).toNat = leInt [b0, b1, b2, b3] := by
  rw [wordOfBytes, toNat_append_add]
  simp only [toNat_append_add, leInt]
  omega

/-- The registers of R37 in the order of their addresses read as their fields at their bits. -/
theorem State.registerView_words : s.registerView.map (fun p => (p.1, BitVec.ofNat 32 p.2)) =
    registerMap.map fun p => (p.1, p.2.read s) := by
  have h4 : List.finRange 4 = [0, 1, 2, 3] := by decide
  have h8 : List.finRange 8 = [0, 1, 2, 3, 4, 5, 6, 7] := by decide
  simp only [registerView, registerMap, h4, h8, Reg.read, List.map_append, List.map_cons, List.map_nil,
    ← statusWord_toNat, ← FwdReader.unwWord_toNat, ← FseState.word_toNat, ← Slot.infoWord_toNat,
    ← hufInfoWord_toNat, ← winFlagsWord_toNat, BitVec.ofNat_toNat, BitVec.setWidth_eq, ofNat_lowWord, ofNat_highWord,
    wpos, apply_ite (BitVec.ofNat 32)]
  rfl

end

/-- Every entry of the map of R37 is aligned and within the register block. -/
theorem registerMap_entry : ∀ p ∈ registerMap, p.1 < 0x100 ∧ p.1 % 4 = 0 ∧ registerMap.lookup p.1 = some p.2 := by
  decide

theorem State.registerView_read {s : State} {a v : Nat} (h : (a, v) ∈ s.registerView) (c : Nat) :
    a % 4 = 0 ∧ ∃ r, targetAt c a = .reg r ∧ r.read s = BitVec.ofNat 32 v := by
  have hm : (a, BitVec.ofNat 32 v) ∈ registerMap.map fun p => (p.1, p.2.read s) :=
    s.registerView_words ▸ List.mem_map_of_mem h
  obtain ⟨⟨a', r⟩, hp, he⟩ := List.mem_map.1 hm
  obtain ⟨rfl, hv⟩ := Prod.mk.inj he
  obtain ⟨hlt, ha, hr⟩ := registerMap_entry _ hp
  exact ⟨ha, r, targetAt_reg c hlt hr, hv⟩

/-- A count is sign-extended (R63). -/
theorem signExtend_eq_ofNat (c : BitVec 16) :
    c.signExtend 32 = BitVec.ofNat 32 (if c.toInt < 0 then 2 ^ 32 + c.toInt else c.toInt).toNat := by
  have hlo := c.le_toInt
  have hhi := c.toInt_lt
  apply BitVec.eq_of_toNat_eq
  rw [BitVec.signExtend, BitVec.toNat_ofInt, BitVec.toNat_ofNat]
  split_ifs <;> omega

/-! ### What the host is shown (10_state.md R37; 20_memory.md R63 to R66) -/

theorem readBytes_w8_listed {m : Memory Byte} {a : Nat} {b : Byte} (h : m.get? a = some b) (draws : Nat) :
    readBytes m a .w8 draws = (BitVec.ofNat 32 b.toNat, draws) := by
  rw [BitVec.ofNat_toNat]
  simp only [readBytes, Memory.readByte_listed h]

theorem readBytes_w32_listed {m : Memory Byte} {a : Nat} {bs : List Byte} (hlen : bs.length = 4) (h : m.holds a bs)
    (draws : Nat) : readBytes m a .w32 draws = (BitVec.ofNat 32 (leInt bs), draws) := by
  match bs, hlen with
  | [b0, b1, b2, b3], _ =>
    have h0 : m.get? a = some b0 := h 0 (by simp)
    have h1 : m.get? (a + 1) = some b1 := h 1 (by simp)
    have h2 : m.get? (a + 2) = some b2 := h 2 (by simp)
    have h3 : m.get? (a + 3) = some b3 := h 3 (by simp)
    simp only [readBytes, Memory.readByte_listed h0, Memory.readByte_listed h1, Memory.readByte_listed h2,
      Memory.readByte_listed h3, eq_ofNat_of_toNat (wordOfBytes_toNat b0 b1 b2 b3)]

/-- What the host is shown at an address it may read there (R37, R63 to R66), and reading it draws nothing. -/
theorem State.Shows.legal_read {s : State} {addr : Word} {width : Width} {a v : Nat} (h : s.Shows width a v)
    (ha : addr.toNat = a) : accessLegal s addr width = true ∧
      targetRead width s (targetAt s.winCapMax addr.toNat) = (BitVec.ofNat 32 v, s.draws) := by
  cases h with
  | reg h =>
    obtain ⟨hal, r, ht, hv⟩ := State.registerView_read h s.winCapMax
    rw [← ha] at hal ht
    exact ⟨accessLegal_word ht nofun nofun hal, by rw [ht, targetRead, hv]⟩
  | ibuf8 hi hb =>
    have ht := ha ▸ targetAt_ibuf s.winCapMax hi
    exact ⟨accessLegal_buffer ht (.inl rfl) nofun, by rw [ht, targetRead, readBytes_w8_listed hb]⟩
  | ibuf32 hal hi hlen hm =>
    have ht := ha ▸ targetAt_ibuf s.winCapMax (by omega)
    exact ⟨accessLegal_buffer ht (.inl rfl) fun _ => (by omega), by rw [ht, targetRead, readBytes_w32_listed hlen hm]⟩
  | lbuf8 hi hb =>
    have ht := ha ▸ targetAt_lbuf s.winCapMax hi
    exact ⟨accessLegal_buffer ht (.inr rfl) nofun, by rw [ht, targetRead, readBytes_w8_listed hb]⟩
  | lbuf32 hal hi hlen hm =>
    have ht := ha ▸ targetAt_lbuf s.winCapMax (by omega)
    exact ⟨accessLegal_buffer ht (.inr rfl) fun _ => (by omega), by rw [ht, targetRead, readBytes_w32_listed hlen hm]⟩
  | wbuf8 hi hb =>
    have ht := targetAt_wbuf s.winCapMax (a := addr.toNat) (by omega) (by omega)
    rw [ha, Nat.add_sub_cancel_left, ← ha] at ht
    exact ⟨accessLegal_wbuf ht nofun, by rw [ht, targetRead, readBytes_w8_listed hb]⟩
  | wbuf32 hal hi hlen hm =>
    have ht := targetAt_wbuf s.winCapMax (a := addr.toNat) (by omega) (by omega)
    rw [ha, Nat.add_sub_cancel_left, ← ha] at ht
    exact ⟨accessLegal_wbuf ht fun _ => ⟨by omega, hi⟩, by rw [ht, targetRead, readBytes_w32_listed hlen hm]⟩
  | @ncount τ i c hi hc =>
    have hτ : Fin.ofNat 8 ((addr.toNat - 0x140000) / 0x400) = τ := Fin.ext (by simp only [Fin.ofNat]; omega)
    have hidx : (addr.toNat - 0x140000) % 0x400 / 4 = i := by omega
    have ht := targetAt_ncount s.winCapMax (a := addr.toNat) (by omega) (by omega)
    rw [hτ, hidx] at ht
    exact ⟨accessLegal_word ht nofun nofun (by omega),
      by rw [ht]; simp only [targetRead, Memory.readCount_listed hc, signExtend_eq_ofNat]⟩
  | @dt τ u e hu he =>
    have hτ : Fin.ofNat 8 ((addr.toNat - 0x150000) / 0x800) = τ := Fin.ext (by simp only [Fin.ofNat]; omega)
    have hidx : (addr.toNat - 0x150000) % 0x800 / 4 = u := by omega
    have ht := targetAt_dt s.winCapMax (a := addr.toNat) (by omega) (by omega)
    rw [hτ, hidx] at ht
    exact ⟨accessLegal_word ht nofun nofun (by omega),
      by rw [ht]; simp only [targetRead, Memory.readDt_listed he, eq_ofNat_of_toNat e.word_toNat]⟩
  | @w i c hi hc =>
    have hidx : (addr.toNat - 0x160000) / 4 = i := by omega
    have ht := targetAt_w s.winCapMax (a := addr.toNat) (by omega) (by omega)
    rw [hidx] at ht
    exact ⟨accessLegal_word ht nofun nofun (by omega),
      by rw [ht, BitVec.ofNat_toNat]; simp only [targetRead, Memory.readWeight_listed hc]⟩
  | @ht u e hu he =>
    have hidx : (addr.toNat - 0x161000) / 4 = u := by omega
    have ht := targetAt_ht s.winCapMax (a := addr.toNat) (by omega) (by omega)
    rw [hidx] at ht
    exact ⟨accessLegal_word ht nofun nofun (by omega),
      by rw [ht]; simp only [targetRead, Memory.readHt_listed he, eq_ofNat_of_toNat e.word_toNat]⟩

/-- A read of a target does not depend on what is scheduled. -/
theorem targetRead_schedule (width : Width) (s : State) (rest : List Event) (g : Target) :
    targetRead width { s with schedule := rest } g = targetRead width s g := by
  cases g with
  | reg r => cases r <;> rfl
  | _ => rfl

/-- A legal read by an idle block's host is the read of its target. -/
theorem memRead_idle {s : State} {addr : Word} {width : Width} (hb : s.busy = false)
    (hl : accessLegal s addr width = true) :
    memRead addr width s = ((targetRead width s (targetAt s.winCapMax addr.toNat)).1,
      { s with draws := (targetRead width s (targetAt s.winCapMax addr.toNat)).2 }) := by
  have hf : accessFaults s (.read addr width) = false := accessFaults_idle hb hl
  simp only [memRead, hf, Bool.false_eq_true, if_false]

/-- An idle block's host reads what the address shows, and the block stays as it is (R68). -/
theorem memRead_shown {s : State} {addr : Word} {width : Width} {a v : Nat} (hb : s.busy = false)
    (ha : addr.toNat = a) (h : s.Shows width a v) : memRead addr width s = (BitVec.ofNat 32 v, s) := by
  obtain ⟨hl, hr⟩ := h.legal_read ha
  rw [memRead_idle hb hl, hr]

/-- Settles O53: a read that does not fault moves only the model's notes, and what it returns is what its address shows. -/
theorem hostReadHasNoSideEffect : Obligations.HostReadHasNoSideEffect := by
  unfold Obligations.HostReadHasNoSideEffect
  intro s rest addr width hs
  rw [step_host hs]
  refine ⟨fun t hf ht hft => ?_, fun v hb hv => ?_⟩
  · cases ht
    rcases memRead_cases addr width { s with schedule := rest } with ⟨-, he⟩ | ⟨-, v, draws, he⟩
    · simp [hostAccess, he] at hft
    · exact ⟨v, draws, by simp only [hostAccess, he]⟩
  · obtain ⟨hl, hr⟩ := hv.legal_read rfl
    have hm := memRead_idle (s := { s with schedule := rest }) hb hl
    rw [targetRead_schedule] at hm
    simp only [hostAccess, hm, hr]

/-! ### A buffer's bytes after a write (20_memory.md R64, R65) -/

section
variable (m : Memory Byte) (a : Nat) (v : Word)

theorem writeBytes_w32_holds : (writeBytes m a .w32 v).holds a (bytesOfWord v) := by
  intro j hj
  rw [writeBytes, Memory.get?_putList, if_pos (by omega), Nat.add_sub_cancel_left, List.getElem?_eq_getElem hj]

theorem writeBytes_w32_get {j : Nat} (hj : j < 4) :
    (writeBytes m a .w32 v).get? (a + j) = some (v.extractLsb' (8 * j) 8) := by
  rw [writeBytes_w32_holds m a v j hj]
  interval_cases j <;> rfl

theorem writeBytes_w32_get_ne {b : Nat} (hb : b < a ∨ a + 4 ≤ b) : (writeBytes m a .w32 v).get? b = m.get? b := by
  have hlen : (bytesOfWord v).length = 4 := rfl
  rw [writeBytes, Memory.get?_putList, if_neg (by omega)]

theorem ofNat_leInt_bytesOfWord : BitVec.ofNat 32 (leInt (bytesOfWord v)) = v := by
  refine (eq_ofNat_of_toNat ?_).symm
  have hv := v.isLt
  simp only [bytesOfWord, leInt, BitVec.extractLsb'_toNat, Nat.shiftRight_eq_div_pow]
  omega

theorem ofNat_lowByte : BitVec.ofNat 32 (v.extractLsb' 0 8).toNat = v &&& 0xFF := by
  refine BitVec.eq_of_toNat_eq ?_
  rw [BitVec.toNat_and, show (0xFF : Word).toNat = 2 ^ 8 - 1 from rfl, Nat.and_two_pow_sub_one_eq_mod,
    BitVec.toNat_ofNat, BitVec.extractLsb'_toNat, Nat.shiftRight_zero]
  omega

end

/-- The step of a legal write to a buffer by an idle block's host is the write of its bytes. -/
theorem step_write_buffer {s : State} {addr v : Word} {width : Width} {rest : List Event} {g : Target} {i : Nat}
    (hs : s.schedule = .host (.write addr width v) :: rest) (hb : s.busy = false)
    (hg : targetAt s.winCapMax addr.toNat = g) (hbuf : g = .ibuf i ∨ g = .lbuf i)
    (ha : width = .w32 → addr.toNat % 4 = 0) : step s = .next (targetWrite width v { s with schedule := rest } g) := by
  have hl : accessLegal s addr width = true := accessLegal_buffer hg hbuf ha
  rw [step_host_write hs (accessFaults_idle hb hl), hg]

/-- Settles O54: a write lists the word's bytes and leaves the others, and the buffer then shows the host the word. -/
theorem bufferWordsReadBack : Obligations.BufferWordsReadBack := by
  unfold Obligations.BufferWordsReadBack
  intro s a v rest ha hb
  have hi : (BitVec.ofNat 32 (0x100000 + a)).toNat = 0x100000 + a := by
    rw [BitVec.toNat_ofNat, Nat.mod_eq_of_lt (by omega)]
  have hl : (BitVec.ofNat 32 (0x120000 + a)).toNat = 0x120000 + a := by
    rw [BitVec.toNat_ofNat, Nat.mod_eq_of_lt (by omega)]
  have hti := hi ▸ targetAt_ibuf s.winCapMax ha
  have htl := hl ▸ targetAt_lbuf s.winCapMax ha
  refine ⟨fun hal hs => ?_, fun hal hs => ?_, fun hs => ?_, fun hs => ?_⟩
  · refine ⟨_, step_write_buffer hs hb hti (.inl rfl) fun _ => by omega, fun j => writeBytes_w32_get _ a v,
      fun b => writeBytes_w32_get_ne _ a v, ?_⟩
    rw [memRead_shown (by exact hb) hi (.ibuf32 hal (by omega) rfl (writeBytes_w32_holds _ a v))]
    exact ofNat_leInt_bytesOfWord v
  · refine ⟨_, step_write_buffer hs hb htl (.inr rfl) fun _ => by omega, fun j => writeBytes_w32_get _ a v,
      fun b => writeBytes_w32_get_ne _ a v, ?_⟩
    rw [memRead_shown (by exact hb) hl (.lbuf32 hal (by omega) rfl (writeBytes_w32_holds _ a v))]
    exact ofNat_leInt_bytesOfWord v
  · refine ⟨_, step_write_buffer hs hb hti (.inl rfl) nofun, Memory.get?_put_same _ _ _,
      fun b => Memory.get?_put_ne _ _, ?_⟩
    rw [memRead_shown (by exact hb) hi (.ibuf8 ha (Memory.get?_put_same _ _ _))]
    exact ofNat_lowByte v
  · refine ⟨_, step_write_buffer hs hb htl (.inr rfl) nofun, Memory.get?_put_same _ _ _,
      fun b => Memory.get?_put_ne _ _, ?_⟩
    rw [memRead_shown (by exact hb) hl (.lbuf8 ha (Memory.get?_put_same _ _ _))]
    exact ofNat_lowByte v

end Sys2Proof.Machine

/-! ## The encoding: commands, words and rows of the opcode table (30_encoding.md R85 to R92) -/

namespace Sys2Proof

open Laws

/-! ### Words as their fields (R85) -/

/-- Every word is laid out from its own fields. -/
theorem layout_fields (w : Word) :
    layout (opField w) (w.extractLsb' 20 4) (w.extractLsb' 16 4) (immField w) = w := by
  apply BitVec.eq_of_getLsbD_eq
  intro i hi
  rw [getLsbD_layout]
  simp only [opField, immField, BitVec.getLsbD_extractLsb']
  interval_cases i <;> simp

/-- Two laid-out words are the same exactly when their fields are. -/
theorem layout_inj {op op' : BitVec 8} {k k' s s' : BitVec 4} {imm imm' : BitVec 16} :
    layout op k s imm = layout op' k' s' imm' ↔ op = op' ∧ k = k' ∧ s = s' ∧ imm = imm' := by
  refine ⟨fun h => ?_, fun ⟨hop, hk, hs, himm⟩ => by rw [hop, hk, hs, himm]⟩
  have hbit (i : Nat) := congrArg (fun w => w.getLsbD i) h
  simp only [getLsbD_layout] at hbit
  refine ⟨by simpa using congrArg opField h, BitVec.eq_of_getLsbD_eq fun i hi => ?_,
    BitVec.eq_of_getLsbD_eq fun i hi => ?_, by simpa using congrArg immField h⟩
  · simpa (disch := omega) only [if_neg, if_pos, Nat.add_sub_cancel_left] using hbit (20 + i)
  · simpa (disch := omega) only [if_neg, if_pos, Nat.add_sub_cancel_left] using hbit (16 + i)

/-- A mask of every bit leaves no other field than 0. -/
theorem eq_zero_of_and_allOnes {n : Nat} {x : BitVec n} (h : x &&& BitVec.allOnes n = 0#n) : x = 0#n := by
  rwa [BitVec.and_allOnes] at h

/-- `K` names a state register where its two reserved bits are 0. -/
theorem exists_kBits : ∀ k : BitVec 4, k &&& 0xC#4 = 0#4 → ∃ k' : Fin 4, k = kBits k' := by decide

/-- `S` names a slot where its reserved bit is 0. -/
theorem exists_slotBits : ∀ s : BitVec 4, s &&& 0x8#4 = 0#4 → ∃ τ : Fin 8, s = slotBits τ := by decide

/-- An immediate holds one byte where its upper bits are 0 (R87). -/
theorem exists_byteImm {imm : BitVec 16} (h : imm &&& 0xFF00#16 = 0#16) : ∃ b : Byte, imm = byteImm b := by
  refine ⟨imm.extractLsb' 0 8, BitVec.eq_of_getLsbD_eq fun i hi => ?_⟩
  rw [getLsbD_byteImm, BitVec.getLsbD_extractLsb']
  by_cases hlow : i < 8
  · simp [hlow]
  · have hmask : (0xFF00#16).getLsbD i = true := by interval_cases i <;> rfl
    simpa [hlow, hmask] using congrArg (fun x => x.getLsbD i) h

/-- An immediate holds `MAXAL` and `MAXSYM` where its upper bits are 0 (R86). -/
theorem exists_readncImm {imm : BitVec 16} (h : imm &&& 0xF000#16 = 0#16) :
    ∃ (maxAl : BitVec 4) (maxSym : BitVec 8), imm = 0#4 ++ maxAl ++ maxSym := by
  refine ⟨imm.extractLsb' 8 4, imm.extractLsb' 0 8, BitVec.eq_of_getLsbD_eq fun i hi => ?_⟩
  simp only [getLsbD_readncImm, BitVec.getLsbD_extractLsb']
  split_ifs with hlow
  · simp [hlow]
  · by_cases hmid : i < 12
    · simp [show i - 8 < 4 by omega, show 8 + (i - 8) = i by omega]
    · have hmask : (0xF000#16).getLsbD i = true := by interval_cases i <;> rfl
      simpa [hmask, show ¬ i - 8 < 4 by omega] using congrArg (fun x => x.getLsbD i) h

/-! ### The row of a command (R87, R89, R91) -/

/-- The bits outside `OP` that are 0 in every word of the command (R91), and `op` in `OP`: with `op` = 0 the bits the
decoder checks, with `op` = 0xFF the mask of the command's row. -/
def Instr.mask (op : BitVec 8) : Instr → Word
  | .bbrRead _ | .fbrRead _ => layout op 0xF 0xF 0
  | .fseReadnc _ _ _ => layout op 0xF 0x8 0xF000
  | .fseBuild _ => layout op 0xF 0x8 0xFFFF
  | .fsePredef _ _ => layout op 0xF 0x8 0
  | .fseRle _ _ => layout op 0xF 0x8 0xFF00
  | .fseInit _ _ => layout op 0xC 0x8 0xFFFF
  | .fsePeek _ | .fseNext _ => layout op 0xC 0xF 0xFFFF
  | .winPushr _ => layout op 0xF 0xF 0xFF00
  | .nop | .bbrInit | .bbrSkippad | .fbrInit | .fbrUnwind | .hufReadw | .hufBuild | .hufDecode | .winConfig
  | .winPushi | .winPushl | .winRepeat | .winRepgen | .winFlush => layout op 0xF 0xF 0xFFFF

/-- The command's row of the opcode table (R89). -/
def Instr.row (i : Instr) : OpcodeRow := ⟨i.mnemonic, layout (opField (encode i)) 0 0 0, i.mask 0xFF⟩

/-- One command of each row, in the table's order. -/
def rowCommands : List Instr :=
  [.nop, .bbrInit, .bbrSkippad, .bbrRead 0, .fbrInit, .fbrRead 0, .fbrUnwind, .fseReadnc 0 0 0, .fseBuild 0,
   .fsePredef 0 0, .fseRle 0 0, .fseInit 0 0, .fsePeek 0, .fseNext 0, .hufReadw, .hufBuild, .hufDecode, .winConfig,
   .winPushi, .winPushl, .winPushr 0, .winRepeat, .winRepgen, .winFlush]

theorem opcodeTable_eq_map_row : opcodeTable = rowCommands.map Instr.row := by decide +kernel

/-- The operands of a command play no part in its row. -/
theorem Instr.row_mem (i : Instr) : i.row ∈ opcodeTable := by
  cases i <;> simp only [Instr.row, Instr.mnemonic, Instr.mask, encode, opField_layout] <;> decide +kernel

theorem Instr.mask_eq_layout (i : Instr) : ∃ k s imm, ∀ op, i.mask op = layout op k s imm := by
  cases i <;> exact ⟨_, _, _, fun _ => rfl⟩

/-- A word spells a command's row exactly when it has the command's opcode and no reserved bit set. -/
theorem spells_row_iff {w : Word} {i : Instr} :
    w &&& i.row.mask = i.row.fixed ↔ opField w = opField (encode i) ∧ w &&& i.mask 0 = 0#32 := by
  obtain ⟨k, s, imm, hm⟩ := i.mask_eq_layout
  have hzero : (0#32 : Word) = layout 0 0 0 0 := rfl
  have hop : opField w &&& 0xFF = opField w := BitVec.and_allOnes
  have hop0 : opField w &&& 0 = 0 := BitVec.and_zero
  simp only [Instr.row, hm, hzero]
  rw [← layout_fields w]
  simp only [RowMatch.layout_and, layout_inj, opField_layout, hop, hop0, true_and]

/-- The encoded command spells its own row. -/
theorem encode_spells_row (i : Instr) : encode i &&& i.row.mask = i.row.fixed := by
  obtain ⟨r, hr, hmn, hspell⟩ : RowMatch.Statement i := by
    cases i with
    | nop => exact RowMatch.nop
    | bbrInit => exact RowMatch.bbrInit
    | bbrSkippad => exact RowMatch.bbrSkippad
    | bbrRead n => exact RowMatch.bbrRead n
    | fbrInit => exact RowMatch.fbrInit
    | fbrRead n => exact RowMatch.fbrRead n
    | fbrUnwind => exact RowMatch.fbrUnwind
    | fseReadnc τ maxAl maxSym => exact RowMatch.fseReadnc τ maxAl maxSym
    | fseBuild τ => exact RowMatch.fseBuild τ
    | fsePredef τ which => exact RowMatch.fsePredef τ which
    | fseRle τ b => exact RowMatch.fseRle τ b
    | fseInit k τ => exact RowMatch.fseInit k τ
    | fsePeek k => exact RowMatch.fsePeek k
    | fseNext k => exact RowMatch.fseNext k
    | hufReadw => exact RowMatch.hufReadw
    | hufBuild => exact RowMatch.hufBuild
    | hufDecode => exact RowMatch.hufDecode
    | winConfig => exact RowMatch.winConfig
    | winPushi => exact RowMatch.winPushi
    | winPushl => exact RowMatch.winPushl
    | winPushr b => exact RowMatch.winPushr b
    | winRepeat => exact RowMatch.winRepeat
    | winRepgen => exact RowMatch.winRepgen
    | winFlush => exact RowMatch.winFlush
  have hrow : r = i.row := List.inj_on_of_nodup_map opcodeTable_mnemonics_nodup hr i.row_mem hmn
  exact hrow ▸ hspell

/-! ### The fields of an encoded immediate (R86, R87) -/

@[simp] theorem lowByteField_layout_byteImm (op : BitVec 8) (k s : BitVec 4) (b : Byte) :
    lowByteField (layout op k s (byteImm b)) = b := by
  apply BitVec.eq_of_getLsbD_eq
  intro i hi
  simp only [lowByteField, BitVec.getLsbD_extractLsb', getLsbD_layout, getLsbD_byteImm]
  simp [hi, show i < 16 by omega]

@[simp] theorem lowByteField_layout_readncImm (op : BitVec 8) (k s : BitVec 4) (maxAl : BitVec 4) (maxSym : BitVec 8) :
    lowByteField (layout op k s (0#4 ++ maxAl ++ maxSym)) = maxSym := by
  apply BitVec.eq_of_getLsbD_eq
  intro i hi
  simp only [lowByteField, BitVec.getLsbD_extractLsb', getLsbD_layout, getLsbD_readncImm]
  simp [hi, show i < 16 by omega]

@[simp] theorem maxAlField_layout_readncImm (op : BitVec 8) (k s : BitVec 4) (maxAl : BitVec 4) (maxSym : BitVec 8) :
    maxAlField (layout op k s (0#4 ++ maxAl ++ maxSym)) = maxAl := by
  apply BitVec.eq_of_getLsbD_eq
  intro i hi
  simp only [maxAlField, BitVec.getLsbD_extractLsb', getLsbD_layout, getLsbD_readncImm]
  simp [hi, show 8 + i < 16 by omega]

/-! ### Words that spell a row are the encodings (R85, R89) -/

/-- The fields of a word with no bit of a mask set. -/
theorem exists_fields {w : Word} {op : BitVec 8} {k s : BitVec 4} {imm : BitVec 16} (hop : opField w = op)
    (h : w &&& layout 0 k s imm = 0#32) :
    ∃ k' s' imm', k' &&& k = 0#4 ∧ s' &&& s = 0#4 ∧ imm' &&& imm = 0#16 ∧ w = layout op k' s' imm' := by
  rw [← layout_fields w, RowMatch.layout_and] at h
  have hzero : (0#32 : Word) = layout 0 0 0 0 := rfl
  obtain ⟨-, hk, hs, himm⟩ := layout_inj.1 (h.trans hzero)
  exact ⟨_, _, _, hk, hs, himm, hop ▸ (layout_fields w).symm⟩

section
variable {w : Word} {op : BitVec 8} (hop : opField w = op)
include hop

/-- A word that holds at most an immediate. -/
theorem exists_imm {m : BitVec 16} (h : w &&& layout 0 0xF 0xF m = 0#32) :
    ∃ imm, imm &&& m = 0#16 ∧ layout op 0 0 imm = w := by
  obtain ⟨k, s, imm, hk, hs, himm, rfl⟩ := exists_fields hop h
  obtain rfl := eq_zero_of_and_allOnes hk
  obtain rfl := eq_zero_of_and_allOnes hs
  exact ⟨imm, himm, rfl⟩

/-- A word that holds no operand. -/
theorem eq_of_no_operand (h : w &&& layout 0 0xF 0xF 0xFFFF = 0#32) : layout op 0 0 0 = w := by
  obtain ⟨imm, himm, rfl⟩ := exists_imm hop h
  rw [eq_zero_of_and_allOnes himm]
  rfl

/-- A word that holds a slot and at most an immediate. -/
theorem exists_slot_imm {m : BitVec 16} (h : w &&& layout 0 0xF 0x8 m = 0#32) :
    ∃ τ imm, imm &&& m = 0#16 ∧ layout op 0 (slotBits τ) imm = w := by
  obtain ⟨k, s, imm, hk, hs, himm, rfl⟩ := exists_fields hop h
  obtain rfl := eq_zero_of_and_allOnes hk
  obtain ⟨τ, rfl⟩ := exists_slotBits s hs
  exact ⟨τ, imm, himm, rfl⟩

/-- A word that holds a state register and at most a slot. -/
theorem exists_state {m : BitVec 4} (h : w &&& layout 0 0xC m 0xFFFF = 0#32) :
    ∃ k s, s &&& m = 0#4 ∧ layout op (kBits k) s 0 = w := by
  obtain ⟨k, s, imm, hk, hs, himm, rfl⟩ := exists_fields hop h
  obtain ⟨k, rfl⟩ := exists_kBits k hk
  obtain rfl := eq_zero_of_and_allOnes himm
  exact ⟨k, s, hs, rfl⟩

end

/-- A word that spells a command's row is the encoding of a command: its fields are operands of it. -/
theorem exists_encode_of_spells_row {w : Word} {i : Instr} (h : w &&& i.row.mask = i.row.fixed) :
    ∃ j, encode j = w := by
  obtain ⟨hop, hres⟩ := spells_row_iff.1 h
  cases i
  all_goals simp only [encode, opField_layout] at hop
  case nop => exact ⟨.nop, eq_of_no_operand hop hres⟩
  case bbrInit => exact ⟨.bbrInit, eq_of_no_operand hop hres⟩
  case bbrSkippad => exact ⟨.bbrSkippad, eq_of_no_operand hop hres⟩
  case bbrRead _ =>
    obtain ⟨n, -, h⟩ := exists_imm hop hres
    exact ⟨.bbrRead n, h⟩
  case fbrInit => exact ⟨.fbrInit, eq_of_no_operand hop hres⟩
  case fbrRead _ =>
    obtain ⟨n, -, h⟩ := exists_imm hop hres
    exact ⟨.fbrRead n, h⟩
  case fbrUnwind => exact ⟨.fbrUnwind, eq_of_no_operand hop hres⟩
  case fseReadnc _ _ _ =>
    obtain ⟨τ, imm, himm, h⟩ := exists_slot_imm hop hres
    obtain ⟨maxAl, maxSym, rfl⟩ := exists_readncImm himm
    exact ⟨.fseReadnc τ maxAl maxSym, h⟩
  case fseBuild _ =>
    obtain ⟨τ, imm, himm, h⟩ := exists_slot_imm hop hres
    obtain rfl := eq_zero_of_and_allOnes himm
    exact ⟨.fseBuild τ, h⟩
  case fsePredef _ _ =>
    obtain ⟨τ, which, -, h⟩ := exists_slot_imm hop hres
    exact ⟨.fsePredef τ which, h⟩
  case fseRle _ _ =>
    obtain ⟨τ, imm, himm, h⟩ := exists_slot_imm hop hres
    obtain ⟨b, rfl⟩ := exists_byteImm himm
    exact ⟨.fseRle τ b, h⟩
  case fseInit _ _ =>
    obtain ⟨k, s, hs, h⟩ := exists_state hop hres
    obtain ⟨τ, rfl⟩ := exists_slotBits s hs
    exact ⟨.fseInit k τ, h⟩
  case fsePeek _ =>
    obtain ⟨k, s, hs, h⟩ := exists_state hop hres
    obtain rfl := eq_zero_of_and_allOnes hs
    exact ⟨.fsePeek k, h⟩
  case fseNext _ =>
    obtain ⟨k, s, hs, h⟩ := exists_state hop hres
    obtain rfl := eq_zero_of_and_allOnes hs
    exact ⟨.fseNext k, h⟩
  case hufReadw => exact ⟨.hufReadw, eq_of_no_operand hop hres⟩
  case hufBuild => exact ⟨.hufBuild, eq_of_no_operand hop hres⟩
  case hufDecode => exact ⟨.hufDecode, eq_of_no_operand hop hres⟩
  case winConfig => exact ⟨.winConfig, eq_of_no_operand hop hres⟩
  case winPushi => exact ⟨.winPushi, eq_of_no_operand hop hres⟩
  case winPushl => exact ⟨.winPushl, eq_of_no_operand hop hres⟩
  case winPushr _ =>
    obtain ⟨imm, himm, h⟩ := exists_imm hop hres
    obtain ⟨b, rfl⟩ := exists_byteImm himm
    exact ⟨.winPushr b, h⟩
  case winRepeat => exact ⟨.winRepeat, eq_of_no_operand hop hres⟩
  case winRepgen => exact ⟨.winRepgen, eq_of_no_operand hop hres⟩
  case winFlush => exact ⟨.winFlush, eq_of_no_operand hop hres⟩

/-- The rows of the opcode table are spelled by the encodings and by no other word (R89). -/
theorem spells_some_row_iff {w : Word} :
    (∃ r ∈ opcodeTable, w &&& r.mask = r.fixed) ↔ ∃ i, encode i = w := by
  refine ⟨?_, fun ⟨i, hi⟩ => ⟨i.row, i.row_mem, hi ▸ encode_spells_row i⟩⟩
  rw [opcodeTable_eq_map_row]
  rintro ⟨r, hr, hspell⟩
  obtain ⟨i, -, rfl⟩ := List.mem_map.1 hr
  exact exists_encode_of_spells_row hspell

/-! ### The decoder on encodings, and on no other word (R85, R90 to R92) -/

/-- The decoder reads an encoded command back and checks its immediate (R92). -/
theorem decode_encode (i : Instr) :
    decode (encode i) = if i.wellFormed then .ok i else .error .immediateRange := by
  have hres : encode i &&& i.mask 0 = 0#32 := (spells_row_iff.1 (encode_spells_row i)).2
  -- each field of the encoded word is the operand put there, by the field lemmas of `layout`
  have hread : decode (encode i) = checked (encode i) (i.mask 0) i := by
    cases i <;> simp [encode, Instr.mask, decode] <;> rfl
  rw [hread, checked, if_neg (not_not.2 hres)]

/-- What decodes has the opcode of a command and no reserved bit set, so is an encoding. -/
theorem exists_encode_of_decode {w : Word} {i : Instr} (h : decode w = .ok i) : ∃ j, encode j = w := by
  suffices hspell : opField w = opField (encode i) ∧ w &&& i.mask 0 = 0#32 from
    exists_encode_of_spells_row (spells_row_iff.2 hspell)
  unfold decode at h
  split at h
  case h_25 => cases h
  all_goals
    obtain ⟨hres, -, rfl⟩ := checked_ok_iff.1 h
    exact ⟨by simpa [encode], hres⟩

/-- A word decodes to a command exactly when the command is legal and the word is its encoding (R85, R87). -/
theorem decode_eq_ok_iff {w : Word} {i : Instr} : decode w = .ok i ↔ encode i = w ∧ i.wellFormed = true := by
  refine ⟨fun h => ?_, fun ⟨hw, hi⟩ => by rw [← hw, decode_encode, if_pos hi]⟩
  obtain ⟨j, rfl⟩ := exists_encode_of_decode h
  rw [decode_encode] at h
  split_ifs at h with hj
  cases h
  exact ⟨rfl, hj⟩

/-- The immediate of a word is in the range R92 gives its opcode. -/
def ImmediateInRange (w : Word) : Prop :=
  (opField w = 0x03#8 ∨ opField w = 0x09#8 → (immField w).toNat ≤ 64) ∧
  (opField w = 0x10#8 → (maxAlField w).toNat ≤ 9) ∧
  (opField w = 0x12#8 → (immField w).toNat ≤ 2)

/-- A command's ranges are those of its word. -/
theorem immediateInRange_encode (i : Instr) : ImmediateInRange (encode i) ↔ i.wellFormed = true := by
  cases i <;> simp [ImmediateInRange, encode, Instr.wellFormed] <;> rfl

/-- The words that decode are those that spell a row with an immediate in range (R89). -/
theorem exists_decode_eq_ok_iff {w : Word} :
    (∃ i, decode w = .ok i) ↔ (∃ r ∈ opcodeTable, w &&& r.mask = r.fixed) ∧ ImmediateInRange w := by
  simp only [spells_some_row_iff, decode_eq_ok_iff]
  constructor
  · rintro ⟨i, rfl, hi⟩
    exact ⟨⟨i, rfl⟩, (immediateInRange_encode i).2 hi⟩
  · rintro ⟨⟨i, rfl⟩, hrange⟩
    exact ⟨i, rfl, (immediateInRange_encode i).1 hrange⟩

/-! ### The obligations -/

/-- Settles O1: the decoder reads every encoded command back, and a legal one passes its check. -/
theorem decodeInvertsEncode : Obligations.DecodeInvertsEncode := by
  unfold Obligations.DecodeInvertsEncode
  intro i hi
  exact decode_eq_ok_iff.2 ⟨rfl, hi⟩

/-- Settles O2: a word that decodes is some command's encoding, and the decoder reads that command back. -/
theorem encodeInvertsDecode : Obligations.EncodeInvertsDecode := by
  unfold Obligations.EncodeInvertsDecode
  intro w i h
  exact decode_eq_ok_iff.1 h

/-- Settles O3: the words that spell a row are the encodings, and those that decode are the encodings of the commands in
range. -/
theorem legalWordsMatchTheTable : Obligations.LegalWordsMatchTheTable := by
  unfold Obligations.LegalWordsMatchTheTable
  refine fun w => ⟨exists_decode_eq_ok_iff, fun i h => ?_⟩
  obtain ⟨rfl, -⟩ := decode_eq_ok_iff.1 h
  exact ⟨i.row, i.row_mem, rfl, encode_spells_row i⟩

/-- Settles O4: each word is evaluated. -/
theorem sampleWordsDecode : Obligations.SampleWordsDecode := by
  unfold Obligations.SampleWordsDecode
  decide +kernel

end Sys2Proof

namespace Sys2Proof.Machine

/-- The block's turn on a word that spells no legal command faults at once: it gives the sink no byte, so it need not
wait (R251, R252). -/
theorem blockTurn_illegal {s : State} {w : Word} {e : DecodeError} (hp : s.pending = some w) (hf : s.fault = false)
    (hd : decode w = .error e) : blockTurn s = .next (s.faulted 0x01 true w) := by
  have hexec : execute w s = .next (s.faulted 0x01 true w) := by
    rw [execute, hd]
    exact congrArg _ (faultEntry_eq_faulted hf _ _)
  have hwaits : s.waits (s.faulted 0x01 true w) = false := by simp [State.waits, State.faulted]
  simp only [blockTurn, hp, hf, hexec, hwaits, Bool.false_eq_true, if_false]

/-- Settles O6: the scheduled turn is the block's, on a word that spells no legal command. -/
theorem illegalWordFaults : Obligations.IllegalWordFaults := by
  unfold Obligations.IllegalWordFaults
  intro s w e rest hp hf hd hs
  have hstep : step s = blockTurn { s with schedule := rest } := by rw [step, hs]; rfl
  exact hstep.trans (blockTurn_illegal (s := { s with schedule := rest }) hp hf hd)

end Sys2Proof.Machine

/-! ## Bit strings, their bytes and their integers (00_scope.md R8; 40_bitreaders.md R114, R120, R124) -/

namespace Sys2Proof.Machine

/-! ### Slices of a byte string's integer (R114, R120) -/

/-- Bit `p` of a byte string's integer is a bit of byte `p / 8` (00_scope.md R8). -/
theorem testBit_leInt {bs : List Byte} {p : Nat} (hp : p / 8 < bs.length) :
    (leInt bs).testBit p = (bs[p / 8]'hp).getLsbD (p % 8) := by
  induction bs generalizing p with
  | nil => exact absurd hp (Nat.not_lt_zero _)
  | cons b bs ih =>
    have hb : b.toNat < 2 ^ 8 := b.isLt
    rw [leInt, Nat.add_comm, show 256 = 2 ^ 8 from rfl, Nat.testBit_two_pow_mul_add _ hb]
    split_ifs with h
    · simp [Nat.div_eq_of_lt h, Nat.mod_eq_of_lt h, BitVec.getLsbD]
    · have hdiv : p / 8 = (p - 8) / 8 + 1 := by omega
      have hmod : p % 8 = (p - 8) % 8 := by omega
      rw [ih (by simp at hp; omega)]
      simp [hdiv, hmod]

/-- `X[p+n : p]` is bit `p` below `X[p+n : p+1]`. -/
theorem bitsFrom_succ (x p n : Nat) : bitsFrom x p (n + 1) = (x.testBit p).toNat + 2 * bitsFrom x (p + 1) n := by
  rw [bitsFrom, bitsFrom, Nat.toNat_testBit, pow_succ' 2 n, Nat.mod_mul, Nat.div_div_eq_div_mul, ← pow_succ]

/-- A cursor at or below the start has no bits below it but zeros. -/
theorem bitsBelow_of_nonpos (x : Nat) {rem : Int} (h : rem ≤ 0) (n : Nat) : bitsBelow x rem n = 0 := by
  simp [bitsBelow, Int.toNat_of_nonpos h]

/-- `X[r : r-n]` is bit `r` above `X[r-1 : r-n]`. -/
theorem bitsBelow_succ (x r n : Nat) :
    bitsBelow x (r + 1) (n + 1) = (x.testBit r).toNat * 2 ^ n + bitsBelow x r n := by
  have hr : ((r : Int) + 1).toNat = r + 1 := rfl
  rw [bitsBelow, bitsBelow, hr, Int.toNat_natCast, pow_succ 2 n, pow_succ 2 r, ← Nat.mul_assoc,
    Nat.mul_div_mul_right _ _ (by norm_num), Nat.mod_mul, Nat.toNat_testBit, Nat.div_div_eq_div_mul,
    Nat.mul_comm (2 ^ r), ← Nat.div_div_eq_div_mul, Nat.mul_div_cancel _ (Nat.two_pow_pos n)]
  ring

/-- Where all the bits asked for are there, those below a cursor are those from `n` below it. -/
theorem bitsBelow_add (x r n : Nat) : bitsBelow x (r + n : Nat) n = bitsFrom x r n := by
  rw [bitsBelow, bitsFrom, Int.toNat_natCast, pow_add, Nat.mul_div_mul_right _ _ (Nat.two_pow_pos n)]

/-! ### Bits written and packed (R124) -/

theorem natOfBits_append (as bs : List Bool) : natOfBits (as ++ bs) = natOfBits as + 2 ^ as.length * natOfBits bs := by
  induction as with
  | nil => simp [natOfBits]
  | cons a as ih =>
    rw [List.cons_append, natOfBits, natOfBits, ih, List.length_cons, pow_succ]
    ring

theorem natOfBits_lt (bs : List Bool) : natOfBits bs < 2 ^ bs.length := by
  induction bs with
  | nil => simp [natOfBits]
  | cons b bs ih =>
    have := b.toNat_le
    rw [natOfBits, List.length_cons, pow_succ]
    omega

@[simp] theorem length_bitsOf (n v : Nat) : (bitsOf n v).length = n := by simp [bitsOf]

/-- The `n` bits of a value spell its remainder by `2^n`. -/
theorem natOfBits_bitsOf (n v : Nat) : natOfBits (bitsOf n v) = v % 2 ^ n := by
  induction n generalizing v with
  | zero => simp [bitsOf, natOfBits, Nat.mod_one]
  | succ n ih =>
    have hbits : bitsOf (n + 1) v = v.testBit 0 :: bitsOf n (v / 2) := by
      simp [bitsOf, List.range_succ_eq_map, Nat.testBit_succ]
    rw [hbits, natOfBits, ih, Nat.toNat_testBit, pow_succ' 2 n, Nat.mod_mul]
    simp

/-- The bits of one value, found between those before and those after it. -/
theorem bitsFrom_natOfBits (pre post : List Bool) {n v : Nat} (hv : v < 2 ^ n) :
    bitsFrom (natOfBits (pre ++ (bitsOf n v ++ post))) pre.length n = v := by
  rw [bitsFrom, natOfBits_append, Nat.add_mul_div_left _ _ (Nat.two_pow_pos _), Nat.div_eq_of_lt (natOfBits_lt pre),
    natOfBits_append, natOfBits_bitsOf, length_bitsOf, Nat.zero_add, Nat.add_mul_mod_self_left, Nat.mod_mod,
    Nat.mod_eq_of_lt hv]

theorem length_packBits (bits : List Bool) : (packBits bits).length = ceilDiv bits.length 8 := by simp [packBits]

/-- Packing takes eight bits at a time. -/
theorem packBits_of_ne_nil {bits : List Bool} (h : bits ≠ []) :
    packBits bits = BitVec.ofNat 8 (natOfBits (bits.take 8)) :: packBits (bits.drop 8) := by
  have hlen := List.length_pos_of_ne_nil h
  have hceil : ceilDiv bits.length 8 = ceilDiv (bits.length - 8) 8 + 1 := by simp only [ceilDiv]; omega
  simp [packBits, hceil, List.range_succ_eq_map, Nat.mul_add, Nat.add_comm 8]

/-- The bytes packed spell the integer of the bits. -/
theorem leInt_packBits (bits : List Bool) : leInt (packBits bits) = natOfBits bits := by
  induction hn : bits.length using Nat.strong_induction_on generalizing bits with
  | _ n ih =>
    rcases eq_or_ne bits [] with rfl | h
    · rfl
    · have hlen := List.length_pos_of_ne_nil h
      have hhead : natOfBits (bits.take 8) < 2 ^ 8 :=
        (natOfBits_lt _).trans_le (Nat.pow_le_pow_right (by norm_num) (by simp))
      have hsplit := natOfBits_append (bits.take 8) (bits.drop 8)
      rw [List.take_append_drop] at hsplit
      rw [packBits_of_ne_nil h, leInt, ih _ (by rw [List.length_drop]; omega) _ rfl, BitVec.toNat_ofNat,
        Nat.mod_eq_of_lt hhead, hsplit]
      by_cases h8 : 8 ≤ bits.length
      · simp [h8]
      · simp [List.drop_eq_nil_of_le (Nat.le_of_not_le h8), natOfBits]

end Sys2Proof.Machine

/-! ## What the bit readers' commands return and write (40_bitreaders.md R111 to R123; 41_fse.md R154, R156) -/

namespace Sys2Proof.Machine

/-! ### The readers' loops over bytes that are written -/

/-- The forward loop over bytes that are written returns their bits, and draws nothing (R119, R120). -/
theorem fwdBits_of_holds {ibuf : Memory Byte} {base : Nat} {bs : List Byte} (h : ibuf.holds base bs) {n p : Nat}
    (hp : p + n ≤ 8 * bs.length) (draws : Nat) :
    fwdBits ibuf base n p draws = (bitsFrom (leInt bs) p n, draws) := by
  induction n generalizing p with
  | zero => simp [fwdBits, bitsFrom, Nat.mod_one]
  | succ n ih =>
    have hlt : p / 8 < bs.length := by omega
    have hbit : fwdBit ibuf base p draws = ((leInt bs).testBit p, draws) := by
      rw [fwdBit_listed (h _ hlt), testBit_leInt hlt]
    rw [fwdBits, hbit, bitsFrom_succ]
    simp only [ih (p := p + 1) (by omega)]

/-- The backward loop over bytes that are written shifts in their bits, zeros below position 0, and draws nothing
(R113, R114). -/
theorem backBits_of_holds {ibuf : Memory Byte} {base : Nat} {bs : List Byte} (h : ibuf.holds base bs) {n : Nat}
    {rem : Int} (hrem : rem ≤ 8 * bs.length) (v draws : Nat) :
    backBits ibuf base n (rem - 1) v draws = (v * 2 ^ n + bitsBelow (leInt bs) rem n, draws) := by
  induction n generalizing rem v with
  | zero => simp [backBits, bitsBelow, Nat.mod_one]
  | succ n ih =>
    rcases le_or_gt rem 0 with hneg | hpos
    · have hbit : backBit ibuf base (rem - 1) draws = (false, draws) := by rw [backBit, if_pos (by omega)]
      rw [backBits, hbit]
      simp only [ih (rem := rem - 1) (by omega)]
      rw [bitsBelow_of_nonpos _ hneg, bitsBelow_of_nonpos _ (by omega), Bool.toNat_false, pow_succ]
      congr 1
      ring
    · obtain ⟨r, rfl⟩ : ∃ r : Nat, rem = r + 1 := ⟨(rem - 1).toNat, by omega⟩
      have hlt : r / 8 < bs.length := by omega
      have hbit : backBit ibuf base r draws = ((leInt bs).testBit r, draws) := by
        rw [backBit_listed (h _ hlt), testBit_leInt hlt]
      rw [backBits, Int.add_sub_cancel, hbit]
      simp only [ih (rem := r) (by omega)]
      rw [bitsBelow_succ, pow_succ]
      congr 1
      ring

/-! ### A fault before anything is written, and the words it records -/

/-- A command that raises a first fault, with nothing written yet, records it under its own word (60_exceptions.md
R270). -/
theorem exec_raise {i : Instr} {c : FaultCode} {s : State} (hs : s.fault = false) (h : ending i s = .raise c s) :
    exec i s = .next (s.faulted c.number c.isProgramming (encode i)) := by
  rw [exec_eq, h]
  exact congrArg _ (faultEntry_eq_faulted hs c (encode i))

/-- The immediate of a command word stands beside its opcode (30_encoding.md R85). -/
theorem layout_imm (op : BitVec 8) (imm : BitVec 16) : layout op 0 0 imm = layout op 0 0 0 ||| imm.setWidth 32 := by
  apply BitVec.eq_of_getLsbD_eq
  intro i hi
  simp only [BitVec.getLsbD_or, BitVec.getLsbD_setWidth, getLsbD_layout]
  by_cases hlow : i < 16
  · simp [hlow, hi]
  · simp [hlow, BitVec.getLsbD_of_ge imm i (by omega)]

/-! ### `BBR.INIT` and `FBR.INIT` (R111, R118) -/

/-- `BBR.INIT` over a range of IBUF opens the reader there, its cursor at the last bit (R111). -/
theorem bbrInit_done {s : State} (h : s.arg0.toNat + s.arg1.toNat ≤ 131072) :
    exec .bbrInit s = .next { s.ended with br := ⟨s.arg0, s.arg1, 8 * s.arg1⟩ } := by
  have hrem : BitVec.ofNat 32 (8 * s.arg1.toNat) = 8 * s.arg1 := by simp [BitVec.ofNat_mul]
  have hin : inIbuf s.opArg0 s.opArg1 = true := (inIbuf_iff _ _).2 h
  rw [exec_eq, ending, bbrInit, if_pos hin, BackReader.opened, State.opArg0, State.opArg1, hrem,
    BitVec.ofNat_toNat, BitVec.ofNat_toNat, BitVec.setWidth_eq, BitVec.setWidth_eq]
  rfl

/-- `FBR.INIT` over a range of IBUF opens the reader there, its cursor at the first bit (R118). -/
theorem fbrInit_done {s : State} (h : s.arg0.toNat + s.arg1.toNat ≤ 131072) :
    exec .fbrInit s = .next { s.ended with fr := ⟨s.arg0, s.arg1, 0, false⟩ } := by
  have hin : inIbuf s.opArg0 s.opArg1 = true := (inIbuf_iff _ _).2 h
  rw [exec_eq, ending, fbrInit, if_pos hin, FwdReader.opened, State.opArg0, State.opArg1,
    BitVec.ofNat_toNat, BitVec.ofNat_toNat, BitVec.setWidth_eq, BitVec.setWidth_eq]
  rfl

/-- Settles O18: the range check decides, and what is opened are the operands themselves. -/
theorem initOpensItsReader : Obligations.InitOpensItsReader := by
  unfold Obligations.InitOpensItsReader
  refine fun s => ⟨fun h => ⟨bbrInit_done h, fbrInit_done h⟩, fun h hs => ?_⟩
  have hout : ¬ inIbuf s.opArg0 s.opArg1 = true := by rw [inIbuf_iff]; exact Nat.not_le.2 h
  have hb : ending .bbrInit s = .raise .range s := if_neg hout
  have hf : ending .fbrInit s = .raise .range s := if_neg hout
  exact ⟨exec_raise hs hb, exec_raise hs hf⟩

/-! ### `BBR.SKIPPAD` (R112) -/

/-- The highest set bit of a byte, by its bits. -/
theorem hsb_toNat_of_highest {b : Byte} {p : Nat} (hbit : b.getLsbD p = true)
    (hhigh : ∀ q, p < q → q < 8 → b.getLsbD q = false) : hsb b.toNat = p := by
  refine hsb_unique (Nat.ge_two_pow_of_testBit hbit) (Nat.lt_pow_two_of_testBit _ fun q hq => ?_)
  rcases Nat.lt_or_ge q 8 with h8 | h8
  · exact hhigh q hq h8
  · exact BitVec.getLsbD_of_ge b q h8

/-- `BBR.SKIPPAD` over a last byte that is written and not 0 leaves the bits below its highest set bit (R112). -/
theorem bbrSkippad_done {s : State} {b : Byte} (hlen : s.br.len ≠ 0)
    (h : s.ibuf.get? (s.br.base.toNat + s.br.len.toNat - 1) = some b) (hb : b ≠ 0) :
    exec .bbrSkippad s = .next { s.ended with
      br := { s.br with rem := BitVec.ofNat 32 (8 * (s.br.len.toNat - 1) + hsb b.toNat) } } := by
  have hlen' : s.br.len.toNat ≠ 0 := fun e => hlen (BitVec.eq_of_toNat_eq e)
  have hread : s.back.skipPad s.ibuf = .ok () { reader := { s.br with
      rem := BitVec.ofNat 32 (8 * (s.br.len.toNat - 1) + hsb b.toNat) }, draws := s.draws } := by
    simp only [BackCursor.skipPad, State.back, if_neg hlen', Memory.readByte_listed h]
    rw [if_neg (c := b = 0#8) hb]
  rw [exec_eq, ending, bbrSkippad, hread]
  rfl

/-- `BBR.SKIPPAD` faults where its reader's skip does, and leaves the reader as it was. -/
theorem bbrSkippad_badPadding {s : State} (hs : s.fault = false)
    (h : s.back.skipPad s.ibuf = .raise .badPadding s.back) :
    exec .bbrSkippad s = .next (s.faulted 0x05 false 0x02000000) := by
  have hraise : ending .bbrSkippad s = .raise .badPadding s := by rw [ending, bbrSkippad, h]; rfl
  exact exec_raise hs hraise

/-- Settles O19: the padding skip's three cases, over a last byte that is written. -/
theorem skippadCountsRealBits : Obligations.SkippadCountsRealBits := by
  unfold Obligations.SkippadCountsRealBits
  refine fun s => ⟨fun b hlen hget => ⟨fun p _ hbit hhigh => ?_, fun hb hs => ?_⟩, fun hlen hs => ?_⟩
  · have hne : b ≠ 0 := by rintro rfl; simp at hbit
    rw [bbrSkippad_done hlen hget hne, hsb_toNat_of_highest hbit hhigh]
  · refine bbrSkippad_badPadding hs ?_
    have hlen' : s.br.len.toNat ≠ 0 := fun e => hlen (BitVec.eq_of_toNat_eq e)
    simp only [BackCursor.skipPad, State.back, if_neg hlen', Memory.readByte_listed hget]
    rw [if_pos (c := b = 0#8) hb]
  · refine bbrSkippad_badPadding hs ?_
    simp [BackCursor.skipPad, State.back, hlen]

/-! ### The reads and the unwind (R114, R115, R120 to R123) -/

/-- A read of at most 64 bits passes the immediate check (30_encoding.md R92). -/
theorem not_maxRead_lt {n : BitVec 16} (hn : n.toNat ≤ 64) : ¬ n.toNat > Config.maxRead := Nat.not_lt.2 hn

/-- A read that would take the cursor below the register's range faults before it reads a bit (R114). -/
theorem BackCursor.read_brRange {c : BackCursor} {n : Nat} (h : c.reader.rem.toInt - n < -2 ^ 31)
    (ibuf : Memory Byte) : c.read ibuf n = .raise .brRange c := by
  rcases c.read_cases ibuf n with ⟨-, hr⟩ | ⟨hlo, -⟩
  · exact hr
  · omega

/-- `BBR.READ` returns what the backward loop does, and moves the cursor (R115). -/
theorem bbrRead_done {s : State} {n : BitVec 16} (hn : n.toNat ≤ 64) (hlo : -2 ^ 31 ≤ s.br.rem.toInt - n.toNat) :
    ∃ v draws, v < 2 ^ n.toNat ∧
      backBits s.ibuf s.br.base.toNat n.toNat (s.br.rem.toInt - 1) 0 s.draws = (v, draws) ∧
      exec (.bbrRead n) s = .next { s.ended with
        br := { s.br with rem := BitVec.ofInt 32 (s.br.rem.toInt - n.toNat) }
        res := BitVec.ofNat 64 v, draws := draws } := by
  rcases s.back.read_cases s.ibuf n.toNat with ⟨hlt, -⟩ | ⟨-, v, draws, hv, hbits, hread⟩
  · exact absurd hlo (not_le.2 hlt)
  · refine ⟨v, draws, hv, hbits, ?_⟩
    rw [exec_eq, ending, bbrRead, if_neg (not_maxRead_lt hn), hread]
    rfl

/-- `FBR.READ` returns what the forward loop does, and moves the cursor (R122). -/
theorem fbrRead_done {s : State} {n : BitVec 16} (hn : n.toNat ≤ 64)
    (hpos : s.fr.pos.toNat + n.toNat ≤ 8 * s.fr.len.toNat) :
    ∃ v draws, v < 2 ^ n.toNat ∧
      fwdBits s.ibuf s.fr.base.toNat n.toNat s.fr.pos.toNat s.draws = (v, draws) ∧
      exec (.fbrRead n) s = .next { s.ended with
        fr := { s.fr with pos := s.fr.pos + n.setWidth 32, unw := s.fr.unw || n != 0 }
        res := BitVec.ofNat 64 v, draws := draws } := by
  rcases s.fwd.read_cases s.ibuf n.toNat with ⟨hlt, -⟩ | ⟨-, v, draws, hv, hbits, hread⟩
  · exact absurd hpos (Nat.not_le.2 hlt)
  · refine ⟨v, draws, hv, hbits, ?_⟩
    have hpos' : BitVec.ofNat 32 (s.fr.pos.toNat + n.toNat) = s.fr.pos + n.setWidth 32 := by
      rw [BitVec.ofNat_add, BitVec.ofNat_toNat, BitVec.ofNat_toNat, BitVec.setWidth_eq]
    have hunw : decide (1 ≤ n.toNat) = (n != 0) := by
      rw [Bool.eq_iff_iff, decide_eq_true_iff, bne_iff_ne, Nat.one_le_iff_ne_zero, ne_eq, ne_eq, BitVec.toNat_eq]
      rfl
    rw [exec_eq, ending, fbrRead, if_neg (not_maxRead_lt hn), hread]
    simp only [State.fwd, hpos', hunw]
    rfl

/-- Settles O20: the loop returns at most `n` bits, and over written bytes those below the cursor. -/
theorem bbrReadReturnsTheBitsBelowTheCursor : Obligations.BbrReadReturnsTheBitsBelowTheCursor := by
  unfold Obligations.BbrReadReturnsTheBitsBelowTheCursor
  intro s n hn hlo
  obtain ⟨v, draws, hv, hbits, hexec⟩ := bbrRead_done hn hlo
  refine ⟨v, draws, hv, hexec, fun bs hbs hrem => ?_⟩
  rw [backBits_of_holds hbs hrem, Nat.zero_mul, Nat.zero_add, Prod.mk.injEq] at hbits
  exact ⟨hbits.1.symm, hbits.2.symm⟩

/-- Settles O22: the loop returns at most `n` bits, and over written bytes those at the cursor. -/
theorem fbrReadReturnsTheBitsAtTheCursor : Obligations.FbrReadReturnsTheBitsAtTheCursor := by
  unfold Obligations.FbrReadReturnsTheBitsAtTheCursor
  refine fun s n hn => ⟨fun hpos => ?_, fun hpos hs => ?_⟩
  · obtain ⟨v, draws, hv, hbits, hexec⟩ := fbrRead_done hn hpos
    refine ⟨v, draws, hv, hexec, fun bs hbs hle => ?_⟩
    rw [fwdBits_of_holds hbs hle, Prod.mk.injEq] at hbits
    exact ⟨hbits.1.symm, hbits.2.symm⟩
  · have hread : s.fwd.read s.ibuf n.toNat = .raise .endOfInput s.fwd := by
      rcases s.fwd.read_cases s.ibuf n.toNat with ⟨-, hr⟩ | ⟨hle, -⟩
      · exact hr
      · exact absurd hpos (Nat.not_lt.2 hle)
    have hraise : ending (.fbrRead n) s = .raise .endOfInput s := by
      rw [ending, fbrRead, if_neg (not_maxRead_lt hn), hread]
      rfl
    rw [exec_raise hs hraise, encode, layout_imm]
    rfl

/-- Settles O21: in each command the read is the first thing that could write, and it faults before it does. -/
theorem backwardCursorBoundFaults : Obligations.BackwardCursorBoundFaults := by
  unfold Obligations.BackwardCursorBoundFaults
  refine fun s n k τ e hs => ⟨fun hn hlo => ?_, fun hvalid hlo => ?_, fun hbound hget hlo => ?_⟩
  · have hraise : ending (.bbrRead n) s = .raise .brRange s := by
      rw [ending, bbrRead, if_neg (not_maxRead_lt hn), BackCursor.read_brRange (by exact hlo)]
      rfl
    rw [exec_raise hs hraise, encode, layout_imm]
    rfl
  · have hraise : ending (.fseInit k τ) s = .raise .brRange s := by
      rw [ending, fseInit, if_pos hvalid, BackCursor.read_brRange (by exact hlo)]
      rfl
    exact exec_raise hs hraise
  · have hraise : ending (.fseNext k) s = .raise .brRange s := by
      rw [ending, fseNext, if_pos hbound, State.fseEntry, Memory.readDt_listed hget]
      simp only []
      rw [BackCursor.read_brRange (by exact hlo)]
      rfl
    exact exec_raise hs hraise

/-- Settles O23: the one bit that may be unwound decides. -/
theorem unwindGivesBackOneBit : Obligations.UnwindGivesBackOneBit := by
  unfold Obligations.UnwindGivesBackOneBit
  refine fun s => ⟨fun hunw => ?_, fun hunw hs => ?_⟩
  · have hdone : s.fwd.unwind =
        .ok () { reader := { s.fr with pos := s.fr.pos - 1, unw := false }, draws := s.draws } := if_pos hunw
    rw [exec_eq, ending, fbrUnwind, hdone]
    rfl
  · have hraise : ending .fbrUnwind s = .raise .cannotUnwind s := by
      have hu : s.fwd.unwind = .raise .cannotUnwind s.fwd := if_neg (by simp [State.fwd, hunw])
      rw [ending, fbrUnwind, hu]
      rfl
    exact exec_raise hs hraise

end Sys2Proof.Machine

/-! ## The inverse laws of the bit readers (40_bitreaders.md R124) -/

namespace Sys2Proof.Machine

/-- The bytes packed hold all the bits. -/
theorem length_le_packBits (bits : List Bool) : bits.length ≤ 8 * (packBits bits).length := by
  rw [length_packBits]
  exact ceilDiv_mul_ge _ (by norm_num)

theorem forwardBits_cons (n v : Nat) (vs : List (Nat × Nat)) :
    forwardBits ((n, v) :: vs) = bitsOf n v ++ forwardBits vs :=
  rfl

/-- The value read first by the backward reader is the one its writer appended last. -/
theorem forwardBits_reverse_cons (n v : Nat) (vs : List (Nat × Nat)) :
    forwardBits ((n, v) :: vs).reverse = forwardBits vs.reverse ++ bitsOf n v := by
  simp [forwardBits]

/-- A width that may be read fits the immediate. -/
theorem toNat_ofNat16_of_le {n : Nat} (hn : n ≤ 64) : (BitVec.ofNat 16 n).toNat = n := by
  rw [BitVec.toNat_ofNat, Nat.mod_eq_of_lt (by omega)]

/-- A value of a width that may be read fits `RES`. -/
theorem toNat_ofNat64_of_lt {n v : Nat} (hn : n ≤ 64) (hv : v < 2 ^ n) : (BitVec.ofNat 64 v).toNat = v := by
  rw [BitVec.toNat_ofNat, Nat.mod_eq_of_lt (hv.trans_le (Nat.pow_le_pow_right (by norm_num) hn))]

section
variable {s : State} {pre post : List Bool} {n v : Nat} (hn : n ≤ 64) (hv : v < 2 ^ n)
include hn hv

/-- Where the bits of a value end at the backward cursor, `BBR.READ` returns it and moves to where they begin. -/
theorem bbrRead_written (hbs : s.ibuf.holds s.br.base.toNat (packBits (pre ++ (bitsOf n v ++ post))))
    (hrem : s.br.rem.toInt = (pre.length + n : Nat)) :
    ∃ t, exec (.bbrRead (BitVec.ofNat 16 n)) s = .next t ∧ t.fault = s.fault ∧ t.res.toNat = v ∧ t.ibuf = s.ibuf ∧
      t.br.base = s.br.base ∧ t.br.rem.toInt = pre.length := by
  have hn16 := toNat_ofNat16_of_le hn
  have hmax := s.br.rem.toInt_lt
  have hfit := length_le_packBits (pre ++ (bitsOf n v ++ post))
  simp only [List.length_append, length_bitsOf] at hfit
  obtain ⟨v', draws, -, hexec, hval⟩ :=
    bbrReadReturnsTheBitsBelowTheCursor s (BitVec.ofNat 16 n) (by omega) (by omega)
  obtain ⟨rfl, -⟩ := hval _ hbs (by omega)
  have hv' : bitsBelow (leInt (packBits (pre ++ (bitsOf n v ++ post)))) s.br.rem.toInt
      (BitVec.ofNat 16 n).toNat = v := by
    rw [hrem, hn16, bitsBelow_add, leInt_packBits, bitsFrom_natOfBits _ _ hv]
  refine ⟨_, hexec, rfl, ?_, rfl, rfl, ?_⟩
  · rw [hv', toNat_ofNat64_of_lt hn hv]
  · show (BitVec.ofInt 32 (s.br.rem.toInt - (BitVec.ofNat 16 n).toNat)).toInt = _
    rw [BitVec.toInt_ofInt_eq_self (by norm_num) (by omega) (by omega)]
    omega

/-- Where the bits of a value begin at the forward cursor, `FBR.READ` returns it and moves past them. -/
theorem fbrRead_written (hbs : s.ibuf.holds s.fr.base.toNat (packBits (pre ++ (bitsOf n v ++ post))))
    (hlen : s.fr.len.toNat = (packBits (pre ++ (bitsOf n v ++ post))).length) (hmax : s.fr.len.toNat ≤ 131072)
    (hpos : s.fr.pos.toNat = pre.length) :
    ∃ t, exec (.fbrRead (BitVec.ofNat 16 n)) s = .next t ∧ t.fault = s.fault ∧ t.res.toNat = v ∧ t.ibuf = s.ibuf ∧
      t.fr.base = s.fr.base ∧ t.fr.len = s.fr.len ∧ t.fr.pos.toNat = pre.length + n := by
  have hn16 := toNat_ofNat16_of_le hn
  have hfit := length_le_packBits (pre ++ (bitsOf n v ++ post))
  simp only [List.length_append, length_bitsOf] at hfit
  obtain ⟨hread, -⟩ := fbrReadReturnsTheBitsAtTheCursor s (BitVec.ofNat 16 n) (by omega)
  obtain ⟨v', draws, -, hexec, hval⟩ := hread (by omega)
  obtain ⟨rfl, -⟩ := hval _ hbs (by omega)
  have hv' : bitsFrom (leInt (packBits (pre ++ (bitsOf n v ++ post)))) s.fr.pos.toNat
      (BitVec.ofNat 16 n).toNat = v := by
    rw [hpos, hn16, leInt_packBits, bitsFrom_natOfBits _ _ hv]
  refine ⟨_, hexec, rfl, ?_, rfl, rfl, rfl, ?_⟩
  · rw [hv', toNat_ofNat64_of_lt hn hv]
  · show (s.fr.pos + (BitVec.ofNat 16 n).setWidth 32).toNat = _
    rw [BitVec.toNat_add, BitVec.toNat_setWidth, hn16, hpos]
    omega

end

/-- The values a forward writer was fed in reverse are read back by the backward reader that stands at their end. -/
theorem bbrReads_returnInOrder {s : State} {vs : List (Nat × Nat)} {post : List Bool}
    (hvs : ∀ p ∈ vs, p.1 ≤ 64 ∧ p.2 < 2 ^ p.1) (hs : s.fault = false)
    (hbs : s.ibuf.holds s.br.base.toNat (packBits (forwardBits vs.reverse ++ post)))
    (hrem : s.br.rem.toInt = (forwardBits vs.reverse).length) :
    ReturnsInOrder .bbrRead (fun e => e.br.rem = 0) vs s := by
  induction vs generalizing s post with
  | nil => exact BitVec.eq_of_toInt_eq hrem
  | cons p vs ih =>
    obtain ⟨n, v⟩ := p
    obtain ⟨hp, hvs⟩ := List.forall_mem_cons.1 hvs
    rw [forwardBits_reverse_cons, List.append_assoc] at hbs
    rw [forwardBits_reverse_cons, List.length_append, length_bitsOf] at hrem
    obtain ⟨t, hexec, hfault, hres, hibuf, hbase, hrem'⟩ := bbrRead_written hp.1 hp.2 hbs hrem
    exact ⟨t, hexec, hfault.trans hs, hres, ih hvs (hfault.trans hs) (by rw [hibuf, hbase]; exact hbs) hrem'⟩

/-- The values a forward writer appended are read back by the forward reader that stands at their start. -/
theorem fbrReads_returnInOrder {s : State} {vs : List (Nat × Nat)} {pre : List Bool}
    (hvs : ∀ p ∈ vs, p.1 ≤ 64 ∧ p.2 < 2 ^ p.1) (hs : s.fault = false)
    (hbs : s.ibuf.holds s.fr.base.toNat (packBits (pre ++ forwardBits vs)))
    (hlen : s.fr.len.toNat = (packBits (pre ++ forwardBits vs)).length) (hmax : s.fr.len.toNat ≤ 131072)
    (hpos : s.fr.pos.toNat = pre.length) :
    ReturnsInOrder .fbrRead (fun e => e.fr.pos.toNat = (pre ++ forwardBits vs).length) vs s := by
  induction vs generalizing s pre with
  | nil => simpa [ReturnsInOrder, forwardBits] using hpos
  | cons p vs ih =>
    obtain ⟨n, v⟩ := p
    obtain ⟨hp, hvs⟩ := List.forall_mem_cons.1 hvs
    rw [forwardBits_cons] at hbs hlen ⊢
    obtain ⟨t, hexec, hfault, hres, hibuf, hbase, hflen, hpos'⟩ := fbrRead_written hp.1 hp.2 hbs hlen hmax hpos
    rw [← List.append_assoc] at hbs hlen ⊢
    exact ⟨t, hexec, hfault.trans hs, hres, ih hvs (hfault.trans hs) (by rw [hibuf, hbase]; exact hbs)
      (by rw [hflen]; exact hlen) (by rw [hflen]; exact hmax) (by simpa using hpos')⟩

/-- The padding marker is the highest set bit of a backward stream. -/
theorem testBit_natOfBits_marker (bits : List Bool) {p : Nat} (hp : bits.length ≤ p) :
    (natOfBits (bits ++ [true])).testBit p = decide (p = bits.length) := by
  have hsum : natOfBits (bits ++ [true]) = 2 ^ bits.length * 2 ^ 0 + natOfBits bits := by
    rw [natOfBits_append, Nat.add_comm]
    rfl
  rw [hsum, Nat.testBit_two_pow_mul_add _ (natOfBits_lt bits), if_neg (Nat.not_lt.2 hp),
    Nat.testBit_two_pow]
  exact decide_eq_decide.2 (by omega)

/-- Every bit of a byte packed is a bit of the integer of all of them. -/
theorem getLsbD_packBits {bits : List Bool} {j q : Nat} (hj : j < (packBits bits).length) (hq : q < 8) :
    (packBits bits)[j].getLsbD q = (natOfBits bits).testBit (8 * j + q) := by
  have hdiv : (8 * j + q) / 8 = j := by omega
  have hmod : (8 * j + q) % 8 = q := by omega
  rw [← leInt_packBits, testBit_leInt (by rw [hdiv]; exact hj)]
  simp only [hdiv, hmod]

/-- The padding marker stands in the last byte, after the bits that fill no byte. -/
theorem length_packBits_marker (bits : List Bool) : (packBits (bits ++ [true])).length = bits.length / 8 + 1 := by
  rw [length_packBits, List.length_append, ceilDiv]
  simp

/-- Over a marked stream `BBR.SKIPPAD` leaves the cursor at the end of the bits before the marker. -/
theorem bbrSkippad_marker {s : State} {bits : List Bool}
    (hlen : s.br.len.toNat = (packBits (bits ++ [true])).length)
    (hbs : s.ibuf.holds s.br.base.toNat (packBits (bits ++ [true]))) :
    exec .bbrSkippad s = .next { s.ended with br := { s.br with rem := BitVec.ofNat 32 bits.length } } := by
  have hsize := length_packBits_marker bits
  have hlt : bits.length / 8 < (packBits (bits ++ [true])).length := by omega
  have hne : s.br.len ≠ 0 := fun h => by simp [h, hsize] at hlen
  have hget := hbs _ hlt
  rw [show s.br.base.toNat + bits.length / 8 = s.br.base.toNat + s.br.len.toNat - 1 by omega] at hget
  -- the marker is bit `length % 8` of that byte, and no bit above it is set
  have hbit (q : Nat) (hq : q < 8) (hge : bits.length % 8 ≤ q) :
      (packBits (bits ++ [true]))[bits.length / 8].getLsbD q = decide (q = bits.length % 8) := by
    rw [getLsbD_packBits hlt hq, testBit_natOfBits_marker _ (by omega)]
    exact decide_eq_decide.2 (by omega)
  have hmod : bits.length % 8 < 8 := Nat.mod_lt _ (by norm_num)
  obtain ⟨hskip, -⟩ := (skippadCountsRealBits s).1 _ hne hget
  rw [hskip _ hmod (by simp [hbit _ hmod le_rfl]) fun q hq hq8 => by simp [hbit q hq8 hq.le, hq.ne'], hlen, hsize,
    Nat.add_sub_cancel, Nat.div_add_mod]

/-- Settles O24: each reader opens at its end of the bits, the backward one below the marker, and every read takes the
bits of the next value. -/
theorem readersInvertWriters : Obligations.ReadersInvertWriters := by
  unfold Obligations.ReadersInvertWriters
  intro s vs hvs hrange hs
  refine ⟨fun hlen hbs => ?_, fun hlen hbs => ?_⟩
  · have hfit := length_le_packBits (backwardBits vs)
    rw [← hlen, backwardBits, List.length_append] at hfit
    refine ⟨_, _, bbrInit_done hrange, bbrSkippad_marker hlen hbs, hs, bbrReads_returnInOrder hvs hs hbs ?_⟩
    exact toInt_ofNat_of_lt (by omega)
  · have hmax := le_of_add_le_right hrange
    exact ⟨_, fbrInit_done hrange, hs, fbrReads_returnInOrder (pre := []) hvs hs hbs hlen hmax rfl⟩

end Sys2Proof.Machine

/-! ## The frame of the bit-reader and FSE families (20_memory.md R61; 40_bitreaders.md, 41_fse.md) -/

namespace Sys2Proof.Machine

/-- `t` has the Huffman unit, LBUF, the window and the sink of `s`. -/
def SameHuffmanAndOutput (s t : State) : Prop :=
  t.w = s.w ∧ t.hufNw = s.hufNw ∧ t.hufValid = s.hufValid ∧ t.hufMaxbits = s.hufMaxbits ∧ t.hufNsym = s.hufNsym ∧
  t.ht = s.ht ∧ t.lbuf = s.lbuf ∧ t.wconf = s.wconf ∧ t.winCap = s.winCap ∧ t.wtotal = s.wtotal ∧
  t.wflushed = s.wflushed ∧ t.wbuf = s.wbuf ∧ t.out = s.out

/-- `t` has the units of `s` that command `i` leaves alone, if it is one of the bit-reader or FSE families. -/
def KeepsOtherUnits (i : Instr) (s t : State) : Prop :=
  (i.mnemonic ∈ ["NOP", "BBR.INIT", "BBR.SKIPPAD", "BBR.READ", "FBR.INIT", "FBR.READ", "FBR.UNWIND", "FSE.READNC",
    "FSE.BUILD", "FSE.PREDEF", "FSE.RLE", "FSE.INIT", "FSE.PEEK", "FSE.NEXT"] → SameHuffmanAndOutput s t) ∧
  (i.mnemonic ∈ ["NOP", "BBR.INIT", "BBR.SKIPPAD", "BBR.READ", "FBR.INIT", "FBR.READ", "FBR.UNWIND"] →
    t.slots = s.slots ∧ t.states = s.states) ∧
  (i.mnemonic ∈ ["NOP", "BBR.INIT", "BBR.SKIPPAD", "BBR.READ", "FSE.BUILD", "FSE.PREDEF", "FSE.RLE", "FSE.INIT",
    "FSE.PEEK", "FSE.NEXT"] → t.fr = s.fr) ∧
  (i.mnemonic ∈ ["NOP", "FBR.INIT", "FBR.READ", "FBR.UNWIND", "FSE.READNC", "FSE.BUILD", "FSE.PREDEF", "FSE.RLE",
    "FSE.PEEK"] → t.br = s.br) ∧
  (i.mnemonic ∈ ["FSE.INIT", "FSE.PEEK", "FSE.NEXT"] → t.slots = s.slots)

/-- A property of every state holds of the state a command ends in. -/
theorem Ending.All.of_forall {P : State → Prop} (h : ∀ t, P t) (e : Ending) : e.All P := by
  cases e with
  | done t => exact h t
  | raise c t => exact h t
  | outside r => trivial

/-- Each command's frame is within what its family leaves alone. -/
theorem ending_keepsOtherUnits (i : Instr) (s : State) : (ending i s).All (KeepsOtherUnits i s) := by
  cases i with
  | nop => simp [ending, nop, Ending.All, KeepsOtherUnits, SameHuffmanAndOutput, Instr.mnemonic]
  | bbrInit =>
    exact (bbrInit_frame s).imp fun t h => by rw [h]; simp [KeepsOtherUnits, SameHuffmanAndOutput, Instr.mnemonic]
  | bbrSkippad =>
    exact (bbrSkippad_frame s).imp fun t h => by rw [h]; simp [KeepsOtherUnits, SameHuffmanAndOutput, Instr.mnemonic]
  | bbrRead n =>
    exact (bbrRead_frame n s).imp fun t h => by rw [h]; simp [KeepsOtherUnits, SameHuffmanAndOutput, Instr.mnemonic]
  | fbrInit =>
    exact (fbrInit_frame s).imp fun t h => by rw [h]; simp [KeepsOtherUnits, SameHuffmanAndOutput, Instr.mnemonic]
  | fbrRead n =>
    exact (fbrRead_frame n s).imp fun t h => by rw [h]; simp [KeepsOtherUnits, SameHuffmanAndOutput, Instr.mnemonic]
  | fbrUnwind =>
    exact (fbrUnwind_frame s).imp fun t h => by rw [h]; simp [KeepsOtherUnits, SameHuffmanAndOutput, Instr.mnemonic]
  | fseReadnc τ maxAl maxSym =>
    exact (fseReadnc_frame τ maxAl maxSym s).imp fun t h => by
      rw [h]; simp [KeepsOtherUnits, SameHuffmanAndOutput, Instr.mnemonic]
  | fseBuild τ =>
    exact (fseBuild_frame τ s).imp fun t h => by rw [h]; simp [KeepsOtherUnits, SameHuffmanAndOutput, Instr.mnemonic]
  | fsePredef τ which =>
    exact (fsePredef_frame τ which s).imp fun t h => by
      rw [h]; simp [KeepsOtherUnits, SameHuffmanAndOutput, Instr.mnemonic]
  | fseRle τ b =>
    exact (fseRle_frame τ b s).imp fun t h => by rw [h]; simp [KeepsOtherUnits, SameHuffmanAndOutput, Instr.mnemonic]
  | fseInit k τ =>
    exact (fseInit_frame k τ s).imp fun t h => by rw [h]; simp [KeepsOtherUnits, SameHuffmanAndOutput, Instr.mnemonic]
  | fsePeek k =>
    exact (fsePeek_frame k s).imp fun t h => by rw [h]; simp [KeepsOtherUnits, SameHuffmanAndOutput, Instr.mnemonic]
  | fseNext k =>
    exact (fseNext_frame k s).imp fun t h => by rw [h]; simp [KeepsOtherUnits, SameHuffmanAndOutput, Instr.mnemonic]
  | hufReadw | hufBuild | hufDecode | winConfig | winPushi | winPushl | winPushr | winRepeat | winRepgen | winFlush =>
    exact Ending.All.of_forall (fun t => by simp [KeepsOtherUnits, Instr.mnemonic]) _

/-- Settles O16: every command's frame leaves these units out, and neither end of a command writes them. -/
theorem readersAndFseLeaveOtherUnits : Obligations.ReadersAndFseLeaveOtherUnits := by
  unfold Obligations.ReadersAndFseLeaveOtherUnits
  intro i s t ht
  rw [exec_eq] at ht
  refine (ending_keepsOtherUnits i s).finish (fun u hu => hu) (fun c u hu => ?_) ht
  simpa [KeepsOtherUnits, SameHuffmanAndOutput] using hu

end Sys2Proof.Machine

/-! ## The FSE state machine and the tables that need no description (41_fse.md R148 to R156) -/

namespace Sys2Proof.Machine

/-! ### `FSE.INIT`, `FSE.PEEK` and `FSE.NEXT` (R154 to R156) -/

/-- A backward read within the register's range returns at most `n` bits, and over written bytes those below the cursor
(R114). -/
theorem BackCursor.read_done {c : BackCursor} {n : Nat} (hlo : -2 ^ 31 ≤ c.reader.rem.toInt - n) (ibuf : Memory Byte) :
    ∃ v draws, v < 2 ^ n ∧
      c.read ibuf n = .ok v
        { reader := { c.reader with rem := BitVec.ofInt 32 (c.reader.rem.toInt - n) }, draws := draws } ∧
      ∀ bs : List Byte, ibuf.holds c.reader.base.toNat bs → c.reader.rem.toInt ≤ 8 * bs.length →
        v = bitsBelow (leInt bs) c.reader.rem.toInt n ∧ draws = c.draws := by
  rcases c.read_cases ibuf n with ⟨hlt, -⟩ | ⟨-, v, draws, hv, hbits, hread⟩
  · exact absurd hlo (not_le.2 hlt)
  · refine ⟨v, draws, hv, hread, fun bs hbs hrem => ?_⟩
    rw [backBits_of_holds hbs hrem, Nat.zero_mul, Nat.zero_add, Prod.mk.injEq] at hbits
    exact ⟨hbits.1.symm, hbits.2.symm⟩

/-- Settles O32: the read of `AL` bits is the command's one step that could fault. -/
theorem initSeedsAndBindsAState : Obligations.InitSeedsAndBindsAState := by
  unfold Obligations.InitSeedsAndBindsAState
  intro s k τ hvalid _ hlo
  obtain ⟨v, draws, hv, hread, hval⟩ := BackCursor.read_done (c := s.back) hlo s.ibuf
  refine ⟨v, draws, hv, ?_, hval⟩
  rw [exec_eq, ending, fseInit, if_pos hvalid, hread]
  rfl

/-- Settles O33: the entry is read once, and drawn only where it is not written. -/
theorem peekReturnsTheSymbol : Obligations.PeekReturnsTheSymbol := by
  unfold Obligations.PeekReturnsTheSymbol
  intro s k hbound
  refine ⟨(s.fseEntry k).1.symbol, (s.fseEntry k).2, ?_, fun e he => ?_⟩
  · rw [exec_eq, ending, fsePeek, if_pos hbound]
    simp only [BitVec.ofNat_toNat]
    rfl
  · rw [State.fseEntry, Memory.readDt_listed he]
    exact ⟨rfl, rfl⟩

/-- Settles O34: the bound state's entry is written, so the read of its bits is the one step that could fault. -/
theorem nextMovesTheState : Obligations.NextMovesTheState := by
  unfold Obligations.NextMovesTheState
  intro s k e hbound hentry hlo
  obtain ⟨v, draws, hv, hread, hval⟩ := BackCursor.read_done (c := s.back) hlo s.ibuf
  refine ⟨v, draws, hv, ?_, hval⟩
  have hsum : BitVec.ofNat 9 (e.baseline.toNat + v) = e.baseline + BitVec.ofNat 9 v := by
    rw [BitVec.ofNat_add, BitVec.ofNat_toNat, BitVec.setWidth_eq]
  rw [exec_eq, ending, fseNext, if_pos hbound, State.fseEntry, Memory.readDt_listed hentry, ← hsum]
  simp only []
  rw [hread]
  rfl

/-- Settles O35: in each command the check is the first thing that could fault. -/
theorem noTableFaults : Obligations.NoTableFaults := by
  unfold Obligations.NoTableFaults
  refine fun s k τ hs => ⟨fun h => ?_, fun h => ?_, fun h => ⟨?_, ?_⟩, fun h => ?_⟩
  · exact exec_raise (i := .fseBuild τ) (c := .noTable) hs (if_neg (by simp [h]))
  · exact exec_raise (i := .fseInit k τ) (c := .noTable) hs (if_neg (by simp [h]))
  · exact exec_raise (i := .fsePeek k) (c := .noTable) hs (if_neg (by simp [h]))
  · exact exec_raise (i := .fseNext k) (c := .noTable) hs (if_neg (by simp [h]))
  · exact exec_raise (i := .hufDecode) (c := .noTable) hs (if_neg (by simp [h]))

/-! ### Rewriting a slot (R140) -/

@[simp] theorem complete_slot (s : State) (t : Fin 8) : (complete s).slot t = s.slot t := rfl
@[simp] theorem complete_fse (s : State) (k : Fin 4) : (complete s).fse k = s.fse k := rfl

@[simp] theorem State.setSlot_setSlot (s : State) (t : Fin 8) (v v' : Slot) :
    (s.setSlot t v).setSlot t v' = s.setSlot t v' := by
  simp [State.setSlot]

/-- Slot `t` rewritten as `v`, with the states that were bound to it unbound. -/
def State.rewrite (s : State) (t : Fin 8) (v : Slot) : State := (invalidate t s).setSlot t v

@[simp] theorem State.rewrite_slot_same (s : State) (t : Fin 8) (v : Slot) : (s.rewrite t v).slot t = v :=
  (State.slot_setSlot _ _ _ _).trans (if_pos rfl)

theorem State.rewrite_slot_ne (s : State) {t u : Fin 8} (v : Slot) (h : u ≠ t) : (s.rewrite t v).slot u = s.slot u :=
  (State.slot_setSlot _ _ _ _).trans ((if_neg h).trans ((invalidate_slot s t u).trans (if_neg h)))

@[simp] theorem State.rewrite_fse (s : State) (t : Fin 8) (v : Slot) (k : Fin 4) :
    (s.rewrite t v).fse k =
      if (s.fse k).bound = true ∧ (s.fse k).bind = t then { s.fse k with bound := false } else s.fse k :=
  invalidate_fse s t k

/-! ### `FSE.RLE` and `FSE.PREDEF` (R149 to R151) -/

/-- Settles O31: the slot's new table is its entry 0. -/
theorem rleMakesAOneStateTable : Obligations.RleMakesAOneStateTable := by
  unfold Obligations.RleMakesAOneStateTable
  intro s τ b
  have hb := b.isLt
  have hdone : fseRle τ b s = .done (s.rewrite τ
      { valid := true, ncValid := false, al := 0, nsym := BitVec.ofNat 9 (b.toNat + 1), ncount := (s.slot τ).ncount
        dt := (s.slot τ).dt.put 0 ⟨b, 0, 0⟩ }) := by
    simp [fseRle, State.rewrite]
  refine ⟨complete _, (exec_eq _ s).trans (congrArg _ hdone), rfl, fun υ hυ => State.rewrite_slot_ne s _ hυ, ?_⟩
  simp only [complete_slot, complete_fse, State.rewrite_slot_same, State.rewrite_fse]
  refine ⟨trivial, trivial, trivial, ?_, trivial, Memory.get?_put_same _ _ _, fun u hu => Memory.get?_put_ne _ _ hu,
    fun k => trivial⟩
  rw [BitVec.toNat_ofNat, Nat.mod_eq_of_lt (by omega)]

/-- The slot that `BuildTable` leaves: `v` with the entries written, and usable (R145). -/
def Slot.built (v : Slot) (es : List DtEntry) : Slot := { v with dt := v.dt.putList 0 es, valid := true }

/-- The table built is the lowest part of `DT`, and the entries above it are kept (R145). -/
theorem Slot.built_get? {t : Slot} {counts : List Int} {es : List DtEntry}
    (hes : buildTable t.al.toNat counts = some es) (u : Nat) :
    (t.built es).dt.get? u = if u < 2 ^ t.al.toNat then es[u]? else t.dt.get? u := by
  rw [Slot.built, Memory.get?_putList, buildTable_length hes]
  simp

/-- `BuildTable` that does not fault leaves its slot built. -/
theorem buildSlot_done {s : State} {t : Fin 8} {counts : List Int} {es : List DtEntry}
    (h : buildTable (s.slot t).al.toNat counts = some es) :
    buildSlot t counts s = .done (s.setSlot t ((s.slot t).built es)) := by
  simp only [buildSlot, h]
  rfl

/-- The entry that the test vectors write as (symbol, nbBits, baseline). -/
def DtEntry.ofTriple (e : Nat × Nat × Nat) : DtEntry :=
  ⟨BitVec.ofNat 8 e.1, BitVec.ofNat 4 e.2.1, BitVec.ofNat 9 e.2.2⟩

/-- The tables of 95_test_vectors.md V-FSE-1 are the ones `BuildTable` makes of the rows of R149. -/
theorem buildTable_predefined :
    buildTable 6 literalLengthCounts = some (literalLengthTable.map .ofTriple) ∧
    buildTable 6 matchLengthCounts = some (matchLengthTable.map .ofTriple) ∧
    buildTable 5 offsetCounts = some (offsetTable.map .ofTriple) := by
  decide +kernel

/-- `FSE.PREDEF` loads a row of R149 and the table it builds (R150). -/
theorem fsePredef_done (s : State) (τ : Fin 8) {which : BitVec 16} (hw : which.toNat ≤ 2) {al : Nat}
    {counts : List Int} (hp : predefined which.toNat = ⟨al, counts⟩) {es : List DtEntry} (hal : al ≤ 9)
    (hes : buildTable al counts = some es) :
    fsePredef τ which s =
      .done (s.rewrite τ (((s.slot τ).load al counts).built es)) := by
  have hslot : (invalidate τ s).slot τ = { s.slot τ with valid := false } := by rw [invalidate_slot, if_pos rfl]
  have hload : ((s.slot τ).load al counts).al.toNat = al := Slot.load_al hal
  rw [fsePredef, if_neg (Nat.not_lt.2 hw)]
  simp only [hp, hslot]
  rw [buildSlot_done (es := es)] <;> rw [State.slot_setSlot, if_pos rfl]
  · rw [State.setSlot_setSlot]
    rfl
  · exact hload.symm ▸ hes

/-- Settles O30: the rows and the tables are those of the model, by evaluation. -/
theorem predefLoadsTheTables : Obligations.PredefLoadsTheTables := by
  unfold Obligations.PredefLoadsTheTables
  intro s τ which al nsym counts table hmem
  obtain ⟨hll, hml, hof⟩ := buildTable_predefined
  have hrow : which.toNat ≤ 2 ∧ predefined which.toNat = ⟨al, counts⟩ ∧ nsym = counts.length ∧
      table.length = 2 ^ al ∧ buildTable al counts = some (table.map .ofTriple) := by
    simp only [List.mem_cons, Prod.mk.injEq, List.not_mem_nil, or_false] at hmem
    rcases hmem with ⟨rfl, rfl, rfl, rfl, rfl⟩ | ⟨rfl, rfl, rfl, rfl, rfl⟩ | ⟨rfl, rfl, rfl, rfl, rfl⟩
    · exact ⟨by decide, rfl, rfl, rfl, hll⟩
    · exact ⟨by decide, rfl, rfl, rfl, hml⟩
    · exact ⟨by decide, rfl, rfl, rfl, hof⟩
  obtain ⟨hw, hp, rfl, hsize, hes⟩ := hrow
  obtain ⟨hlo, hhi, hdist, hlen⟩ : 5 ≤ al ∧ al ≤ 9 ∧ IsDistribution al counts ∧ counts.length ≤ 256 := by
    simpa [hp] using predefined_distribution which.toNat
  have hal : ((s.slot τ).load al counts).al.toNat = al := Slot.load_al hhi
  have hok : ((s.slot τ).load al counts).countsOk := Slot.load_countsOk hhi hlo hdist hlen
  refine ⟨complete _, (exec_eq _ s).trans (congrArg _ (fsePredef_done s τ hw hp hhi hes)), rfl,
    fun υ hυ => State.rewrite_slot_ne s _ hυ, ?_⟩
  simp only [complete_slot, complete_fse, State.rewrite_slot_same, State.rewrite_fse]
  have hdt (u : Nat) : (((s.slot τ).load al counts).built (table.map .ofTriple)).dt.get? u =
      if u < table.length then (table.map .ofTriple)[u]? else (s.slot τ).dt.get? u := by
    rw [Slot.built_get? (by rw [hal]; exact hes), hal, hsize]
    rfl
  refine ⟨rfl, rfl, hal, ?_, fun i hi => get?_countImage counts hi, hok, fun u hu => ?_,
    fun u hu => (hdt u).trans (if_neg (Nat.not_lt.2 hu)), fun k => trivial⟩
  · exact (BitVec.toNat_ofNat _ _).trans (Nat.mod_eq_of_lt (by omega))
  · refine (hdt u).trans ((if_pos hu).trans ?_)
    simp [DtEntry.ofTriple, hu]

end Sys2Proof.Machine

/-! ## The ends of `FSE.READNC` (41_fse.md R140 to R144; 60_exceptions.md R273) -/

namespace Sys2Proof.Machine

/-- `t` as a fault of the description parser leaves it: no table, no distribution, and any counts. -/
def Slot.unparsed (t : Slot) : Slot :=
  { t with valid := false, ncValid := false, ncount := t.ncount.forget 0 Config.ncountEntries }

/-- `s` after a description was parsed into slot `τ`, the forward reader left at `c` (R141, R144). -/
def State.parsed (s : State) (τ : Fin 8) (d : Description) (c : FwdCursor) : State :=
  { (s.rewrite τ (({ s.slot τ with valid := false } : Slot).load d.al d.counts)).setFwd c with
    res := BitVec.ofNat 64 d.nbytes }

/-- `s` after a fault of the parser over slot `τ`, the forward reader left at `c` (R144, R273). -/
def State.unparsed (s : State) (τ : Fin 8) (c : FwdCursor) : State :=
  (s.rewrite τ (s.slot τ).unparsed).setFwd c

section
variable (s : State) (τ : Fin 8) (d : Description) (c : FwdCursor)

@[simp] theorem State.parsed_slot_same :
    (s.parsed τ d c).slot τ = ({ s.slot τ with valid := false } : Slot).load d.al d.counts :=
  State.rewrite_slot_same s τ _

theorem State.parsed_slot_ne {υ : Fin 8} (h : υ ≠ τ) : (s.parsed τ d c).slot υ = s.slot υ :=
  State.rewrite_slot_ne s _ h

@[simp] theorem State.parsed_fault : (s.parsed τ d c).fault = s.fault := by simp [State.parsed, State.rewrite]

theorem State.parsed_fse (k : Fin 4) : (s.parsed τ d c).fse k =
    if (s.fse k).bound = true ∧ (s.fse k).bind = τ then { s.fse k with bound := false } else s.fse k :=
  invalidate_fse s τ k

@[simp] theorem State.unparsed_slot_same : (s.unparsed τ c).slot τ = (s.slot τ).unparsed :=
  State.rewrite_slot_same s τ _

theorem State.unparsed_slot_ne {υ : Fin 8} (h : υ ≠ τ) : (s.unparsed τ c).slot υ = s.slot υ :=
  State.rewrite_slot_ne s _ h

theorem State.unparsed_fse (k : Fin 4) : (s.unparsed τ c).fse k =
    if (s.fse k).bound = true ∧ (s.fse k).bind = τ then { s.fse k with bound := false } else s.fse k :=
  invalidate_fse s τ k

end

/-- The two checks of `FSE.READNC`, and then the parser's two ends (R144). -/
theorem fseReadnc_cases (τ : Fin 8) (maxAl : BitVec 4) (maxSym : BitVec 8) (s : State) :
    (9 < maxAl.toNat ∧ fseReadnc τ maxAl maxSym s = .raise .illegalCmd s) ∨
    (maxAl.toNat ≤ 9 ∧ s.fr.pos.toNat % 8 ≠ 0 ∧ fseReadnc τ maxAl maxSym s = .raise .fbrAlign s) ∨
    (maxAl.toNat ≤ 9 ∧ s.fr.pos.toNat % 8 = 0 ∧
      ((∃ d c, readNCount s.ibuf maxSym.toNat maxAl.toNat s.fwd = .ok d c ∧
          fseReadnc τ maxAl maxSym s = .done (s.parsed τ d c)) ∨
       (∃ e c, readNCount s.ibuf maxSym.toNat maxAl.toNat s.fwd = .raise e c ∧
          fseReadnc τ maxAl maxSym s = .raise e (s.unparsed τ c)))) := by
  by_cases hmax : maxAl.toNat > Config.fseMaxAl
  · exact .inl ⟨hmax, if_pos hmax⟩
  refine .inr ?_
  have hle : maxAl.toNat ≤ 9 := Nat.not_lt.1 hmax
  by_cases halign : s.fr.pos.toNat % 8 ≠ 0
  · exact .inl ⟨hle, halign, by rw [fseReadnc, if_neg hmax, if_pos halign]⟩
  refine .inr ⟨hle, not_not.1 halign, ?_⟩
  have hslot : (s.retire τ).slot τ = { s.slot τ with valid := false, ncValid := false } := by
    rw [State.retire, State.slot_setSlot, if_pos rfl, invalidate_slot, if_pos rfl]
  have hrewrite (c : FwdCursor) (v : Slot) : ((s.retire τ).setFwd c).setSlot τ v = (s.rewrite τ v).setFwd c :=
    congrArg (State.setFwd · c) (State.setSlot_setSlot (invalidate τ s) τ _ v)
  rw [fseReadnc, if_neg hmax, if_neg halign]
  simp only []
  split <;> rename_i d c hparse
  · refine .inr ⟨d, c, hparse, congrArg _ ?_⟩
    rw [State.unparsed, ← hrewrite c, Slot.unparsed, ← State.retire, hslot]
  · refine .inl ⟨d, c, hparse, congrArg _ ?_⟩
    rw [State.parsed, ← hrewrite c, Slot.load, ← State.retire, hslot]

/-- Settles O26: a completed command has loaded a parsed distribution into its slot. -/
theorem readncLeavesADistribution : Obligations.ReadncLeavesADistribution := by
  unfold Obligations.ReadncLeavesADistribution
  intro s t τ maxAl maxSym hexec hfault
  rw [exec_eq, ending] at hexec
  rcases fseReadnc_cases τ maxAl maxSym s with ⟨-, h⟩ | ⟨-, -, h⟩ | ⟨hmax, -, ⟨d, c, hparse, h⟩ | ⟨e, c, -, h⟩⟩ <;>
    rw [h] at hexec <;> cases hexec
  case inr.inr.inl =>
    obtain ⟨hlo, hle, hdist, hlen⟩ := readNCount_distribution hparse
    have hsym := maxSym.isLt
    have hhi : d.al ≤ 9 := hle.trans hmax
    have hnsym : (BitVec.ofNat 9 d.counts.length).toNat = d.counts.length := by
      rw [BitVec.toNat_ofNat, Nat.mod_eq_of_lt (by omega)]
    rw [complete_slot, State.parsed_slot_same]
    refine ⟨Slot.load_countsOk hhi hlo hdist (by omega), (Slot.load_al hhi).trans_le hle, hnsym.trans_le hlen,
      fun j hj hlt => (get?_countImage _ hlt).trans ?_⟩
    rw [List.getD_eq_default _ _ (hnsym.symm.trans_le hj)]
    rfl
  all_goals exact absurd (hfault.symm.trans (faultEntry_fault _ _ _)) Bool.false_ne_true

/-! ### The faults of the parser (R141, R144) -/

/-- A fault raised is one of those of `P`. -/
def Res.Raises {σ α : Type} (P : FaultCode → Prop) : Res σ α → Prop
  | .ok _ _ => True
  | .raise e _ => P e

/-- The faults of the description parser. -/
def FaultCode.OfParser (e : FaultCode) : Prop := e = .endOfInput ∨ e = .fseAl ∨ e = .fseSymbol

theorem FwdCursor.read_raises (ibuf : Memory Byte) (n : Nat) (c : FwdCursor) :
    (c.read ibuf n).Raises FaultCode.OfParser := by
  rcases c.read_cases ibuf n with ⟨-, h⟩ | ⟨-, v, d, -, -, h⟩ <;> rw [h]
  · exact .inl rfl
  · trivial

/-- After a read of at least one bit there is a bit to unwind. -/
theorem FwdCursor.unwind_of_read {ibuf : Memory Byte} {n v : Nat} {c d : FwdCursor} (hn : 1 ≤ n)
    (h : c.read ibuf n = .ok v d) : ∃ d', d.unwind = .ok () d' := by
  rcases d.unwind_cases with ⟨-, hu⟩ | ⟨hu, -⟩
  · exact ⟨_, hu⟩
  · rcases c.read_cases ibuf n with ⟨-, hr⟩ | ⟨-, w, k, -, -, hr⟩ <;> rw [hr] at h <;> cases h
    simp [hn] at hu

/-- A field is at least one bit wide, so its unwind does not fail. -/
theorem readCountField_raises {ibuf : Memory Byte} {l : NcLoop} (hl : 1 ≤ l.nbBits) (c : FwdCursor) :
    (readCountField ibuf l c).Raises FaultCode.OfParser := by
  have hr := c.read_raises ibuf l.nbBits
  unfold readCountField
  simp only []
  split
  · rename_i he
    rwa [he] at hr
  · rename_i v d he
    obtain ⟨d', hu⟩ := FwdCursor.unwind_of_read hl he
    simp only [hu]
    split_ifs <;> trivial

theorem readZeroRun_raises (ibuf : Memory Byte) (maxSym fuel sym : Nat) (c : FwdCursor) :
    (readZeroRun ibuf maxSym fuel sym c).Raises FaultCode.OfParser := by
  induction fuel generalizing sym c with
  | zero => exact .inr (.inr rfl)
  | succ fuel ih =>
    have hr := c.read_raises ibuf 2
    unfold readZeroRun
    split
    · rename_i he
      rwa [he] at hr
    · simp only []
      split_ifs
      · exact .inr (.inr rfl)
      · exact ih _ _
      · trivial

theorem readCounts_raises {ibuf : Memory Byte} {al maxSym fuel : Nat} {l : NcLoop} (hl : l.Ok al maxSym)
    (c : FwdCursor) : (readCounts ibuf maxSym fuel l c).Raises FaultCode.OfParser := by
  induction fuel generalizing l c with
  | zero =>
    unfold readCounts
    split
    · exact .inr (.inr rfl)
    · trivial
  | succ fuel ih =>
    unfold readCounts
    split_ifs with hr hs
    · exact .inr (.inr rfl)
    · have hf := readCountField_raises (ibuf := ibuf) (l := l) (by obtain ⟨k, hk, -⟩ := hl.width; omega) c
      split <;> rename_i he
      · rwa [he] at hf
      · rename_i count d
        obtain ⟨hc0, habs⟩ := readCountField_bounds hl hr he
        have hsym : l.counts.length ≤ maxSym := not_lt.1 hs
        simp only []
        split_ifs with hp
        · have hz := readZeroRun_raises ibuf maxSym (maxSym + 1) (l.counts ++ [count - 1]).length d
          split <;> rename_i hze
          · rwa [hze] at hz
          · obtain ⟨hlo, hhi⟩ := readZeroRun_bounds hze
            simp only [List.length_append, List.length_cons, List.length_nil] at hlo ⊢
            exact ih (hl.next (z := _ - (l.counts.length + 1)) (by omega) habs (by omega)) _
        · exact ih (by simpa using hl.next (z := 0) (by omega) habs (by omega)) _
    · trivial

/-- The parser raises no fault but its three (R144): in particular never `CANNOT_UNWIND`. -/
theorem readNCount_raises (ibuf : Memory Byte) (maxSym maxAl : Nat) (c : FwdCursor) :
    (readNCount ibuf maxSym maxAl c).Raises FaultCode.OfParser := by
  have hr := c.read_raises ibuf 4
  unfold readNCount
  simp only []
  split <;> rename_i he
  · rwa [he] at hr
  · split_ifs
    · exact .inr (.inl rfl)
    · rename_i v d _
      have hc := readCounts_raises (ibuf := ibuf) (fuel := maxSym + 1)
        (NcLoop.start_ok (al := v + 5) maxSym (Nat.le_add_left 1 _)) d
      split <;> rename_i hce
      · rwa [hce] at hc
      · trivial

end Sys2Proof.Machine

/-! ## The description parser over bytes that are written (41_fse.md R141, R143) -/

namespace Sys2Proof.Machine

/-! ### Bits that stand in an integer -/

/-- `X[p+m+n : p]` is `X[p+m : p]` below `X[p+m+n : p+m]`. -/
theorem bitsFrom_add (x p m n : Nat) : bitsFrom x p (m + n) = bitsFrom x p m + 2 ^ m * bitsFrom x (p + m) n := by
  rw [bitsFrom, bitsFrom, bitsFrom, pow_add, Nat.mod_mul, Nat.div_div_eq_div_mul, pow_add]

theorem bitsFrom_lt (x p n : Nat) : bitsFrom x p n < 2 ^ n := Nat.mod_lt _ (Nat.two_pow_pos n)

/-- The bits `bits` stand at bit `pos` of the integer `x`. -/
def StandsAt (x pos : Nat) (bits : List Bool) : Prop := bitsFrom x pos bits.length = natOfBits bits

theorem standsAt_append {x pos : Nat} {as bs : List Bool} :
    StandsAt x pos (as ++ bs) ↔ StandsAt x pos as ∧ StandsAt x (pos + as.length) bs := by
  have ha := bitsFrom_lt x pos as.length
  have hb := natOfBits_lt as
  rw [StandsAt, StandsAt, StandsAt, List.length_append, bitsFrom_add, natOfBits_append]
  refine ⟨fun h => ?_, fun ⟨h, h'⟩ => by rw [h, h']⟩
  have hmod := congrArg (· % 2 ^ as.length) h
  simp only [Nat.add_mul_mod_self_left, Nat.mod_eq_of_lt ha, Nat.mod_eq_of_lt hb] at hmod
  rw [hmod, Nat.add_left_cancel_iff] at h
  exact ⟨hmod, Nat.eq_of_mul_eq_mul_left (Nat.two_pow_pos _) h⟩

/-- A value whose bits stand at `pos` is read there. -/
theorem StandsAt.bitsFrom_eq {x pos n v : Nat} (h : StandsAt x pos (bitsOf n v)) (hv : v < 2 ^ n) :
    bitsFrom x pos n = v := by
  rw [StandsAt, length_bitsOf, natOfBits_bitsOf, Nat.mod_eq_of_lt hv] at h
  exact h

/-! ### A forward reader over written bytes -/

/-- The reader `r` with its cursor at bit `pos`. -/
def FwdReader.seek (r : FwdReader) (pos : Nat) (unw : Bool) : FwdReader :=
  { r with pos := BitVec.ofNat 32 pos, unw := unw }

@[simp] theorem FwdReader.seek_self (r : FwdReader) : r.seek r.pos.toNat r.unw = r := by
  simp [FwdReader.seek]

/-- The bits `[lo, hi)` of the stream at `base` are written, and are those of the integer `x`. -/
def ReadsAs (ibuf : Memory Byte) (base lo hi x : Nat) : Prop :=
  ∀ n p draws, lo ≤ p → p + n ≤ hi → fwdBits ibuf base n p draws = (bitsFrom x p n, draws)

/-- A stream whose bytes are all written reads as its integer (R8, R120). -/
theorem readsAs_of_holds {ibuf : Memory Byte} {base : Nat} {bs : List Byte} (h : ibuf.holds base bs) :
    ReadsAs ibuf base 0 (8 * bs.length) (leInt bs) :=
  fun _ _ draws _ hp => fwdBits_of_holds h hp draws

/-- A stream's bits from byte `k` on are those of the stream that starts there. -/
theorem fwdBits_shift (ibuf : Memory Byte) (base k n p draws : Nat) :
    fwdBits ibuf base n (8 * k + p) draws = fwdBits ibuf (base + k) n p draws := by
  induction n generalizing p draws with
  | zero => rfl
  | succ n ih =>
    have hbit : fwdBit ibuf base (8 * k + p) draws = fwdBit ibuf (base + k) p draws := by
      rw [fwdBit, fwdBit, Nat.mul_add_div (by norm_num), Nat.mul_add_mod, Nat.add_assoc]
    simp only [fwdBits, hbit, Nat.add_assoc, ih]

/-- A stream whose bytes are written from byte `k` on reads from there as their integer, moved up by `8·k` bits. -/
theorem readsAs_of_holds_from {ibuf : Memory Byte} {base k : Nat} {bs : List Byte} (h : ibuf.holds (base + k) bs) :
    ReadsAs ibuf base (8 * k) (8 * k + 8 * bs.length) (2 ^ (8 * k) * leInt bs) := by
  intro n p draws hlo hhi
  obtain ⟨q, rfl⟩ := Nat.exists_eq_add_of_le hlo
  rw [fwdBits_shift, fwdBits_of_holds h (by omega), bitsFrom, bitsFrom, pow_add,
    Nat.mul_div_mul_left _ _ (Nat.two_pow_pos _)]

section
variable {ibuf : Memory Byte} {r : FwdReader} {lo hi x draws n p : Nat} {unw : Bool}
  (hmax : 8 * r.len.toNat < 2 ^ 32)
include hmax

/-- A read past the end raises `END_OF_INPUT` and moves nothing (R120). -/
theorem FwdCursor.read_seek_end (hp : p ≤ 8 * r.len.toNat) (hend : 8 * r.len.toNat < p + n) :
    FwdCursor.read ibuf n ⟨r.seek p unw, draws⟩ = .raise .endOfInput ⟨r.seek p unw, draws⟩ := by
  have hpos : (BitVec.ofNat 32 p).toNat = p := by rw [BitVec.toNat_ofNat, Nat.mod_eq_of_lt (by omega)]
  simp only [read, FwdReader.seek, hpos]
  exact if_pos hend

/-- A read within the written bits returns them, and moves past them (R120). -/
theorem FwdCursor.read_seek (hx : ReadsAs ibuf r.base.toNat lo hi x) (hhi : hi ≤ 8 * r.len.toNat) (hlo : lo ≤ p)
    (hp : p + n ≤ hi) (hn : 1 ≤ n) :
    FwdCursor.read ibuf n ⟨r.seek p unw, draws⟩ = .ok (bitsFrom x p n) ⟨r.seek (p + n) true, draws⟩ := by
  have hpos : (BitVec.ofNat 32 p).toNat = p := by rw [BitVec.toNat_ofNat, Nat.mod_eq_of_lt (by omega)]
  simp only [read, FwdReader.seek, hpos, hx n p draws hlo hp, decide_eq_true hn, Bool.or_true]
  exact if_neg (by omega)

omit hmax in
/-- The bit just read is given back (R121). -/
theorem FwdCursor.unwind_seek (hp : 1 ≤ p) :
    FwdCursor.unwind ⟨r.seek p true, draws⟩ = .ok () ⟨r.seek (p - 1) false, draws⟩ := by
  have hpos : BitVec.ofNat 32 p - 1#32 = BitVec.ofNat 32 (p - 1) := by
    obtain ⟨q, rfl⟩ := Nat.exists_eq_add_of_le' hp
    rw [BitVec.ofNat_add]
    simp
  simp [unwind, FwdReader.seek, hpos]

end

/-! ### The loop's variables as functions of `remaining` (R141) -/

/-- The loop's variables where `remaining` is still to describe and `counts` are described: the power of two below
`remaining`, and its width. -/
def NcLoop.describing (remaining : Nat) (counts : List Int) : NcLoop :=
  { remaining, threshold := 2 ^ hsb remaining, nbBits := fieldWidth remaining, counts }

/-- The loop starts with all of `2^al` to describe. -/
theorem NcLoop.start_eq_describing {al : Nat} (hal : 1 ≤ al) : NcLoop.start al = .describing (2 ^ al + 1) [] := by
  have hone : 1 < 2 ^ al := Nat.one_lt_two_pow (by omega)
  have hhsb : hsb (2 ^ al + 1) = al := hsb_unique (by omega) (by rw [pow_succ]; omega)
  simp [NcLoop.start, NcLoop.describing, fieldWidth, hhsb]

/-- `narrow` brings the width and the threshold down to those of what remains. -/
theorem narrow_describing {R p : Nat} (hp : p < R) :
    narrow ((R : Int) - p) (fieldWidth R) (2 ^ hsb R) = (fieldWidth (R - p), 2 ^ hsb (R - p)) := by
  have hlt : R < 2 ^ (hsb R + 1) := lt_hsb R
  have hcast : (R : Int) - p = ((R - p : Nat) : Int) := by omega
  rw [hcast]
  obtain ⟨j, hj, hlo, hhi⟩ := narrow_spec (r := ((R - p : Nat) : Int)) (by omega) (hsb R) (by
    have : R - p < 2 ^ (hsb R + 1) := by omega
    exact_mod_cast this)
  have hhsb : hsb (R - p) = j := hsb_unique (by exact_mod_cast hlo) (by exact_mod_cast hhi)
  rw [fieldWidth, hj, fieldWidth, hhsb]

/-- The threshold and the width of a field (R142): `T ≤ R < 2·T`, and a field has `T`'s bits and one more. -/
theorem threshold_bounds {R : Nat} (hR : 1 ≤ R) :
    1 ≤ 2 ^ hsb R ∧ 2 ^ hsb R ≤ R ∧ R < 2 * 2 ^ hsb R ∧ 2 ^ fieldWidth R = 2 * 2 ^ hsb R := by
  have hlt := lt_hsb R
  rw [pow_succ'] at hlt
  exact ⟨Nat.one_le_two_pow, hsb_le (by omega), hlt, pow_succ' 2 (hsb R)⟩

/-- A field holds a probability that takes less than what remains (R142). -/
theorem natAbs_fieldAt_lt (x pos : Nat) {R : Nat} (hR : 2 ≤ R) :
    (fieldAt x pos R).1.natAbs < R := by
  obtain ⟨hT, hlo, hhi, hw⟩ := threshold_bounds (R := R) (by omega)
  have hv := bitsFrom_lt x pos (fieldWidth R)
  have hmod := Nat.mod_lt (bitsFrom x pos (fieldWidth R)) hT
  rw [hw] at hv
  simp only [fieldAt]
  generalize 2 ^ hsb R = T at *
  generalize bitsFrom x pos (fieldWidth R) = v at *
  split_ifs with h1 h2
  · dsimp only; omega
  · have hge : v % T = v - T := by rw [Nat.mod_eq_sub_mod h2, Nat.mod_eq_of_lt (by omega)]
    dsimp only; omega
  · rw [Nat.mod_eq_of_lt (by omega)] at h1
    dsimp only; omega

/-- A field is read from as many bits as belong to it. -/
theorem fieldAt_width (x pos R : Nat) :
    (fieldAt x pos R).2 = fieldWidth R ∨ (fieldAt x pos R).2 = fieldWidth R - 1 := by
  simp only [fieldAt]
  split_ifs
  · exact .inr rfl
  · exact .inl rfl
  · exact .inl rfl

/-- The field read from written bits is the one the stream's integer has there (R141, R143). -/
theorem readCountField_seek {ibuf : Memory Byte} {r : FwdReader} {lo hi x draws pos R : Nat} {unw : Bool}
    (counts : List Int) (hmax : 8 * r.len.toNat < 2 ^ 32) (hx : ReadsAs ibuf r.base.toNat lo hi x)
    (hhi : hi ≤ 8 * r.len.toNat) (hR : 1 ≤ R) (hlo : lo ≤ pos) (hp : pos + fieldWidth R ≤ hi) :
    readCountField ibuf (.describing R counts) ⟨r.seek pos unw, draws⟩ =
      .ok ((fieldAt x pos R).1 + 1)
        ⟨r.seek (pos + (fieldAt x pos R).2) (decide ((fieldAt x pos R).2 = fieldWidth R)), draws⟩ := by
  obtain ⟨hT, hle, hlt, hw⟩ := threshold_bounds hR
  have hwidth : 1 ≤ fieldWidth R := Nat.le_add_left 1 _
  have hmax' : (2 * ((2 ^ hsb R : Nat) : Int) - 1 - R) = ((2 * 2 ^ hsb R - 1 - R : Nat) : Int) := by omega
  have hback : pos + fieldWidth R - 1 = pos + (fieldWidth R - 1) := by omega
  have hshort : ¬ fieldWidth R - 1 = fieldWidth R := by omega
  simp only [readCountField, NcLoop.describing, FwdCursor.read_seek hmax hx hhi hlo hp hwidth,
    Nat.and_two_pow_sub_one_eq_mod, hmax', Nat.cast_lt, fieldAt]
  split_ifs
  · have hunwind := FwdCursor.unwind_seek (r := r) (draws := draws) (show 1 ≤ pos + fieldWidth R by omega)
    simp only [hunwind, hback, hshort, decide_false, sub_add_cancel]
  · simp only [decide_true, sub_add_cancel]
  · simp only [decide_true, sub_add_cancel]

/-- A description's field holds its probability, in its own bits (R143). -/
theorem fieldAt_of_standsAt {x pos R : Nat} {p : Int} (hR : 1 ≤ R) (hp : -1 ≤ p) (habs : p.natAbs < R)
    (h : StandsAt x pos (fieldBits (2 ^ hsb R) R (fieldWidth R) (p + 1).toNat)) :
    fieldAt x pos R = (p, (fieldBits (2 ^ hsb R) R (fieldWidth R) (p + 1).toNat).length) := by
  obtain ⟨hT, hle, hlt, hw⟩ := threshold_bounds hR
  obtain ⟨c, rfl⟩ : ∃ c : Nat, p = c - 1 := ⟨(p + 1).toNat, by omega⟩
  have hc : ((c : Int) - 1 + 1).toNat = c := by omega
  rw [hc] at h ⊢
  simp only [fieldBits] at h ⊢
  simp only [fieldAt]
  split_ifs at h with h1 h2
  · have hv : bitsFrom x pos (fieldWidth R) % 2 ^ hsb R = c := by
      rw [fieldWidth, bitsFrom_add, Nat.add_mul_mod_self_left]
      exact (Nat.mod_eq_of_lt (bitsFrom_lt _ _ _)).trans (h.bitsFrom_eq (show c < 2 ^ hsb R by omega))
    simp [hv, h1]
  · rw [h.bitsFrom_eq (by omega), Nat.mod_eq_of_lt h2]
    simp [h1, h2, Nat.not_le.2 h2]
  · rw [h.bitsFrom_eq (by omega), Nat.mod_eq_sub_mod (by omega), Nat.mod_eq_of_lt (by omega)]
    rw [if_neg (by omega), if_pos (by omega), if_neg h1, if_neg h2, length_bitsOf]
    congr 1
    push_cast
    ring

/-! ### One round of the loop (R141) -/

section
variable (ibuf : Memory Byte) (maxSym fuel : Nat)

/-- The rest of the loop after a zero-probability run that began with `counts` described. -/
def afterRun (R : Nat) (counts : List Int) : Res FwdCursor Nat → Res FwdCursor (List Int)
  | .raise e c => .raise e c
  | .ok sym c =>
    readCounts ibuf maxSym fuel (.describing R (counts ++ List.replicate (sym - counts.length) 0)) c

/-- A run of `z` is `z` more counts of 0. -/
theorem afterRun_ok (R : Nat) (counts : List Int) (z : Nat) (c : FwdCursor) :
    afterRun ibuf maxSym fuel R counts (.ok (counts.length + z) c) =
      readCounts ibuf maxSym fuel (.describing R (counts ++ List.replicate z 0)) c := by
  rw [afterRun, Nat.add_sub_cancel_left]

/-- Where nothing is left to describe the loop ends. -/
theorem readCounts_end (counts : List Int) (c : FwdCursor) :
    readCounts ibuf maxSym fuel (.describing 1 counts) c = .ok counts c := by
  cases fuel <;> rfl

/-- Where no symbol is left to describe the loop faults. -/
theorem readCounts_full {R : Nat} {counts : List Int} (hR : 2 ≤ R) (hsym : maxSym < counts.length) (c : FwdCursor) :
    readCounts ibuf maxSym fuel (.describing R counts) c = .raise .fseSymbol c := by
  have hr : (R : Int) > 1 := by omega
  cases fuel
  · exact if_pos hr
  · exact (if_pos hr).trans (if_pos hsym)

variable {ibuf maxSym fuel} {R : Nat} {counts : List Int} {c d : FwdCursor} (hR : 2 ≤ R)
  (hsym : counts.length ≤ maxSym)
include hR hsym

/-- The tests at the top of the loop find a symbol to describe. -/
theorem NcLoop.describing_tests :
    (NcLoop.describing R counts).remaining > 1 ∧ ¬ (NcLoop.describing R counts).sym > maxSym :=
  ⟨by show (R : Int) > 1; omega, Nat.not_lt.2 hsym⟩

/-- A fault of the field is the loop's. -/
theorem readCounts_field_raise {e : FaultCode} (hf : readCountField ibuf (.describing R counts) c = .raise e d) :
    readCounts ibuf maxSym (fuel + 1) (.describing R counts) c = .raise e d := by
  obtain ⟨hr, hs⟩ := NcLoop.describing_tests hR hsym
  rw [readCounts, if_pos hr, if_neg hs, hf]

/-- A probability that is not 0 is one more count. -/
theorem readCounts_nonzero {p : Int} (hp : p ≠ 0) (habs : p.natAbs < R)
    (hf : readCountField ibuf (.describing R counts) c = .ok (p + 1) d) :
    readCounts ibuf maxSym (fuel + 1) (.describing R counts) c =
      readCounts ibuf maxSym fuel (.describing (R - p.natAbs) (counts ++ [p])) d := by
  obtain ⟨hr, hs⟩ := NcLoop.describing_tests hR hsym
  have hcast : ((R - p.natAbs : Nat) : Int) = (R : Int) - p.natAbs := by omega
  rw [readCounts, if_pos hr, if_neg hs, hf]
  simp only [NcLoop.describing, add_sub_cancel_right, if_neg hp, ← Int.natCast_natAbs, narrow_describing habs, hcast]

/-- A probability of 0 is one more count, and its run follows. -/
theorem readCounts_zero (hf : readCountField ibuf (.describing R counts) c = .ok 1 d) :
    readCounts ibuf maxSym (fuel + 1) (.describing R counts) c =
      afterRun ibuf maxSym fuel R (counts ++ [0]) (readZeroRun ibuf maxSym (maxSym + 1) (counts.length + 1) d) := by
  obtain ⟨hr, hs⟩ := NcLoop.describing_tests hR hsym
  have hn := narrow_describing (R := R) (p := 0) (by omega)
  rw [Nat.cast_zero, Nat.sub_zero, sub_zero] at hn
  rw [readCounts, if_pos hr, if_neg hs, hf]
  simp only [NcLoop.describing, sub_self, abs_zero, sub_zero, hn, if_true, List.length_append, List.length_singleton]
  cases readZeroRun ibuf maxSym (maxSym + 1) (counts.length + 1) d <;> simp [afterRun, NcLoop.describing]

end

/-! ### A description that stands at the cursor (R141, R143) -/

theorem bitsOf_two_three : bitsOf 2 3 = [true, true] := by decide

/-- A run of three or more begins with a 3. -/
theorem runBits_add_three (z : Nat) : runBits (z + 3) = bitsOf 2 3 ++ runBits z := by
  simp [runBits, bitsOf_two_three, List.replicate_succ]

/-- A run of less than three is one field. -/
theorem runBits_of_lt {z : Nat} (h : z < 3) : runBits z = bitsOf 2 z := by
  simp [runBits, Nat.div_eq_of_lt h, Nat.mod_eq_of_lt h]

theorem length_fieldBits (T R w c : Nat) : (fieldBits T R w c).length = w ∨ (fieldBits T R w c).length = w - 1 := by
  simp only [fieldBits]
  split_ifs <;> simp

/-- Where something remains, some symbol describes it. -/
theorem Describes.length_pos {R : Nat} {counts : List Int} {bits : List Bool} (h : Describes R counts bits)
    (hR : 2 ≤ R) : 1 ≤ counts.length := by
  cases h with
  | nil => omega
  | nonzero => simp
  | zero => simp

section
variable {ibuf : Memory Byte} {r : FwdReader} {lo hi x draws : Nat} (maxSym : Nat) (hmax : 8 * r.len.toNat < 2 ^ 32)
  (hx : ReadsAs ibuf r.base.toNat lo hi x) (hhi : hi ≤ 8 * r.len.toNat)
include hmax hx hhi

/-- One field of a zero-probability run, within the fuel. -/
theorem readZeroRun_seek {fuel sym pos : Nat} (unw : Bool) (hlo : lo ≤ pos) (hp : pos + 2 ≤ hi) :
    readZeroRun ibuf maxSym (fuel + 1) sym ⟨r.seek pos unw, draws⟩ =
      if maxSym < sym + bitsFrom x pos 2 then .raise .fseSymbol ⟨r.seek (pos + 2) true, draws⟩
      else if bitsFrom x pos 2 = 3 then
        readZeroRun ibuf maxSym fuel (sym + bitsFrom x pos 2) ⟨r.seek (pos + 2) true, draws⟩
      else .ok (sym + bitsFrom x pos 2) ⟨r.seek (pos + 2) true, draws⟩ := by
  rw [readZeroRun, FwdCursor.read_seek hmax hx hhi hlo hp (by norm_num)]

/-- A run of `z` that stands at the cursor is read, or runs out of symbols. -/
theorem readZeroRun_runBits (z : Nat) {fuel sym pos : Nat} (unw : Bool) (hlo : lo ≤ pos)
    (hz : StandsAt x pos (runBits z)) (hp : pos + (runBits z).length ≤ hi) (hsym : sym ≤ maxSym + 1)
    (hfuel : maxSym + 2 ≤ sym + fuel) :
    (sym + z ≤ maxSym → readZeroRun ibuf maxSym fuel sym ⟨r.seek pos unw, draws⟩ =
      .ok (sym + z) ⟨r.seek (pos + (runBits z).length) true, draws⟩) ∧
    (maxSym < sym + z → ∃ pos', readZeroRun ibuf maxSym fuel sym ⟨r.seek pos unw, draws⟩ =
      .raise .fseSymbol ⟨r.seek pos' true, draws⟩) := by
  induction z using Nat.strong_induction_on generalizing fuel sym pos unw with
  | _ z ih =>
    obtain ⟨fuel, rfl⟩ : ∃ f, fuel = f + 1 := ⟨fuel - 1, by omega⟩
    rcases Nat.lt_or_ge z 3 with h3 | h3
    · rw [runBits_of_lt h3] at hz hp ⊢
      rw [length_bitsOf] at hp ⊢
      rw [readZeroRun_seek maxSym hmax hx hhi unw hlo hp, hz.bitsFrom_eq (by omega)]
      refine ⟨fun hle => ?_, fun hlt => ⟨pos + 2, if_pos hlt⟩⟩
      rw [if_neg (by omega), if_neg (by omega)]
    · obtain ⟨z, rfl⟩ := Nat.exists_eq_add_of_le' h3
      rw [runBits_add_three, standsAt_append, length_bitsOf] at hz
      rw [runBits_add_three, List.length_append, length_bitsOf] at hp ⊢
      rw [readZeroRun_seek maxSym hmax hx hhi unw hlo (by omega), hz.1.bitsFrom_eq (by norm_num), ← Nat.add_assoc]
      by_cases hfull : maxSym < sym + 3
      · exact ⟨fun hle => by omega, fun _ => ⟨_, if_pos hfull⟩⟩
      · rw [if_neg hfull, if_pos rfl, Nat.add_right_comm, ← Nat.add_assoc pos]
        exact ih z (by omega) true (by omega) hz.2 (by omega) (by omega) (by omega)

/-- A field of a description is read, with a bit after it (R143). -/
theorem readCountField_described {pos R : Nat} {p : Int} (counts : List Int) (unw : Bool) (hR : 1 ≤ R) (hp : -1 ≤ p)
    (habs : p.natAbs < R) (hlo : lo ≤ pos)
    (hbits : StandsAt x pos (fieldBits (2 ^ hsb R) R (fieldWidth R) (p + 1).toNat))
    (hend : pos + (fieldBits (2 ^ hsb R) R (fieldWidth R) (p + 1).toNat).length + 1 ≤ hi) :
    ∃ unw', readCountField ibuf (.describing R counts) ⟨r.seek pos unw, draws⟩ =
      .ok (p + 1)
        ⟨r.seek (pos + (fieldBits (2 ^ hsb R) R (fieldWidth R) (p + 1).toNat).length) unw', draws⟩ := by
  have hlen := length_fieldBits (2 ^ hsb R) R (fieldWidth R) (p + 1).toNat
  have hread := readCountField_seek (draws := draws) (unw := unw) counts hmax hx hhi hR hlo (by omega)
  rw [fieldAt_of_standsAt hR hp habs hbits] at hread
  exact ⟨_, hread⟩

/-- A description that stands at the cursor, with a bit after it, is read, or runs out of symbols (R141 to R143). -/
theorem readCounts_of_describes {R : Nat} {counts : List Int} {bits : List Bool} (h : Describes R counts bits)
    {fuel pos : Nat} (described : List Int) (unw : Bool) (hlo : lo ≤ pos) (hbits : StandsAt x pos bits)
    (hp : pos + bits.length + 1 ≤ hi) (hdesc : described.length ≤ maxSym + 1)
    (hfuel : maxSym + 1 ≤ described.length + fuel) :
    (described.length + counts.length ≤ maxSym + 1 → ∃ unw',
      readCounts ibuf maxSym fuel (.describing R described) ⟨r.seek pos unw, draws⟩ =
        .ok (described ++ counts) ⟨r.seek (pos + bits.length) unw', draws⟩) ∧
    (maxSym + 1 < described.length + counts.length → ∃ pos' unw',
      readCounts ibuf maxSym fuel (.describing R described) ⟨r.seek pos unw, draws⟩ =
        .raise .fseSymbol ⟨r.seek pos' unw', draws⟩) := by
  induction h generalizing fuel pos described unw with
  | nil =>
    refine ⟨fun _ => ⟨unw, ?_⟩, fun hlt => ?_⟩
    · simp [readCounts_end]
    · simp only [List.length_nil] at hlt; omega
  | @nonzero R p counts bits hR hp0 hp1 habs h ih =>
    rw [standsAt_append] at hbits
    simp only [List.length_append, List.length_cons] at hp ⊢
    by_cases hfull : maxSym < described.length
    · exact ⟨fun _ => by omega, fun _ => ⟨pos, unw, readCounts_full _ _ _ hR hfull _⟩⟩
    · obtain ⟨fuel, rfl⟩ : ∃ f, fuel = f + 1 := ⟨fuel - 1, by omega⟩
      obtain ⟨unw', hread⟩ := readCountField_described (draws := draws) hmax hx hhi described unw (by omega) hp1 habs
        hlo hbits.1 (by omega)
      rw [readCounts_nonzero hR (by omega) hp0 habs hread]
      have hnext := ih (fuel := fuel) (described ++ [p]) unw' (by omega) hbits.2 (by omega) (by simp; omega)
        (by simp; omega)
      simpa [Nat.add_assoc, Nat.add_comm 1] using hnext
  | @zero R z counts bits hR h ih =>
    rw [List.append_assoc, standsAt_append, standsAt_append] at hbits
    obtain ⟨hfield, hrun, hrest⟩ := hbits
    simp only [List.length_append, List.length_cons, List.length_replicate] at hp ⊢
    have hpos := h.length_pos hR
    by_cases hfull : maxSym < described.length
    · exact ⟨fun _ => by omega, fun _ => ⟨pos, unw, readCounts_full _ _ _ hR hfull _⟩⟩
    · obtain ⟨fuel, rfl⟩ : ∃ f, fuel = f + 1 := ⟨fuel - 1, by omega⟩
      obtain ⟨unw', hread⟩ := readCountField_described (draws := draws) (p := 0) hmax hx hhi described unw (by omega)
        (by norm_num) (by simp; omega) hlo hfield (by simp; omega)
      rw [zero_add, Int.toNat_one] at hread
      obtain ⟨hok, hraise⟩ := readZeroRun_runBits (draws := draws) maxSym hmax hx hhi z (fuel := maxSym + 1)
        (sym := described.length + 1) unw' (by omega) hrun (by omega) (by omega) (by omega)
      rw [readCounts_zero hR (by omega) hread]
      by_cases hlt : maxSym < described.length + 1 + z
      · obtain ⟨pos', hz⟩ := hraise hlt
        exact ⟨fun _ => by omega, fun _ => ⟨pos', true, congrArg _ hz⟩⟩
      · obtain ⟨hdone, hfault⟩ := ih (fuel := fuel) (described ++ [0] ++ List.replicate z 0) true (by omega) hrest
          (by omega) (by simp; omega) (by simp; omega)
        have hz : described.length + 1 + z = (described ++ [0]).length + z := by simp
        rw [hok (by omega), hz, afterRun_ok]
        refine ⟨fun hle => ?_, fun hgt => ?_⟩
        · obtain ⟨u, hu⟩ := hdone (by simp; omega)
          exact ⟨u, by simpa [Nat.add_assoc] using hu⟩
        · obtain ⟨pos', u, hu⟩ := hfault (by simp; omega)
          exact ⟨pos', u, hu⟩

end

/-! ### A loop that faults (R141) -/

section
variable {ibuf : Memory Byte} {r : FwdReader} {x draws : Nat} {maxSym : Nat} (hmax : 8 * r.len.toNat < 2 ^ 32)
include hmax

/-- A field that the bits left do not hold raises `END_OF_INPUT`. -/
theorem readCountField_seek_end {pos R : Nat} (counts : List Int) (unw : Bool) (hpos : pos ≤ 8 * r.len.toNat)
    (hend : 8 * r.len.toNat < pos + fieldWidth R) :
    readCountField ibuf (.describing R counts) ⟨r.seek pos unw, draws⟩ =
      .raise .endOfInput ⟨r.seek pos unw, draws⟩ := by
  simp only [readCountField, NcLoop.describing, FwdCursor.read_seek_end hmax hpos hend]

/-- A run's field that the bits left do not hold raises `END_OF_INPUT`. -/
theorem readZeroRun_seek_end {fuel sym pos : Nat} (unw : Bool) (hpos : pos ≤ 8 * r.len.toNat)
    (hend : 8 * r.len.toNat < pos + 2) :
    readZeroRun ibuf maxSym (fuel + 1) sym ⟨r.seek pos unw, draws⟩ = .raise .endOfInput ⟨r.seek pos unw, draws⟩ := by
  rw [readZeroRun, FwdCursor.read_seek_end hmax hpos hend]

/-- A loop that ends in a fault does so in the model, with the reader where the loop left it: from the top of the loop,
or from inside a run, with fuel for the symbols that are left. -/
theorem ParserFaults.raise (hx : ReadsAs ibuf r.base.toNat 0 (8 * r.len.toNat) x) {run : Bool} {R sym pos pos' : Nat}
    {unw unw' : Bool} {code : Byte}
    (h : ParserFaults x (8 * r.len.toNat) maxSym run R sym pos unw code pos' unw') (hpos : pos ≤ 8 * r.len.toNat) :
    ∃ e : FaultCode, e.number = code ∧ e.isProgramming = false ∧
      ∀ (fuel : Nat) (counts : List Int), maxSym + 1 ≤ counts.length + fuel →
        (run = false → counts.length = sym →
          readCounts ibuf maxSym fuel (.describing R counts) ⟨r.seek pos unw, draws⟩ =
            .raise e ⟨r.seek pos' unw', draws⟩) ∧
        (run = true → counts.length ≤ sym → sym ≤ maxSym + 1 → ∀ runFuel, maxSym + 2 ≤ sym + runFuel →
          afterRun ibuf maxSym fuel R counts (readZeroRun ibuf maxSym runFuel sym ⟨r.seek pos unw, draws⟩) =
            .raise e ⟨r.seek pos' unw', draws⟩) := by
  induction h with
  | symbol hR hsym =>
    exact ⟨.fseSymbol, rfl, rfl, fun fuel counts _ =>
      ⟨fun _ hlen => readCounts_full _ _ _ hR (by omega) _, nofun⟩⟩
  | fieldEnd hR hsym hend =>
    refine ⟨.endOfInput, rfl, rfl, fun fuel counts hfuel => ⟨fun _ hlen => ?_, nofun⟩⟩
    obtain ⟨fuel, rfl⟩ : ∃ f, fuel = f + 1 := ⟨fuel - 1, by omega⟩
    exact readCounts_field_raise hR (by omega) (readCountField_seek_end hmax counts _ hpos hend)
  | @field R sym pos _ unw _ _ hR hsym hfit _ ih =>
    have hwidth := fieldAt_width x pos R
    have habs := natAbs_fieldAt_lt x pos hR
    obtain ⟨e, he, hclass, hnext⟩ := ih (by omega)
    refine ⟨e, he, hclass, fun fuel counts hfuel => ⟨fun _ hlen => ?_, nofun⟩⟩
    obtain ⟨fuel, rfl⟩ : ∃ f, fuel = f + 1 := ⟨fuel - 1, by omega⟩
    have hread := readCountField_seek (draws := draws) (unw := unw) counts hmax hx le_rfl (show 1 ≤ R by omega)
      (Nat.zero_le pos) hfit
    obtain ⟨htop, hrun⟩ := hnext fuel (counts ++ [(fieldAt x pos R).1]) (by simp; omega)
    by_cases hp : (fieldAt x pos R).1 = 0
    · rw [hp, zero_add] at hread
      rw [readCounts_zero hR (by omega) hread, hlen]
      rw [hp] at hrun
      exact hrun rfl (by simp; omega) (by omega) _ (by omega)
    · rw [readCounts_nonzero hR (by omega) hp habs hread]
      exact htop (decide_eq_false hp) (by simp; omega)
  | runEnd hend =>
    refine ⟨.endOfInput, rfl, rfl, fun fuel counts _ => ⟨nofun, fun _ _ hsym runFuel hfuel => ?_⟩⟩
    obtain ⟨runFuel, rfl⟩ : ∃ f, runFuel = f + 1 := ⟨runFuel - 1, by omega⟩
    rw [readZeroRun_seek_end hmax _ hpos hend]
    rfl
  | @runSymbol R sym pos unw hfit hfull =>
    refine ⟨.fseSymbol, rfl, rfl, fun fuel counts _ => ⟨nofun, fun _ _ hsym runFuel hfuel => ?_⟩⟩
    obtain ⟨runFuel, rfl⟩ : ∃ f, runFuel = f + 1 := ⟨runFuel - 1, by omega⟩
    rw [readZeroRun_seek maxSym hmax hx le_rfl unw (Nat.zero_le pos) hfit, if_pos hfull]
    rfl
  | @runField R sym pos _ unw _ _ hfit hsym _ ih =>
    obtain ⟨e, he, hclass, hnext⟩ := ih hfit
    refine ⟨e, he, hclass, fun fuel counts hfuel => ⟨nofun, fun _ hle _ runFuel hrunFuel => ?_⟩⟩
    obtain ⟨runFuel, rfl⟩ : ∃ f, runFuel = f + 1 := ⟨runFuel - 1, by omega⟩
    rw [readZeroRun_seek maxSym hmax hx le_rfl unw (Nat.zero_le pos) hfit, if_neg (by omega)]
    by_cases h3 : bitsFrom x pos 2 = 3
    · rw [if_pos h3]
      exact (hnext fuel counts hfuel).2 (decide_eq_true h3) (by omega) (by omega) _ (by omega)
    · have hz : sym + bitsFrom x pos 2 = counts.length + (sym + bitsFrom x pos 2 - counts.length) := by omega
      rw [if_neg h3]
      refine Eq.trans ?_ ((hnext fuel (counts ++ List.replicate (sym + bitsFrom x pos 2 - counts.length) 0)
        (by simp; omega)).1 (decide_eq_false h3) (by simp; omega))
      rw [hz, afterRun_ok, ← hz]

end

/-! ### The parser's header and its ends (R141) -/

/-- A reader with fewer than 4 bits left raises `END_OF_INPUT` and moves nothing. -/
theorem readNCount_end {ibuf : Memory Byte} {c : FwdCursor} (maxSym maxAl : Nat)
    (h : 8 * c.reader.len.toNat < c.reader.pos.toNat + 4) :
    readNCount ibuf maxSym maxAl c = .raise .endOfInput c := by
  have hread : c.read ibuf 4 = .raise .endOfInput c := if_pos h
  rw [readNCount, hread]

section
variable {ibuf : Memory Byte} {maxSym maxAl v : Nat} {c c₁ c₂ : FwdCursor} (hread : c.read ibuf 4 = .ok v c₁)
include hread

/-- An accuracy log that is too large raises `FSE_AL`, with the field read. -/
theorem readNCount_fseAl (h : maxAl < v + 5) : readNCount ibuf maxSym maxAl c = .raise .fseAl c₁ := by
  rw [readNCount, hread]
  exact if_pos h

/-- A fault of the loop is the parser's. -/
theorem readNCount_raise {e : FaultCode} (hal : v + 5 ≤ maxAl)
    (h : readCounts ibuf maxSym (maxSym + 1) (.describing (2 ^ (v + 5) + 1) []) c₁ = .raise e c₂) :
    readNCount ibuf maxSym maxAl c = .raise e c₂ := by
  rw [← NcLoop.start_eq_describing (Nat.le_add_left 1 _)] at h
  rw [readNCount, hread]
  simp only [if_neg (Nat.not_lt.2 hal), h]

/-- Where the loop ends the parser skips to the next byte boundary. -/
theorem readNCount_completes {counts : List Int} (hal : v + 5 ≤ maxAl)
    (h : readCounts ibuf maxSym (maxSym + 1) (.describing (2 ^ (v + 5) + 1) []) c₁ = .ok counts c₂) :
    readNCount ibuf maxSym maxAl c =
      .ok ⟨v + 5, counts, ceilDiv (c₂.reader.pos.toNat - c.reader.pos.toNat) 8⟩
        ⟨c₂.reader.seek (c.reader.pos.toNat + 8 * ceilDiv (c₂.reader.pos.toNat - c.reader.pos.toNat) 8) false,
          c₂.draws⟩ := by
  rw [← NcLoop.start_eq_describing (Nat.le_add_left 1 _)] at h
  rw [readNCount, hread]
  simp only [if_neg (Nat.not_lt.2 hal), h]
  rfl

end

/-! ### A description in IBUF (R8, R144) -/

theorem leInt_append (as bs : List Byte) : leInt (as ++ bs) = leInt as + 2 ^ (8 * as.length) * leInt bs := by
  induction as with
  | nil => simp [leInt]
  | cons a as ih =>
    rw [List.cons_append, leInt, leInt, ih, List.length_cons, Nat.mul_succ, pow_add]
    ring

/-- Bits packed at the cursor's byte, with a byte after them, stand there in an integer that the stream reads as. -/
theorem exists_readsAs_packBits {ibuf : Memory Byte} {base pos len : Nat} {bits : List Bool} {extra : List Byte}
    (hextra : extra ≠ []) (hpos : pos % 8 = 0) (hbs : ibuf.holds (base + pos / 8) (packBits bits ++ extra))
    (hlen : pos / 8 + (packBits bits ++ extra).length ≤ len) :
    ∃ hi x, ReadsAs ibuf base pos hi x ∧ hi ≤ 8 * len ∧ StandsAt x pos bits ∧ pos + bits.length + 1 ≤ hi := by
  have hread := readsAs_of_holds_from hbs
  have hbyte : 8 * (pos / 8) = pos := by omega
  have hfit := length_le_packBits bits
  have hone := List.length_pos_of_ne_nil hextra
  rw [hbyte] at hread
  refine ⟨_, _, hread, by omega, ?_, by rw [List.length_append]; omega⟩
  rw [StandsAt, bitsFrom, Nat.mul_div_cancel_left _ (Nat.two_pow_pos _), leInt_append, leInt_packBits,
    ← Nat.add_sub_cancel' hfit, pow_add, Nat.mul_assoc, Nat.add_mul_mod_self_left, Nat.mod_eq_of_lt (natOfBits_lt bits)]

section
variable {s : State} {al : Nat} {counts : List Int} {bits : List Bool} {extra : List Byte} {maxSym maxAl : Nat}
  (hlo : 5 ≤ al) (hal : al ≤ maxAl) (hmaxAl : maxAl ≤ 9) (hd : Describes (2 ^ al + 1) counts bits)
  (hextra : extra ≠ []) (halign : s.fr.pos.toNat % 8 = 0) (hmax : 8 * s.fr.len.toNat < 2 ^ 32)
  (hbs : s.ibuf.holds (s.fr.base.toNat + s.fr.pos.toNat / 8) (packBits (bitsOf 4 (al - 5) ++ bits) ++ extra))
  (hlen : s.fr.pos.toNat / 8 + (packBits (bitsOf 4 (al - 5) ++ bits) ++ extra).length ≤ s.fr.len.toNat)
include hlo hal hmaxAl hd hextra halign hmax hbs hlen

/-- A description at the cursor is parsed, or runs out of symbols (R141, R143). -/
theorem readNCount_described :
    (counts.length ≤ maxSym + 1 → readNCount s.ibuf maxSym maxAl s.fwd =
      .ok ⟨al, counts, (packBits (bitsOf 4 (al - 5) ++ bits)).length⟩
        ⟨s.fr.seek (s.fr.pos.toNat + 8 * (packBits (bitsOf 4 (al - 5) ++ bits)).length) false, s.draws⟩) ∧
    (maxSym + 1 < counts.length → ∃ pos' unw', readNCount s.ibuf maxSym maxAl s.fwd =
      .raise .fseSymbol ⟨s.fr.seek pos' unw', s.draws⟩) := by
  obtain ⟨hi, x, hx, hhi, hbits, hend⟩ := exists_readsAs_packBits hextra halign hbs hlen
  rw [standsAt_append, length_bitsOf] at hbits
  rw [List.length_append, length_bitsOf] at hend
  have hread : s.fwd.read s.ibuf 4 = .ok (al - 5) ⟨s.fr.seek (s.fr.pos.toNat + 4) true, s.draws⟩ := by
    have h := FwdCursor.read_seek (draws := s.draws) (n := 4) (unw := s.fr.unw) hmax hx hhi le_rfl (by omega)
      (by norm_num)
    rwa [hbits.1.bitsFrom_eq (by omega), FwdReader.seek_self] at h
  have hal5 : al - 5 + 5 = al := by omega
  obtain ⟨hok, hraise⟩ := readCounts_of_describes (draws := s.draws) maxSym hmax hx hhi hd (fuel := maxSym + 1) [] true
    (Nat.le_add_right _ 4) hbits.2 (by omega) (Nat.zero_le _) (by simp)
  simp only [List.length_nil, Nat.zero_add, List.nil_append] at hok hraise
  refine ⟨fun hle => ?_, fun hgt => ?_⟩
  · obtain ⟨unw', h⟩ := hok hle
    rw [readNCount_completes hread (by omega) (by rw [hal5]; exact h)]
    have hpos : (BitVec.ofNat 32 (s.fr.pos.toNat + 4 + bits.length)).toNat = s.fr.pos.toNat + 4 + bits.length := by
      rw [BitVec.toNat_ofNat, Nat.mod_eq_of_lt (by omega)]
    have hbytes : ceilDiv (s.fr.pos.toNat + 4 + bits.length - s.fr.pos.toNat) 8 =
        (packBits (bitsOf 4 (al - 5) ++ bits)).length := by
      rw [length_packBits, List.length_append, length_bitsOf, Nat.add_assoc, Nat.add_sub_cancel_left]
    simp only [FwdReader.seek, State.fwd, hpos, hbytes, hal5]
  · obtain ⟨pos', unw', h⟩ := hraise hgt
    exact ⟨pos', unw', readNCount_raise hread (by omega) (by rw [hal5]; exact h)⟩

end

/-! ### `FSE.READNC` (R144) -/

/-- A description parsed without a draw changes the forward reader, the slots, the state registers and `RES` alone. -/
theorem State.parsed_frame (s : State) (τ : Fin 8) (d : Description) {c : FwdCursor} (hc : c.draws = s.draws) :
    s.parsed τ d c = { s with
      fr := (s.parsed τ d c).fr, slots := (s.parsed τ d c).slots, states := (s.parsed τ d c).states
      res := (s.parsed τ d c).res } := by
  simp only [State.parsed, State.setFwd, State.rewrite, State.setSlot, invalidate, hc]

/-- A fault of the parser without a draw changes the forward reader, the slots and the state registers alone. -/
theorem State.unparsed_frame (s : State) (τ : Fin 8) {c : FwdCursor} (hc : c.draws = s.draws) :
    s.unparsed τ c = { s with
      fr := c.reader, slots := (s.unparsed τ c).slots, states := (s.unparsed τ c).states } := by
  simp only [State.unparsed, State.setFwd, State.rewrite, State.setSlot, invalidate, hc]

/-- The frame of a command that completes, from that of its pseudocode. -/
theorem complete_frame {s u : State}
    (h : u = { s with fr := u.fr, slots := u.slots, states := u.states, res := u.res }) :
    complete u = { s.ended with fr := u.fr, slots := u.slots, states := u.states, res := u.res } :=
  congrArg complete h

section
variable {s : State} {τ : Fin 8} {maxAl : BitVec 4} {maxSym : BitVec 8} {c : FwdCursor} (hmax : maxAl.toNat ≤ 9)
  (halign : s.fr.pos.toNat % 8 = 0)
include hmax halign

/-- A command whose parser completes has loaded what it parsed. -/
theorem fseReadnc_done {d : Description} (h : readNCount s.ibuf maxSym.toNat maxAl.toNat s.fwd = .ok d c) :
    exec (.fseReadnc τ maxAl maxSym) s = .next (complete (s.parsed τ d c)) := by
  rcases fseReadnc_cases τ maxAl maxSym s with ⟨hlt, -⟩ | ⟨-, hne, -⟩ | ⟨-, -, hends⟩
  · exact absurd hmax (Nat.not_le.2 hlt)
  · exact absurd halign hne
  · rcases hends with ⟨d', c', hparse, he⟩ | ⟨e, c', hparse, -⟩ <;> rw [h] at hparse <;> cases hparse
    exact (exec_eq _ s).trans (congrArg _ he)

/-- A command whose parser faults takes the parser's fault, and has moved the reader and cleared its slot. -/
theorem fseReadnc_faulted (hs : s.fault = false) {e : FaultCode}
    (h : readNCount s.ibuf maxSym.toNat maxAl.toNat s.fwd = .raise e c) :
    exec (.fseReadnc τ maxAl maxSym) s =
      .next ((s.unparsed τ c).faulted e.number e.isProgramming (encode (.fseReadnc τ maxAl maxSym))) := by
  rcases fseReadnc_cases τ maxAl maxSym s with ⟨hlt, -⟩ | ⟨-, hne, -⟩ | ⟨-, -, hends⟩
  · exact absurd hmax (Nat.not_le.2 hlt)
  · exact absurd halign hne
  · rcases hends with ⟨d', c', hparse, -⟩ | ⟨e, c', hparse, he⟩ <;> rw [h] at hparse <;> cases hparse
    have hs' : (s.unparsed τ c).fault = false := hs
    rw [exec_eq, ending, he, finish, faultEntry_eq_faulted hs']

end

/-- Settles O25: the parser reads the description, field by field and run by run. -/
theorem readncReadsADescription : Obligations.ReadncReadsADescription := by
  unfold Obligations.ReadncReadsADescription
  intro s τ maxAl maxSym al counts bits extra hlo hal hmaxAl hd hsyms hextra halign hmax hbs hlen
  have hparse := (readNCount_described (maxSym := maxSym.toNat) hlo hal hmaxAl hd hextra halign hmax hbs hlen).1 hsyms
  have hsym := maxSym.isLt
  have hbytes : (packBits (bitsOf 4 (al - 5) ++ bits)).length ≤ s.fr.len.toNat := by
    rw [List.length_append] at hlen
    omega
  generalize (packBits (bitsOf 4 (al - 5) ++ bits)).length = nbytes at hparse hbytes ⊢
  obtain ⟨c, hreader, hdraws, hparse⟩ : ∃ c : FwdCursor, c.reader = s.fr.seek (s.fr.pos.toNat + 8 * nbytes) false ∧
      c.draws = s.draws ∧ readNCount s.ibuf maxSym.toNat maxAl.toNat s.fwd = .ok ⟨al, counts, nbytes⟩ c :=
    ⟨_, rfl, rfl, hparse⟩
  refine ⟨_, fseReadnc_done hmaxAl halign hparse, complete_frame (State.parsed_frame s τ _ hdraws),
    fun υ hυ => (complete_slot _ υ).trans (State.parsed_slot_ne s τ _ c hυ), ?_⟩
  simp only [complete_slot, complete_fse, State.parsed_slot_same, State.parsed_fse]
  refine ⟨rfl, rfl, rfl, Slot.load_al (by omega), ?_, fun j hj => get?_countImage counts hj, fun _ => trivial, ?_, ?_⟩
  · exact (BitVec.toNat_ofNat _ _).trans (Nat.mod_eq_of_lt (by omega))
  · exact (BitVec.toNat_ofNat _ _).trans (Nat.mod_eq_of_lt (show nbytes < _ by omega))
  · show c.reader = { s.fr with pos := s.fr.pos + 8 * (BitVec.ofNat 64 nbytes).setWidth 32, unw := false }
    have hpos : BitVec.ofNat 32 (s.fr.pos.toNat + 8 * nbytes) =
        s.fr.pos + 8 * (BitVec.ofNat 64 nbytes).setWidth 32 := by
      apply BitVec.eq_of_toNat_eq
      simp
    rw [hreader, FwdReader.seek, hpos]

/-! ### The faults of `FSE.READNC` (R140, R144; 60_exceptions.md R273) -/

section
variable {s : State} {τ : Fin 8} {maxAl : BitVec 4} {maxSym : BitVec 8} (hs : s.fault = false)
  (hmaxAl : maxAl.toNat ≤ 9)
include hs hmaxAl

/-- Away from a byte boundary the command faults before it writes anything (R144). -/
theorem fseReadnc_fbrAlign (h : s.fr.pos.toNat % 8 ≠ 0) : exec (.fseReadnc τ maxAl maxSym) s =
    .next (s.faulted 0x15 true (encode (.fseReadnc τ maxAl maxSym))) := by
  rcases fseReadnc_cases τ maxAl maxSym s with ⟨hlt, -⟩ | ⟨-, -, he⟩ | ⟨-, halign, -⟩
  · omega
  · exact exec_raise (i := .fseReadnc τ maxAl maxSym) hs he
  · exact absurd halign h

variable (halign : s.fr.pos.toNat % 8 = 0)
include halign

/-- A command that leaves a fault has taken one of the parser's, and has cleared its slot (R273). -/
theorem fseReadnc_fault {t : State} (hexec : exec (.fseReadnc τ maxAl maxSym) s = .next t) (ht : t.fault = true) :
    ∃ (e : FaultCode) (c : FwdCursor), e.OfParser ∧
      t = (s.unparsed τ c).faulted e.number e.isProgramming (encode (.fseReadnc τ maxAl maxSym)) := by
  have hraises := readNCount_raises s.ibuf maxSym.toNat maxAl.toNat s.fwd
  cases hparse : readNCount s.ibuf maxSym.toNat maxAl.toNat s.fwd with
  | ok d c =>
    rw [fseReadnc_done hmaxAl halign hparse] at hexec
    cases hexec
    rw [complete_fault, State.parsed_fault, hs] at ht
    exact absurd ht Bool.false_ne_true
  | raise e c =>
    rw [fseReadnc_faulted hmaxAl halign hs hparse] at hexec
    cases hexec
    rw [hparse] at hraises
    exact ⟨e, c, hraises, rfl⟩

/-- A fault of the parser that drew nothing changes the forward reader, the slots and the state registers alone. -/
theorem fseReadnc_faulted_frame {e : FaultCode} {r : FwdReader}
    (h : readNCount s.ibuf maxSym.toNat maxAl.toNat s.fwd = .raise e ⟨r, s.draws⟩) :
    ∃ t, exec (.fseReadnc τ maxAl maxSym) s = .next t ∧
      t = State.faulted { s with fr := r, slots := t.slots, states := t.states } e.number e.isProgramming
        (encode (.fseReadnc τ maxAl maxSym)) :=
  ⟨_, fseReadnc_faulted hmaxAl halign hs h,
    congrArg (State.faulted · _ _ _) (State.unparsed_frame s τ (c := ⟨r, s.draws⟩) rfl)⟩

/-- What a written stream's parser raises is the command's fault, with the reader where the parser left it (R141). -/
theorem fseReadnc_faulted_of_holds {bs : List Byte} (hlen : bs.length = s.fr.len.toNat)
    (hmax : 8 * s.fr.len.toNat < 2 ^ 32) (hbs : s.ibuf.holds s.fr.base.toNat bs)
    (hfit : s.fr.pos.toNat + 4 ≤ 8 * s.fr.len.toNat) :
    (maxAl.toNat < bitsFrom (leInt bs) s.fr.pos.toNat 4 + 5 →
      ∃ t, exec (.fseReadnc τ maxAl maxSym) s = .next t ∧
        t = State.faulted { s with
            fr := { s.fr with pos := s.fr.pos + 4, unw := true }, slots := t.slots, states := t.states } 0x07 false
          (encode (.fseReadnc τ maxAl maxSym))) ∧
    ∀ (al pos' : Nat) (code : Byte) (unw' : Bool), al = bitsFrom (leInt bs) s.fr.pos.toNat 4 + 5 → al ≤ maxAl.toNat →
      ParserFaults (leInt bs) (8 * s.fr.len.toNat) maxSym.toNat false (2 ^ al + 1) 0 (s.fr.pos.toNat + 4) true
        code pos' unw' →
      ∃ t, exec (.fseReadnc τ maxAl maxSym) s = .next t ∧
        t = State.faulted { s with
            fr := { s.fr with pos := BitVec.ofNat 32 pos', unw := unw' }, slots := t.slots, states := t.states } code
          false (encode (.fseReadnc τ maxAl maxSym)) := by
  have hx : ReadsAs s.ibuf s.fr.base.toNat 0 (8 * s.fr.len.toNat) (leInt bs) := hlen ▸ readsAs_of_holds hbs
  have hread : s.fwd.read s.ibuf 4 =
      .ok (bitsFrom (leInt bs) s.fr.pos.toNat 4) ⟨s.fr.seek (s.fr.pos.toNat + 4) true, s.draws⟩ := by
    have h := FwdCursor.read_seek (draws := s.draws) (n := 4) (unw := s.fr.unw) hmax hx le_rfl (Nat.zero_le _) hfit
      (by norm_num)
    rwa [FwdReader.seek_self] at h
  refine ⟨fun hal => ?_, fun al pos' code unw' hal hle hfaults => ?_⟩
  · have hseek : s.fr.seek (s.fr.pos.toNat + 4) true = { s.fr with pos := s.fr.pos + 4, unw := true } := by
      simp [FwdReader.seek, BitVec.ofNat_add]
    exact fseReadnc_faulted_frame hs hmaxAl halign (hseek ▸ readNCount_fseAl hread hal)
  · subst hal
    obtain ⟨e, rfl, hclass, hloop⟩ := hfaults.raise (draws := s.draws) hmax hx hfit
    have h := (hloop (maxSym.toNat + 1) [] (by simp)).1 rfl rfl
    exact hclass ▸ fseReadnc_faulted_frame hs hmaxAl halign (readNCount_raise hread hle h)

end

/-- Settles O27: the parser's fault is the command's, raised with its slot already cleared. -/
theorem readncFaultEffects : Obligations.ReadncFaultEffects := by
  unfold Obligations.ReadncFaultEffects
  refine fun s τ maxAl maxSym hs hmaxAl => ⟨fseReadnc_fbrAlign hs hmaxAl, fun t halign hexec ht => ?_,
    fun bs halign hlen hmax hbs => ⟨fun hend => ?_, fun hfit => ?_, fun al pos' code unw' hfit => ?_⟩,
    fun al counts bits extra hlo hal hd hsyms hextra halign hmax hbs hlen => ?_⟩
  · obtain ⟨e, c, he, rfl⟩ := fseReadnc_fault hs hmaxAl halign hexec ht
    have hcode : (e.number = 0x03 ∨ e.number = 0x07 ∨ e.number = 0x08) ∧ e.isProgramming = false := by
      rcases he with rfl | rfl | rfl <;> decide
    have hslot : ((s.unparsed τ c).faulted e.number e.isProgramming
        (encode (.fseReadnc τ maxAl maxSym))).slot τ = (s.slot τ).unparsed := State.unparsed_slot_same s τ c
    rw [hslot]
    exact ⟨hcode.1, hcode.2, rfl, rfl, rfl, rfl, rfl, rfl, fun υ hυ => State.unparsed_slot_ne s τ c hυ,
      fun k => State.unparsed_fse s τ c k⟩
  · exact fseReadnc_faulted_frame hs hmaxAl halign (readNCount_end _ _ hend)
  · exact (fseReadnc_faulted_of_holds hs hmaxAl halign hlen hmax hbs hfit).1
  · exact (fseReadnc_faulted_of_holds hs hmaxAl halign hlen hmax hbs hfit).2 al pos' code unw'
  · obtain ⟨pos', unw', hparse⟩ :=
      (readNCount_described (maxSym := maxSym.toNat) hlo hal hmaxAl hd hextra halign hmax hbs hlen).2 hsyms
    obtain ⟨t, hexec, ht⟩ := fseReadnc_faulted_frame (τ := τ) hs hmaxAl halign hparse
    have hfr : t.fr = s.fr.seek pos' unw' := congrArg State.fr ht
    refine ⟨t, hexec, ?_⟩
    rw [hfr]
    exact ht

end Sys2Proof.Machine

/-! ## The spread of a distribution (41_fse.md R145, R146) -/

namespace Sys2Proof.Machine

/-! ### The walk over the positions -/

/-- Position `k` of the walk from 0 by `stride`, around a table of `size`. -/
def walk (size stride k : Nat) : Nat := k * stride % size

/-- The positions below `low` that the walk visits from its step `k` on, before it is back at 0. -/
def visits (size low stride k : Nat) : List Nat :=
  ((List.range' k (size - k)).map (walk size stride)).filter fun p => decide (p < low)

section
variable {al low stride : Nat}

theorem walk_succ (size stride k : Nat) : walk size stride (k + 1) = (walk size stride k + stride) % size := by
  rw [walk, walk, Nat.succ_mul, Nat.mod_add_mod]

/-- After as many steps as the table has states the walk is back at 0. -/
theorem walk_size (size stride : Nat) : walk size stride size = 0 := Nat.mul_mod_right _ _

theorem visits_of_size_le {size k : Nat} (low stride : Nat) (h : size ≤ k) : visits size low stride k = [] := by
  simp [visits, Nat.sub_eq_zero_of_le h]

/-- One step of the walk is a visit where it is below `low`. -/
theorem visits_of_lt {size k : Nat} (low stride : Nat) (h : k < size) :
    visits size low stride k =
      if walk size stride k < low then walk size stride k :: visits size low stride (k + 1)
      else visits size low stride (k + 1) := by
  rw [visits, visits, show size - k = size - (k + 1) + 1 by omega, List.range'_succ, List.map_cons, List.filter_cons]
  simp

/-- The step of the spread finds the next visit, or is back at 0 (R145). -/
theorem spreadNext_walk (hlow : 0 < low) {fuel k : Nat} (hk : k < 2 ^ al) (hfuel : 2 ^ al ≤ k + fuel) :
    spreadNext (2 ^ al) low stride fuel (walk (2 ^ al) stride k) =
      some ((visits (2 ^ al) low stride (k + 1)).headD 0) := by
  induction fuel generalizing k with
  | zero => omega
  | succ fuel ih =>
    rw [spreadNext, Nat.and_two_pow_sub_one_eq_mod, ← walk_succ]
    rcases Nat.lt_or_ge (k + 1) (2 ^ al) with hk' | hk'
    · rw [visits_of_lt low stride hk']
      split_ifs with h
      · rfl
      · exact ih hk' (by omega)
    · have hend : k + 1 = 2 ^ al := by omega
      rw [hend, walk_size, if_pos hlow, visits_of_size_le _ _ le_rfl]
      rfl

/-- `todo` lists the visits still to be made. -/
def ToVisit (size low stride : Nat) (todo : List Nat) : Prop := ∃ k, todo = visits size low stride k

/-- The first of the visits to be made is a step of the walk, and the others follow it. -/
theorem visits_eq_cons {size k p : Nat} {todo : List Nat} (h : visits size low stride k = p :: todo) :
    ∃ j < size, p = walk size stride j ∧ p < low ∧ todo = visits size low stride (j + 1) := by
  induction hn : size - k generalizing k with
  | zero =>
    rw [visits_of_size_le low stride (by omega)] at h
    cases h
  | succ n ih =>
    rw [visits_of_lt low stride (by omega)] at h
    split_ifs at h with hlt
    · cases h
      exact ⟨k, by omega, rfl, hlt, rfl⟩
    · exact ih h (by omega)

/-- From one visit the spread goes to the next, or to 0 after the last (R145). -/
theorem ToVisit.next {p : Nat} {todo : List Nat} (h : ToVisit (2 ^ al) low stride (p :: todo)) :
    spreadNext (2 ^ al) low stride (2 ^ al) p = some (todo.headD 0) ∧ ToVisit (2 ^ al) low stride todo := by
  obtain ⟨k, hk⟩ := h
  obtain ⟨j, hj, rfl, hlow, rfl⟩ := visits_eq_cons hk.symm
  exact ⟨spreadNext_walk (by omega) hj (by omega), j + 1, rfl⟩

/-- An odd stride takes the walk over every state once (R146). -/
theorem walk_perm (hodd : Odd stride) :
    ((List.range (2 ^ al)).map (walk (2 ^ al) stride)).Perm (List.range (2 ^ al)) := by
  have hcop : (2 ^ al).gcd stride = 1 := ((Nat.coprime_two_right.2 hodd).pow_right al).symm
  have hinj : ((List.range (2 ^ al)).map (walk (2 ^ al) stride)).Nodup := by
    refine (List.nodup_range).map_on fun a ha b hb hab => ?_
    have hmod := Nat.ModEq.cancel_right_of_coprime hcop hab
    rw [Nat.ModEq, Nat.mod_eq_of_lt (List.mem_range.1 ha), Nat.mod_eq_of_lt (List.mem_range.1 hb)] at hmod
    exact hmod
  refine (List.subperm_of_subset hinj fun p hp => ?_).perm_of_length_le (by simp)
  obtain ⟨k, -, rfl⟩ := List.mem_map.1 hp
  exact List.mem_range.2 (Nat.mod_lt _ (Nat.two_pow_pos al))

/-- The whole walk visits every position below `low` once (R146). -/
theorem visits_perm (hodd : Odd stride) (hlow : low ≤ 2 ^ al) :
    (visits (2 ^ al) low stride 0).Perm (List.range low) := by
  have h := (walk_perm (al := al) hodd).filter fun p => decide (p < low)
  rw [← List.Ico.zero_bot, List.Ico.filter_lt, Nat.min_eq_right hlow, List.Ico.zero_bot, List.Ico.zero_bot,
    List.range_eq_range'] at h
  exact h

/-- The walk's visits begin at 0, where there are any. -/
theorem headD_visits (size low stride : Nat) : (visits size low stride 0).headD 0 = 0 := by
  rcases Nat.eq_zero_or_pos size with rfl | hsize
  · rfl
  · rcases Nat.eq_zero_or_pos low with rfl | hlow
    · simp [visits]
    · have hzero : walk size stride 0 = 0 := by simp [walk]
      rw [visits_of_lt low stride hsize, hzero, if_pos hlow]
      rfl

end

/-! ### The symbols placed -/

/-- A blank slot of the symbol table, which holds 0, takes a symbol. -/
theorem count_set_blank {syms : List Nat} {u : Nat} (h : syms[u]? = some 0) (sym σ : Nat) :
    (syms.set u sym).count σ + (if σ = 0 then 1 else 0) = syms.count σ + (if sym = σ then 1 else 0) := by
  obtain ⟨hu, h0⟩ := List.getElem?_eq_some_iff.1 h
  have hmem : σ = 0 → 0 < syms.count σ := fun e => List.count_pos_iff.2 (e ▸ h0 ▸ List.getElem_mem hu)
  rw [List.count_set hu, h0]
  simp only [beq_iff_eq, eq_comm (a := 0)]
  split_ifs <;> omega

/-- How many states the symbols of `counts`, the first of them `sym`, give the symbol `σ`, at `f c` for a count `c`. -/
def share (f : Int → Nat) : (counts : List Int) → (sym σ : Nat) → Nat
  | [], _, _ => 0
  | c :: counts, sym, σ => (if sym = σ then f c else 0) + share f counts (sym + 1) σ

/-- The states given to a symbol are those of its own count. -/
theorem share_eq {f : Int → Nat} (hf : f 0 = 0) (counts : List Int) (sym σ : Nat) :
    share f counts sym σ = if sym ≤ σ then f (counts.getD (σ - sym) 0) else 0 := by
  induction counts generalizing sym with
  | nil => simp [share, hf]
  | cons c counts ih =>
    rw [share, ih]
    rcases Nat.lt_trichotomy sym σ with h | rfl | h
    · obtain ⟨d, rfl⟩ := Nat.exists_eq_add_of_lt h
      have hd : sym + d + 1 - sym = d + 1 := by omega
      have hd' : sym + d + 1 - (sym + 1) = d := by omega
      rw [if_neg (by omega), if_pos (by omega), if_pos (by omega), hd, hd', List.getD_cons_succ, Nat.zero_add]
    · simp
    · simp [show sym ≠ σ by omega, show ¬ sym ≤ σ by omega, show ¬ sym + 1 ≤ σ by omega]

/-- The states of a "less than 1" count at the high end. -/
def highShare (c : Int) : Nat := if c = -1 then 1 else 0

theorem highShare_add_toNat {c : Int} (h : -1 ≤ c) : highShare c + c.toNat = c.natAbs := by
  unfold highShare
  split_ifs <;> omega

/-- The slots below `low` are blank. -/
def BlankBelow (syms : List Nat) (low : Nat) : Prop := ∀ u < low, syms[u]? = some 0

/-- The "less than 1" symbols take one slot each from the high end, and those below stay blank (R145). -/
theorem placeHigh_spec {counts : List Int} {sym low : Nat} {syms : List Nat} (hb : BlankBelow syms low)
    (hn : (counts.map highShare).sum ≤ low) :
    BlankBelow (placeHigh counts sym (syms, low)).1 (placeHigh counts sym (syms, low)).2 ∧
    (placeHigh counts sym (syms, low)).2 + (counts.map highShare).sum = low ∧
    ∀ σ, (placeHigh counts sym (syms, low)).1.count σ + (if σ = 0 then (counts.map highShare).sum else 0) =
      syms.count σ + share highShare counts sym σ := by
  induction counts generalizing sym low syms with
  | nil => simpa [placeHigh, share] using hb
  | cons c counts ih =>
    rw [List.map_cons, List.sum_cons] at hn ⊢
    rw [placeHigh]
    split_ifs with hc
    · have hone : highShare c = 1 := if_pos hc
      have hlast := hb (low - 1) (by omega)
      have hb' : BlankBelow (syms.set (low - 1) sym) (low - 1) := fun u hu => by
        rw [List.getElem?_set_ne (by omega)]
        exact hb u (by omega)
      obtain ⟨hblank, hlow, hcount⟩ := ih (sym := sym + 1) hb' (by omega)
      refine ⟨hblank, by omega, fun σ => ?_⟩
      have h1 := hcount σ
      have h2 := count_set_blank hlast sym σ
      rw [share, hone]
      split_ifs at h1 h2 ⊢ <;> omega
    · have hzero : highShare c = 0 := if_neg hc
      obtain ⟨hblank, hlow, hcount⟩ := ih (sym := sym + 1) hb (by omega)
      refine ⟨hblank, by omega, fun σ => ?_⟩
      rw [share, hzero, Nat.zero_add, ite_self, Nat.zero_add]
      exact hcount σ

/-- The spread is at the first of the positions `todo`, which are still to be visited, are distinct, and are blank. -/
structure SpreadAt (size low stride : Nat) (todo syms : List Nat) : Prop where
  toVisit : ToVisit size low stride todo
  nodup : todo.Nodup
  blank : ∀ u ∈ todo, syms[u]? = some 0

section
variable {al low stride : Nat}

/-- One symbol is placed at the next visit. -/
theorem SpreadAt.set {p : Nat} {todo syms : List Nat} (h : SpreadAt (2 ^ al) low stride (p :: todo) syms) (sym : Nat) :
    SpreadAt (2 ^ al) low stride todo (syms.set p sym) := by
  obtain ⟨hp, hnodup⟩ := List.nodup_cons.1 h.nodup
  refine ⟨h.toVisit.next.2, hnodup, fun u hu => ?_⟩
  rw [List.getElem?_set_ne (by rintro rfl; exact hp hu)]
  exact h.blank u (List.mem_cons_of_mem _ hu)

/-- `n` states of one symbol are placed at the next `n` visits (R145). -/
theorem spreadSymbol_spec (sym : Nat) {n : Nat} {todo syms : List Nat} (h : SpreadAt (2 ^ al) low stride todo syms)
    (hn : n ≤ todo.length) :
    ∃ syms', spreadSymbol (2 ^ al) low stride sym n (syms, todo.headD 0) = some (syms', (todo.drop n).headD 0) ∧
      SpreadAt (2 ^ al) low stride (todo.drop n) syms' ∧
      ∀ σ, syms'.count σ + (if σ = 0 then n else 0) = syms.count σ + (if sym = σ then n else 0) := by
  induction n generalizing todo syms with
  | zero => exact ⟨syms, rfl, h, by simp⟩
  | succ n ih =>
    obtain _ | ⟨p, todo⟩ := todo
    · simp at hn
    · obtain ⟨syms', hspread, hat, hcount⟩ := ih (h.set sym) (by simpa using hn)
      refine ⟨syms', ?_, hat, fun σ => ?_⟩
      · rw [spreadSymbol, List.headD_cons, h.toVisit.next.1]
        exact hspread
      · have h1 := hcount σ
        have h2 := count_set_blank (h.blank p List.mem_cons_self) sym σ
        split_ifs at h1 h2 ⊢ <;> omega

/-- The symbols are placed in order, each at as many visits as its count (R145). -/
theorem spreadAll_spec {counts : List Int} {sym : Nat} {todo syms : List Nat}
    (h : SpreadAt (2 ^ al) low stride todo syms) (hn : (counts.map Int.toNat).sum ≤ todo.length) :
    ∃ syms', spreadAll (2 ^ al) low stride counts sym (syms, todo.headD 0) =
        some (syms', (todo.drop (counts.map Int.toNat).sum).headD 0) ∧
      ∀ σ, syms'.count σ + (if σ = 0 then (counts.map Int.toNat).sum else 0) =
        syms.count σ + share Int.toNat counts sym σ := by
  induction counts generalizing sym todo syms with
  | nil => exact ⟨syms, rfl, by simp [share]⟩
  | cons c counts ih =>
    rw [List.map_cons, List.sum_cons] at hn ⊢
    obtain ⟨syms₁, hone, hat, hcount₁⟩ := spreadSymbol_spec sym h (n := c.toNat) (by omega)
    obtain ⟨syms', hall, hcount⟩ := ih (sym := sym + 1) hat (by rw [List.length_drop]; omega)
    rw [List.drop_drop] at hall
    refine ⟨syms', ?_, fun σ => ?_⟩
    · rw [spreadAll, hone]
      exact hall
    · have h1 := hcount₁ σ
      have h2 := hcount σ
      rw [share]
      split_ifs at h1 h2 ⊢ <;> omega

/-- Counts that sum to the number of blank slots below `low` fill them, and the spread ends at 0 (R146). -/
theorem spreadAll_fills (hodd : Odd stride) (hlow : low ≤ 2 ^ al) {counts : List Int} {syms : List Nat}
    (hb : BlankBelow syms low) (hsum : (counts.map Int.toNat).sum = low) :
    ∃ syms', spreadAll (2 ^ al) low stride counts 0 (syms, 0) = some (syms', 0) ∧
      ∀ σ, syms'.count σ + (if σ = 0 then low else 0) = syms.count σ + share Int.toNat counts 0 σ := by
  have hperm := visits_perm (al := al) hodd hlow
  have hlen : (visits (2 ^ al) low stride 0).length = low := by rw [hperm.length_eq, List.length_range]
  have hat : SpreadAt (2 ^ al) low stride (visits (2 ^ al) low stride 0) syms :=
    ⟨⟨0, rfl⟩, hperm.nodup_iff.2 List.nodup_range, fun u hu => hb u (List.mem_range.1 (hperm.mem_iff.1 hu))⟩
  obtain ⟨syms', hall, hcount⟩ := spreadAll_spec (counts := counts) (sym := 0) hat (by omega)
  rw [List.drop_of_length_le (by omega), headD_visits] at hall
  rw [hsum] at hcount
  exact ⟨syms', hall, hcount⟩

end

/-! ### The table built -/

/-- The stride of R145 is odd for every table of 32 states or more (R146). -/
theorem stride_odd {al : Nat} (hal : 5 ≤ al) : Odd ((2 ^ al >>> 1) + (2 ^ al >>> 3) + 3) := by
  obtain ⟨k, rfl⟩ := Nat.exists_eq_add_of_le' hal
  rw [Nat.shiftRight_eq_div_pow, Nat.shiftRight_eq_div_pow, pow_add]
  exact ⟨10 * 2 ^ k + 1, by omega⟩

/-- The counts of a distribution are the high-end states and those of the spread. -/
theorem sum_natAbs_eq {counts : List Int} (h : ∀ c ∈ counts, -1 ≤ c) :
    (counts.map Int.natAbs).sum = (counts.map highShare).sum + (counts.map Int.toNat).sum := by
  rw [← List.sum_map_add]
  exact congrArg List.sum (List.map_congr_left fun c hc => (highShare_add_toNat (h c hc)).symm)

/-- `BuildTable` of a distribution spreads each symbol over as many states as its count, and ends at 0 (R146). -/
theorem buildTable_eq {al : Nat} {counts : List Int} (hal : 5 ≤ al) (hd : IsDistribution al counts) :
    ∃ syms, buildTable al counts = some (dtEntries al syms (initialNext counts)) ∧ syms.length = 2 ^ al ∧
      ∀ σ, syms.count σ = (counts.getD σ 0).natAbs := by
  have hsum := sum_natAbs_eq hd.1
  rw [hd.2] at hsum
  have hblank : BlankBelow (List.replicate (2 ^ al) 0) (2 ^ al) := fun u hu => by simp [hu]
  obtain ⟨hb, hlow, hhigh⟩ := placeHigh_spec (counts := counts) (sym := 0) hblank (by omega)
  rcases hplace : placeHigh counts 0 (List.replicate (2 ^ al) 0, 2 ^ al) with ⟨syms, low⟩
  rw [hplace] at hb hlow hhigh
  obtain ⟨syms', hall, hcount⟩ := spreadAll_fills (al := al) (counts := counts) (stride_odd hal) (by omega) hb
    (by omega)
  have hbuild : buildTable al counts = some (dtEntries al syms' (initialNext counts)) := by
    simp only [buildTable, hplace, hall]
  refine ⟨syms', hbuild, by simpa using buildTable_length hbuild, fun σ => ?_⟩
  have h1 := hhigh σ
  have h2 := hcount σ
  have hreplicate : (List.replicate (2 ^ al) 0).count σ = if σ = 0 then 2 ^ al else 0 := by
    simp only [List.count_replicate, beq_iff_eq, eq_comm (a := 0)]
  have hc : highShare (counts.getD σ 0) + (counts.getD σ 0).toNat = (counts.getD σ 0).natAbs :=
    highShare_add_toNat (by
      rw [List.getD_eq_getElem?_getD]
      cases h : counts[σ]? with
      | none => norm_num
      | some c => exact hd.1 c (List.mem_of_getElem? h))
  rw [share_eq (by decide), if_pos (Nat.zero_le σ), Nat.sub_zero] at h1 h2
  split_ifs at h1 h2 hreplicate <;> omega

end Sys2Proof.Machine

/-! ## The states of each symbol (41_fse.md R145, R146) -/

namespace Sys2Proof.Machine

/-! ### The entries, state by state -/

/-- The entry of state `u`: its symbol's counter has risen once per earlier state of that symbol (R145). -/
theorem getElem?_dtEntries {al : Nat} {syms next : List Nat} (h : ∀ s ∈ syms, s < next.length) (u : Nat) :
    (dtEntries al syms next)[u]? =
      syms[u]?.map fun σ => dtEntry al σ (next.getD σ 0 + (syms.take u).count σ) := by
  induction syms generalizing next u with
  | nil => rfl
  | cons sym syms ih =>
    obtain ⟨hsym, hsyms⟩ := List.forall_mem_cons.1 h
    cases u with
    | zero => simp [dtEntries]
    | succ u =>
      simp only [dtEntries, List.getElem?_cons_succ, List.take_succ_cons]
      rw [ih (by simpa using hsyms)]
      congr 1
      funext σ
      rw [List.count_cons, List.getD_eq_getElem?_getD, List.getD_eq_getElem?_getD, List.getElem?_set]
      by_cases hσ : sym = σ
      · subst hσ
        simp [hsym, Nat.add_assoc, Nat.add_comm 1]
      · simp [hσ]

/-- The places of `σ` in a list, by how many precede each, are numbered from 0. -/
theorem countP_occurrences (syms : List Nat) (σ : Nat) (q : Nat → Bool) :
    ((List.range syms.length).countP fun u => syms[u]? == some σ && q ((syms.take u).count σ)) =
      (List.range (syms.count σ)).countP q := by
  induction syms using List.reverseRecOn with
  | nil => rfl
  | append_singleton syms a ih =>
    have hinit : ((List.range syms.length).countP fun u =>
        (syms ++ [a])[u]? == some σ && q (((syms ++ [a]).take u).count σ)) = (List.range (syms.count σ)).countP q := by
      rw [← ih]
      refine List.countP_congr fun u hu => ?_
      have hlt := List.mem_range.1 hu
      rw [List.getElem?_append_left hlt, List.take_append_of_le_length hlt.le]
    rw [List.length_append, List.length_singleton, List.range_succ, List.countP_append, hinit, List.count_append,
      List.count_singleton]
    by_cases ha : a = σ
    · simp [ha, List.range_succ]
    · simp [ha]

/-- `next[]` starts at the states each symbol has (R145). -/
theorem getD_initialNext {counts : List Int} (h : ∀ c ∈ counts, -1 ≤ c) (σ : Nat) :
    (initialNext counts).getD σ 0 = (counts.getD σ 0).natAbs := by
  rw [initialNext, List.getD_eq_getElem?_getD, List.getD_eq_getElem?_getD, List.getElem?_map]
  cases hσ : counts[σ]? with
  | none => rfl
  | some c =>
    have hc := h c (List.mem_of_getElem? hσ)
    show (if c = -1 then 1 else c.toNat) = c.natAbs
    split_ifs <;> omega

@[simp] theorem dtEntry_symbol (al σ x : Nat) : (dtEntry al σ x).symbol = BitVec.ofNat 8 σ := rfl

/-- The states of a symbol whose count gives it `c` states have the entries of the counters `c .. 2·c − 1` (R146). -/
theorem countP_table {al : Nat} {counts : List Int} {es : List DtEntry} (hal : 5 ≤ al) (hd : IsDistribution al counts)
    (hlen : counts.length ≤ 256) (h : buildTable al counts = some es) {σ : Nat} (hσ : σ < 256) (q : DtEntry → Bool) :
    ((List.range (2 ^ al)).countP fun u => es[u]?.any fun e => e.symbol.toNat == σ && q e) =
      (List.range (counts.getD σ 0).natAbs).countP fun i => q (dtEntry al σ ((counts.getD σ 0).natAbs + i)) := by
  obtain ⟨syms, hbuild, hsize, hcount⟩ := buildTable_eq hal hd
  obtain rfl : dtEntries al syms (initialNext counts) = es := Option.some.inj (hbuild.symm.trans h)
  have hsyms : ∀ s ∈ syms, s < counts.length := fun s hs => by
    by_contra hge
    have hpos := List.count_pos_iff.2 hs
    rw [hcount, List.getD_eq_default _ _ (Nat.not_lt.1 hge)] at hpos
    exact absurd hpos (by decide)
  rw [← hcount σ, ← countP_occurrences, hsize]
  refine List.countP_congr fun u _ => ?_
  rw [getElem?_dtEntries (by simpa [initialNext] using hsyms)]
  cases hu : syms[u]? with
  | none => simp
  | some τ =>
    have hτ : τ < 256 := (hsyms τ (List.mem_of_getElem? hu)).trans_le hlen
    have hsymbol : (BitVec.ofNat 8 τ).toNat = τ := by rw [BitVec.toNat_ofNat, Nat.mod_eq_of_lt hτ]
    by_cases h : τ = σ
    · subst h
      simp [getD_initialNext hd.1 τ, hsymbol, hcount, -List.getD_eq_getElem?_getD]
    · simp [hsymbol, h]

/-! ### The ranges of one symbol's states tile the table -/

/-- The range of a counter's entry (R145): it starts at `y · 2^nb − 2^al` and has `2^nb` states. -/
theorem dtEntry_range {al σ y : Nat} (hal : al ≤ 9) (hy : 1 ≤ y) (hy' : y < 2 ^ (al + 1)) :
    (dtEntry al σ y).nbBits.toNat = al - hsb y ∧
    (dtEntry al σ y).baseline.toNat + 2 ^ al = y * 2 ^ (al - hsb y) := by
  have hle : hsb y ≤ al := Nat.lt_add_one_iff.1 ((Nat.log2_lt (by omega)).2 hy')
  have hsize := two_pow_le_of_al hal
  have hlo : 2 ^ al ≤ y * 2 ^ (al - hsb y) :=
    calc 2 ^ al = 2 ^ hsb y * 2 ^ (al - hsb y) := by rw [← pow_add, Nat.add_sub_cancel' hle]
      _ ≤ y * 2 ^ (al - hsb y) := Nat.mul_le_mul_right _ (hsb_le (by omega))
  have hhi : y * 2 ^ (al - hsb y) < 2 * 2 ^ al :=
    calc y * 2 ^ (al - hsb y) < 2 ^ (hsb y + 1) * 2 ^ (al - hsb y) :=
          Nat.mul_lt_mul_of_pos_right (lt_hsb y) (Nat.two_pow_pos _)
      _ = 2 * 2 ^ al := by rw [← pow_add, show hsb y + 1 + (al - hsb y) = al + 1 by omega, pow_succ']
  simp only [dtEntry, Nat.shiftLeft_eq, BitVec.toNat_ofNat]
  rw [Nat.mod_eq_of_lt (by omega), Nat.mod_eq_of_lt (by omega)]
  exact ⟨rfl, Nat.sub_add_cancel hlo⟩

/-- The counter `y` covers the state `x` where `y` is the leading part of `2^al + x`. -/
theorem dtEntry_covers {al σ x y : Nat} (hal : al ≤ 9) (hy : 1 ≤ y) (hy' : y < 2 ^ (al + 1)) :
    (dtEntry al σ y).baseline.toNat ≤ x ∧
      x < (dtEntry al σ y).baseline.toNat + 2 ^ (dtEntry al σ y).nbBits.toNat ↔
    (2 ^ al + x) / 2 ^ (al - hsb y) = y := by
  obtain ⟨hnb, hbase⟩ := dtEntry_range (σ := σ) hal hy hy'
  rw [hnb, Nat.div_eq_iff (Nat.two_pow_pos _)]
  have := Nat.two_pow_pos (al - hsb y)
  omega

/-- Halving `z` from above `c` down to 1, exactly one of its leading parts is in `[c, 2·c)`. -/
theorem exists_leading_part {al c z : Nat} (hc : 1 ≤ c) (hca : c ≤ 2 ^ al) (hz : 2 ^ al ≤ z) (hz' : z < 2 ^ (al + 1)) :
    ∃ i < c, ∀ k, z / 2 ^ (al - hsb (c + k)) = c + k ∧ k < c ↔ k = i := by
  -- `j` is the least number of halvings that takes `z` below `2·c`
  have htop : z / 2 ^ al < 2 * c := by
    rw [Nat.div_lt_iff_lt_mul (Nat.two_pow_pos _)]
    have := Nat.mul_le_mul_right (2 ^ al) (show 2 ≤ 2 * c by omega)
    rw [pow_succ'] at hz'
    omega
  have hex : ∃ j, z / 2 ^ j < 2 * c := ⟨al, htop⟩
  obtain ⟨j, hj, hmin⟩ : ∃ j, z / 2 ^ j < 2 * c ∧ ∀ i < j, 2 * c ≤ z / 2 ^ i :=
    ⟨Nat.find hex, Nat.find_spec hex, fun i hi => Nat.not_lt.1 (Nat.find_min hex hi)⟩
  have hjal : j ≤ al := by
    by_contra h
    exact absurd htop (Nat.not_lt.2 (hmin al (by omega)))
  have hlo : c ≤ z / 2 ^ j := by
    cases j with
    | zero => simpa using hca.trans hz
    | succ i =>
      have := hmin i (Nat.lt_succ_self i)
      rw [pow_succ, ← Nat.div_div_eq_div_mul]
      omega
  have hhsb : hsb (z / 2 ^ j) = al - j := by
    refine hsb_unique ?_ ?_
    · rw [Nat.le_div_iff_mul_le (Nat.two_pow_pos _), ← pow_add, Nat.sub_add_cancel hjal]
      exact hz
    · rw [Nat.div_lt_iff_lt_mul (Nat.two_pow_pos _), ← pow_add, show al - j + 1 + j = al + 1 by omega]
      exact hz'
  refine ⟨z / 2 ^ j - c, by omega, fun k => ⟨fun ⟨hk, hkc⟩ => ?_, fun hk => ?_⟩⟩
  · rcases Nat.lt_trichotomy (al - hsb (c + k)) j with h | h | h
    · have := hmin _ h
      omega
    · rw [h] at hk
      omega
    · have hle : z / 2 ^ (al - hsb (c + k)) ≤ z / 2 ^ (j + 1) :=
        Nat.div_le_div_left (Nat.pow_le_pow_right (by norm_num) h) (Nat.two_pow_pos _)
      rw [pow_succ, ← Nat.div_div_eq_div_mul] at hle
      omega
  · have hy : c + k = z / 2 ^ j := by omega
    rw [hy, hhsb, Nat.sub_sub_self hjal]
    exact ⟨rfl, by omega⟩

/-- Of a symbol's states, exactly one has a given state in its range (R146). -/
theorem countP_covers {al c x : Nat} (σ : Nat) (hal : al ≤ 9) (hc : 1 ≤ c) (hca : c ≤ 2 ^ al) (hx : x < 2 ^ al) :
    ((List.range c).countP fun i =>
      decide ((dtEntry al σ (c + i)).baseline.toNat ≤ x) &&
        decide (x < (dtEntry al σ (c + i)).baseline.toNat + 2 ^ (dtEntry al σ (c + i)).nbBits.toNat)) = 1 := by
  obtain ⟨i, hi, hone⟩ := exists_leading_part (al := al) (z := 2 ^ al + x) hc hca (by omega) (by rw [pow_succ]; omega)
  rw [← List.count_eq_one_of_mem List.nodup_range (List.mem_range.2 hi), List.count]
  refine List.countP_congr fun k hk => ?_
  have hlt := List.mem_range.1 hk
  rw [Bool.and_eq_true, decide_eq_true_iff, decide_eq_true_iff, beq_iff_eq,
    dtEntry_covers hal (by omega) (by rw [pow_succ]; omega), ← hone k]
  exact ⟨fun h => ⟨h, hlt⟩, fun h => h.1⟩

/-! ### `FSE.BUILD` (R148) -/

/-- `FSE.BUILD` of a written distribution puts its table into the slot. -/
theorem fseBuild_done {s : State} {τ : Fin 8} {es : List DtEntry} (hv : (s.slot τ).ncValid = true)
    (hok : (s.slot τ).countsOk) (hn : (s.slot τ).nsym.toNat ≤ 256)
    (h : buildTable (s.slot τ).al.toNat (s.slot τ).counts = some es) :
    exec (.fseBuild τ) s = .next (complete (s.rewrite τ ((s.slot τ).built es))) := by
  have hslot : (invalidate τ s).slot τ = { s.slot τ with valid := false } := by rw [invalidate_slot, if_pos rfl]
  have hread : (s.slot τ).ncount.readCounts (s.slot τ).nsym.toNat 0 s.draws = ((s.slot τ).counts, s.draws) := by
    obtain ⟨-, -, hall, -⟩ := hok
    rw [Memory.readCounts_listed fun j _ hj => hall j (lt_of_lt_of_le hj (by rw [Nat.zero_add]; exact hn)),
      Slot.counts, List.range_eq_range']
  have hdone : fseBuild τ s = .done (s.rewrite τ ((s.slot τ).built es)) := by
    rw [fseBuild, if_pos hv]
    simp only [hslot, invalidate_draws, hread]
    refine (buildSlot_done (s := invalidate τ s) (t := τ) (es := es) (by rwa [hslot])).trans ?_
    rw [hslot]
    rfl
  rw [exec_eq, ending, hdone]
  rfl

/-- A slot that holds a distribution has a table: `FSE_SPREAD` does not occur (R146). -/
theorem Slot.countsOk.exists_buildTable {t : Slot} (h : t.countsOk) :
    ∃ es, buildTable t.al.toNat t.counts = some es := by
  obtain ⟨hlo, -, -, hd⟩ := h
  obtain ⟨syms, hbuild, -, -⟩ := buildTable_eq hlo hd
  exact ⟨_, hbuild⟩

section
variable {t : Slot} (hok : t.countsOk) (hn : t.nsym.toNat ≤ 256) {es : List DtEntry}
  (hes : buildTable t.al.toNat t.counts = some es)

include hok hn hes

/-- The states of a symbol in a slot's new table are as many as its count, with the entries of its counters. -/
theorem Slot.countP_built {σ : Nat} (hσ : σ < 256) (q : DtEntry → Bool) :
    ((List.range (2 ^ t.al.toNat)).countP fun u =>
      ((t.built es).dt.get? u).any fun e => e.symbol.toNat == σ && q e) =
    (List.range (t.counts.getD σ 0).natAbs).countP fun i =>
      q (dtEntry t.al.toNat σ ((t.counts.getD σ 0).natAbs + i)) := by
  obtain ⟨hlo, -, -, hd⟩ := hok
  have hlen : t.counts.length ≤ 256 := by simpa [Slot.counts] using hn
  rw [← countP_table hlo hd hlen hes hσ q]
  refine List.countP_congr fun u hu => ?_
  rw [Slot.built_get? hes, if_pos (List.mem_range.1 hu)]

end

/-- Settles O28: the spread places every symbol as often as its count, and the entries fill the table. -/
theorem buildMakesATable : Obligations.BuildMakesATable := by
  unfold Obligations.BuildMakesATable
  intro s τ hv hok hn
  obtain ⟨es, hes⟩ := hok.exists_buildTable
  have ⟨_, hhi, _, hd⟩ := hok
  refine ⟨_, fseBuild_done hv hok hn hes, rfl, fun υ hυ => State.rewrite_slot_ne s _ hυ, ?_⟩
  simp only [complete_slot, complete_fse, State.rewrite_slot_same, State.rewrite_fse]
  refine ⟨rfl, Slot.tableOk_putList rfl (buildTable_length hes) (buildTable_staysIn hhi hd hes), fun σ hσ => ?_,
    fun u hu => (Slot.built_get? hes u).trans (if_neg (Nat.not_lt.2 hu)), fun k => trivial⟩
  simpa using Slot.countP_built hok hn hes hσ fun _ => true

/-- Settles O29: of a symbol's counters, exactly one is a leading part of the state. -/
theorem buildTilesTheStates : Obligations.BuildTilesTheStates := by
  unfold Obligations.BuildTilesTheStates
  intro s t τ hok hn hs hexec ht σ hσ hcount x hx
  have hv : (s.slot τ).ncValid = true := by
    by_contra hv
    rw [((noTableFaults s 0 τ hs).1 (Bool.eq_false_of_not_eq_true hv))] at hexec
    cases hexec
    cases ht
  obtain ⟨es, hes⟩ := hok.exists_buildTable
  have ⟨_, hhi, _, hd⟩ := hok
  rw [fseBuild_done hv hok hn hes] at hexec
  cases hexec
  have hc : (((s.slot τ).counts.getD σ 0)).natAbs ≤ 2 ^ (s.slot τ).al.toNat := by
    rw [List.getD_eq_getElem?_getD] at hcount ⊢
    cases h : (s.slot τ).counts[σ]? with
    | none => exact Nat.zero_le _
    | some c => exact hd.natAbs_le c (List.mem_of_getElem? h)
  simp only [complete_slot, State.rewrite_slot_same, Bool.and_assoc]
  exact (Slot.countP_built hok hn hes hσ _).trans (countP_covers σ hhi (Int.natAbs_pos.2 hcount) hc hx)

end Sys2Proof.Machine

/-! ## The frame of the Huffman and window families (20_memory.md R61; 42_huffman.md R194; 43_window.md) -/

namespace Sys2Proof.Machine

/-- Settles O15: the frame of `HUF.READW` holds neither a reader nor a slot nor a state register, and neither end of a
command writes one. -/
theorem hufReadwKeepsReadersAndSlots : Obligations.HufReadwKeepsReadersAndSlots := by
  unfold Obligations.HufReadwKeepsReadersAndSlots
  intro s t ht
  rw [exec_eq] at ht
  have h : (ending .hufReadw s).All fun t =>
      t.br = s.br ∧ t.fr = s.fr ∧ t.slots = s.slots ∧ t.states = s.states :=
    (hufReadw_frame s).imp fun t h => by rw [h]; exact ⟨rfl, rfl, rfl, rfl⟩
  exact h.finish (fun u hu => hu) (fun c u hu => by simpa using hu) ht

/-- `t` has the forward reader, the FSE unit, the window and the sink of `s`. -/
def SameFseAndWindow (s t : State) : Prop :=
  t.fr = s.fr ∧ t.slots = s.slots ∧ t.states = s.states ∧ t.wconf = s.wconf ∧ t.winCap = s.winCap ∧
  t.wtotal = s.wtotal ∧ t.wflushed = s.wflushed ∧ t.wbuf = s.wbuf ∧ t.out = s.out

/-- `t` has the readers, the FSE unit, the Huffman unit and LBUF of `s`. -/
def SameDecoders (s t : State) : Prop :=
  t.br = s.br ∧ t.fr = s.fr ∧ t.slots = s.slots ∧ t.states = s.states ∧ t.w = s.w ∧ t.hufNw = s.hufNw ∧
  t.hufValid = s.hufValid ∧ t.hufMaxbits = s.hufMaxbits ∧ t.hufNsym = s.hufNsym ∧ t.ht = s.ht ∧ t.lbuf = s.lbuf

/-- `t` has the units of `s` that command `i` leaves alone, if it is one of the Huffman or window families. -/
def KeepsUnitsOfOthers (i : Instr) (s t : State) : Prop :=
  (i.mnemonic ∈ ["HUF.READW", "HUF.BUILD", "HUF.DECODE"] → SameFseAndWindow s t) ∧
  (i.mnemonic ∈ ["HUF.READW", "HUF.BUILD"] → t.lbuf = s.lbuf ∧ t.br = s.br) ∧
  (i.mnemonic = "HUF.READW" → t.ht = s.ht ∧ t.hufMaxbits = s.hufMaxbits ∧ t.hufNsym = s.hufNsym) ∧
  (i.mnemonic = "HUF.DECODE" → t.w = s.w ∧ t.hufNw = s.hufNw ∧ t.ht = s.ht ∧ t.hufValid = s.hufValid ∧
    t.hufMaxbits = s.hufMaxbits ∧ t.hufNsym = s.hufNsym) ∧
  (i.mnemonic ∈ ["WIN.CONFIG", "WIN.PUSHI", "WIN.PUSHL", "WIN.PUSHR", "WIN.REPEAT", "WIN.REPGEN", "WIN.FLUSH"] →
    SameDecoders s t)

/-- The window commands' frames leave the decoders out. -/
theorem SameButWindow.sameDecoders {s t : State} (h : SameButWindow s t) : SameDecoders s t := by
  rw [h]
  exact ⟨rfl, rfl, rfl, rfl, rfl, rfl, rfl, rfl, rfl, rfl, rfl⟩

/-- Each command's frame is within what its family leaves alone. -/
theorem ending_keepsUnitsOfOthers (i : Instr) (s : State) : (ending i s).All (KeepsUnitsOfOthers i s) := by
  -- a window command is none of the Huffman family, so its frame is all there is to show
  have hwin (h : i.mnemonic ∉ ["HUF.READW", "HUF.BUILD", "HUF.DECODE"]) (hd : (ending i s).All (SameDecoders s)) :
      (ending i s).All (KeepsUnitsOfOthers i s) := by
    refine hd.imp fun t ht => ?_
    simp only [List.mem_cons, List.not_mem_nil, or_false, not_or] at h
    simp [KeepsUnitsOfOthers, h, ht]
  cases i with
  | hufReadw =>
    exact (hufReadw_frame s).imp fun t h => by rw [h]; simp [KeepsUnitsOfOthers, SameFseAndWindow, Instr.mnemonic]
  | hufBuild =>
    exact (hufBuild_frame s).imp fun t h => by rw [h]; simp [KeepsUnitsOfOthers, SameFseAndWindow, Instr.mnemonic]
  | hufDecode =>
    exact (hufDecode_frame s).imp fun t h => by rw [h]; simp [KeepsUnitsOfOthers, SameFseAndWindow, Instr.mnemonic]
  | winConfig =>
    refine hwin (by simp [Instr.mnemonic]) ((winConfig_frame s).imp fun t h => ?_)
    rw [h]
    exact ⟨rfl, rfl, rfl, rfl, rfl, rfl, rfl, rfl, rfl, rfl, rfl⟩
  | winPushi => exact hwin (by simp [Instr.mnemonic]) ((winPushi_frame s).imp fun _ h => h.sameDecoders)
  | winPushl => exact hwin (by simp [Instr.mnemonic]) ((winPushl_frame s).imp fun _ h => h.sameDecoders)
  | winPushr b => exact hwin (by simp [Instr.mnemonic]) ((winPushr_frame b s).imp fun _ h => h.sameDecoders)
  | winRepeat => exact hwin (by simp [Instr.mnemonic]) ((winRepeat_frame s).imp fun _ h => h.sameDecoders)
  | winRepgen => exact hwin (by simp [Instr.mnemonic]) ((winRepgen_frame s).imp fun _ h => h.sameDecoders)
  | winFlush => exact hwin (by simp [Instr.mnemonic]) ((winFlush_frame s).imp fun _ h => h.sameDecoders)
  | nop | bbrInit | bbrSkippad | bbrRead | fbrInit | fbrRead | fbrUnwind | fseReadnc | fseBuild | fsePredef | fseRle |
    fseInit | fsePeek | fseNext =>
    exact Ending.All.of_forall (fun t => by simp [KeepsUnitsOfOthers, Instr.mnemonic]) _

/-- Settles O17: every command's frame leaves these units out, and neither end of a command writes them. -/
theorem huffmanAndWindowLeaveOtherUnits : Obligations.HuffmanAndWindowLeaveOtherUnits := by
  unfold Obligations.HuffmanAndWindowLeaveOtherUnits
  intro i s t ht
  rw [exec_eq] at ht
  refine (ending_keepsUnitsOfOthers i s).finish (fun u hu => hu) (fun c u hu => ?_) ht
  simpa [KeepsUnitsOfOthers, SameFseAndWindow, SameDecoders] using hu

end Sys2Proof.Machine

/-! ## `HUF.READW` by its header byte, and the direct form (42_huffman.md R192, R195) -/

namespace Sys2Proof.Machine

/-- A command that raises a first fault in the state `t` records it there, under its own word (60_exceptions.md R270). -/
theorem exec_raise_from {i : Instr} {c : FaultCode} {s t : State} (ht : t.fault = false) (h : ending i s = .raise c t) :
    exec i s = .next (t.faulted c.number c.isProgramming (encode i)) := by
  rw [exec_eq, h]
  exact congrArg _ (faultEntry_eq_faulted ht c (encode i))

section
variable {s : State} {h : Byte} (hin : s.arg0.toNat + s.arg1.toNat ≤ 131072) (hpos : 1 ≤ s.arg1.toNat)
  (hh : s.ibuf.get? s.arg0.toNat = some h)
include hin hpos hh

/-- `HUF.READW` over a header byte that is written stores the weights it reads, zeros above them (R195). -/
theorem hufReadw_done {ws : List Nat} {used draws : Nat}
    (hr : readWeights s.ibuf s.arg0.toNat s.arg1.toNat h.toNat s.draws = .ok (ws, used) draws) :
    exec .hufReadw s = .next { s.ended with
      hufValid := false, draws := draws, w := weightImage ws, hufNw := BitVec.ofNat 8 ws.length
      res := BitVec.ofNat 64 used } := by
  have hin' : inIbuf s.opArg0 s.opArg1 = true := (inIbuf_iff _ _).2 hin
  have hpos' : ¬ s.opArg1 < 1 := Nat.not_lt.2 hpos
  have hread : s.ibuf.readByte s.opArg0 s.draws = (h, s.draws) := Memory.readByte_listed hh _
  have hr' : readWeights s.ibuf s.opArg0 s.opArg1 h.toNat s.draws = .ok (ws, used) draws := hr
  rw [exec_eq, ending, hufReadw, if_pos hin']
  simp only [if_neg hpos', hread, hr']
  rfl

/-- `HUF.READW` over a header byte that is written takes the fault of its reading, with `HUF_VALID` cleared (R195). -/
theorem hufReadw_faulted (hs : s.fault = false) {e : FaultCode} {draws : Nat}
    (hr : readWeights s.ibuf s.arg0.toNat s.arg1.toNat h.toNat s.draws = .raise e draws) :
    exec .hufReadw s = .next (State.faulted { s with hufValid := false, draws := draws } e.number e.isProgramming
      0x20000000) := by
  have hin' : inIbuf s.opArg0 s.opArg1 = true := (inIbuf_iff _ _).2 hin
  have hpos' : ¬ s.opArg1 < 1 := Nat.not_lt.2 hpos
  have hread : s.ibuf.readByte s.opArg0 s.draws = (h, s.draws) := Memory.readByte_listed hh _
  have hr' : readWeights s.ibuf s.opArg0 s.opArg1 h.toNat s.draws = .raise e draws := hr
  refine exec_raise_from (i := .hufReadw) (t := { s with hufValid := false, draws := draws }) hs ?_
  rw [ending, hufReadw, if_pos hin']
  simp only [if_neg hpos', hread, hr']

end

/-- The weight in a nibble of a byte that is written, the high nibble of a byte first (R192). -/
theorem directWeights_listed {ibuf : Memory Byte} {off n k i draws : Nat} {b : Byte} (hi : i < n)
    (hb : ibuf.get? (off + 1 + (k + i) / 2) = some b) :
    (directWeights ibuf off n k draws).1[i]? =
      some (if (k + i) % 2 = 0 then b.toNat >>> 4 else b.toNat &&& 0xF) := by
  induction n generalizing k i draws with
  | zero => exact absurd hi (Nat.not_lt_zero i)
  | succ n ih =>
    cases i with
    | zero =>
      have hread := Memory.readByte_listed hb draws
      simp only [Nat.add_zero] at hread ⊢
      simp [directWeights, hread]
    | succ i =>
      rw [← Nat.add_assoc, Nat.add_right_comm k i 1] at hb ⊢
      simpa [directWeights] using ih (Nat.lt_of_succ_lt_succ hi) hb

/-- A nibble as a weight register holds it. -/
theorem ofNat_nibble (b : Byte) (p : Prop) [Decidable p] :
    BitVec.ofNat 4 (if p then b.toNat >>> 4 else b.toNat &&& 0xF) =
      if p then b.extractLsb' 4 4 else b.extractLsb' 0 4 := by
  split_ifs
  · rfl
  · apply BitVec.eq_of_toNat_eq
    rw [BitVec.toNat_ofNat, BitVec.extractLsb'_toNat, Nat.shiftRight_zero, Nat.and_two_pow_sub_one_eq_mod b.toNat 4,
      Nat.mod_mod]

/-- Settles O36: each of the `h − 127` weights is a nibble, and the image written is zero above them. -/
theorem readwDirectReadsNibbles : Obligations.ReadwDirectReadsNibbles := by
  unfold Obligations.ReadwDirectReadsNibbles
  intro s h hin hh hdirect hav
  obtain ⟨n, hn⟩ : ∃ n, h.toNat = 127 + n := ⟨h.toNat - 127, by omega⟩
  have hn' : h.toNat - 127 = n := by omega
  have hlt : n ≤ 128 := by have := h.isLt; omega
  have hnw : BitVec.ofNat 8 n = h - 127 := by
    apply BitVec.eq_of_toNat_eq
    rw [BitVec.toNat_sub, BitVec.toNat_ofNat]
    simp only [BitVec.reduceToNat, hn]
    omega
  rw [hn'] at hav ⊢
  have hlen := length_directWeights s.ibuf s.arg0.toNat n 0 s.draws
  have hread : readWeights s.ibuf s.arg0.toNat s.arg1.toNat h.toNat s.draws =
      .ok ((directWeights s.ibuf s.arg0.toNat n 0 s.draws).1, 1 + (n + 1) / 2)
        (directWeights s.ibuf s.arg0.toNat n 0 s.draws).2 := by
    rw [readWeights, if_neg (Nat.not_lt.2 hdirect), readWeightsDirect, hn']
    exact if_neg (Nat.not_lt.2 hav)
  refine ⟨_, hufReadw_done hin (by omega) hh hread, ?_, fun i b hi hb => ?_, fun i hi => ?_, fun i hlo hi => ?_⟩
  · rw [hlen, hnw]
  · have hget : (directWeights s.ibuf s.arg0.toNat n 0 s.draws).1[i]? =
        some (if i % 2 = 0 then b.toNat >>> 4 else b.toNat &&& 0xF) := by
      simpa using directWeights_listed (off := s.arg0.toNat) (k := 0) (draws := s.draws) hi (by rwa [Nat.zero_add])
    rw [← ofNat_nibble]
    refine (get?_weightImage _ i).trans ((if_pos (show i < 256 by omega)).trans ?_)
    rw [List.getD_eq_getElem?_getD, hget, Option.getD_some]
  · exact (congrArg Option.isSome (get?_weightImage _ i)).trans (by rw [if_pos hi]; rfl)
  · refine (get?_weightImage _ i).trans ((if_pos hi).trans ?_)
    rw [List.getD_eq_default _ _ (hlen.trans_le hlo)]
    rfl

end Sys2Proof.Machine

/-! ## The table `HUF.BUILD` makes, and the weight lists it refuses (42_huffman.md R191, R196 to R198) -/

namespace Sys2Proof.Machine

/-! ### The weights read, and the sum of their shares (R191, R196) -/

/-- Weights that are all written are read as they are, without a draw. -/
theorem readWeights_of_listed {m : Memory (BitVec 4)} {ws : List Nat}
    (h : ∀ i, ∀ hi : i < ws.length, m.get? i = some (BitVec.ofNat 4 ws[i])) (hws : ∀ x ∈ ws, x < 16) (draws : Nat) :
    m.readWeights ws.length 0 draws = (ws, draws) := by
  rw [Memory.readWeights_listed fun j _ hj => by rw [h j (by omega)]; rfl]
  congr 1
  apply List.ext_getElem
  · simp
  · intro i _ hi
    have hx := hws _ (List.getElem_mem hi)
    simp only [List.getElem_map, List.getElem_range', Nat.zero_add, Nat.one_mul, h i hi, Option.getD_some,
      BitVec.toNat_ofNat]
    exact Nat.mod_eq_of_lt hx

/-- The claims' sum of shares is the model's. -/
theorem shareSum_eq_weightSum (ws : List Nat) : shareSum ws = weightSum ws := rfl

/-- The table log of a sum whose complement to `2^mb` is less than half of it (R196). -/
theorem hsb_add_one_eq {sum mb : Nat} (hmb : 1 ≤ mb) (hlo : 2 ^ (mb - 1) ≤ sum) (hhi : sum < 2 ^ mb) :
    hsb sum + 1 = mb := by
  rw [hsb_unique hlo (by rwa [Nat.sub_add_cancel hmb]), Nat.sub_add_cancel hmb]

/-- A sum that `2^r` completes to `2^mb` lies in the upper half of `2^mb`. -/
theorem bounds_of_add_two_pow {sum mb r : Nat} (hr : r < mb) (h : sum + 2 ^ r = 2 ^ mb) :
    2 ^ (mb - 1) ≤ sum ∧ sum < 2 ^ mb := by
  have hhalf : 2 ^ r ≤ 2 ^ (mb - 1) := Nat.pow_le_pow_right (by norm_num) (by omega)
  have hdouble : 2 ^ mb = 2 * 2 ^ (mb - 1) := by rw [← pow_succ', Nat.sub_add_cancel (by omega)]
  have hpos := Nat.two_pow_pos r
  omega

/-- A list with a share has a weight. -/
theorem ne_nil_of_share {ws : List Nat} {k : Nat} (h : 2 ^ k ≤ weightSum ws) : ws ≠ [] := by
  rintro rfl
  exact absurd h (Nat.not_le.2 (Nat.two_pow_pos k))

/-! ### The ends of `BuildHuf` (R196) -/

section
variable {ws : List Nat} {s : State}

/-- The checks that come before the sum pass for a list of weights up to 11. -/
theorem buildHuf_of_le (hne : ws ≠ []) (hws : ∀ x ∈ ws, x ≤ 11) : ws.length ≠ 0 ∧
    ¬ (ws.any fun w => decide (w > Config.hufMaxBits)) = true := by
  refine ⟨fun h => hne (List.length_eq_zero_iff.1 h), fun h => ?_⟩
  obtain ⟨x, hx, hlt⟩ := List.any_eq_true.1 h
  exact absurd (hws x hx) (Nat.not_le.2 (of_decide_eq_true hlt))

theorem buildHuf_nil (s : State) : buildHuf [] s = .raise .hufWeights s := rfl

/-- A weight above 11 raises `HUF_MAXBITS`. -/
theorem buildHuf_large (h : ∃ x ∈ ws, 11 < x) : buildHuf ws s = .raise .hufMaxbits s := by
  obtain ⟨x, hx, hlt⟩ := h
  have hne : ws.length ≠ 0 := (List.length_pos_of_mem hx).ne'
  have hany : (ws.any fun w => decide (w > Config.hufMaxBits)) = true :=
    List.any_eq_true.2 ⟨x, hx, decide_eq_true hlt⟩
  simp only [buildHuf, if_neg hne, if_pos hany]

variable (hne : ws ≠ []) (hws : ∀ x ∈ ws, x ≤ 11)
include hne hws

/-- Weights that are all 0 raise `HUF_WEIGHTS`. -/
theorem buildHuf_zero (h : weightSum ws = 0) : buildHuf ws s = .raise .hufWeights s := by
  obtain ⟨hlen, hany⟩ := buildHuf_of_le hne hws
  simp only [buildHuf, if_neg hlen, if_neg hany, if_pos h]

/-- A sum that needs a table log above 11 raises `HUF_MAXBITS`. -/
theorem buildHuf_deep (h : 2 ^ 11 ≤ weightSum ws) : buildHuf ws s = .raise .hufMaxbits s := by
  obtain ⟨hlen, hany⟩ := buildHuf_of_le hne hws
  have hsum : weightSum ws ≠ 0 := by omega
  have hdeep : hsb (weightSum ws) + 1 > Config.hufMaxBits :=
    Nat.lt_add_one_of_le ((Nat.le_log2 hsum).2 h)
  simp only [buildHuf, if_neg hlen, if_neg hany, if_neg hsum, if_pos hdeep]

variable {mb : Nat} (hmb : 1 ≤ mb) (hmb' : mb ≤ 11) (hlo : 2 ^ (mb - 1) ≤ weightSum ws) (hhi : weightSum ws < 2 ^ mb)
include hmb hmb' hlo hhi

/-- A sum with a legal table log has its complement checked. -/
theorem buildHuf_legal : buildHuf ws s =
    if isPow2 (2 ^ mb - weightSum ws) = true then
      if (ws ++ [hsb (2 ^ mb - weightSum ws) + 1]).count 1 < 2 then
        .raise .hufWeights { s with w := s.w.put ws.length (BitVec.ofNat 4 (hsb (2 ^ mb - weightSum ws) + 1)) }
      else
        .done { s with
          w := s.w.put ws.length (BitVec.ofNat 4 (hsb (2 ^ mb - weightSum ws) + 1))
          ht := s.ht.putList 0 (htImage mb (ws ++ [hsb (2 ^ mb - weightSum ws) + 1]))
          hufMaxbits := BitVec.ofNat 4 mb, hufNsym := BitVec.ofNat 9 (ws.length + 1), hufValid := true }
    else .raise .hufWeights s := by
  obtain ⟨hlen, hany⟩ := buildHuf_of_le hne hws
  have hpos := Nat.two_pow_pos (mb - 1)
  have hsum : weightSum ws ≠ 0 := by omega
  have hlog : ¬ mb > Config.hufMaxBits := Nat.not_lt.2 hmb'
  simp only [buildHuf, if_neg hlen, if_neg hany, if_neg hsum, hsb_add_one_eq hmb hlo hhi, if_neg hlog]

end

/-- A sum that `2^r` completes has the implicit weight `r + 1` (R196). -/
theorem buildHuf_implicit {ws : List Nat} {mb r : Nat} (hws : ∀ x ∈ ws, x ≤ 11) (hmb : 1 ≤ mb) (hmb' : mb ≤ 11)
    (hr : r < mb) (hsum : weightSum ws + 2 ^ r = 2 ^ mb) (s : State) : buildHuf ws s =
    if (ws ++ [r + 1]).count 1 < 2 then .raise .hufWeights { s with w := s.w.put ws.length (BitVec.ofNat 4 (r + 1)) }
    else
      .done { s with
        w := s.w.put ws.length (BitVec.ofNat 4 (r + 1)), ht := s.ht.putList 0 (htImage mb (ws ++ [r + 1]))
        hufMaxbits := BitVec.ofNat 4 mb, hufNsym := BitVec.ofNat 9 (ws.length + 1), hufValid := true } := by
  obtain ⟨hlo, hhi⟩ := bounds_of_add_two_pow hr hsum
  have hrest : 2 ^ mb - weightSum ws = 2 ^ r := by omega
  rw [buildHuf_legal (ne_nil_of_share hlo) hws hmb hmb' hlo hhi, hrest, hsb_two_pow, if_pos (isPow2_two_pow r)]

/-! ### `HUF.BUILD` (R198) -/

section
variable {s : State} {ws : List Nat} (hnw : ws.length = s.hufNw.toNat)
  (hw : ∀ i, ∀ hi : i < ws.length, s.w.get? i = some (BitVec.ofNat 4 ws[i])) (hws : ∀ x ∈ ws, x < 16)
include hnw hw hws

/-- `HUF.BUILD` over written weights is `BuildHuf` over them, with `HUF_VALID` cleared. -/
theorem hufBuild_listed : ending .hufBuild s = buildHuf ws { s with hufValid := false } := by
  rw [ending, hufBuild, ← hnw]
  simp only [readWeights_of_listed hw hws]

/-- A refusal of `BuildHuf` is the command's fault, with `HUF_VALID` cleared. -/
theorem hufBuild_faulted (hs : s.fault = false) {c : FaultCode}
    (h : buildHuf ws { s with hufValid := false } = .raise c { s with hufValid := false }) :
    exec .hufBuild s =
      .next (State.faulted { s with hufValid := false } c.number c.isProgramming 0x21000000) :=
  exec_raise_from (i := .hufBuild) (t := { s with hufValid := false }) hs ((hufBuild_listed hnw hw hws).trans h)

end

/-- Settles O40: the checks of `BuildHuf` in their order, each passed by the lists of the clauses after it. -/
theorem hufBuildRefusesBadWeights : Obligations.HufBuildRefusesBadWeights := by
  unfold Obligations.HufBuildRefusesBadWeights
  intro s ws hs hnw hw hlt
  have hweights := hufBuild_faulted hnw hw hlt hs (c := .hufWeights)
  have hbits := hufBuild_faulted hnw hw hlt hs (c := .hufMaxbits)
  refine ⟨fun h0 => ?_, fun h => hbits (buildHuf_large h), fun hnil h0 => hweights ?_, fun hws hsum => hbits ?_,
    fun mb hws hmb hmb' hlo hhi hpow => hweights ?_, fun mb r hws hmb hmb' hr hsum hones => ?_⟩
  · obtain rfl : ws = [] := List.length_eq_zero_iff.1 (by rw [hnw, h0]; rfl)
    exact hweights (buildHuf_nil _)
  · refine buildHuf_zero hnil (fun x hx => (h0 x hx).trans_le (Nat.zero_le _)) ?_
    exact List.sum_eq_zero fun y hy => by
      obtain ⟨x, hx, rfl⟩ := List.mem_map.1 hy
      rw [h0 x hx]
      rfl
  · exact buildHuf_deep (ne_nil_of_share hsum) hws hsum
  · rw [buildHuf_legal (ne_nil_of_share hlo) hws hmb hmb' hlo hhi]
    refine if_neg fun h => ?_
    have hrest := (isPow2_iff _).1 h
    rw [shareSum_eq_weightSum] at *
    exact hpow _ (hrest ▸ Nat.add_sub_of_le hhi.le)
  · have hend := (hufBuild_listed hnw hw hlt).trans (buildHuf_implicit hws hmb hmb' hr hsum _)
    rw [if_pos hones] at hend
    exact ⟨_, exec_raise_from (i := .hufBuild) (c := .hufWeights) (by exact hs) hend, Memory.get?_put_same _ _ _,
      fun i hi => Memory.get?_put_ne _ _ hi⟩

end Sys2Proof.Machine

/-! ## The table of a good weight list (42_huffman.md R196, R197) -/

namespace Sys2Proof.Machine

/-! ### Which entries stand in a class and in the table (R196) -/

/-- The symbols of a class's entries are those of the list's places. -/
theorem symbol_of_mem_classEntries {mb w : Nat} {ws : List Nat} {sym : Nat} {e : HtEntry}
    (h : e ∈ classEntries mb w ws sym) (hfit : sym + ws.length ≤ 256) :
    sym ≤ e.symbol.toNat ∧ e.symbol.toNat < sym + ws.length := by
  induction ws generalizing sym with
  | nil => cases h
  | cons x ws ih =>
    rw [List.length_cons] at hfit ⊢
    unfold classEntries at h
    split_ifs at h
    · rcases List.mem_append.1 h with h | h
      · rw [List.eq_of_mem_replicate h, BitVec.toNat_ofNat, Nat.mod_eq_of_lt (by omega)]
        omega
      · have := ih h (by omega)
        omega
    · have := ih h (by omega)
      omega

/-- An entry of the classes `w .. w + n − 1` is one of some class. -/
theorem exists_class_of_mem_htEntriesFrom {mb : Nat} {ws : List Nat} {n w : Nat} {e : HtEntry}
    (h : e ∈ htEntriesFrom mb ws n w) : ∃ x, w ≤ x ∧ x < w + n ∧ e ∈ classEntries mb x ws 0 := by
  induction n generalizing w with
  | zero => cases h
  | succ n ih =>
    rcases List.mem_append.1 h with h | h
    · exact ⟨w, le_rfl, by omega, h⟩
    · obtain ⟨x, hlo, hhi, hx⟩ := ih h
      exact ⟨x, by omega, by omega, hx⟩

/-- The code length of a class, as an entry holds it. -/
theorem toNat_nbBits {mb w : Nat} (hmb : mb ≤ 11) : (BitVec.ofNat 4 (mb + 1 - w)).toNat = mb + 1 - w := by
  rw [BitVec.toNat_ofNat, Nat.mod_eq_of_lt (by omega)]

/-! ### The order of the entries (R196) -/

/-- The longer code first, and among equals the smaller symbol. -/
def HtEntry.Before (e f : HtEntry) : Prop :=
  f.nbBits.toNat < e.nbBits.toNat ∨ f.nbBits = e.nbBits ∧ e.symbol.toNat ≤ f.symbol.toNat

/-- A class stands in ascending symbol order. -/
theorem classEntries_ordered (mb w : Nat) {ws : List Nat} {sym : Nat} (hfit : sym + ws.length ≤ 256) :
    (classEntries mb w ws sym).Pairwise HtEntry.Before := by
  induction ws generalizing sym with
  | nil => exact List.Pairwise.nil
  | cons x ws ih =>
    rw [List.length_cons] at hfit
    unfold classEntries
    split_ifs
    · refine List.pairwise_append.2 ⟨List.pairwise_replicate.2 (.inr (.inr ⟨rfl, le_rfl⟩)), ih (by omega), ?_⟩
      intro e he f hf
      have hsym := symbol_of_mem_classEntries hf (by omega)
      rw [List.eq_of_mem_replicate he]
      refine .inr ⟨nbBits_of_mem_classEntries hf, ?_⟩
      rw [BitVec.toNat_ofNat, Nat.mod_eq_of_lt (by omega)]
      omega
    · exact ih (by omega)

/-- The classes stand in ascending order of weight, so the longest codes first. -/
theorem htEntriesFrom_ordered {mb : Nat} (hmb : mb ≤ 11) {ws : List Nat} (hfit : ws.length ≤ 256) {n w : Nat}
    (hw : 1 ≤ w) (hn : w + n ≤ mb + 1) : (htEntriesFrom mb ws n w).Pairwise HtEntry.Before := by
  induction n generalizing w with
  | zero => exact List.Pairwise.nil
  | succ n ih =>
    refine List.pairwise_append.2 ⟨classEntries_ordered mb w (by omega), ih (by omega) (by omega), ?_⟩
    intro e he f hf
    obtain ⟨x, hlo, hhi, hx⟩ := exists_class_of_mem_htEntriesFrom hf
    refine .inl ?_
    rw [nbBits_of_mem_classEntries he, nbBits_of_mem_classEntries hx, toNat_nbBits hmb, toNat_nbBits hmb]
    omega

/-! ### Each symbol's share of the table (R191, R197) -/

/-- In the class `w` a symbol has `2^(w−1)` entries if its weight is `w`, and none otherwise. -/
theorem count_classEntries (mb w : Nat) {ws : List Nat} {sym σ : Nat} (hσ : σ < ws.length)
    (hfit : sym + ws.length ≤ 256) :
    (classEntries mb w ws sym).count ⟨BitVec.ofNat 8 (sym + σ), BitVec.ofNat 4 (mb + 1 - ws[σ])⟩ =
      if ws[σ] = w then 2 ^ (w - 1) else 0 := by
  induction ws generalizing sym σ with
  | nil => exact absurd hσ (Nat.not_lt_zero σ)
  | cons x ws ih =>
    rw [List.length_cons] at hσ hfit
    have hsym {k : Nat} (hk : k < 256) : (BitVec.ofNat 8 k).toNat = k := by
      rw [BitVec.toNat_ofNat, Nat.mod_eq_of_lt hk]
    cases σ with
    | zero =>
      -- the later places hold later symbols
      have htail : (classEntries mb w ws (sym + 1)).count ⟨BitVec.ofNat 8 sym, BitVec.ofNat 4 (mb + 1 - x)⟩ = 0 := by
        refine List.count_eq_zero.2 fun h => ?_
        have := (symbol_of_mem_classEntries h (by omega)).1
        simp only [hsym (show sym < 256 by omega)] at this
        omega
      simp only [List.getElem_cons_zero, Nat.add_zero, classEntries]
      split_ifs with hx
      · subst hx
        rw [List.count_append, List.count_replicate_self, htail, Nat.add_zero]
      · exact htail
    | succ σ =>
      have hnext := ih (sym := sym + 1) (σ := σ) (by omega) (by omega)
      rw [Nat.add_assoc, Nat.add_comm 1 σ] at hnext
      have hhead (n : Nat) (a b : BitVec 4) :
          (List.replicate n (⟨BitVec.ofNat 8 sym, a⟩ : HtEntry)).count ⟨BitVec.ofNat 8 (sym + (σ + 1)), b⟩ = 0 := by
        refine List.count_eq_zero.2 fun h => ?_
        have := congrArg (fun e : HtEntry => e.symbol.toNat) (List.eq_of_mem_replicate h)
        simp only [hsym (show sym < 256 by omega), hsym (show sym + (σ + 1) < 256 by omega)] at this
        omega
      simp only [List.getElem_cons_succ, classEntries]
      by_cases hx : x = w
      · rw [if_pos hx, List.count_append, hhead, Nat.zero_add, hnext]
      · rw [if_neg hx, hnext]

/-- In the classes `w .. w + n − 1` a symbol has its share if its weight is one of them, and no entry otherwise. -/
theorem count_htEntriesFrom (mb : Nat) {ws : List Nat} {σ : Nat} (hσ : σ < ws.length) (hfit : ws.length ≤ 256)
    (n w : Nat) :
    (htEntriesFrom mb ws n w).count ⟨BitVec.ofNat 8 σ, BitVec.ofNat 4 (mb + 1 - ws[σ])⟩ =
      if w ≤ ws[σ] ∧ ws[σ] < w + n then 2 ^ (ws[σ] - 1) else 0 := by
  induction n generalizing w with
  | zero => rw [if_neg (by omega)]; rfl
  | succ n ih =>
    have hclass := count_classEntries mb w (sym := 0) hσ (by omega)
    rw [Nat.zero_add] at hclass
    rw [htEntriesFrom, List.count_append, hclass, ih]
    by_cases hx : ws[σ] = w
    · rw [if_pos hx, if_neg (by omega), if_pos (by omega), hx, Nat.add_zero]
    · rw [if_neg hx, Nat.zero_add]
      exact if_congr (by omega) rfl rfl

/-- A symbol has as many entries in the table as its share (R191). -/
theorem count_htImage {mb : Nat} {ws : List Nat} (hws : ∀ x ∈ ws, x ≤ mb) {σ : Nat} (hσ : σ < ws.length)
    (hfit : ws.length ≤ 256) :
    (htImage mb ws).count ⟨BitVec.ofNat 8 σ, BitVec.ofNat 4 (mb + 1 - ws[σ])⟩ =
      if ws[σ] = 0 then 0 else 2 ^ (ws[σ] - 1) := by
  have hle := hws _ (List.getElem_mem hσ)
  rw [htImage, count_htEntriesFrom mb hσ hfit]
  by_cases h0 : ws[σ] = 0
  · rw [if_neg (by omega), if_pos h0]
  · rw [if_pos (by omega), if_neg h0]

/-- Counting a list's places that hold an entry counts the entry. -/
theorem countP_range_getElem? (es : List HtEntry) (e : HtEntry) :
    ((List.range es.length).countP fun u => es[u]? == some e) = es.count e := by
  have hmap : (List.range es.length).map (fun u => es[u]?) = es.map some := by
    apply List.ext_getElem
    · simp
    · intro i h₁ h₂
      simp at h₁
      simp [h₁]
  calc ((List.range es.length).countP fun u => es[u]? == some e)
      = ((List.range es.length).map (fun u => es[u]?)).count (some e) := by
        rw [List.count, List.countP_map]
        rfl
    _ = es.count e := by rw [hmap, List.count_map_of_injective _ _ (Option.some_injective _)]

/-! ### The entries of one symbol form an aligned block (R197) -/

/-- Placed from index `p` on, `es` holds the whole block of each of its entries: the indexes that share the upper
`nbBits` of its `mb` bits. -/
def BlocksAt (mb p : Nat) (es : List HtEntry) : Prop :=
  ∀ i e, es[i]? = some e → ∀ q, q >>> (mb - e.nbBits.toNat) = (p + i) >>> (mb - e.nbBits.toNat) →
    p ≤ q ∧ es[q - p]? = some e

theorem BlocksAt.append {mb p : Nat} {as bs : List HtEntry} (ha : BlocksAt mb p as)
    (hb : BlocksAt mb (p + as.length) bs) : BlocksAt mb p (as ++ bs) := by
  intro i e he q hq
  rcases Nat.lt_or_ge i as.length with hi | hi
  · rw [List.getElem?_append_left hi] at he
    obtain ⟨hle, hget⟩ := ha i e he q hq
    exact ⟨hle, by rw [List.getElem?_append_left (List.getElem?_eq_some_iff.1 hget).1, hget]⟩
  · rw [List.getElem?_append_right hi] at he
    obtain ⟨hle, hget⟩ := hb _ e he q (by rw [hq, Nat.add_assoc, Nat.add_sub_cancel' hi])
    exact ⟨by omega, by rw [List.getElem?_append_right (by omega), Nat.sub_sub, hget]⟩

/-- `2^k` equal entries from a multiple of `2^k` on are one block. -/
theorem blocksAt_replicate {mb p k : Nat} {e : HtEntry} (hk : mb - e.nbBits.toNat = k) (hp : 2 ^ k ∣ p) :
    BlocksAt mb p (List.replicate (2 ^ k) e) := by
  intro i f hf q hq
  obtain ⟨hi, rfl⟩ := List.getElem?_eq_some_iff.1 hf
  obtain ⟨c, rfl⟩ := hp
  rw [List.length_replicate] at hi
  rw [List.getElem_replicate, hk, Nat.shiftRight_eq_div_pow, Nat.shiftRight_eq_div_pow,
    Nat.mul_add_div (Nat.two_pow_pos k), Nat.div_eq_of_lt hi, Nat.add_zero] at hq
  have hlo : 2 ^ k * c ≤ q := hq ▸ Nat.mul_div_le q (2 ^ k)
  have hhi : q < 2 ^ k * (c + 1) := hq ▸ Nat.lt_mul_div_succ q (Nat.two_pow_pos k)
  rw [Nat.mul_succ] at hhi
  exact ⟨hlo, by rw [List.getElem_replicate, List.getElem?_replicate, if_pos (by omega)]⟩

/-- A class from a multiple of its share on is blocks. -/
theorem blocksAt_classEntries {mb w : Nat} (hmb : mb ≤ 11) (hw : 1 ≤ w) (hwmb : w ≤ mb) {ws : List Nat} {sym p : Nat}
    (hp : 2 ^ (w - 1) ∣ p) : BlocksAt mb p (classEntries mb w ws sym) := by
  induction ws generalizing sym p with
  | nil => exact nofun
  | cons x ws ih =>
    unfold classEntries
    split_ifs
    · refine (blocksAt_replicate ?_ hp).append (ih ?_)
      · show mb - (BitVec.ofNat 4 (mb + 1 - w)).toNat = w - 1
        rw [toNat_nbBits hmb]
        omega
      · rw [List.length_replicate]
        exact hp.add dvd_rfl
    · exact ih hp

/-- The classes from `w` on fill a multiple of the share of `w`. -/
theorem dvd_length_htEntriesFrom (mb : Nat) (ws : List Nat) {k w : Nat} (hk : k ≤ w - 1) (n : Nat) :
    2 ^ k ∣ (htEntriesFrom mb ws n w).length := by
  induction n generalizing w with
  | zero => exact dvd_zero _
  | succ n ih =>
    rw [htEntriesFrom, List.length_append, length_classEntries]
    exact ((pow_dvd_pow 2 hk).mul_left _).add (ih (by omega))

/-- The classes from `w` up to `mb` that end at `2^mb` are blocks: each begins at a multiple of its share, since what
follows it and `2^mb` are multiples of it. -/
theorem blocksAt_htEntriesFrom {mb : Nat} (hmb : mb ≤ 11) {ws : List Nat} {n w p : Nat} (hw : 1 ≤ w)
    (hn : w + n = mb + 1) (hp : p + (htEntriesFrom mb ws n w).length = 2 ^ mb) :
    BlocksAt mb p (htEntriesFrom mb ws n w) := by
  induction n generalizing w p with
  | zero => exact nofun
  | succ n ih =>
    have hdvd : 2 ^ (w - 1) ∣ p := by
      rw [← Nat.dvd_add_left (dvd_length_htEntriesFrom mb ws le_rfl (n + 1)), hp]
      exact pow_dvd_pow 2 (by omega)
    rw [htEntriesFrom, List.length_append, ← Nat.add_assoc] at hp
    exact (blocksAt_classEntries hmb hw (by omega) hdvd).append (ih (by omega) (by omega) hp)

/-- The table written from index 0 is the image. -/
theorem get?_putList_htImage {mb : Nat} {ws : List Nat} (hlen : (htImage mb ws).length = 2 ^ mb) (ht : Memory HtEntry)
    {u : Nat} (hu : u < 2 ^ mb) : (ht.putList 0 (htImage mb ws)).get? u = (htImage mb ws)[u]? := by
  rw [Memory.get?_putList, if_pos (by omega)]
  rfl

/-- A table of `2^mb` entries written from index 0 is a complete prefix table (R197). -/
theorem prefixTable_putList {mb : Nat} (hmb : mb ≤ 11) {ws : List Nat} (ht : Memory HtEntry)
    (hlen : (htImage mb ws).length = 2 ^ mb) : PrefixTable (ht.putList 0 (htImage mb ws)) mb := by
  have hget {u : Nat} (hu : u < 2 ^ mb) := get?_putList_htImage hlen ht hu
  intro u hu
  obtain ⟨e, he, hlo, hhi⟩ := tableServes_putList hmb ht hlen u hu
  refine ⟨e, he, hlo, hhi, fun v hv hvu => ?_⟩
  rw [hget hu] at he
  have hblock := (blocksAt_htEntriesFrom hmb le_rfl (Nat.add_comm 1 mb) (by rw [Nat.zero_add]; exact hlen) u e he v
    (by rw [Nat.zero_add, hvu])).2
  rw [hget hv]
  exact hblock

/-- Weights that the implicit one completes to `2^mb`, and the implicit one, are up to `mb`. -/
theorem weight_le_of_complete {ws : List Nat} {mb r : Nat} (hr : r < mb) (hsum : weightSum ws + 2 ^ r = 2 ^ mb) :
    ∀ x ∈ ws ++ [r + 1], x ≤ mb := by
  obtain ⟨hlo, hhi⟩ := bounds_of_add_two_pow hr hsum
  intro x hx
  rcases List.mem_append.1 hx with hx | hx
  · exact (weight_le_hsb_weightSum hx).trans_eq (hsb_add_one_eq (by omega) hlo hhi)
  · obtain rfl := List.mem_singleton.1 hx
    exact hr

/-- Weights that the implicit one completes to `2^mb` fill a table of `mb` bits (R197). -/
theorem length_htImage_of_complete {ws : List Nat} {mb r : Nat} (hr : r < mb)
    (hsum : weightSum ws + 2 ^ r = 2 ^ mb) : (htImage mb (ws ++ [r + 1])).length = 2 ^ mb := by
  rw [length_htImage (weight_le_of_complete hr hsum), ← hsum]
  simp [weightSum, weightShare]

/-- Settles O39: the image written has `2^mb` entries, in blocks and in order, and each symbol's share of them. -/
theorem hufBuildMakesAPrefixTable : Obligations.HufBuildMakesAPrefixTable := by
  unfold Obligations.HufBuildMakesAPrefixTable
  intro s ws mb r hnw _ hw hws hmb hmb' hr hsum hones
  have hend := (hufBuild_listed hnw hw fun x hx => (hws x hx).trans_lt (by norm_num)).trans
    (buildHuf_implicit hws hmb hmb' hr hsum _)
  rw [if_neg (Nat.not_lt.2 hones)] at hend
  have hlen := length_htImage_of_complete hr hsum
  have hfit : (ws ++ [r + 1]).length ≤ 256 := by
    have := s.hufNw.isLt
    rw [List.length_append, List.length_singleton]
    omega
  have hget {u : Nat} (hu : u < 2 ^ mb) := get?_putList_htImage hlen s.ht hu
  refine ⟨_, (exec_eq _ s).trans (congrArg _ hend), rfl, Memory.get?_put_same _ _ _,
    fun i hi => Memory.get?_put_ne _ _ hi, prefixTable_putList hmb' _ hlen, fun σ hσ => ?_,
    fun u v e f huv hv he hf => ?_, fun u hu => ?_⟩
  · rw [← count_htImage (weight_le_of_complete hr hsum) hσ hfit, ← countP_range_getElem?, hlen]
    refine List.countP_congr fun u hu => ?_
    rw [← hget (List.mem_range.1 hu)]
    rfl
  · replace he := (hget (huv.trans hv)).symm.trans he
    replace hf := (hget hv).symm.trans hf
    obtain ⟨hu', rfl⟩ := List.getElem?_eq_some_iff.1 he
    obtain ⟨hv', rfl⟩ := List.getElem?_eq_some_iff.1 hf
    exact List.pairwise_iff_getElem.1 (htEntriesFrom_ordered hmb' hfit le_rfl (Nat.add_comm 1 mb).le) u v hu' hv' huv
  · refine (Memory.get?_putList _ _ _ _).trans (if_neg ?_)
    omega

end Sys2Proof.Machine

/-! ## A backward reader over written bytes (40_bitreaders.md R112 to R114) -/

namespace Sys2Proof.Machine

/-- The reader `r` with `rem` real bits left. -/
def BackReader.seek (r : BackReader) (rem : Int) : BackReader := { r with rem := BitVec.ofInt 32 rem }

theorem BackReader.seek_toInt (r : BackReader) {rem : Int} (hlo : -2 ^ 31 ≤ rem) (hhi : rem < 2 ^ 31) :
    (r.seek rem).rem.toInt = rem :=
  BitVec.toInt_ofInt_eq_self (by norm_num) hlo hhi

/-- A range of IBUF is opened at the operands themselves (R111). -/
theorem BackReader.opened_operands (base len : Word) : BackReader.opened base.toNat len.toNat = ⟨base, len, 8 * len⟩ := by
  simp [BackReader.opened, BitVec.ofNat_mul]

/-- A read over written bytes returns the bits below the cursor, and moves below them (R114). -/
theorem BackCursor.read_seek {ibuf : Memory Byte} {r : BackReader} {bs : List Byte} {n draws : Nat} {rem : Int}
    (hbs : ibuf.holds r.base.toNat bs) (hlen : bs.length ≤ 131072) (hlo : -2 ^ 31 ≤ rem - n)
    (hhi : rem ≤ 8 * bs.length) :
    BackCursor.read ibuf n ⟨r.seek rem, draws⟩ = .ok (bitsBelow (leInt bs) rem n) ⟨r.seek (rem - n), draws⟩ := by
  have hrem : (r.seek rem).rem.toInt = rem := r.seek_toInt (by omega) (by omega)
  obtain ⟨v, draws', -, hread, hval⟩ := BackCursor.read_done (c := ⟨r.seek rem, draws⟩) (hrem.symm ▸ hlo) ibuf
  obtain ⟨rfl, rfl⟩ := hval bs hbs (hrem.symm ▸ hhi)
  simp only [hread, hrem]
  rfl

/-- An empty stream has no marker (R112). -/
theorem BackCursor.skipPad_empty {c : BackCursor} (h : c.reader.len = 0) (ibuf : Memory Byte) :
    c.skipPad ibuf = .raise .badPadding c := by
  simp [skipPad, h]

/-- A last byte 0 holds no marker (R112). -/
theorem BackCursor.skipPad_zero {ibuf : Memory Byte} {c : BackCursor} (hlen : c.reader.len.toNat ≠ 0)
    (h : ibuf.get? (c.reader.base.toNat + c.reader.len.toNat - 1) = some 0) :
    c.skipPad ibuf = .raise .badPadding c := by
  simp only [skipPad, if_neg hlen, Memory.readByte_listed h]
  exact if_pos rfl

/-- The padding skip leaves the bits below the marker (R112). -/
theorem BackCursor.skipPad_marker {ibuf : Memory Byte} {c : BackCursor} {p : Byte} (hlen : c.reader.len.toNat ≠ 0)
    (h : ibuf.get? (c.reader.base.toNat + c.reader.len.toNat - 1) = some p) (hp : p ≠ 0) :
    c.skipPad ibuf = .ok () ⟨c.reader.seek (8 * (c.reader.len.toNat - 1) + hsb p.toNat), c.draws⟩ := by
  have hrem : BitVec.ofNat 32 (8 * (c.reader.len.toNat - 1) + hsb p.toNat) =
      BitVec.ofInt 32 (8 * ((c.reader.len.toNat : Int) - 1) + hsb p.toNat) := by
    rw [← BitVec.ofInt_natCast]
    congr 1
    omega
  simp only [skipPad, if_neg hlen, Memory.readByte_listed h, hrem]
  exact if_neg hp

/-- The last byte of a byte string that a memory holds. -/
theorem Memory.holds.getLast {m : Memory Byte} {base : Nat} {bs : List Byte} {p : Byte} (h : m.holds base bs)
    (hp : bs.getLast? = some p) : bs.length ≠ 0 ∧ m.get? (base + bs.length - 1) = some p := by
  rw [List.getLast?_eq_getElem?] at hp
  obtain ⟨hlt, rfl⟩ := List.getElem?_eq_some_iff.1 hp
  exact ⟨by omega, by rw [Nat.add_sub_assoc (by omega)]; exact h _ hlt⟩

/-- The marker's place in its byte. -/
theorem hsb_byte_lt (p : Byte) : hsb p.toNat < 8 := by
  rcases Nat.eq_zero_or_pos p.toNat with h | h
  · rw [h]
    decide
  · exact (Nat.log2_lt (by omega)).2 p.isLt

end Sys2Proof.Machine

/-! ## The ends of `HUF.DECODE` (42_huffman.md R199 to R201; 60_exceptions.md R273) -/

namespace Sys2Proof.Machine

/-! ### What the loop and the stream can do, whatever the memories hold -/

/-- A read of at most 15 bits stays in the register's range while the cursor is above −mb, so it does not fault (R201). -/
theorem decodeSymbol_done {mb idx : Nat} {s : State} (h : -2 ^ 31 + 15 ≤ s.br.rem.toInt) :
    ∃ sym idx' t, decodeSymbol mb idx s = .ok (sym, idx') t ∧ t.lbuf = s.lbuf := by
  have hnb := (s.ht.readHt idx s.draws).1.nbBits.isLt
  obtain ⟨v, c, hread⟩ : ∃ v c, (State.back { s with draws := (s.ht.readHt idx s.draws).2 }).read s.ibuf
      (s.ht.readHt idx s.draws).1.nbBits.toNat = .ok v c := by
    obtain ⟨v, draws, -, hread, -⟩ := BackCursor.read_done
      (c := State.back { s with draws := (s.ht.readHt idx s.draws).2 }) (n := (s.ht.readHt idx s.draws).1.nbBits.toNat)
      (by show -2 ^ 31 ≤ s.br.rem.toInt - _; omega) s.ibuf
    exact ⟨v, _, hread⟩
  simp only [decodeSymbol, hread]
  exact ⟨_, _, _, rfl, rfl⟩

/-- How a loop from `count` symbols on, with room for `fuel` more, can end: below or at −mb, with the symbols it counts
written, or with more bits than room. -/
def LoopEnds (mb dst fuel count : Nat) (s : State) : Res State Nat → Prop
  | .ok n t => count ≤ n ∧ n ≤ count + fuel ∧ t.br.rem.toInt ≤ -(mb : Int) ∧
      ∀ a, a < dst + count ∨ dst + n ≤ a → t.lbuf.get? a = s.lbuf.get? a
  | .raise e t => e = .outputLimit ∧ ∀ a, a < dst + count ∨ dst + count + fuel ≤ a → t.lbuf.get? a = s.lbuf.get? a

/-- At or below −mb the loop has ended. -/
theorem loopEnds_stop {mb : Nat} {s : State} (h : ¬ s.br.rem.toInt > -(mb : Int)) (dst fuel count : Nat) :
    LoopEnds mb dst fuel count s (.ok count s) :=
  ⟨le_rfl, by omega, not_lt.1 h, fun _ _ => rfl⟩

theorem hufLoop_ends {mb : Nat} (hmb : mb ≤ 15) (dst fuel idx count : Nat) (s : State) :
    LoopEnds mb dst fuel count s (hufLoop mb dst fuel idx count s) := by
  induction fuel generalizing idx count s with
  | zero =>
    unfold hufLoop
    split_ifs with h
    · exact ⟨rfl, fun _ _ => rfl⟩
    · exact loopEnds_stop h _ _ _
  | succ fuel ih =>
    unfold hufLoop
    split_ifs with h
    · obtain ⟨sym, idx', t, hd, ht⟩ := decodeSymbol_done (mb := mb) (idx := idx) (s := s) (by omega)
      have hput (a : Nat) (ha : a ≠ dst + count) : (t.lbuf.put (dst + count) sym).get? a = s.lbuf.get? a := by
        rw [Memory.get?_put_ne _ _ ha, ht]
      rw [hd]
      have hrest := ih idx' (count + 1) { t with lbuf := t.lbuf.put (dst + count) sym }
      simp only []
      cases hr : hufLoop mb dst fuel idx' (count + 1) { t with lbuf := t.lbuf.put (dst + count) sym } with
      | ok n u =>
        rw [hr] at hrest
        obtain ⟨hlo, hhi, hrem, hframe⟩ := hrest
        exact ⟨by omega, by omega, hrem, fun a ha => (hframe a (by omega)).trans (hput a (by omega))⟩
      | raise e u =>
        rw [hr] at hrest
        obtain ⟨he, hframe⟩ := hrest
        exact ⟨he, fun a ha => (hframe a (by omega)).trans (hput a (by omega))⟩
    · exact loopEnds_stop h _ _ _

/-- The check at the end of a stream (R200). -/
def streamEnd (mb : Nat) : Res State Nat → Res State Nat
  | .raise e s => .raise e s
  | .ok count s => if s.br.rem.toInt = -(mb : Int) then .ok count s else .raise .didNotUseAllBits s

/-- Where the padding is skipped and the first index read, the loop and its check are the stream's. -/
theorem hufStream_opened {base len dst limit idx : Nat} {s : State} {c d : BackCursor}
    (hskip : BackCursor.skipPad s.ibuf ⟨BackReader.opened base len, s.draws⟩ = .ok () c)
    (hread : c.read s.ibuf s.hufMaxbits.toNat = .ok idx d) :
    hufStream base len dst limit s =
      streamEnd s.hufMaxbits.toNat (hufLoop s.hufMaxbits.toNat dst limit idx 0 (s.setBack d)) := by
  have hskip' : (State.back { s with br := BackReader.opened base len }).skipPad s.ibuf = .ok () c := hskip
  have hset : State.setBack { s with br := BackReader.opened base len } d = s.setBack d := rfl
  simp only [hufStream, hskip', hread, hset]
  cases hufLoop s.hufMaxbits.toNat dst limit idx 0 (s.setBack d) <;> rfl

/-- How a stream can end: at −mb with the symbols it counts written, or in one of the stream's faults. -/
def StreamEnds (mb dst limit : Nat) (s : State) : Res State Nat → Prop
  | .ok n t => n ≤ limit ∧ t.br.rem.toInt = -(mb : Int) ∧
      ∀ a, a < dst ∨ dst + n ≤ a → t.lbuf.get? a = s.lbuf.get? a
  | .raise e t => (e = .badPadding ∨ e = .didNotUseAllBits ∨ e = .outputLimit) ∧
      ∀ a, a < dst ∨ dst + limit ≤ a → t.lbuf.get? a = s.lbuf.get? a

theorem LoopEnds.streamEnd {mb dst limit : Nat} {s : State} {r : Res State Nat} (h : LoopEnds mb dst limit 0 s r) :
    StreamEnds mb dst limit s (streamEnd mb r) := by
  cases r with
  | ok n t =>
    obtain ⟨-, hn, -, hframe⟩ := h
    rw [Machine.streamEnd]
    split_ifs with hrem
    · exact ⟨by omega, hrem, hframe⟩
    · exact ⟨.inr (.inl rfl), fun a ha => hframe a (by omega)⟩
  | raise e t => exact ⟨.inr (.inr h.1), h.2⟩

theorem hufStream_ends {base len dst limit : Nat} (hin : base + len ≤ 131072) (s : State) :
    StreamEnds s.hufMaxbits.toNat dst limit s (hufStream base len dst limit s) := by
  have hmb := s.hufMaxbits.isLt
  have hlen : (BackReader.opened base len).len.toNat = len := by
    show (BitVec.ofNat 32 len).toNat = len
    rw [BitVec.toNat_ofNat, Nat.mod_eq_of_lt (by omega)]
  have hbad (c : BackCursor) : StreamEnds s.hufMaxbits.toNat dst limit s (.raise .badPadding (s.setBack c)) :=
    ⟨.inl rfl, fun _ _ => rfl⟩
  rcases BackCursor.skipPad_cases s.ibuf ⟨BackReader.opened base len, s.draws⟩ with
    ⟨-, hskip⟩ | ⟨-, b, draws, -, ⟨-, hskip⟩ | ⟨-, hskip⟩⟩
  · simp only [hufStream, State.back, hskip]
    exact hbad _
  · simp only [hufStream, State.back, hskip]
    exact hbad _
  · have hb := hsb_byte_lt b
    rw [hlen] at hskip
    have hrem : (BitVec.ofNat 32 (8 * (len - 1) + hsb b.toNat)).toInt = (8 * (len - 1) + hsb b.toNat : Nat) :=
      toInt_ofNat_of_lt (by omega)
    obtain ⟨v, draws', -, hread, -⟩ := BackCursor.read_done (n := s.hufMaxbits.toNat)
      (c := ⟨{ BackReader.opened base len with rem := BitVec.ofNat 32 (8 * (len - 1) + hsb b.toNat) }, draws⟩)
      (by rw [hrem]; omega) s.ibuf
    rw [hufStream_opened hskip hread]
    exact (hufLoop_ends (by omega) dst limit v 0 _).streamEnd

/-! ### The command, from its stream (R201) -/

/-- Forgetting a range leaves what is outside it (60_exceptions.md R273). -/
theorem Memory.get?_forget_outside {α : Type} (m : Memory α) {lo n a : Nat} (h : a < lo ∨ lo + n ≤ a) :
    (m.forget lo n).get? a = m.get? a := by
  induction m with
  | nil => rfl
  | cons c m ih =>
    obtain ⟨k, x⟩ := c
    unfold Memory.forget at ih ⊢
    rw [List.filter_cons]
    by_cases hk : k = a
    · have hout : (!(decide (lo ≤ k) && decide (k < lo + n))) = true := by simp; omega
      rw [if_pos hout, Memory.get?, Memory.get?, if_pos hk, if_pos hk]
    · split_ifs
      · rw [Memory.get?, Memory.get?, if_neg hk, if_neg hk, ih]
      · rw [Memory.get?, if_neg hk, ih]

/-- How the command over `s` ends after its stream (R201, R273). -/
def decodeEnding (s : State) : Res State Nat → Ending
  | .raise e t => .raise e { t with lbuf := t.lbuf.forget s.arg2.toNat s.arg3.toNat }
  | .ok count t => .done { t with res := BitVec.ofNat 64 count }

/-- With a table and legal ranges the stream decides (R201). -/
theorem hufDecode_stream {s : State} (hv : s.hufValid = true) (hi : s.arg0.toNat + s.arg1.toNat ≤ 131072)
    (hl : s.arg2.toNat + s.arg3.toNat ≤ 131072) : ending .hufDecode s =
      decodeEnding s (hufStream s.arg0.toNat s.arg1.toNat s.arg2.toNat s.arg3.toNat s) := by
  have hin : (inIbuf s.opArg0 s.opArg1 && inLbuf s.opArg2 s.opArg3) = true :=
    Bool.and_eq_true_iff.2 ⟨(inIbuf_iff _ _).2 hi, (inLbuf_iff _ _).2 hl⟩
  rw [ending, hufDecode, if_pos hv, if_pos hin]
  rfl

/-- Outside its table and ranges the command faults before it writes anything (R201). -/
theorem hufDecode_range {s : State} (hs : s.fault = false) (hv : s.hufValid = true)
    (h : 131072 < s.arg0.toNat + s.arg1.toNat ∨ 131072 < s.arg2.toNat + s.arg3.toNat) :
    exec .hufDecode s = .next (s.faulted 0x02 true 0x22000000) := by
  have hout : ¬ (inIbuf s.opArg0 s.opArg1 && inLbuf s.opArg2 s.opArg3) = true := by
    rw [Bool.and_eq_true_iff, inIbuf_iff, inLbuf_iff]
    rintro ⟨hi, hl⟩
    exact h.elim (Nat.not_lt.2 hi) (Nat.not_lt.2 hl)
  refine exec_raise (i := .hufDecode) (c := .range) hs ?_
  rw [ending, hufDecode, if_pos hv, if_neg hout]

end Sys2Proof.Machine

/-! ## `HUF.DECODE` over a stream and a table that are written (42_huffman.md R199 to R203) -/

namespace Sys2Proof.Machine

/-! ### The decode steps (R199, R201) -/

theorem bitsBelow_lt (x : Nat) (rem : Int) (n : Nat) : bitsBelow x rem n < 2 ^ n := Nat.mod_lt _ (Nat.two_pow_pos n)

/-- `s` with the backward reader `r` at `rem` real bits and LBUF as `m`. -/
def State.decoded (s : State) (r : BackReader) (rem : Int) (m : Memory Byte) : State :=
  { s with br := r.seek rem, lbuf := m }

section
variable {s : State} {r : BackReader} {bs : List Byte} {mb : Nat} (hbs : s.ibuf.holds r.base.toNat bs)
  (hlen : bs.length ≤ 131072)
include hbs hlen

/-- One decode step over written bytes and a written entry (R199). -/
theorem decodeSymbol_listed {idx : Nat} {e : HtEntry} {rem : Int} (m : Memory Byte) (he : s.ht.get? idx = some e)
    (hlo : -2 ^ 31 ≤ rem - e.nbBits.toNat) (hhi : rem ≤ 8 * bs.length) :
    decodeSymbol mb idx (s.decoded r rem m) =
      .ok (e.symbol, (idx * 2 ^ e.nbBits.toNat + bitsBelow (leInt bs) rem e.nbBits.toNat) % 2 ^ mb)
        (s.decoded r (rem - e.nbBits.toNat) m) := by
  have hread := BackCursor.read_seek (draws := s.draws) hbs hlen hlo hhi
  have hor : idx <<< e.nbBits.toNat ||| bitsBelow (leInt bs) rem e.nbBits.toNat =
      idx * 2 ^ e.nbBits.toNat + bitsBelow (leInt bs) rem e.nbBits.toNat := by
    rw [← Nat.shiftLeft_add_eq_or_of_lt (bitsBelow_lt _ _ _), Nat.shiftLeft_eq]
  have he' : (s.decoded r rem m).ht.readHt idx (s.decoded r rem m).draws = (e, s.draws) := Memory.readHt_listed he _
  simp only [decodeSymbol, he', ← hor]
  simp only [State.decoded, State.back, hread]
  rfl

/-- The loop takes the decode steps, writes their symbols, and stands where they ended (R201). -/
theorem hufLoop_of_steps (hmb : mb ≤ 15) {dst fuel idx count : Nat} {syms : List Byte} {rem final : Int}
    {m : Memory Byte} (h : DecodeSteps s.ht mb (leInt bs) rem idx syms final) (hfuel : syms.length ≤ fuel)
    (hlo : -30 ≤ rem) (hhi : rem ≤ 8 * bs.length) :
    -30 ≤ final ∧ final ≤ 8 * bs.length ∧ ∃ idx', hufLoop mb dst fuel idx count (s.decoded r rem m) =
      hufLoop mb dst (fuel - syms.length) idx' (count + syms.length)
        (s.decoded r final (m.putList (dst + count) syms)) := by
  induction h generalizing fuel count m with
  | nil => exact ⟨hlo, hhi, _, rfl⟩
  | @cons rem final idx e syms hrem he h ih =>
    have hnb := e.nbBits.isLt
    rw [List.length_cons] at hfuel
    obtain ⟨fuel, rfl⟩ : ∃ f, fuel = f + 1 := ⟨fuel - 1, by omega⟩
    have htop : (s.decoded r rem m).br.rem.toInt > -(mb : Int) := by
      show (r.seek rem).rem.toInt > _
      rw [r.seek_toInt (by omega) (by omega)]
      exact hrem
    obtain ⟨hflo, hfhi, idx', hrest⟩ := ih (fuel := fuel) (count := count + 1) (m := m.put (dst + count) e.symbol)
      (by omega) (by omega) (by omega)
    refine ⟨hflo, hfhi, idx', ?_⟩
    rw [hufLoop, if_pos htop, decodeSymbol_listed hbs hlen m he (by omega) hhi, List.length_cons, Memory.putList,
      Nat.add_sub_add_right, Nat.add_comm syms.length 1, ← Nat.add_assoc]
    exact hrest

end

/-- At or below −mb the loop is over. -/
theorem hufLoop_stop {mb : Nat} {s : State} (h : s.br.rem.toInt ≤ -(mb : Int)) (dst fuel idx count : Nat) :
    hufLoop mb dst fuel idx count s = .ok count s := by
  cases fuel with
  | zero => exact if_neg (not_lt.2 h)
  | succ fuel => exact if_neg (not_lt.2 h)

/-- Above −mb with no room left the loop faults. -/
theorem hufLoop_full {mb : Nat} {s : State} (h : -(mb : Int) < s.br.rem.toInt) (dst idx count : Nat) :
    hufLoop mb dst 0 idx count s = .raise .outputLimit s :=
  if_pos h

/-! ### The stream (R200, R201) -/

section
variable {s : State} {bs : List Byte} {p : Byte} {syms : List Byte} {final : Int}
  (hlen : bs.length = s.arg1.toNat) (hbs : s.ibuf.holds s.arg0.toNat bs) (hmax : bs.length ≤ 131072)
  (hp : bs.getLast? = some p) (hp0 : p ≠ 0)
  (hsteps : DecodeSteps s.ht s.hufMaxbits.toNat (leInt bs) (8 * (bs.length - 1) + hsb p.toNat - s.hufMaxbits.toNat)
    (bitsBelow (leInt bs) (8 * (bs.length - 1) + hsb p.toNat) s.hufMaxbits.toNat) syms final)
include hlen hbs hmax hp hp0 hsteps

/-- A stream whose decode steps fit `limit` ends as they do: in completion at −mb, in `DID_NOT_USE_ALL_BITS` below it, in
`OUTPUT_LIMIT` above it with no room left. -/
theorem hufStream_of_steps {dst limit : Nat} (hfit : syms.length ≤ limit) :
    (final = -(s.hufMaxbits.toNat : Int) → hufStream s.arg0.toNat s.arg1.toNat dst limit s =
      .ok syms.length (s.decoded ⟨s.arg0, s.arg1, 0⟩ final (s.lbuf.putList dst syms))) ∧
    (final < -(s.hufMaxbits.toNat : Int) → hufStream s.arg0.toNat s.arg1.toNat dst limit s =
      .raise .didNotUseAllBits (s.decoded ⟨s.arg0, s.arg1, 0⟩ final (s.lbuf.putList dst syms))) ∧
    (-(s.hufMaxbits.toNat : Int) < final → syms.length = limit → hufStream s.arg0.toNat s.arg1.toNat dst limit s =
      .raise .outputLimit (s.decoded ⟨s.arg0, s.arg1, 0⟩ final (s.lbuf.putList dst syms))) := by
  have hmb := s.hufMaxbits.isLt
  have hbit := hsb_byte_lt p
  obtain ⟨hne, hlast⟩ := hbs.getLast hp
  have hskip : BackCursor.skipPad s.ibuf ⟨BackReader.opened s.arg0.toNat s.arg1.toNat, s.draws⟩ =
      .ok () ⟨BackReader.seek ⟨s.arg0, s.arg1, 0⟩ (8 * (bs.length - 1) + hsb p.toNat), s.draws⟩ := by
    rw [hlen] at hne hlast ⊢
    rw [BackReader.opened_operands]
    exact BackCursor.skipPad_marker hne hlast hp0
  have hread := BackCursor.read_seek (n := s.hufMaxbits.toNat) (r := ⟨s.arg0, s.arg1, 0⟩) (draws := s.draws)
    (rem := 8 * (bs.length - 1) + hsb p.toNat) hbs hmax (by omega) (by omega)
  obtain ⟨hlo, hhi, idx', hloop⟩ := hufLoop_of_steps (r := ⟨s.arg0, s.arg1, 0⟩) (dst := dst) (count := 0) (m := s.lbuf)
    hbs hmax (by omega) hsteps hfit (by omega) (by omega)
  have hrem : (s.decoded ⟨s.arg0, s.arg1, 0⟩ final (s.lbuf.putList dst syms)).br.rem.toInt = final :=
    BackReader.seek_toInt _ (by omega) (by omega)
  have hend : hufStream s.arg0.toNat s.arg1.toNat dst limit s = streamEnd s.hufMaxbits.toNat
      (hufLoop s.hufMaxbits.toNat dst (limit - syms.length) idx' syms.length
        (s.decoded ⟨s.arg0, s.arg1, 0⟩ final (s.lbuf.putList dst syms))) := by
    rw [Nat.zero_add] at hloop
    exact (hufStream_opened hskip hread).trans (congrArg _ hloop)
  rw [hend]
  refine ⟨fun h => ?_, fun h => ?_, fun h hfull => ?_⟩
  · rw [hufLoop_stop (hrem.trans h).le]
    exact if_pos (hrem.trans h)
  · rw [hufLoop_stop (hrem.trans_lt h).le]
    exact if_neg (hrem.trans_ne h.ne)
  · rw [hfull, Nat.sub_self, hufLoop_full (h.trans_eq hrem.symm)]
    rfl

end

/-! ### The command (R201) -/

section
variable {s t : State} (hv : s.hufValid = true) (hi : s.arg0.toNat + s.arg1.toNat ≤ 131072)
  (hl : s.arg2.toNat + s.arg3.toNat ≤ 131072)
include hv hi hl

/-- A stream that ends well completes the command. -/
theorem hufDecode_done {count : Nat}
    (h : hufStream s.arg0.toNat s.arg1.toNat s.arg2.toNat s.arg3.toNat s = .ok count t) :
    exec .hufDecode s = .next (complete { t with res := BitVec.ofNat 64 count }) := by
  rw [exec_eq, hufDecode_stream hv hi hl, h]
  rfl

/-- A fault of the stream is the command's, and leaves the output area any value. -/
theorem hufDecode_faulted {e : FaultCode} (ht : t.fault = false)
    (h : hufStream s.arg0.toNat s.arg1.toNat s.arg2.toNat s.arg3.toNat s = .raise e t) :
    exec .hufDecode s = .next (State.faulted { t with lbuf := t.lbuf.forget s.arg2.toNat s.arg3.toNat } e.number
      e.isProgramming 0x22000000) := by
  refine exec_raise_from (i := .hufDecode) (t := { t with lbuf := t.lbuf.forget s.arg2.toNat s.arg3.toNat }) ht ?_
  rw [hufDecode_stream hv hi hl, h]
  rfl

/-- Where the padding skip faults, so does the command, with the stream opened (R201). -/
theorem hufDecode_badPadding (hs : s.fault = false)
    (h : s.arg1 = 0 ∨ s.ibuf.get? (s.arg0.toNat + s.arg1.toNat - 1) = some 0) :
    ∃ m, exec .hufDecode s =
      .next (State.faulted { s with br := ⟨s.arg0, s.arg1, 8 * s.arg1⟩, lbuf := m } 0x05 false 0x22000000) := by
  have hskip : BackCursor.skipPad s.ibuf ⟨⟨s.arg0, s.arg1, 8 * s.arg1⟩, s.draws⟩ =
      .raise .badPadding ⟨⟨s.arg0, s.arg1, 8 * s.arg1⟩, s.draws⟩ := by
    by_cases h0 : s.arg1 = 0
    · exact BackCursor.skipPad_empty h0 _
    · exact BackCursor.skipPad_zero (fun e => h0 (BitVec.eq_of_toNat_eq e)) (h.resolve_left h0)
  have hstream : hufStream s.arg0.toNat s.arg1.toNat s.arg2.toNat s.arg3.toNat s =
      .raise .badPadding { s with br := ⟨s.arg0, s.arg1, 8 * s.arg1⟩ } := by
    rw [← BackReader.opened_operands] at hskip ⊢
    simp only [hufStream, State.back, hskip]
    rfl
  exact ⟨_, hufDecode_faulted (t := { s with br := ⟨s.arg0, s.arg1, 8 * s.arg1⟩ }) hv hi hl hs hstream⟩

end

/-- `t` is as the command over `s` may leave it: completed at −mb with only the symbols counted written, or faulted under
one of its codes with only the output area changed (R201, R273). -/
def DecodeLeaves (s t : State) : Prop :=
  (t.fault = false → t.br.rem.toInt = -(s.hufMaxbits.toNat : Int) ∧ t.res.toNat ≤ s.arg3.toNat ∧
    ∀ a, a < s.arg2.toNat ∨ s.arg2.toNat + t.res.toNat ≤ a → t.lbuf.get? a = s.lbuf.get? a) ∧
  (t.fault = true → t.code ∈ [0x02#8, 0x05, 0x06, 0x0A, 0x0F] ∧
    ∀ a, a < s.arg2.toNat ∨ s.arg2.toNat + s.arg3.toNat ≤ a → t.lbuf.get? a = s.lbuf.get? a)

/-- A fault recorded with LBUF framed, under one of the codes. -/
theorem decodeLeaves_faulted {s u : State} {c : BitVec 8} (b : Bool) (info : Word)
    (hc : c ∈ [0x02#8, 0x05, 0x06, 0x0A, 0x0F])
    (hm : ∀ a, a < s.arg2.toNat ∨ s.arg2.toNat + s.arg3.toNat ≤ a → u.lbuf.get? a = s.lbuf.get? a) :
    DecodeLeaves s (u.faulted c b info) :=
  ⟨fun h => absurd h (by simp [State.faulted]), fun _ => ⟨hc, hm⟩⟩

/-- However the command ends, with no fault held before, by the ends of its stream. -/
theorem hufDecode_ends {s t : State} (hs : s.fault = false) (ht : exec .hufDecode s = .next t) : DecodeLeaves s t := by
  by_cases hv : s.hufValid = true
  case neg =>
    have hnone : ending .hufDecode s = .raise .noTable s := if_neg hv
    rw [exec_raise (i := .hufDecode) hs hnone] at ht
    cases ht
    exact decodeLeaves_faulted _ _ (by decide) fun _ _ => rfl
  by_cases hr : 131072 < s.arg0.toNat + s.arg1.toNat ∨ 131072 < s.arg2.toNat + s.arg3.toNat
  · rw [hufDecode_range hs hv hr] at ht
    cases ht
    exact decodeLeaves_faulted _ _ (by decide) fun _ _ => rfl
  · have hi : s.arg0.toNat + s.arg1.toNat ≤ 131072 := by omega
    have hl : s.arg2.toNat + s.arg3.toNat ≤ 131072 := by omega
    have hends := hufStream_ends (dst := s.arg2.toNat) (limit := s.arg3.toNat) hi s
    have hframe := hufStream_frame s.arg0.toNat s.arg1.toNat s.arg2.toNat s.arg3.toNat s
    cases hstream : hufStream s.arg0.toNat s.arg1.toNat s.arg2.toNat s.arg3.toNat s with
    | ok count u =>
      rw [hstream] at hends hframe
      obtain ⟨hcount, hrem, hlbuf⟩ := hends
      have hu : u.fault = s.fault := by rw [hframe]
      have hres : (BitVec.ofNat 64 count).toNat = count := by
        rw [BitVec.toNat_ofNat, Nat.mod_eq_of_lt (by omega)]
      rw [hufDecode_done hv hi hl hstream] at ht
      cases ht
      refine ⟨fun _ => ⟨hrem, hres.trans_le hcount, fun a ha => hlbuf a (hres ▸ ha)⟩, fun h => ?_⟩
      rw [complete_fault] at h
      exact absurd (hs.symm.trans (hu.symm.trans h)) Bool.false_ne_true
    | raise e u =>
      rw [hstream] at hends hframe
      obtain ⟨he, hlbuf⟩ := hends
      have hu : u.fault = false := by rw [hframe]; exact hs
      rw [hufDecode_faulted hv hi hl hu hstream] at ht
      cases ht
      refine decodeLeaves_faulted _ _ ?_ fun a ha => (Memory.get?_forget_outside _ ha).trans (hlbuf a ha)
      rcases he with rfl | rfl | rfl <;> decide

/-- The symbols written are held where they were written. -/
theorem Memory.putList_holds (m : Memory Byte) (a : Nat) (vs : List Byte) : (m.putList a vs).holds a vs := by
  intro j hj
  rw [get?_putList, if_pos (by omega), Nat.add_sub_cancel_left, List.getElem?_eq_getElem hj]

theorem Memory.get?_putList_outside (m : Memory Byte) {a b : Nat} {vs : List Byte} (h : b < a ∨ a + vs.length ≤ b) :
    (m.putList a vs).get? b = m.get? b := by
  rw [get?_putList, if_neg (by omega)]

/-- Settles O41: the stream's loop takes the decode steps, and what stands after them decides. -/
theorem hufDecodeEndsExactly : Obligations.HufDecodeEndsExactly := by
  unfold Obligations.HufDecodeEndsExactly
  refine ⟨fun s t hs ht => hufDecode_ends hs ht, fun s hs hv h => hufDecode_range hs hv h,
    fun s hs hv hi hl h => hufDecode_badPadding hv hi hl hs h,
    fun s bs p syms final hs hv hi hl hlen hbs hp hp0 hsteps hfit => ?_⟩
  obtain ⟨hdone, hbelow, habove⟩ := hufStream_of_steps (dst := s.arg2.toNat) hlen hbs (by omega) hp hp0 hsteps hfit
  refine ⟨fun h => ⟨_, hufDecode_done hv hi hl (hdone h), Memory.putList_holds _ _ _,
    fun a ha => Memory.get?_putList_outside _ ha⟩,
    fun h => ⟨_, hufDecode_faulted hv hi hl (e := .didNotUseAllBits) (t := s.decoded _ _ _) hs (hbelow h)⟩,
    fun h hfull => ⟨_, hufDecode_faulted hv hi hl (e := .outputLimit) (t := s.decoded _ _ _) hs (habove h hfull)⟩⟩

end Sys2Proof.Machine

/-! ## The round trip of `HUF.DECODE` (42_huffman.md R197, R203) -/

namespace Sys2Proof.Machine

/-! ### Windows of a stream's integer (R114) -/

/-- `m + n` bits below the cursor are `m` bits, and below them `n` more. -/
theorem bitsBelow_split (x : Nat) (rem : Int) (m n : Nat) :
    bitsBelow x rem (m + n) = bitsBelow x rem m * 2 ^ n + bitsBelow x (rem - m) n := by
  rcases le_or_gt rem 0 with hneg | hpos
  · rw [bitsBelow_of_nonpos x hneg, bitsBelow_of_nonpos x hneg, bitsBelow_of_nonpos x (by omega), Nat.zero_mul]
  obtain ⟨r, rfl⟩ := Int.eq_ofNat_of_zero_le hpos.le
  have hn := Nat.two_pow_pos n
  have hhigh : x * 2 ^ (m + n) / 2 ^ r / 2 ^ n = x * 2 ^ m / 2 ^ r := by
    rw [Nat.div_div_eq_div_mul, pow_add, ← Nat.mul_assoc, Nat.mul_div_mul_right _ _ hn]
  have hlow : x * 2 ^ (m + n) / 2 ^ r % 2 ^ n = bitsBelow x ((r : Int) - m) n := by
    rcases Nat.le_total m r with hle | hle
    · obtain ⟨k, rfl⟩ := Nat.exists_eq_add_of_le hle
      have hk : (((m + k : Nat) : Int) - m).toNat = k := by omega
      rw [bitsBelow, hk, pow_add, pow_add, Nat.mul_left_comm, Nat.mul_div_mul_left _ _ (Nat.two_pow_pos m)]
    · obtain ⟨k, rfl⟩ := Nat.exists_eq_add_of_le hle
      rw [bitsBelow_of_nonpos x (by omega), pow_add, pow_add, Nat.mul_assoc, Nat.mul_left_comm,
        Nat.mul_div_cancel_left _ (Nat.two_pow_pos r), ← Nat.mul_assoc, Nat.mul_mod_left]
  have hm : bitsBelow x r m = x * 2 ^ m / 2 ^ r % 2 ^ m := rfl
  calc bitsBelow x r (m + n) = x * 2 ^ (m + n) / 2 ^ r % (2 ^ n * 2 ^ m) := by
        rw [← pow_add, Nat.add_comm n m]
        rfl
    _ = bitsBelow x r m * 2 ^ n + bitsBelow x ((r : Int) - m) n := by
        rw [Nat.mod_mul, hhigh, hlow, hm]
        ring

/-- The upper bits of a window. -/
theorem bitsBelow_shiftRight (x : Nat) (rem : Int) {n mb : Nat} (h : n ≤ mb) :
    bitsBelow x rem mb >>> (mb - n) = bitsBelow x rem n := by
  have hsplit := bitsBelow_split x rem n (mb - n)
  rw [Nat.add_sub_cancel' h] at hsplit
  rw [hsplit, Nat.shiftRight_eq_div_pow, Nat.mul_comm, Nat.mul_add_div (Nat.two_pow_pos _),
    Nat.div_eq_of_lt (bitsBelow_lt _ _ _), Nat.add_zero]

/-- A window of `mb` bits with the next `n` bits folded in is the window `n` bits down (R199). -/
theorem bitsBelow_slide (x : Nat) (rem : Int) (n mb : Nat) :
    (bitsBelow x rem mb * 2 ^ n + bitsBelow x (rem - mb) n) % 2 ^ mb = bitsBelow x (rem - n) mb := by
  rw [← bitsBelow_split, Nat.add_comm, bitsBelow_split, Nat.mul_add_mod_self_right,
    Nat.mod_eq_of_lt (bitsBelow_lt _ _ _)]

/-! ### The last byte of a marked stream (R112, R124) -/

/-- The padding marker is the highest set bit of the last byte, and all the bits stand below it. -/
theorem getLast_packBits_marker (bits : List Bool) : ∃ p, (packBits (bits ++ [true])).getLast? = some p ∧ p ≠ 0 ∧
    8 * (((packBits (bits ++ [true])).length : Int) - 1) + hsb p.toNat = bits.length := by
  have hsize := length_packBits_marker bits
  have hlt : bits.length / 8 < (packBits (bits ++ [true])).length := by omega
  have hmod : bits.length % 8 < 8 := Nat.mod_lt _ (by norm_num)
  have hbit (q : Nat) (hq : q < 8) (hge : bits.length % 8 ≤ q) :
      (packBits (bits ++ [true]))[bits.length / 8].getLsbD q = decide (q = bits.length % 8) := by
    rw [getLsbD_packBits hlt hq, testBit_natOfBits_marker _ (by omega)]
    exact decide_eq_decide.2 (by omega)
  have hset : (packBits (bits ++ [true]))[bits.length / 8].getLsbD (bits.length % 8) = true := by
    simp [hbit _ hmod le_rfl]
  have hhsb := hsb_toNat_of_highest hset fun q hq hq8 => by simp [hbit q hq8 hq.le, hq.ne']
  refine ⟨(packBits (bits ++ [true]))[bits.length / 8], ?_, fun h0 => ?_, by rw [hhsb]; omega⟩
  · rw [List.getLast?_eq_getElem?, hsize, Nat.add_sub_cancel, List.getElem?_eq_getElem hlt]
  · rw [h0] at hset
    simp at hset

/-! ### The decode steps over a stream of codes (R197, R199, R203) -/

/-- Over the codes of the symbols at `us`, each step finds the next one's entry: the window's upper bits are its code, and
every index with those upper bits has its entry. -/
theorem decodeSteps_of_codes {ht : Memory HtEntry} {mb : Nat} (hp : PrefixTable ht mb) {us : List Nat}
    (hus : ∀ u ∈ us, u < 2 ^ mb) (post : List Bool) {x : Nat}
    (hx : x = natOfBits (forwardBits (codesAt ht mb us).reverse ++ post)) :
    DecodeSteps ht mb x ((forwardBits (codesAt ht mb us).reverse).length - mb)
      (bitsBelow x (forwardBits (codesAt ht mb us).reverse).length mb) ((entriesAt ht us).map HtEntry.symbol) (-mb) := by
  induction us generalizing post with
  | nil =>
    have hrem : (((forwardBits (codesAt ht mb []).reverse).length : Nat) : Int) - mb = -mb := by
      simp [codesAt, forwardBits]
    rw [hrem]
    exact .nil
  | cons u us ih =>
    obtain ⟨hu, hus⟩ := List.forall_mem_cons.1 hus
    obtain ⟨e, he, hnb, hnbmb, hblock⟩ := hp u hu
    have hcodes : codesAt ht mb (u :: us) =
        (e.nbBits.toNat, u >>> (mb - e.nbBits.toNat)) :: codesAt ht mb us := by
      simp [codesAt, he]
    have hentries : (entriesAt ht (u :: us)).map HtEntry.symbol = e.symbol :: (entriesAt ht us).map HtEntry.symbol := by
      simp [entriesAt, he]
    rw [hcodes, forwardBits_reverse_cons, List.append_assoc] at hx
    rw [hcodes, hentries, forwardBits_reverse_cons, List.length_append, length_bitsOf]
    have hnext := ih hus _ hx
    generalize forwardBits (codesAt ht mb us).reverse = pre at hx hnext ⊢
    -- the window's upper bits are the code of `u`
    have hcode : u >>> (mb - e.nbBits.toNat) < 2 ^ e.nbBits.toNat := by
      rw [Nat.shiftRight_eq_div_pow, Nat.div_lt_iff_lt_mul (Nat.two_pow_pos _), ← pow_add, Nat.add_sub_cancel' hnbmb]
      exact hu
    have htop : bitsBelow x (pre.length + e.nbBits.toNat : Nat) mb >>> (mb - e.nbBits.toNat) =
        u >>> (mb - e.nbBits.toNat) := by
      rw [bitsBelow_shiftRight _ _ hnbmb, bitsBelow_add, hx, bitsFrom_natOfBits _ _ hcode]
    refine .cons (by omega) (hblock _ (bitsBelow_lt _ _ _) htop) ?_
    rw [bitsBelow_slide, Nat.cast_add, add_sub_cancel_right, sub_right_comm, add_sub_cancel_right]
    exact hnext

/-- Settles O42: the stream's last byte holds the marker, and over its codes the decode steps end at −mb. -/
theorem hufDecodeRoundTrip : Obligations.HufDecodeRoundTrip := by
  unfold Obligations.HufDecodeRoundTrip
  intro s us hv hp _ hus hlen hi hl hfit hbs
  have hsteps := decodeSteps_of_codes hp hus [true] rfl
  rw [← leInt_packBits] at hsteps
  obtain ⟨p, hlast, hp0, hrem⟩ := getLast_packBits_marker (forwardBits (codesAt s.ht s.hufMaxbits.toNat us).reverse)
  rw [← hrem] at hsteps
  have hsyms : ((entriesAt s.ht us).map HtEntry.symbol).length = us.length := by simp [entriesAt]
  have hdone := (hufStream_of_steps (dst := s.arg2.toNat) hlen.symm hbs (by omega) hlast hp0 hsteps
    (hsyms.trans_le hfit)).1 rfl
  rw [hsyms] at hdone
  have hmb := s.hufMaxbits.isLt
  refine ⟨_, hufDecode_done hv hi hl hdone, rfl, rfl, rfl, ?_, Memory.putList_holds _ _ _,
    fun a ha => Memory.get?_putList_outside _ (by rwa [hsyms])⟩
  exact BackReader.seek_toInt _ (by omega) (by omega)

end Sys2Proof.Machine

/-! ## The parts of a compressed weight header over written bytes (42_huffman.md R193; 41_fse.md R141, R158) -/

namespace Sys2Proof.Machine

/-! ### Byte strings that a memory holds -/

theorem Memory.holds.cons {m : Memory Byte} {base : Nat} {b : Byte} {bs : List Byte} (h : m.holds base (b :: bs)) :
    m.get? base = some b ∧ m.holds (base + 1) bs :=
  ⟨h 0 (by simp), fun j hj => by rw [Nat.add_assoc, Nat.add_comm 1 j]; exact h (j + 1) (by simpa using hj)⟩

theorem Memory.holds.append_right {m : Memory Byte} {base : Nat} {as bs : List Byte} (h : m.holds base (as ++ bs)) :
    m.holds (base + as.length) bs := by
  intro j hj
  have hget := h (as.length + j) (by rw [List.length_append]; omega)
  rw [List.getElem_append_right (by omega), ← Nat.add_assoc] at hget
  simpa using hget

/-- Bits packed, with bytes after them, stand at bit 0 of the whole string's integer. -/
theorem standsAt_packBits_append (bits : List Bool) (extra : List Byte) :
    StandsAt (leInt (packBits bits ++ extra)) 0 bits := by
  have hfit := length_le_packBits bits
  rw [StandsAt, bitsFrom, pow_zero, Nat.div_one, leInt_append, leInt_packBits, ← Nat.add_sub_cancel' hfit, pow_add,
    Nat.mul_assoc, Nat.add_mul_mod_self_left, Nat.mod_eq_of_lt (natOfBits_lt bits)]

/-! ### A description with no bit to spare (R141, R143) -/

/-- The bits that must stand after the last field: one where the last count is −1, whose field is one bit short. -/
def spareBits (counts : List Int) : Nat := if counts.getLast? = some (-1) then 1 else 0

theorem descriptionBits_eq (counts : List Int) (bits : List Bool) :
    descriptionBits counts bits = 4 + bits.length + spareBits counts :=
  rfl

theorem spareBits_append (as : List Int) {counts : List Int} (h : counts ≠ []) :
    spareBits (as ++ counts) = spareBits counts := by
  rw [spareBits, List.getLast?_append_of_ne_nil _ h, spareBits]

/-- A symbol takes at least a bit. -/
theorem Describes.bits_pos {R : Nat} {counts : List Int} {bits : List Bool} (h : Describes R counts bits)
    (hne : counts ≠ []) : 1 ≤ bits.length := by
  have hwidth {R : Nat} (hR : 2 ≤ R) : 2 ≤ fieldWidth R :=
    Nat.succ_le_succ ((Nat.le_log2 (by omega)).2 (by simpa using hR))
  cases h with
  | nil => exact absurd rfl hne
  | @nonzero R p counts bits hR =>
    have := length_fieldBits (2 ^ hsb R) R (fieldWidth R) (p + 1).toNat
    have := hwidth hR
    rw [List.length_append]
    omega
  | @zero R z counts bits hR =>
    have := length_fieldBits (2 ^ hsb R) R (fieldWidth R) 1
    have := hwidth hR
    rw [List.length_append, List.length_append]
    omega

/-- Where no symbol is described nothing remains. -/
theorem Describes.remaining_of_nil {R : Nat} {bits : List Bool} (h : Describes R [] bits) : R = 1 := by
  cases h
  rfl

/-- A field and what follows it hold as many bits as are read for the field (R143): only the field of a last −1 is short
with nothing after it. -/
theorem fieldWidth_le_of_describes {R : Nat} {p : Int} {counts : List Int} {bits : List Bool} (hp0 : p ≠ 0)
    (hp : -1 ≤ p) (habs : p.natAbs < R) (h : Describes (R - p.natAbs) counts bits) :
    fieldWidth R ≤ (fieldBits (2 ^ hsb R) R (fieldWidth R) (p + 1).toNat).length + bits.length +
      spareBits (p :: counts) := by
  have hlen := length_fieldBits (2 ^ hsb R) R (fieldWidth R) (p + 1).toNat
  rcases eq_or_ne counts [] with rfl | hne
  · have hrest := h.remaining_of_nil
    rcases eq_or_ne p (-1) with rfl | hp1
    · simp only [spareBits, List.getLast?_singleton, if_true]
      omega
    · -- a count that takes all that remains is at least the threshold
      obtain ⟨-, hle, -, -⟩ := threshold_bounds (R := R) (by omega)
      have hlong : ¬ (p + 1).toNat < 2 * 2 ^ hsb R - 1 - R := by omega
      have hfull : (fieldBits (2 ^ hsb R) R (fieldWidth R) (p + 1).toNat).length = fieldWidth R := by
        simp only [fieldBits, if_neg hlong]
        split_ifs <;> exact length_bitsOf _ _
      omega
  · have := h.bits_pos hne
    omega

section
variable {ibuf : Memory Byte} {r : FwdReader} {lo hi x draws : Nat} (hmax : 8 * r.len.toNat < 2 ^ 32)
  (hx : ReadsAs ibuf r.base.toNat lo hi x) (hhi : hi ≤ 8 * r.len.toNat)
include hmax hx hhi

/-- A field of a description is read where its full width is there (R143). -/
theorem readCountField_fits {pos R : Nat} {p : Int} (counts : List Int) (unw : Bool) (hR : 1 ≤ R) (hp : -1 ≤ p)
    (habs : p.natAbs < R) (hlo : lo ≤ pos)
    (hbits : StandsAt x pos (fieldBits (2 ^ hsb R) R (fieldWidth R) (p + 1).toNat)) (hend : pos + fieldWidth R ≤ hi) :
    ∃ unw', readCountField ibuf (.describing R counts) ⟨r.seek pos unw, draws⟩ =
      .ok (p + 1) ⟨r.seek (pos + (fieldBits (2 ^ hsb R) R (fieldWidth R) (p + 1).toNat).length) unw', draws⟩ := by
  have hread := readCountField_seek (draws := draws) (unw := unw) counts hmax hx hhi hR hlo hend
  rw [fieldAt_of_standsAt hR hp habs hbits] at hread
  exact ⟨_, hread⟩

/-- A description that stands at the cursor is read where all the bits it needs are there, within the symbols
(R141 to R143). -/
theorem readCounts_of_describes_exact {R : Nat} {counts : List Int} {bits : List Bool} (h : Describes R counts bits)
    {maxSym fuel pos : Nat} (described : List Int) (unw : Bool) (hlo : lo ≤ pos) (hbits : StandsAt x pos bits)
    (hp : pos + bits.length + spareBits counts ≤ hi) (hsyms : described.length + counts.length ≤ maxSym + 1)
    (hfuel : maxSym + 1 ≤ described.length + fuel) :
    ∃ unw', readCounts ibuf maxSym fuel (.describing R described) ⟨r.seek pos unw, draws⟩ =
      .ok (described ++ counts) ⟨r.seek (pos + bits.length) unw', draws⟩ := by
  induction h generalizing fuel pos described unw with
  | nil => exact ⟨unw, by simp [readCounts_end]⟩
  | @nonzero R p counts bits hR hp0 hp1 habs h ih =>
    have hfits := fieldWidth_le_of_describes hp0 hp1 habs h
    have hspare : spareBits counts ≤ spareBits (p :: counts) := by
      rcases eq_or_ne counts [] with rfl | hne
      · exact Nat.zero_le _
      · exact (spareBits_append [p] hne).ge
    rw [standsAt_append] at hbits
    simp only [List.length_append, List.length_cons] at hp hsyms ⊢
    obtain ⟨fuel, rfl⟩ : ∃ f, fuel = f + 1 := ⟨fuel - 1, by omega⟩
    obtain ⟨unw', hread⟩ := readCountField_fits (draws := draws) hmax hx hhi described unw (by omega) hp1 habs hlo
      hbits.1 (by omega)
    obtain ⟨u, hu⟩ := ih (fuel := fuel) (described ++ [p]) unw' (by omega) hbits.2 (by omega) (by simp; omega)
      (by simp; omega)
    rw [readCounts_nonzero hR (by omega) hp0 habs hread]
    exact ⟨u, by simpa [Nat.add_assoc] using hu⟩
  | @zero R z counts bits hR h ih =>
    have hcount := h.length_pos hR
    have hne : counts ≠ [] := List.ne_nil_of_length_pos hcount
    have hpos := h.bits_pos hne
    have hspare : spareBits (0 :: (List.replicate z 0 ++ counts)) = spareBits counts := by
      rw [← List.cons_append, spareBits_append _ hne]
    have hlen := length_fieldBits (2 ^ hsb R) R (fieldWidth R) 1
    rw [List.append_assoc, standsAt_append, standsAt_append] at hbits
    obtain ⟨hfield, hrun, hrest⟩ := hbits
    rw [hspare] at hp
    simp only [List.length_append, List.length_cons, List.length_replicate] at hp hsyms ⊢
    obtain ⟨fuel, rfl⟩ : ∃ f, fuel = f + 1 := ⟨fuel - 1, by omega⟩
    obtain ⟨unw', hread⟩ := readCountField_fits (draws := draws) (p := 0) hmax hx hhi described unw (by omega)
      (by norm_num) (by simp; omega) hlo hfield (by omega)
    rw [zero_add, Int.toNat_one] at hread
    have hok := (readZeroRun_runBits (draws := draws) maxSym hmax hx hhi z (fuel := maxSym + 1)
      (sym := described.length + 1) unw' (by omega) hrun (by omega) (by omega) (by omega)).1 (by omega)
    obtain ⟨u, hu⟩ := ih (fuel := fuel) (described ++ [0] ++ List.replicate z 0) true (by omega) hrest (by omega)
      (by simp; omega) (by simp; omega)
    have hz : described.length + 1 + z = (described ++ [0]).length + z := by simp
    rw [readCounts_zero hR (by omega) hread, hok, hz, afterRun_ok]
    exact ⟨u, by simpa [Nat.add_assoc] using hu⟩

end

/-! ### The forward reader of a header (R193, R194) -/

section
variable {ibuf : Memory Byte} {base : Nat} {bs : List Byte} (draws : Nat) (hbs : ibuf.holds base bs)
  (hlen : bs.length < 128) (hbase : base + bs.length ≤ 131072)
include hbs hlen hbase

omit hbs in
/-- What the inner reader is opened over. -/
theorem FwdReader.opened_range : (FwdReader.opened base bs.length).base.toNat = base ∧
    (FwdReader.opened base bs.length).len.toNat = bs.length := by
  constructor <;> exact (BitVec.toNat_ofNat _ _).trans (Nat.mod_eq_of_lt (by omega))

/-- The inner reader reads the bits of the header's bytes. -/
theorem readsAs_opened : ReadsAs ibuf (FwdReader.opened base bs.length).base.toNat 0
    (8 * (FwdReader.opened base bs.length).len.toNat) (leInt bs) := by
  obtain ⟨hb, hl⟩ := FwdReader.opened_range hlen hbase
  rw [hb, hl]
  exact readsAs_of_holds hbs

/-- The description's 4-bit field is read from a header that has bytes. -/
theorem read_opened_four (hne : bs ≠ []) :
    FwdCursor.read ibuf 4 ⟨FwdReader.opened base bs.length, draws⟩ =
      .ok (bitsFrom (leInt bs) 0 4) ⟨(FwdReader.opened base bs.length).seek 4 true, draws⟩ := by
  obtain ⟨-, hl⟩ := FwdReader.opened_range hlen hbase
  have hpos := List.length_pos_of_ne_nil hne
  have h := FwdCursor.read_seek (r := FwdReader.opened base bs.length) (draws := draws) (n := 4) (p := 0)
    (unw := false) (by omega) (readsAs_opened hbs hlen hbase) le_rfl le_rfl (by omega) (by norm_num)
  exact h

/-- A loop of R141 that faults over the header's bytes is the parser's fault, and draws nothing. -/
theorem readNCount_opened_faults {maxSym maxAl al pos' : Nat} {code : Byte} {unw' : Bool} (hne : bs ≠ [])
    (hal : al = bitsFrom (leInt bs) 0 4 + 5) (hle : al ≤ maxAl)
    (h : ParserFaults (leInt bs) (8 * bs.length) maxSym false (2 ^ al + 1) 0 4 true code pos' unw') :
    ∃ (e : FaultCode) (r : FwdReader), e.number = code ∧ e.isProgramming = false ∧
      readNCount ibuf maxSym maxAl ⟨FwdReader.opened base bs.length, draws⟩ = .raise e ⟨r, draws⟩ := by
  subst hal
  obtain ⟨-, hl⟩ := FwdReader.opened_range hlen hbase
  have hpos := List.length_pos_of_ne_nil hne
  rw [← hl] at h
  obtain ⟨e, hcode, hclass, hloop⟩ := h.raise (draws := draws) (by omega) (readsAs_opened hbs hlen hbase) (by omega)
  exact ⟨e, _, hcode, hclass, readNCount_raise (read_opened_four draws hbs hlen hbase hne) hle
    ((hloop (maxSym + 1) [] (by simp)).1 rfl rfl)⟩

/-- A description at the start of the header's bytes, with all the bits it needs, is parsed, and draws nothing. -/
theorem readNCount_opened_described {maxSym maxAl al : Nat} {counts : List Int} {bits : List Bool}
    {stream : List Byte} (hlo : 5 ≤ al) (hal : al ≤ maxAl) (hal9 : al ≤ 9) (hd : Describes (2 ^ al + 1) counts bits)
    (hsyms : counts.length ≤ maxSym + 1) (hsplit : bs = packBits (bitsOf 4 (al - 5) ++ bits) ++ stream)
    (hfit : descriptionBits counts bits ≤ 8 * bs.length) :
    ∃ r, readNCount ibuf maxSym maxAl ⟨FwdReader.opened base bs.length, draws⟩ =
      .ok ⟨al, counts, (packBits (bitsOf 4 (al - 5) ++ bits)).length⟩ ⟨r, draws⟩ := by
  obtain ⟨-, hl⟩ := FwdReader.opened_range hlen hbase
  have hstands := standsAt_packBits_append (bitsOf 4 (al - 5) ++ bits) stream
  rw [← hsplit, standsAt_append, length_bitsOf, Nat.zero_add] at hstands
  rw [descriptionBits_eq] at hfit
  have hne : bs ≠ [] := by
    rintro rfl
    simp at hfit
  have hread := read_opened_four draws hbs hlen hbase hne
  rw [hstands.1.bitsFrom_eq (by omega)] at hread
  have hal5 : al - 5 + 5 = al := by omega
  obtain ⟨unw', hloop⟩ := readCounts_of_describes_exact (r := FwdReader.opened base bs.length) (draws := draws)
    (maxSym := maxSym) (fuel := maxSym + 1) (by omega) (readsAs_opened hbs hlen hbase) le_rfl hd [] true
    (Nat.zero_le 4) hstands.2 (by omega) (by simpa using hsyms) (by simp)
  rw [readNCount_completes hread (by omega) (by rw [hal5]; exact hloop), hal5]
  have hend : (BitVec.ofNat 32 (4 + bits.length)).toNat = 4 + bits.length := by
    rw [BitVec.toNat_ofNat, Nat.mod_eq_of_lt (by omega)]
  have hbytes : ceilDiv (4 + bits.length - 0) 8 = (packBits (bitsOf 4 (al - 5) ++ bits)).length := by
    rw [length_packBits, List.length_append, length_bitsOf, Nat.sub_zero]
  have hstart : (FwdReader.opened base bs.length).pos.toNat = 0 := rfl
  simp only [FwdReader.seek, hend, hstart, hbytes, List.nil_append]
  exact ⟨_, rfl⟩

end

/-! ### The two-state weight stream (R158) -/

section
variable {ibuf : Memory Byte} {r : BackReader} {stream : List Byte} (hbs : ibuf.holds r.base.toNat stream)
  (hlen : stream.length ≤ 131072) (table : List DtEntry) (draws : Nat)
include hbs hlen

/-- One round of the stream's loop over written bytes: a weight is emitted, and its state moves or ends the stream. -/
theorem decodeWeights2Loop_round {fuel a b : Nat} {out : List Nat} {rem : Int} (hout : out.length ≠ 255)
    (hlo : -30 ≤ rem) (hhi : rem ≤ 8 * stream.length) {e : DtEntry} (he : table.getD a ⟨0, 0, 0⟩ = e) :
    decodeWeights2Loop ibuf table (fuel + 1) a b out ⟨r.seek rem, draws⟩ =
      if rem - e.nbBits.toNat < 0 then
        if out.length + 1 = 255 then .raise .weightsOverflow ⟨r.seek (rem - e.nbBits.toNat), draws⟩
        else
          .ok (out ++ [e.symbol.toNat] ++ [(table.getD b ⟨0, 0, 0⟩).symbol.toNat])
            ⟨r.seek (rem - e.nbBits.toNat), draws⟩
      else
        decodeWeights2Loop ibuf table fuel b (e.baseline.toNat + bitsBelow (leInt stream) rem e.nbBits.toNat)
          (out ++ [e.symbol.toNat]) ⟨r.seek (rem - e.nbBits.toNat), draws⟩ := by
  have hnb := e.nbBits.isLt
  have hread := BackCursor.read_seek (n := e.nbBits.toNat) (draws := draws) hbs hlen (by omega) hhi
  have hrem := r.seek_toInt (rem := rem - e.nbBits.toNat) (by omega) (by omega)
  have hfull : ¬ out.length = Config.hufMaxWeights := hout
  rw [decodeWeights2Loop, if_neg hfull, he]
  simp only [hread, hrem, List.length_append, List.length_singleton]
  rfl

/-- A stream of weights is decoded, within what a header may give (R158). -/
theorem decodeWeights2Loop_of_weightStream {rem : Int} {a b : Nat} {ws : List Nat}
    (h : WeightStream table (leInt stream) rem a b ws) {fuel : Nat} (out : List Nat)
    (hfit : out.length + ws.length ≤ 255) (hfuel : 256 ≤ out.length + fuel) (hlo : -30 ≤ rem)
    (hhi : rem ≤ 8 * stream.length) :
    ∃ rem', decodeWeights2Loop ibuf table fuel a b out ⟨r.seek rem, draws⟩ = .ok (out ++ ws) ⟨r.seek rem', draws⟩ := by
  induction h generalizing fuel out with
  | last hend =>
    simp only [List.length_cons, List.length_nil] at hfit
    obtain ⟨fuel, rfl⟩ : ∃ f, fuel = f + 1 := ⟨fuel - 1, by omega⟩
    rw [decodeWeights2Loop_round hbs hlen table draws (by omega) hlo hhi rfl, if_pos hend, if_neg (by omega),
      List.append_assoc]
    exact ⟨_, rfl⟩
  | more hmore _ ih =>
    rw [List.length_cons] at hfit
    obtain ⟨fuel, rfl⟩ : ∃ f, fuel = f + 1 := ⟨fuel - 1, by omega⟩
    rw [decodeWeights2Loop_round hbs hlen table draws (by omega) hlo hhi rfl, if_neg (not_lt.2 hmore)]
    obtain ⟨rem', hrest⟩ := ih (fuel := fuel) (out ++ [_]) (by simp; omega) (by simp; omega) (by omega) (by omega)
    exact ⟨rem', by rw [hrest, List.append_assoc]; rfl⟩

/-- A stream of more weights than a header may give overflows (R158). -/
theorem decodeWeights2Loop_overflows {rem : Int} {a b n : Nat} (h : WeightsAtLeast table (leInt stream) rem a b n)
    {fuel : Nat} (out : List Nat) (hmany : 256 ≤ out.length + n) (hout : out.length ≤ 255)
    (hfuel : 256 ≤ out.length + fuel) (hlo : -30 ≤ rem) (hhi : rem ≤ 8 * stream.length) :
    ∃ rem', decodeWeights2Loop ibuf table fuel a b out ⟨r.seek rem, draws⟩ =
      .raise .weightsOverflow ⟨r.seek rem', draws⟩ := by
  induction h generalizing fuel out with
  | zero => omega
  | @last rem a b n hend hn =>
    obtain ⟨fuel, rfl⟩ : ∃ f, fuel = f + 1 := ⟨fuel - 1, by omega⟩
    by_cases hfull : out.length = 255
    · exact ⟨rem, if_pos hfull⟩
    · rw [decodeWeights2Loop_round hbs hlen table draws hfull hlo hhi rfl, if_pos hend, if_pos (by omega)]
      exact ⟨_, rfl⟩
  | @more rem a b n hmore _ ih =>
    obtain ⟨fuel, rfl⟩ : ∃ f, fuel = f + 1 := ⟨fuel - 1, by omega⟩
    by_cases hfull : out.length = 255
    · exact ⟨rem, if_pos hfull⟩
    · rw [decodeWeights2Loop_round hbs hlen table draws hfull hlo hhi rfl, if_neg (not_lt.2 hmore)]
      exact ih (fuel := fuel) (out ++ [_]) (by simp; omega) (by simp; omega) (by simp; omega) (by omega) (by omega)

/-- The two states of a stream are read from its top, and its loop follows (R158). -/
theorem decodeWeights2_opened {al : Nat} (hal : al ≤ 15) {rem : Int} (hlo : 0 ≤ rem) (hhi : rem ≤ 8 * stream.length) :
    decodeWeights2 ibuf table al ⟨r.seek rem, draws⟩ =
      decodeWeights2Loop ibuf table 256 (bitsBelow (leInt stream) rem al) (bitsBelow (leInt stream) (rem - al) al) []
        ⟨r.seek (rem - 2 * al), draws⟩ := by
  have hfirst := BackCursor.read_seek (n := al) (draws := draws) hbs hlen (rem := rem) (by omega) hhi
  have hsecond := BackCursor.read_seek (n := al) (draws := draws) hbs hlen (rem := rem - al) (by omega) (by omega)
  rw [show rem - al - al = rem - 2 * (al : Int) by ring] at hsecond
  simp only [decodeWeights2, hfirst, hsecond]
  rfl

end

end Sys2Proof.Machine

/-! ## `HUF.READW` of a compressed header, and its faults (42_huffman.md R192 to R195; 41_fse.md R141, R158) -/

namespace Sys2Proof.Machine

/-! ### The stream after the description (R193, R158) -/

/-- The header's answer, of `used` bytes, from the stream's. -/
def streamAnswer (used : Nat) : Res BackCursor (List Nat) → Res Nat (List Nat × Nat)
  | .raise e p => .raise e p.draws
  | .ok ws p => .ok (ws, used) p.draws

/-- The weights of the stream that the inner backward reader `p` is opened over, as the last step of R193. -/
def streamWeights (ibuf : Memory Byte) (table : List DtEntry) (al used : Nat) (p : BackCursor) :
    Res Nat (List Nat × Nat) :=
  match p.skipPad ibuf with
  | .raise e p => .raise e p.draws
  | .ok _ p => streamAnswer used (decodeWeights2 ibuf table al p)

section
variable {ibuf : Memory Byte} {base : Nat} {stream : List Byte} {p : Byte} (table : List DtEntry) (al used draws : Nat)
  (hbs : ibuf.holds base stream) (hbase : base + stream.length ≤ 131072) (hp : stream.getLast? = some p)
include hbs hbase hp

omit hbs hp in
/-- What the inner reader is opened over. -/
theorem BackReader.opened_range : (BackReader.opened base stream.length).base.toNat = base ∧
    (BackReader.opened base stream.length).len.toNat = stream.length := by
  constructor <;> exact (BitVec.toNat_ofNat _ _).trans (Nat.mod_eq_of_lt (by omega))

/-- The stream is not empty, and its last byte is the one the padding skip reads. -/
theorem getLast_opened : (BackReader.opened base stream.length).len.toNat ≠ 0 ∧
    ibuf.get? ((BackReader.opened base stream.length).base.toNat +
      (BackReader.opened base stream.length).len.toNat - 1) = some p := by
  obtain ⟨hb, hl⟩ := BackReader.opened_range hbase
  rw [hb, hl]
  exact hbs.getLast hp

/-- A last byte 0 faults (R112). -/
theorem streamWeights_badPadding (hp0 : p = 0) :
    streamWeights ibuf table al used ⟨BackReader.opened base stream.length, draws⟩ = .raise .badPadding draws := by
  subst hp0
  obtain ⟨hne, hget⟩ := getLast_opened hbs hbase hp
  rw [streamWeights, BackCursor.skipPad_zero hne hget]

variable (hal : al ≤ 15) (hp0 : p ≠ 0)
include hal hp0

/-- Below the marker the two states are read and the loop follows. -/
theorem streamWeights_opened : streamWeights ibuf table al used ⟨BackReader.opened base stream.length, draws⟩ =
    streamAnswer used (decodeWeights2Loop ibuf table 256 (bitsBelow (leInt stream) (8 * (stream.length - 1) + hsb p.toNat) al)
      (bitsBelow (leInt stream) (8 * (stream.length - 1) + hsb p.toNat - al) al) []
      ⟨(BackReader.opened base stream.length).seek (8 * (stream.length - 1) + hsb p.toNat - 2 * al), draws⟩) := by
  have hbit := hsb_byte_lt p
  have hlast := hbs.getLast hp
  obtain ⟨hb, hl⟩ := BackReader.opened_range hbase
  obtain ⟨hne, hget⟩ := getLast_opened hbs hbase hp
  have hskip := BackCursor.skipPad_marker (c := ⟨BackReader.opened base stream.length, draws⟩) hne hget hp0
  rw [hl] at hskip
  rw [streamWeights, hskip]
  simp only []
  rw [decodeWeights2_opened (hb.symm ▸ hbs) (by omega) table draws hal (by omega) (by omega)]

/-- A stream of at most 255 weights gives them. -/
theorem streamWeights_done {ws : List Nat}
    (hws : WeightStream table (leInt stream) (8 * (stream.length - 1) + hsb p.toNat - 2 * al)
      (bitsBelow (leInt stream) (8 * (stream.length - 1) + hsb p.toNat) al)
      (bitsBelow (leInt stream) (8 * (stream.length - 1) + hsb p.toNat - al) al) ws) (hfit : ws.length ≤ 255) :
    streamWeights ibuf table al used ⟨BackReader.opened base stream.length, draws⟩ = .ok (ws, used) draws := by
  have hbit := hsb_byte_lt p
  have hlast := hbs.getLast hp
  obtain ⟨hb, -⟩ := BackReader.opened_range hbase
  obtain ⟨rem', hloop⟩ := decodeWeights2Loop_of_weightStream (r := BackReader.opened base stream.length)
    (hb.symm ▸ hbs) (by omega) table draws hws (fuel := 256) [] (by simpa using hfit) (by simp) (by omega) (by omega)
  rw [streamWeights_opened table al used draws hbs hbase hp hal hp0, hloop]
  rfl

/-- A stream of more than 255 weights overflows. -/
theorem streamWeights_overflows
    (hws : WeightsAtLeast table (leInt stream) (8 * (stream.length - 1) + hsb p.toNat - 2 * al)
      (bitsBelow (leInt stream) (8 * (stream.length - 1) + hsb p.toNat) al)
      (bitsBelow (leInt stream) (8 * (stream.length - 1) + hsb p.toNat - al) al) 256) :
    streamWeights ibuf table al used ⟨BackReader.opened base stream.length, draws⟩ =
      .raise .weightsOverflow draws := by
  have hbit := hsb_byte_lt p
  have hlast := hbs.getLast hp
  obtain ⟨hb, -⟩ := BackReader.opened_range hbase
  obtain ⟨rem', hloop⟩ := decodeWeights2Loop_overflows (r := BackReader.opened base stream.length)
    (hb.symm ▸ hbs) (by omega) table draws hws (fuel := 256) [] (by simp) (by simp) (by simp) (by omega) (by omega)
  rw [streamWeights_opened table al used draws hbs hbase hp hal hp0, hloop]
  rfl

end

/-! ### The header, from its description (R193) -/

section
variable {ibuf : Memory Byte} {off avail h draws : Nat} (hh : h < 128) (hav : 1 + h ≤ avail)
include hh hav

/-- A fault of the description's parser is the header's. -/
theorem readWeights_parserFault {e : FaultCode} {r : FwdReader}
    (hq : readNCount ibuf 11 6 ⟨FwdReader.opened (off + 1) h, draws⟩ = .raise e ⟨r, draws⟩) :
    readWeights ibuf off avail h draws = .raise e draws := by
  simp only [readWeights, if_pos hh, readWeightsFse, if_neg (Nat.not_lt.2 hav), Config.weightMaxSymbol,
    Config.weightFseMaxAl, hq]

variable {al nbytes : Nat} {counts : List Int} {r : FwdReader}
  (hq : readNCount ibuf 11 6 ⟨FwdReader.opened (off + 1) h, draws⟩ = .ok ⟨al, counts, nbytes⟩ ⟨r, draws⟩)
include hq

/-- A description that leaves no byte for the stream faults. -/
theorem readWeights_noStream (hfull : h ≤ nbytes) :
    readWeights ibuf off avail h draws = .raise .weightStream draws := by
  simp only [readWeights, if_pos hh, readWeightsFse, if_neg (Nat.not_lt.2 hav), Config.weightMaxSymbol,
    Config.weightFseMaxAl, hq]
  exact if_pos hfull

/-- The rest of the header is the stream over the table of the description. -/
theorem readWeights_stream {table : List DtEntry} (hroom : nbytes < h) (htable : buildTable al counts = some table) :
    readWeights ibuf off avail h draws =
      streamWeights ibuf table al (1 + h) ⟨BackReader.opened (off + 1 + nbytes) (h - nbytes), draws⟩ := by
  have hroom' : ¬ nbytes ≥ h := Nat.not_le.2 hroom
  simp only [readWeights, if_pos hh, readWeightsFse, if_neg (Nat.not_lt.2 hav), Config.weightMaxSymbol,
    Config.weightFseMaxAl, hq, if_neg hroom', htable]
  rfl

end

section
variable {ibuf : Memory Byte} {off avail al : Nat} {counts : List Int} {bits : List Bool} {stream : List Byte}
  (draws : Nat) (hbs : ibuf.holds (off + 1) (packBits (bitsOf 4 (al - 5) ++ bits) ++ stream))
  (hh : (packBits (bitsOf 4 (al - 5) ++ bits) ++ stream).length < 128)
  (hav : 1 + (packBits (bitsOf 4 (al - 5) ++ bits) ++ stream).length ≤ avail) (hin : off + avail ≤ 131072)
  (hlo : 5 ≤ al) (hal : al ≤ 6) (hd : Describes (2 ^ al + 1) counts bits) (hsyms : counts.length ≤ 12)
include hbs hh hav hin hlo hal hd hsyms

/-- A description that fills the header with all the bits it needs leaves none for the stream. -/
theorem readWeights_described_noStream (hnil : stream = [])
    (hfit : descriptionBits counts bits ≤ 8 * (packBits (bitsOf 4 (al - 5) ++ bits) ++ stream).length) :
    readWeights ibuf off avail (packBits (bitsOf 4 (al - 5) ++ bits) ++ stream).length draws =
      .raise .weightStream draws := by
  obtain ⟨r, hq⟩ := readNCount_opened_described (maxSym := 11) (maxAl := 6) draws hbs hh (by omega) hlo hal (by omega) hd
    hsyms rfl hfit
  exact readWeights_noStream hh hav hq (by rw [hnil, List.append_nil])

/-- A description with a byte after it is parsed, and the stream over its table follows. -/
theorem readWeights_described {table : List DtEntry} (hne : stream ≠ []) (htable : buildTable al counts = some table) :
    readWeights ibuf off avail (packBits (bitsOf 4 (al - 5) ++ bits) ++ stream).length draws =
      streamWeights ibuf table al (1 + (packBits (bitsOf 4 (al - 5) ++ bits) ++ stream).length)
        ⟨BackReader.opened (off + 1 + (packBits (bitsOf 4 (al - 5) ++ bits)).length) stream.length, draws⟩ := by
  have hpos := List.length_pos_of_ne_nil hne
  have hbits := length_le_packBits (bitsOf 4 (al - 5) ++ bits)
  have hspare : spareBits counts ≤ 1 := by unfold spareBits; split_ifs <;> omega
  have hfit : descriptionBits counts bits ≤ 8 * (packBits (bitsOf 4 (al - 5) ++ bits) ++ stream).length := by
    rw [descriptionBits_eq, List.length_append]
    rw [List.length_append, length_bitsOf] at hbits
    omega
  obtain ⟨r, hq⟩ := readNCount_opened_described (maxSym := 11) (maxAl := 6) draws hbs hh (by omega) hlo hal (by omega) hd
    hsyms rfl hfit
  have hlen : (packBits (bitsOf 4 (al - 5) ++ bits) ++ stream).length - (packBits (bitsOf 4 (al - 5) ++ bits)).length =
      stream.length := by
    rw [List.length_append, Nat.add_sub_cancel_left]
  rw [readWeights_stream hh hav hq (by rw [List.length_append]; omega) htable, hlen]

end

/-! ### The command (R195) -/

/-- A header byte that is the number of the bytes after it reads as that number. -/
theorem toNat_headerByte {n : Nat} (h : n < 128) : (BitVec.ofNat 8 n).toNat = n := by
  rw [BitVec.toNat_ofNat, Nat.mod_eq_of_lt (by omega)]

/-- Settles O37: the description is parsed, and its table decodes the stream after it. -/
theorem readwCompressedReadsItsStream : Obligations.ReadwCompressedReadsItsStream := by
  unfold Obligations.ReadwCompressedReadsItsStream
  intro s h al counts bits table stream p ws hh hsplit hlo hal hd hsyms htable hp hp0 hws hfit hin hav hbs
  rw [← List.length_append] at hsplit
  subst hsplit
  obtain ⟨hhead, hbs⟩ := hbs.cons
  have hne : stream ≠ [] := by
    rintro rfl
    simp at hp
  have hread := readWeights_described s.draws hbs hh hav hin hlo hal hd hsyms hne htable
  have hbase : s.arg0.toNat + 1 + (packBits (bitsOf 4 (al - 5) ++ bits)).length + stream.length ≤ 131072 := by
    rw [List.length_append] at hav
    omega
  rw [streamWeights_done table al _ _ hbs.append_right hbase hp (by omega) hp0 hws hfit, ← toNat_headerByte hh] at hread
  refine ⟨_, hufReadw_done hin (by omega) hhead hread, ?_,
    fun i hi => (get?_weightImage ws i).trans (if_pos hi)⟩
  rw [toNat_headerByte hh]
  rfl

/-- `t` has `W`, `HUF_NW` and `RES` of `s`, and `HUF_VALID` cleared where the operands of `s` are a range of IBUF. -/
def KeepsWeights (s t : State) : Prop :=
  t.w = s.w ∧ t.hufNw = s.hufNw ∧ t.res = s.res ∧ (s.arg0.toNat + s.arg1.toNat ≤ 131072 → t.hufValid = false)

/-- `HUF.READW` writes its weights last, so a fault finds them as they were (R195, 60_exceptions.md R273). -/
theorem hufReadw_raise (s : State) : (hufReadw s).OnRaise (KeepsWeights s) := by
  unfold hufReadw
  simp only []
  split_ifs with hin hav
  · exact ⟨rfl, rfl, rfl, fun _ => rfl⟩
  · split
    · exact ⟨rfl, rfl, rfl, fun _ => rfl⟩
    · trivial
  · exact ⟨rfl, rfl, rfl, fun h => absurd ((inIbuf_iff _ _).2 h) hin⟩

/-- A fault of the command is one that its pseudocode raised. -/
theorem hufReadw_fault {s t : State} (hs : s.fault = false) (hexec : exec .hufReadw s = .next t) (ht : t.fault = true) :
    KeepsWeights s t := by
  have hraise := hufReadw_raise s
  have hframe := ending_sameControl .hufReadw s
  rw [exec_eq] at hexec
  rcases finish_next hexec with ⟨u, he, rfl⟩ | ⟨c, u, he, rfl⟩
  · rw [he] at hframe
    rw [complete_fault, hframe.fault, hs] at ht
    exact absurd ht Bool.false_ne_true
  · rw [show hufReadw s = .raise c u from he] at hraise
    have hkept : KeepsWeights s u := hraise
    simpa [KeepsWeights] using hkept

section
variable {s : State} (hs : s.fault = false)
include hs

/-- A range that leaves IBUF faults before anything is written. -/
theorem hufReadw_range (h : 131072 < s.arg0.toNat + s.arg1.toNat) :
    exec .hufReadw s = .next (s.faulted 0x02 true 0x20000000) := by
  refine exec_raise (i := .hufReadw) (c := .range) hs (if_neg ?_)
  rw [inIbuf_iff]
  exact Nat.not_le.2 h

variable (hin : s.arg0.toNat + s.arg1.toNat ≤ 131072)
include hin

/-- Where not even the header byte is available the command faults. -/
theorem hufReadw_empty (h : s.arg1 = 0) :
    exec .hufReadw s = .next (State.faulted { s with hufValid := false } 0x03 false 0x20000000) := by
  refine exec_raise_from (i := .hufReadw) (c := .endOfInput) (t := { s with hufValid := false }) hs ?_
  have hin' : inIbuf s.opArg0 s.opArg1 = true := (inIbuf_iff _ _).2 hin
  have hlt : s.opArg1 < 1 := by rw [State.opArg1, h]; decide
  rw [ending, hufReadw, if_pos hin']
  exact if_pos hlt

/-- Fewer bytes than a header needs fault, in either form (R192, R193). -/
theorem hufReadw_short {h : Byte} (hpos : 1 ≤ s.arg1.toNat) (hh : s.ibuf.get? s.arg0.toNat = some h)
    (hshort : (128 ≤ h.toNat ∧ s.arg1.toNat < 1 + (h.toNat - 127 + 1) / 2) ∨
      (h.toNat < 128 ∧ s.arg1.toNat < 1 + h.toNat)) :
    exec .hufReadw s = .next (State.faulted { s with hufValid := false } 0x03 false 0x20000000) := by
  refine hufReadw_faulted hin hpos hh hs (e := .endOfInput) (draws := s.draws) ?_
  rcases hshort with ⟨hdirect, hshort⟩ | ⟨hcompressed, hshort⟩
  · rw [readWeights, if_neg (Nat.not_lt.2 hdirect), readWeightsDirect]
    generalize h.toNat - 127 = n at hshort ⊢
    exact if_pos hshort
  · rw [readWeights, if_pos hcompressed]
    exact if_pos hshort

/-- What the reading of a compressed header's bytes raises without a draw is the command's fault. -/
theorem hufReadw_compressed_faulted {bs : List Byte} (hlen : bs.length < 128) (hav : 1 + bs.length ≤ s.arg1.toNat)
    (hhead : s.ibuf.get? s.arg0.toNat = some (BitVec.ofNat 8 bs.length)) {e : FaultCode}
    (hread : readWeights s.ibuf s.arg0.toNat s.arg1.toNat bs.length s.draws = .raise e s.draws) :
    exec .hufReadw s =
      .next (State.faulted { s with hufValid := false } e.number e.isProgramming 0x20000000) :=
  hufReadw_faulted hin (by omega) hhead hs (by rw [toNat_headerByte hlen]; exact hread)

end

/-- Settles O38: the checks of the command come in their order, and what the parser, the padding skip or the stream's loop
raises over written bytes is the command's fault. -/
theorem readwFaultEffects : Obligations.ReadwFaultEffects := by
  unfold Obligations.ReadwFaultEffects
  refine fun s hs => ⟨hufReadw_range hs, fun t => hufReadw_fault hs, hufReadw_empty hs,
    fun h hin hpos hh => ⟨fun hdirect hshort => hufReadw_short hs hin hpos hh (.inl ⟨hdirect, hshort⟩),
      fun hcompressed hshort => hufReadw_short hs hin hpos hh (.inr ⟨hcompressed, hshort⟩)⟩,
    fun bs hlen hin hav hbs => ?_⟩
  obtain ⟨hhead, hbs⟩ := hbs.cons
  have hfault {e : FaultCode} := hufReadw_compressed_faulted hs hin hlen hav hhead (e := e)
  have hbase : s.arg0.toNat + 1 + bs.length ≤ 131072 := by omega
  refine ⟨fun hnil => ?_, fun hne hal => ?_, fun al pos' code unw' hne hal hle hparser => ?_,
    fun al counts bits stream hlo hal hd hsyms hsplit => ⟨fun hnil hfit => ?_, fun table htable => ?_⟩⟩
  · subst hnil
    exact hfault (e := .endOfInput) (readWeights_parserFault hlen hav (readNCount_end 11 6 (by simp [FwdReader.opened])))
  · exact hfault (e := .fseAl) (readWeights_parserFault hlen hav
      (readNCount_fseAl (read_opened_four s.draws hbs hlen hbase hne) hal))
  · obtain ⟨e, r, rfl, hclass, hq⟩ := readNCount_opened_faults s.draws hbs hlen hbase hne hal hle hparser
    exact hclass ▸ hfault (readWeights_parserFault hlen hav hq)
  · subst hsplit
    exact hfault (e := .weightStream)
      (readWeights_described_noStream s.draws hbs hlen hav hin hlo hal hd hsyms hnil hfit)
  · subst hsplit
    have hdescribed (hne : stream ≠ []) := readWeights_described s.draws hbs hlen hav hin hlo hal hd hsyms hne htable
    rw [List.length_append, ← Nat.add_assoc] at hbase
    have hne {p : Byte} (hp : stream.getLast? = some p) : stream ≠ [] := by
      rintro rfl
      simp at hp
    refine ⟨fun hp => hfault (e := .badPadding) ?_, fun p hp hp0 hws => hfault (e := .weightsOverflow) ?_⟩
    · rw [hdescribed (hne hp), streamWeights_badPadding table al _ _ hbs.append_right hbase hp rfl]
    · rw [hdescribed (hne hp), streamWeights_overflows table al _ _ hbs.append_right hbase hp (by omega) hp0 hws]

end Sys2Proof.Machine

/-! ## The window's history as bytes are appended and flushed (43_window.md R231, R232, R240) -/

namespace Sys2Proof.Machine

/-! ### One byte appended (R232) -/

/-- A 64-bit counter below its last value counts on. -/
theorem DWord.toNat_succ {x : DWord} (h : x.toNat + 1 < 2 ^ 64) : (x + 1).toNat = x.toNat + 1 := by
  rw [BitVec.toNat_add]
  exact Nat.mod_eq_of_lt h

/-- Fewer than `c` apart, two history indexes have different slots. -/
theorem slot_ne {i t c : Nat} (hlt : i < t) (hc : t < i + c) : i % c ≠ t % c := by
  intro he
  have hdvd : c ∣ t - i := Nat.dvd_of_mod_eq_zero (Nat.sub_mod_eq_zero_of_mod_eq he.symm)
  have hle := Nat.le_of_dvd (by omega) hdvd
  omega

/-- From the state `s` with the history `h`, the window has taken in the bytes `bs` and is in the state `t`. What the
sink holds, with what it is still to get, stays one sequence: every byte goes there once, in order (R231, R232). -/
structure TakesIn (h bs : List Byte) (s t : State) : Prop where
  ok : t.windowOk
  winCap : t.winCap = s.winCap
  history : t.hasHistory (h ++ bs)
  flushed : t.wflushed.toNat = max s.wflushed.toNat (s.wtotal.toNat + bs.length - s.winCap.toNat)
  out : t.out ++ (h ++ bs).drop t.wflushed.toNat = s.out ++ (h ++ bs).drop s.wflushed.toNat

theorem TakesIn.refl {h : List Byte} {s : State} (hok : s.windowOk) (hh : s.hasHistory h) : TakesIn h [] s s := by
  have ⟨_, _, _, hroom⟩ := hok
  refine ⟨hok, rfl, by rwa [List.append_nil], ?_, rfl⟩
  rw [List.length_nil]
  omega

theorem TakesIn.wtotal {h bs : List Byte} {s t : State} (hh : s.hasHistory h) (ht : TakesIn h bs s t) :
    t.wtotal.toNat = s.wtotal.toNat + bs.length := by
  rw [← ht.history.1, List.length_append, hh.1]

theorem TakesIn.trans {h bs cs : List Byte} {s t u : State} (hle : s.wflushed.toNat ≤ s.wtotal.toNat)
    (hh : s.hasHistory h) (ht : TakesIn h bs s t) (hu : TakesIn (h ++ bs) cs t u) : TakesIn h (bs ++ cs) s u := by
  have hassoc := List.append_assoc h bs cs
  have htotal := ht.wtotal hh
  obtain ⟨hlen, -⟩ := hh
  obtain ⟨hlen', -⟩ := ht.history
  obtain ⟨-, -, hle', -⟩ := ht.ok
  refine ⟨hu.ok, hu.winCap.trans ht.winCap, hassoc ▸ hu.history, ?_, ?_⟩
  · rw [hu.flushed, ht.flushed, ht.winCap, htotal, List.length_append]
    omega
  · rw [← hassoc, hu.out, List.drop_append_of_le_length (hlen' ▸ hle'), ← List.append_assoc, ht.out,
      List.append_assoc, ← List.drop_append_of_le_length (by rw [List.length_append]; omega)]

/-- Only the counters, `WBUF`, the capacity and the sink matter to what the window takes in. -/
theorem TakesIn.of_draws {h bs : List Byte} {s t : State} {draws : Nat}
    (ht : TakesIn h bs { s with draws := draws } t) : TakesIn h bs s t :=
  ⟨ht.ok, ht.winCap, ht.history, ht.flushed, ht.out⟩

/-- The sink has got the bytes that left the window, each once and in order (R232, R241). -/
theorem TakesIn.out_eq {h bs : List Byte} {s t : State} (ht : TakesIn h bs s t) :
    t.out = s.out ++ ((h ++ bs).drop s.wflushed.toNat).take (t.wflushed.toNat - s.wflushed.toNat) := by
  have hle : s.wflushed.toNat ≤ t.wflushed.toNat := ht.flushed ▸ le_max_left _ _
  have hsplit := List.take_append_drop (t.wflushed.toNat - s.wflushed.toNat) ((h ++ bs).drop s.wflushed.toNat)
  rw [List.drop_drop, Nat.add_sub_cancel' hle] at hsplit
  have hout := ht.out
  rw [← hsplit, ← List.append_assoc] at hout
  exact List.append_cancel_right hout

section
variable {s : State} {h : List Byte}

/-- A byte stored in the next slot ends the history (R231). -/
theorem State.hasHistory.store (hh : s.hasHistory h) (hn : s.wtotal.toNat + 1 < 2 ^ 64) (b : Byte) {t : State}
    (hcap : t.winCap = s.winCap) (htotal : t.wtotal = s.wtotal + 1)
    (hbuf : t.wbuf = s.wbuf.put (s.wtotal.toNat % s.winCap.toNat) b) : t.hasHistory (h ++ [b]) := by
  obtain ⟨hlen, hres⟩ := hh
  have hsucc : t.wtotal.toNat = s.wtotal.toNat + 1 := htotal ▸ DWord.toNat_succ hn
  refine ⟨by rw [List.length_append, hlen, hsucc, List.length_singleton], fun i hi hr => ?_⟩
  rw [List.length_append, List.length_singleton] at hi
  rw [hsucc, hcap] at hr
  rw [hcap, hbuf]
  by_cases hlast : i = h.length
  · rw [List.getElem_concat_length hlast, hlast, hlen, Memory.get?_put_same]
  · rw [Memory.get?_put_ne _ _ (slot_ne (by omega) (by omega)), hres i (by omega) (by omega),
      List.getElem_append_left (by omega)]

variable (hok : s.windowOk) (hh : s.hasHistory h)
include hok hh

/-- `AppendByte` evicts the oldest byte the sink has not got where the window is full, and no byte elsewhere (R232). -/
theorem appendByte_evicts (b : Byte) :
    (appendByte b s).wflushed.toNat = max s.wflushed.toNat (s.wtotal.toNat + 1 - s.winCap.toNat) ∧
      (appendByte b s).out ++ h.drop (appendByte b s).wflushed.toNat = s.out ++ h.drop s.wflushed.toNat := by
  obtain ⟨-, hpos, hle, hroom⟩ := hok
  obtain ⟨hlen, hres⟩ := hh
  by_cases hfull : s.wtotal.toNat = s.wflushed.toNat + s.winCap.toNat
  · have hi : s.wflushed.toNat < h.length := by omega
    have hoccupied : s.wbuf.get? (s.wtotal.toNat % s.winCap.toNat) = some h[s.wflushed.toNat] := by
      rw [← hres _ hi (by omega), hfull, Nat.add_mod_right]
    have hsucc : (s.wflushed + 1).toNat = s.wflushed.toNat + 1 := DWord.toNat_succ (by omega)
    rw [appendByte_full b hfull hoccupied, hsucc, List.append_assoc, List.singleton_append, List.cons_getElem_drop_succ]
    exact ⟨by omega, rfl⟩
  · have hmax : max s.wflushed.toNat (s.wtotal.toNat + 1 - s.winCap.toNat) = s.wflushed.toNat := max_eq_left (by omega)
    rw [appendByte_room b hfull, hmax]
    exact ⟨rfl, rfl⟩

/-- `AppendByte` takes in its byte (R232). -/
theorem appendByte_takesIn (hn : s.wtotal.toNat + 1 < 2 ^ 64) (b : Byte) : TakesIn h [b] s (appendByte b s) := by
  obtain ⟨htotal, hcap, hbuf⟩ := appendByte_window b s
  obtain ⟨hflushed, hout⟩ := appendByte_evicts hok hh b
  have hconf : (appendByte b s).wconf = s.wconf := by rw [appendByte_frame b s]
  have hhist := hh.store hn b hcap htotal hbuf
  have hsucc : (appendByte b s).wtotal.toNat = s.wtotal.toNat + 1 := htotal ▸ DWord.toNat_succ hn
  obtain ⟨hw, hpos, hle, hroom⟩ := hok
  obtain ⟨hlen, -⟩ := hh
  refine ⟨⟨hconf.trans hw, hcap ▸ hpos, by omega, by rw [hcap]; omega⟩, hcap, hhist, hflushed, ?_⟩
  rw [List.drop_append_of_le_length (by omega), ← List.append_assoc, hout, List.append_assoc,
    List.drop_append_of_le_length (by omega)]

end

/-! ### A loop of appends (R234 to R236, R238, R239) -/

/-- The bytes that the source of a loop of appends gives, in order. -/
def sourceBytes (source : Nat → State → Byte × State) : (n j : Nat) → State → List Byte
  | 0, _, _ => []
  | n + 1, j, s =>
    (source j s).1 :: sourceBytes source n (j + 1) (appendByte (source j s).1 (source j s).2)

@[simp] theorem length_sourceBytes (source : Nat → State → Byte × State) (n j : Nat) (s : State) :
    (sourceBytes source n j s).length = n := by
  induction n generalizing j s with
  | zero => rfl
  | succ n ih => rw [sourceBytes, List.length_cons, ih]

section
variable {source : Nat → State → Byte × State}
  (hs : ∀ j s, (source j s).2 = { s with draws := (source j s).2.draws })
include hs

theorem sameButWindow_of_draws (j : Nat) (s : State) : SameButWindow s (source j s).2 := by
  rw [hs]
  rfl

/-- One turn of a loop of appends takes in the byte that its source gives. -/
theorem appendByte_source_takesIn {s : State} {h : List Byte} (hok : s.windowOk) (hh : s.hasHistory h)
    (hn : s.wtotal.toNat + 1 < 2 ^ 64) (j : Nat) :
    TakesIn h [(source j s).1] s (appendByte (source j s).1 (source j s).2) := by
  rw [hs j s]
  exact (appendByte_takesIn (s := { s with draws := (source j s).2.draws }) hok hh hn _).of_draws

/-- A loop of appends takes in the bytes that its source gives. -/
theorem appendLoop_takesIn {n j : Nat} {s : State} {h : List Byte} (hok : s.windowOk) (hh : s.hasHistory h)
    (hn : s.wtotal.toNat + n < 2 ^ 64) : TakesIn h (sourceBytes source n j s) s (appendLoop source n j s) := by
  induction n generalizing j s h with
  | zero => exact .refl hok hh
  | succ n ih =>
    have hstep := appendByte_source_takesIn hs hok hh (by omega) j
    have htotal := hstep.wtotal hh
    rw [List.length_singleton] at htotal
    obtain ⟨-, -, hle, -⟩ := hok
    exact hstep.trans hle hh (ih hstep.ok hstep.history (by omega))

/-- A loop of appends, ended, has appended the bytes that its source gave, and nothing else (R232, R241). -/
theorem appendLoop_appended {n : Nat} {s : State} {h : List Byte} (hok : s.windowOk) (hh : s.hasHistory h)
    (hn : s.wtotal.toNat + n < 2 ^ 64) :
    Appended s h (sourceBytes source n 0 s) (appendLoop source n 0 s).ended := by
  have ht := appendLoop_takesIn hs (j := 0) hok hh hn
  obtain ⟨-, hkept⟩ := appendLoop_window hs n 0 s hn
  have hframe := appendLoop_frame (sameButWindow_of_draws hs) n 0 s
  exact ⟨ht.history, fun a ha => hkept a (by simpa using ha), ht.flushed, ht.out_eq, congrArg State.ended hframe⟩

end

end Sys2Proof.Machine

/-! ## What the window commands do (43_window.md R233 to R242) -/

namespace Sys2Proof.Machine

/-! ### What each source gives -/

/-- One byte value again and again (R236). -/
theorem sourceBytes_byteSource (b : Byte) (n j : Nat) (s : State) :
    sourceBytes (byteSource b) n j s = List.replicate n b := by
  induction n generalizing j s with
  | zero => rfl
  | succ n ih => rw [sourceBytes, ih, List.replicate_succ, byteSource]

/-- A source that gives the written bytes of a buffer, one that no append writes, gives them in order (R234, R235). -/
theorem sourceBytes_of_buffer {source : Nat → State → Byte × State} {buffer : State → Memory Byte} {base : Nat}
    (hkept : ∀ s t, SameButWindow s t → buffer t = buffer s) (hframe : ∀ j s, SameButWindow s (source j s).2)
    (hread : ∀ j s b, (buffer s).get? (base + j) = some b → (source j s).1 = b) {n j k : Nat} {s : State} {b : Byte}
    (hk : k < n) (hb : (buffer s).get? (base + (j + k)) = some b) : (sourceBytes source n j s)[k]? = some b := by
  induction n generalizing j k s with
  | zero => exact absurd hk (Nat.not_lt_zero k)
  | succ n ih =>
    cases k with
    | zero => exact congrArg some (hread j s b hb)
    | succ k =>
      rw [sourceBytes, List.getElem?_cons_succ]
      refine ih (Nat.lt_of_succ_lt_succ hk) ?_
      rwa [hkept s _ ((hframe j s).trans (appendByte_frame _ _)), Nat.add_right_comm j 1 k]

/-- A period goes on with its own first byte at its end (R239). -/
theorem periodic_succ {h : List Byte} {dist n : Nat} (hpos : 1 ≤ dist) (hle : dist ≤ h.length) :
    periodic h dist (n + 1) =
      h.getD (h.length - dist) 0 :: periodic (h ++ [h.getD (h.length - dist) 0]) dist n := by
  simp only [periodic, List.range_succ_eq_map, List.map_cons, List.map_map, Nat.zero_mod, Nat.add_zero]
  congr 1
  refine List.map_congr_left fun j _ => ?_
  have hlt := Nat.mod_lt j hpos
  rw [Function.comp_apply, Nat.succ_eq_add_one, List.length_append, List.length_singleton]
  by_cases hwrap : j % dist + 1 = dist
  · have hmod : (j + 1) % dist = 0 := by rw [← Nat.mod_add_mod, hwrap, Nat.mod_self]
    rw [hmod, show h.length + 1 - dist + j % dist = h.length by omega, Nat.add_zero]
    simp
  · have hmod : (j + 1) % dist = j % dist + 1 := by
      rw [← Nat.mod_add_mod, Nat.mod_eq_of_lt (by omega)]
    rw [hmod, List.getD_append _ _ _ _ (by omega)]
    congr 1
    omega

/-- `WIN.REPGEN` reads the period of the history it began with, since each byte it has given ends the history (R239). -/
theorem sourceBytes_repgenSource {dist n j : Nat} {s : State} {h : List Byte} (hok : s.windowOk) (hh : s.hasHistory h)
    (hn : s.wtotal.toNat + n < 2 ^ 64) (hpos : 1 ≤ dist) (htotal : dist ≤ s.wtotal.toNat)
    (hcap : dist ≤ s.winCap.toNat) :
    sourceBytes (repgenSource dist) n j s = periodic h dist n := by
  induction n generalizing j s h with
  | zero => rfl
  | succ n ih =>
    have hlen : h.length = s.wtotal.toNat := hh.1
    have hi : h.length - dist < h.length := by omega
    have hread : repgenSource dist j s = (h.getD (h.length - dist) 0, s) := by
      rw [repgenSource, ← hlen, hh.readWindow hi (by omega), List.getD_eq_getElem _ _ hi]
    have hstep := appendByte_takesIn hok hh (by omega) (h.getD (h.length - dist) 0)
    have htotal' := hstep.wtotal hh
    rw [List.length_singleton] at htotal'
    rw [sourceBytes, hread, periodic_succ hpos (hlen ▸ htotal),
      ih hstep.ok hstep.history (by omega) (by omega) (hstep.winCap ▸ hcap)]

/-- Where `WIN.REPEAT` may be used, `WIN.REPGEN` reads the same bytes (R238). -/
theorem appendLoop_repeatSource {t dist n j : Nat} {s : State} (htotal : s.wtotal.toNat = t + j) (hle : dist ≤ t)
    (hn : s.wtotal.toNat + n < 2 ^ 64) :
    appendLoop (repeatSource t dist) n j s = appendLoop (repgenSource dist) n j s := by
  induction n generalizing j s with
  | zero => rfl
  | succ n ih =>
    have hsame : repeatSource t dist j s = repgenSource dist j s := by
      rw [repeatSource, repgenSource, htotal, Nat.sub_add_comm hle]
    have hkept : (repgenSource dist j s).2.wtotal = s.wtotal := rfl
    have hnext : (appendByte (repgenSource dist j s).1 (repgenSource dist j s).2).wtotal.toNat = t + (j + 1) := by
      rw [(appendByte_window _ _).1, hkept, DWord.toNat_succ (by omega), htotal, Nat.add_assoc]
    have hrest := ih hnext (by rw [hnext]; omega)
    rw [appendLoop, appendLoop, hsame]
    exact hrest

/-- The period no longer than the distance is what stands there in the history (R238). -/
theorem periodic_of_le {h : List Byte} {dist n : Nat} (hle : dist ≤ h.length) (hn : n ≤ dist) :
    periodic h dist n = (h.drop (h.length - dist)).take n := by
  refine List.ext_getElem (by simp [periodic]; omega) fun j hj hj' => ?_
  have hjn : j < n := by simpa [periodic] using hj
  have hmod : j % dist = j := Nat.mod_eq_of_lt (by omega)
  simp only [periodic, List.getElem_map, List.getElem_range, hmod, List.getElem_take, List.getElem_drop]
  exact List.getD_eq_getElem _ _ _

/-! ### The appending commands with legal operands (R234 to R239) -/

theorem badDistance_iff {dist : Nat} {s : State} :
    badDistance dist s = true ↔ dist = 0 ∨ s.wtotal.toNat < dist ∨ s.winCap.toNat < dist := by
  simp [badDistance, or_assoc]

/-- A run of no appends is done at once. -/
theorem appendAll_zero (source : Nat → State → Byte × State) (s : State) : appendAll source 0 s = .done s :=
  if_pos s.wtotal.isLt

section
variable {s : State} (hw : s.wconf = true)
include hw

theorem winPushi_legal (hin : s.arg0.toNat + s.arg1.toNat ≤ 131072) :
    ending .winPushi s = appendAll (ibufSource s.arg0.toNat) s.arg1.toNat s := by
  rw [ending, winPushi, if_pos hw]
  exact if_pos ((inIbuf_iff _ _).2 hin)

theorem winPushl_legal (hin : s.arg0.toNat + s.arg1.toNat ≤ 131072) :
    ending .winPushl s = appendAll (lbufSource s.arg0.toNat) s.arg1.toNat s := by
  rw [ending, winPushl, if_pos hw]
  exact if_pos ((inLbuf_iff _ _).2 hin)

theorem winPushr_legal (b : Byte) : ending (.winPushr b) s = appendAll (byteSource b) s.arg1.toNat s := if_pos hw

theorem winRepeat_empty (hlen : s.arg1 = 0) : ending .winRepeat s = .done s :=
  (if_pos hw).trans (if_pos (congrArg BitVec.toNat hlen))

theorem winRepgen_empty (hlen : s.arg1 = 0) : ending .winRepgen s = .done s :=
  (if_pos hw).trans (if_pos (congrArg BitVec.toNat hlen))

/-- With bytes to append, the distance check comes first (R237, R238). -/
theorem winRepeat_nonempty (hlen : s.arg1 ≠ 0) : ending .winRepeat s =
    if badDistance s.arg0.toNat s then .raise .winDistance s
    else if s.arg1.toNat > s.arg0.toNat then .raise .winOverlap s
    else appendAll (repeatSource s.wtotal.toNat s.arg0.toNat) s.arg1.toNat s :=
  (if_pos hw).trans (if_neg fun h => hlen (BitVec.eq_of_toNat_eq h))

/-- With bytes to append, the distance check comes first (R237, R239). -/
theorem winRepgen_nonempty (hlen : s.arg1 ≠ 0) : ending .winRepgen s =
    if badDistance s.arg0.toNat s then .raise .winDistance s
    else appendAll (repgenSource s.arg0.toNat) s.arg1.toNat s :=
  (if_pos hw).trans (if_neg fun h => hlen (BitVec.eq_of_toNat_eq h))

variable (hpos : 1 ≤ s.arg0.toNat) (htotal : s.arg0.toNat ≤ s.wtotal.toNat) (hcap : s.arg0.toNat ≤ s.winCap.toNat)
include hpos htotal hcap

omit hw in
theorem not_badDistance : ¬ badDistance s.arg0.toNat s = true := by
  rw [badDistance_iff]
  omega

theorem winRepeat_legal (hle : s.arg1.toNat ≤ s.arg0.toNat) :
    ending .winRepeat s = appendAll (repeatSource s.wtotal.toNat s.arg0.toNat) s.arg1.toNat s := by
  by_cases hlen : s.arg1 = 0
  · rw [winRepeat_empty hw hlen, hlen]
    exact (appendAll_zero _ s).symm
  · rw [winRepeat_nonempty hw hlen, if_neg (not_badDistance hpos htotal hcap), if_neg (Nat.not_lt.2 hle)]

theorem winRepgen_legal : ending .winRepgen s = appendAll (repgenSource s.arg0.toNat) s.arg1.toNat s := by
  by_cases hlen : s.arg1 = 0
  · rw [winRepgen_empty hw hlen, hlen]
    exact (appendAll_zero _ s).symm
  · rw [winRepgen_nonempty hw hlen, if_neg (not_badDistance hpos htotal hcap)]

end

/-! ### How they end -/

/-- A command whose pseudocode runs to its end completes. -/
theorem exec_done {i : Instr} {s t : State} (h : ending i s = .done t) : exec i s = .next t.ended := by
  rw [exec_eq, h]
  rfl

section
variable {i : Instr} {source : Nat → State → Byte × State} {s : State}
  (he : ending i s = appendAll source s.arg1.toNat s)
include he

theorem exec_appendAll (hn : s.wtotal.toNat + s.arg1.toNat < 2 ^ 64) :
    exec i s = .next (appendLoop source s.arg1.toNat 0 s).ended :=
  exec_done (he.trans (if_pos hn))

theorem exec_appendAll_overflow (hn : 2 ^ 64 ≤ s.wtotal.toNat + s.arg1.toNat) :
    exec i s = .refused .windowTotalOverflow := by
  rw [exec_eq, he, appendAll, if_neg (Nat.not_lt.2 hn)]
  rfl

variable {h : List Byte} (hok : s.windowOk) (hh : s.hasHistory h) (hn : s.wtotal.toNat + s.arg1.toNat < 2 ^ 64)
include hok hh hn

/-- A command that runs appends has appended what its source gave (R232). -/
theorem exec_appended (hs : ∀ j s, (source j s).2 = { s with draws := (source j s).2.draws }) :
    ∃ t, exec i s = .next t ∧ Appended s h (sourceBytes source s.arg1.toNat 0 s) t :=
  ⟨_, exec_appendAll he hn, appendLoop_appended hs hok hh hn⟩

/-- A push from a buffer appends the buffer's bytes (R234, R235). -/
theorem exec_pushed {buffer : State → Memory Byte} {base : Nat}
    (hs : ∀ j s, (source j s).2 = { s with draws := (source j s).2.draws })
    (hkept : ∀ s t, SameButWindow s t → buffer t = buffer s)
    (hread : ∀ j s b, (buffer s).get? (base + j) = some b → (source j s).1 = b) :
    ∃ t bs, exec i s = .next t ∧ bs.length = s.arg1.toNat ∧ Appended s h bs t ∧
      ∀ j < bs.length, ∀ b, (buffer s).get? (base + j) = some b → bs[j]? = some b := by
  obtain ⟨t, ht, happended⟩ := exec_appended he hok hh hn hs
  have hlen := length_sourceBytes source s.arg1.toNat 0 s
  refine ⟨t, _, ht, hlen, happended, fun j hj b hb => ?_⟩
  exact sourceBytes_of_buffer hkept (sameButWindow_of_draws hs) hread (hlen ▸ hj) (by rwa [Nat.zero_add])

end

/-- Settles O44: each push is a loop of appends, and its source gives the bytes named. -/
theorem pushAppendsToTheHistory : Obligations.PushAppendsToTheHistory := by
  unfold Obligations.PushAppendsToTheHistory
  refine fun s h hok hh hn => ⟨fun hin => ?_, fun hin => ?_, fun b => ?_⟩
  · refine exec_pushed (winPushi_legal hok.1 hin) hok hh hn (ibufSource_draws _) (fun s t h => by rw [h]) ?_
    exact fun j s b hb => by rw [ibufSource, Memory.readByte_listed hb]
  · refine exec_pushed (winPushl_legal hok.1 hin) hok hh hn (lbufSource_draws _) (fun s t h => by rw [h]) ?_
    exact fun j s b hb => by rw [lbufSource, Memory.readByte_listed hb]
  · rw [← sourceBytes_byteSource b s.arg1.toNat 0 s]
    exact exec_appended (winPushr_legal hok.1 b) hok hh hn (byteSource_draws b)

/-- `WIN.REPGEN` over a legal distance appends the period (R239). -/
theorem winRepgen_appended {s : State} {h : List Byte} (hok : s.windowOk) (hh : s.hasHistory h)
    (hn : s.wtotal.toNat + s.arg1.toNat < 2 ^ 64) (hpos : 1 ≤ s.arg0.toNat) (htotal : s.arg0.toNat ≤ s.wtotal.toNat)
    (hcap : s.arg0.toNat ≤ s.winCap.toNat) :
    ∃ t, exec .winRepgen s = .next t ∧ Appended s h (periodic h s.arg0.toNat s.arg1.toNat) t := by
  rw [← sourceBytes_repgenSource (j := 0) hok hh hn hpos htotal hcap]
  exact exec_appended (winRepgen_legal hok.1 hpos htotal hcap) hok hh hn (repgenSource_draws _)

/-- Settles O45: `WIN.REPGEN` reads the period while it appends it. -/
theorem repgenAppendsThePeriod : Obligations.RepgenAppendsThePeriod := by
  unfold Obligations.RepgenAppendsThePeriod
  exact fun s h hok hh hn => ⟨winRepgen_appended hok hh hn, fun hlen => exec_done (winRepgen_empty hok.1 hlen)⟩

/-- Settles O46: the loop is `WIN.REPGEN`'s, and the period is no longer than the distance. -/
theorem repeatAppendsThePast : Obligations.RepeatAppendsThePast := by
  unfold Obligations.RepeatAppendsThePast
  refine fun s h hok hh hn => ⟨fun hpos htotal hcap hle => ?_, fun hlen => exec_done (winRepeat_empty hok.1 hlen)⟩
  have hsame : exec .winRepeat s = exec .winRepgen s := by
    rw [exec_appendAll (winRepeat_legal hok.1 hpos htotal hcap hle) hn,
      exec_appendAll (winRepgen_legal hok.1 hpos htotal hcap) hn, appendLoop_repeatSource rfl htotal hn]
  rw [hsame, ← periodic_of_le (hh.1 ▸ htotal) hle]
  exact ⟨winRepgen_appended hok hh hn hpos htotal hcap, rfl⟩

/-! ### `WIN.FLUSH` (R240) -/

/-- The flush of a resident end of the history gives it to the sink. -/
theorem flushLoop_drop {n i : Nat} {s : State} {h : List Byte} (hh : s.hasHistory h) (hi : i + n = h.length)
    (hr : s.wtotal.toNat ≤ i + s.winCap.toNat) : flushLoop n i s = { s with out := s.out ++ h.drop i } := by
  induction n generalizing i s with
  | zero => rw [flushLoop, List.drop_of_length_le (by omega), List.append_nil]
  | succ n ih =>
    have hlt : i < h.length := by omega
    have hrest := ih (i := i + 1) (s := sink h[i] s) hh (by omega) (hr.trans (by rw [sink_winCap]; omega))
    rw [sink_out, List.append_assoc, List.singleton_append, ← List.drop_eq_getElem_cons hlt] at hrest
    rw [flushLoop, hh.readWindow hlt hr]
    exact hrest

/-- Settles O47: what is unflushed is resident, and the flush reads it in order. -/
theorem flushDrainsTheHistory : Obligations.FlushDrainsTheHistory := by
  unfold Obligations.FlushDrainsTheHistory
  intro s h hok hh
  obtain ⟨hw, -, hle, hroom⟩ := hok
  have hlen := hh.1
  have hdone : ending .winFlush s = .done { s with wflushed := s.wtotal, out := s.out ++ h.drop s.wflushed.toNat } := by
    rw [ending, winFlush, if_pos hw, flushLoop_drop hh (by omega) (by omega)]
  exact exec_done hdone

/-! ### `WIN.CONFIG`, the faults and the refusal (R230, R233, R237) -/

/-- Of a legal capacity, `WIN.CONFIG` asks whether the history has been flushed (R233). -/
theorem winConfig_legal {s : State} (hpos : 1 ≤ s.arg0.toNat) (hmax : s.arg0.toNat ≤ s.winCapMax) :
    ending .winConfig s = if s.wconf ∧ s.wflushed ≠ s.wtotal then .raise .winNotFlushed s
      else .done { s with winCap := s.arg0, wtotal := 0, wflushed := 0, wconf := true } :=
  if_neg (not_or.2 ⟨Nat.ne_of_gt hpos, Nat.not_lt.2 hmax⟩)

/-- Settles O43: the capacity is checked first, then whether the history has been flushed. -/
theorem configStartsAnEmptyHistory : Obligations.ConfigStartsAnEmptyHistory := by
  unfold Obligations.ConfigStartsAnEmptyHistory
  refine fun s => ⟨fun hpos hmax hflushed => ?_, fun hs hbad => ?_, fun hs hpos hmax hw hne => ?_⟩
  · exact exec_done ((winConfig_legal hpos hmax).trans (if_neg fun ⟨hw, hne⟩ => hne (hflushed hw)))
  · exact exec_raise (i := .winConfig) (c := .winConfig) hs (if_pos (hbad.imp_left fun h => congrArg BitVec.toNat h))
  · exact exec_raise hs ((winConfig_legal hpos hmax).trans (if_pos ⟨hw, hne⟩))

/-- Before `WIN.CONFIG` no other window command does anything. -/
theorem ending_unconfigured {s : State} (hw : s.wconf = false) (b : Byte) {i : Instr}
    (hi : i ∈ [Instr.winPushi, .winPushl, .winPushr b, .winRepeat, .winRepgen, .winFlush]) :
    ending i s = .raise .winConfig s := by
  have hw' : ¬ s.wconf = true := by simp [hw]
  simp only [List.mem_cons, List.not_mem_nil, or_false] at hi
  rcases hi with rfl | rfl | rfl | rfl | rfl | rfl
  all_goals exact if_neg hw'

/-- Settles O48: each check is the first thing that could fault under its premises. -/
theorem windowCommandFaults : Obligations.WindowCommandFaults := by
  unfold Obligations.WindowCommandFaults
  refine fun s b hs => ⟨fun hw i hi => exec_raise hs (ending_unconfigured hw b hi), fun hw hlen hbad => ?_,
    fun hw hpos htotal hcap hover => ?_, fun hw hout => ⟨?_, ?_⟩⟩
  · have hbad' : badDistance s.arg0.toNat s = true :=
      badDistance_iff.2 (hbad.imp_left fun h => congrArg BitVec.toNat h)
    exact ⟨exec_raise hs ((winRepeat_nonempty hw hlen).trans (if_pos hbad')),
      exec_raise hs ((winRepgen_nonempty hw hlen).trans (if_pos hbad'))⟩
  · have hlen : s.arg1 ≠ 0 := by
      intro h
      rw [h] at hover
      exact Nat.not_lt_zero _ hover
    refine exec_raise (i := .winRepeat) (c := .winOverlap) hs ?_
    rw [winRepeat_nonempty hw hlen, if_neg (not_badDistance hpos htotal hcap), if_pos hover]
  · have hin : ¬ inIbuf s.opArg0 s.opArg1 = true := by rw [inIbuf_iff]; exact Nat.not_le.2 hout
    exact exec_raise (i := .winPushi) (c := .range) hs ((if_pos hw).trans (if_neg hin))
  · have hin : ¬ inLbuf s.opArg0 s.opArg1 = true := by rw [inLbuf_iff]; exact Nat.not_le.2 hout
    exact exec_raise (i := .winPushl) (c := .range) hs ((if_pos hw).trans (if_neg hin))

/-- A run of appends adds its length to `WTOTAL`, or is refused where that would leave its range (R230). -/
theorem exec_appends_or_refused {i : Instr} {source : Nat → State → Byte × State} {s : State}
    (he : ending i s = appendAll source s.arg1.toNat s)
    (hs : ∀ j s, (source j s).2 = { s with draws := (source j s).2.draws }) :
    (s.wtotal.toNat + s.arg1.toNat < 2 ^ 64 →
      ∃ t, exec i s = .next t ∧ t.fault = s.fault ∧ t.pending = none ∧
        t.wtotal.toNat = s.wtotal.toNat + s.arg1.toNat) ∧
    (2 ^ 64 ≤ s.wtotal.toNat + s.arg1.toNat → exec i s = .refused .windowTotalOverflow) := by
  refine ⟨fun hn => ⟨_, exec_appendAll he hn, ?_, rfl, (appendLoop_window hs s.arg1.toNat 0 s hn).1⟩,
    exec_appendAll_overflow he⟩
  show (appendLoop source s.arg1.toNat 0 s).fault = s.fault
  rw [appendLoop_frame (sameButWindow_of_draws hs)]

/-- Settles O49: with legal operands each of the commands is a run of appends. -/
theorem totalOverflowIsRefused : Obligations.TotalOverflowIsRefused := by
  unfold Obligations.TotalOverflowIsRefused
  intro s b i hw hi
  simp only [List.mem_cons, List.not_mem_nil, or_false] at hi
  obtain ⟨rfl | rfl, hin⟩ | rfl | ⟨rfl | rfl, hpos, htotal, hcap, hle⟩ := hi
  · exact exec_appends_or_refused (winPushi_legal hw hin) (ibufSource_draws _)
  · exact exec_appends_or_refused (winPushl_legal hw hin) (lbufSource_draws _)
  · exact exec_appends_or_refused (winPushr_legal hw b) (byteSource_draws b)
  · exact exec_appends_or_refused (winRepeat_legal hw hpos htotal hcap (hle rfl)) (repeatSource_draws _ _)
  · exact exec_appends_or_refused (winRepgen_legal hw hpos htotal hcap) (repgenSource_draws _)

end Sys2Proof.Machine

/-! ## The block's step and the ends of a command (44_control.md; 60_exceptions.md R270 to R272) -/

namespace Sys2Proof.Machine

/-! ### The block's turn (44_control.md R251) -/

/-- The step of a scheduled turn of the block is that turn. -/
theorem step_block {s : State} {rest : List Event} (hs : s.schedule = .block :: rest) :
    step s = blockTurn { s with schedule := rest } := by
  rw [step, hs]
  rfl

/-- With nothing scheduled, the step is the block's last turn. -/
theorem step_unscheduled {s : State} (hs : s.schedule = []) : step s = lastTurn s := by
  rw [step, hs]

/-- The two turns of the block differ only in a step that waits for the sink. -/
theorem blockTurn_eq_lastTurn {s : State} (hr : s.sinkReady = true) : blockTurn s = lastTurn s := by
  have hw : ∀ t, s.waits t = false := fun t => by simp [State.waits, hr]
  simp only [blockTurn, lastTurn, hw, Bool.false_eq_true, if_false]

/-- Settles O5: a ready sink holds no step back, so both turns run the command. -/
theorem stepRunsThePendingCommand : Obligations.StepRunsThePendingCommand := by
  unfold Obligations.StepRunsThePendingCommand
  refine fun s w i rest hp hf hr hd => ⟨fun hs => ?_, fun hs => ?_⟩
  · calc step s = blockTurn { s with schedule := rest } := step_block hs
      _ = lastTurn { s with schedule := rest } := blockTurn_eq_lastTurn hr
      _ = exec i { s with schedule := rest } := lastTurn_runs hp hf hr hd
  · exact (step_unscheduled hs).trans (lastTurn_runs hp hf hr hd)

section
variable {s : State} (h : s.pending = none ∨ s.fault = true)
include h

theorem blockTurn_disabled : blockTurn s = .next s := by
  rcases h with hp | hf
  · rw [blockTurn, hp]
  · cases hp : s.pending <;> simp only [blockTurn, hp, hf, if_true]

theorem lastTurn_disabled : lastTurn s = .next s := by
  rcases h with hp | hf
  · rw [lastTurn, hp]
  · cases hp : s.pending <;> simp only [lastTurn, hp, hf, if_true]

end

/-- Settles O7: neither turn of the block does anything where its step is not enabled. -/
theorem noStepUnlessEnabled : Obligations.NoStepUnlessEnabled := by
  unfold Obligations.NoStepUnlessEnabled
  exact fun s rest h => ⟨fun hs => (step_block hs).trans (blockTurn_disabled h),
    fun hs => (step_unscheduled hs).trans (lastTurn_disabled h)⟩

/-- Settles O9: the pseudocode of `NOP` is done in the state it begins with. -/
theorem nopOnlyCompletes : Obligations.NopOnlyCompletes := by
  unfold Obligations.NopOnlyCompletes
  exact fun s => exec_done (i := .nop) rfl

/-! ### Every command's step ends (44_control.md R253; 43_window.md R230) -/

/-- The command's run is within the spec: it is done, or raises a fault. -/
def Ending.Within : Ending → Prop
  | .done _ | .raise _ _ => True
  | .outside _ => False

theorem Ending.Within.exec_next {i : Instr} {s : State} (h : (ending i s).Within) : ∃ t, exec i s = .next t := by
  rw [exec_eq]
  rcases finish_next_or_outside i (ending i s) with ht | ⟨r, hr⟩
  · exact ht
  · rw [hr] at h
    exact h.elim

/-- The appending commands, by mnemonic (43_window.md R234 to R239). -/
def appendingMnemonics : List String := ["WIN.PUSHI", "WIN.PUSHL", "WIN.PUSHR", "WIN.REPEAT", "WIN.REPGEN"]

theorem Ending.Within.ite {c : Prop} [Decidable c] {a b : Ending} (ha : a.Within) (hb : b.Within) :
    (if c then a else b).Within := by
  split
  · exact ha
  · exact hb

theorem appendAll_within {n : Nat} {s : State} (hn : s.wtotal.toNat + n < 2 ^ 64)
    (source : Nat → State → Byte × State) : (appendAll source n s).Within := by
  rw [appendAll, if_pos hn]
  trivial

/-- Only a run of appends can leave the spec; every other path of a command is done or raises a fault. -/
theorem ending_within {i : Instr} {s : State}
    (h : i.mnemonic ∈ appendingMnemonics → s.wtotal.toNat + s.arg1.toNat < 2 ^ 64) : (ending i s).Within := by
  have happend (hi : i.mnemonic ∈ appendingMnemonics) (source : Nat → State → Byte × State) :
      (appendAll source s.opArg1 s).Within := appendAll_within (h hi) source
  cases i with
  | nop | fseRle => trivial
  | bbrInit | fbrInit | winFlush => exact .ite trivial trivial
  | winConfig => exact .ite trivial (.ite trivial trivial)
  | winPushi => exact .ite (.ite (happend (by decide) _) trivial) trivial
  | winPushl => exact .ite (.ite (happend (by decide) _) trivial) trivial
  | winPushr b => exact .ite (happend (by simp [appendingMnemonics, Instr.mnemonic]) _) trivial
  | winRepeat => exact .ite (.ite trivial (.ite trivial (.ite trivial (happend (by decide) _)))) trivial
  | winRepgen => exact .ite (.ite trivial (.ite trivial (happend (by decide) _))) trivial
  | bbrSkippad | bbrRead | fbrRead | fbrUnwind =>
    simp only [ending, bbrSkippad, bbrRead, fbrRead, fbrUnwind]
    repeat' split
    all_goals trivial
  | fseReadnc | fseBuild | fsePredef | fseInit | fsePeek | fseNext =>
    simp only [ending, fseReadnc, fseBuild, fsePredef, buildSlot, fseInit, fsePeek, fseNext]
    repeat' split
    all_goals trivial
  | hufReadw | hufBuild | hufDecode =>
    simp only [ending, hufReadw, hufBuild, buildHuf, hufDecode]
    repeat' split
    all_goals trivial

/-! ### What the step leaves in the fault state (44_control.md R251; 60_exceptions.md R270 to R272) -/

/-- `t` has the fault state of `s`. -/
def SameFaultState (s t : State) : Prop :=
  t.fault = s.fault ∧ t.prog = s.prog ∧ t.code = s.code ∧ t.faultInfo = s.faultInfo

theorem SameControl.faultState {s t : State} (h : SameControl s t) : SameFaultState s t := by
  rw [h]
  exact ⟨rfl, rfl, rfl, rfl⟩

/-- A first fault is held in `t` with the command word `info`, under a code of its class (R270 to R272). -/
def RecordsFault (info : Word) (t : State) : Prop :=
  t.fault = true ∧ t.faultInfo = info ∧
    ((t.prog = true ∧ t.code ∈ programmingCodes) ∨ (t.prog = false ∧ t.code ∈ corruptionCodes))

theorem recordsFault_faultEntry {u : State} (hu : u.fault = false) (c : FaultCode) (info : Word) :
    RecordsFault info (faultEntry c info u) := by
  rw [faultEntry_eq_faulted hu]
  exact ⟨rfl, rfl, c.number_mem⟩

/-- Nothing is pending after a command, which has left the fault state or recorded one fault in it. -/
theorem exec_leaves {i : Instr} {s t : State} (hs : s.fault = false) (ht : exec i s = .next t) :
    t.pending = none ∧ t.busy = false ∧ (SameFaultState s t ∨ RecordsFault (encode i) t) := by
  have hc := ending_sameControl i s
  rw [exec_eq] at ht
  rcases finish_next ht with ⟨u, he, rfl⟩ | ⟨c, u, he, rfl⟩ <;> rw [he] at hc
  · exact ⟨rfl, rfl, .inl hc.faultState⟩
  · exact ⟨rfl, rfl, .inr (recordsFault_faultEntry (hc.fault.trans hs) c _)⟩

/-- Settles O12: only a run of appends can be refused, and a command that is not is done or raises a fault, each from the
fault state it began with. -/
theorem commandCompletesOrRecordsOneFault : Obligations.CommandCompletesOrRecordsOneFault := by
  unfold Obligations.CommandCompletesOrRecordsOneFault
  refine fun i s => ⟨fun hlegal => ?_, fun t hs ht => ?_⟩
  · exact (ending_within fun hi => Nat.not_le.1 fun hn => hlegal ⟨hi, hn⟩).exec_next
  · have hleaves := exec_leaves hs ht
    rwa [SameFaultState, hs] at hleaves

end Sys2Proof.Machine

/-! ## Bytes given to the sink stay (10_state.md R35; 60_exceptions.md R285) -/

namespace Sys2Proof.Machine

theorem execute_out {w : Word} {s t : State} (ht : execute w s = .next t) : s.out <+: t.out := by
  rcases execute_cases w s with ⟨i, -, he⟩ | ⟨e, -, he⟩ <;> rw [he] at ht
  · exact exec_out ht
  · cases ht
    rw [faultEntry_out]

theorem blockTurn_out {s t : State} (ht : blockTurn s = .next t) : s.out <+: t.out := by
  rcases blockTurn_next ht with ⟨rfl, -⟩ | ⟨w, -, -, -, he⟩
  · exact List.prefix_rfl
  · exact execute_out he

theorem lastTurn_out {s t : State} (ht : lastTurn s = .next t) : s.out <+: t.out := by
  rcases lastTurn_next ht with ⟨rfl, -⟩ | ⟨w, -, -, -, he⟩
  · exact List.prefix_rfl
  · exact execute_out he

theorem pollTurn_out {s t : State} (ht : pollTurn s = .next t) : s.out <+: t.out := by
  rcases pollTurn_cases s with ⟨-, he⟩ | ⟨-, e, rest, -, he⟩ | ⟨-, -, he⟩ <;> rw [he] at ht
  · cases ht
    exact List.prefix_rfl
  · cases ht
    exact List.prefix_rfl
  · exact (lastTurn_out ht :)

/-- No write of the host's names `OUT`, and the soft reset keeps it (70_reset_and_hazards.md R301). -/
theorem targetWrite_out (width : Width) (v : Word) (s : State) (g : Target) :
    (targetWrite width v s g).out = s.out := by
  rcases targetWrite_cases width v s g with h | ⟨-, h⟩ | ⟨-, -, h⟩
  · rw [h]
  · rw [h, writeCmd]
    split <;> rfl
  · rw [h, softReset_out]

theorem hostAccess_out (a : HostAccess) (s : State) : (hostAccess a s).out = s.out := by
  cases a with
  | read addr width =>
    rcases memRead_cases addr width s with ⟨-, h⟩ | ⟨-, v, draws, h⟩ <;> simp only [hostAccess, h, faultEntry_out]
  | write addr width v =>
    rcases memWrite_cases addr width v s with ⟨-, h⟩ | ⟨-, h⟩ <;>
      simp only [hostAccess, h, faultEntry_out, targetWrite_out]

theorem takeEvent_out {e : Event} {s t : State} (ht : takeEvent e s = .next t) : s.out <+: t.out := by
  cases e with
  | block => exact blockTurn_out ht
  | host a =>
    cases ht
    rw [hostAccess_out]
  | poll => exact pollTurn_out ht
  | sink ready =>
    cases ht
    exact List.prefix_rfl

/-- Settles O13: a command only adds to `OUT`, and a fault, a host's access or a reset leaves it. -/
theorem sinkOnlyGrows : Obligations.SinkOnlyGrows := by
  unfold Obligations.SinkOnlyGrows
  intro s t ht
  have hout : s.out <+: t.out := by
    rcases step_next ht with ⟨-, hl⟩ | ⟨e, rest, -, he⟩
    · exact lastTurn_out hl
    · exact takeEvent_out (s := { s with schedule := rest }) he
  obtain ⟨bs, hbs⟩ := hout
  exact ⟨bs, hbs.symm⟩

end Sys2Proof.Machine

/-! ## A held fault stays until a soft reset (60_exceptions.md R275, R276) -/

namespace Sys2Proof.Machine

/-! ### The one address of `CTRL` (10_state.md R37) -/

theorem registerMap_ctrl : ∀ a < 0x100, registerMap.lookup a = some .ctrl → a = 0x10 := by decide +kernel

theorem targetAt_eq_ctrl {c a : Nat} (h : targetAt c a = .reg .ctrl) : a = 0x10 := by
  unfold targetAt at h
  split at h
  · rename_i hlt
    split at h
    · rename_i r hr
      cases h
      exact registerMap_ctrl a hlt hr
    · cases h
  · split_ifs at h

/-- Only a 32-bit write of address 0x10 reaches `CTRL` without a fault (20_memory.md R64, R67). -/
theorem write_reaches_ctrl {s : State} {addr v : Word} {width : Width}
    (hf : accessFaults s (.write addr width v) = false) (hg : targetAt s.winCapMax addr.toNat = .reg .ctrl) :
    addr = 0x10 ∧ width = .w32 := by
  have hl : accessLegal s addr width = true := accessLegal_of_not_accessFaults hf
  refine ⟨BitVec.eq_of_toNat_eq (targetAt_eq_ctrl hg), ?_⟩
  cases width with
  | w8 => rw [accessLegal_w8, hg] at hl; cases hl
  | w32 => rfl

/-! ### What leaves a held fault as it is -/

/-- `t` has the fault state of `s`, and no command pending. -/
def KeepsFault (s t : State) : Prop := SameFaultState s t ∧ t.pending = none

theorem KeepsFault.refl {s : State} (hp : s.pending = none) : KeepsFault s s := ⟨⟨rfl, rfl, rfl, rfl⟩, hp⟩

/-- The access is not a write of `CTRL` with bit 0 set, which alone makes a soft reset (70_reset_and_hazards.md R301). -/
def HostAccess.NoReset (a : HostAccess) : Prop := ∀ v, a = .write 0x10 .w32 v → v.getLsbD 0 = false

section
variable {s : State} (hf : s.fault = true) (hp : s.pending = none)

include hf in
/-- A further fault is not recorded (60_exceptions.md R276). -/
theorem faultEntry_keepsFault (c : FaultCode) (info : Word) : KeepsFault s (faultEntry c info s) := by
  rw [faultEntry_held hf]
  exact ⟨⟨rfl, rfl, rfl, rfl⟩, rfl⟩

include hp in
theorem lastTurn_keepsFault {t : State} (ht : lastTurn s = .next t) : KeepsFault s t := by
  rw [lastTurn_disabled (.inl hp)] at ht
  cases ht
  exact .refl hp

include hp in
theorem blockTurn_keepsFault {t : State} (ht : blockTurn s = .next t) : KeepsFault s t := by
  rw [blockTurn_disabled (.inl hp)] at ht
  cases ht
  exact .refl hp

include hp in
theorem pollTurn_keepsFault {t : State} (ht : pollTurn s = .next t) : KeepsFault s t := by
  rcases pollTurn_cases s with ⟨-, he⟩ | ⟨-, e, rest, -, he⟩ | ⟨-, -, he⟩ <;> rw [he] at ht
  · cases ht
    exact .refl hp
  · cases ht
    exact .refl hp
  · exact (lastTurn_keepsFault (by exact hp) ht :)

include hf hp

/-- Of the writes only `CMD` and `CTRL` could touch the fault or `PENDING`: `CMD` is ignored under a fault (10_state.md
R25), and `CTRL` resets only where bit 0 is set. -/
theorem targetWrite_keepsFault (width : Width) {v : Word} {g : Target} (hv : g = .reg .ctrl → v.getLsbD 0 = false) :
    KeepsFault s (targetWrite width v s g) := by
  rcases targetWrite_cases width v s g with h | ⟨-, h⟩ | ⟨hg, hset, -⟩
  · rw [h]
    exact .refl hp
  · rw [h, writeCmd, if_pos hf]
    exact .refl hp
  · exact nomatch hset.symm.trans (hv hg)

theorem hostAccess_keepsFault {a : HostAccess} (ha : a.NoReset) : KeepsFault s (hostAccess a s) := by
  cases a with
  | read addr width =>
    rcases memRead_cases addr width s with ⟨-, h⟩ | ⟨-, v, draws, h⟩ <;> simp only [hostAccess, h]
    · exact faultEntry_keepsFault hf _ _
    · exact .refl hp
  | write addr width v =>
    rcases memWrite_cases addr width v s with ⟨-, h⟩ | ⟨hok, h⟩ <;> simp only [hostAccess, h]
    · exact faultEntry_keepsFault hf _ _
    · refine targetWrite_keepsFault hf hp width fun hg => ?_
      obtain ⟨rfl, rfl⟩ := write_reaches_ctrl hok hg
      exact ha v rfl

theorem takeEvent_keepsFault {e : Event} {t : State} (he : ∀ a, e = .host a → a.NoReset)
    (ht : takeEvent e s = .next t) : KeepsFault s t := by
  cases e with
  | block => exact blockTurn_keepsFault hp ht
  | host a =>
    cases ht
    exact hostAccess_keepsFault hf hp (he a rfl)
  | poll => exact pollTurn_keepsFault hp ht
  | sink ready =>
    cases ht
    exact .refl hp

end

/-- Settles O14: the block's turns are disabled, and each event but a soft reset keeps the fault and issues no command. -/
theorem faultHeldUntilReset : Obligations.FaultHeldUntilReset := by
  unfold Obligations.FaultHeldUntilReset
  intro s t hf hp ht hctrl
  have hkeep : KeepsFault s t := by
    rcases step_next ht with ⟨-, hl⟩ | ⟨e, rest, hs, he⟩
    · exact lastTurn_keepsFault hp hl
    · have hnoReset (a : HostAccess) (ha : e = .host a) : a.NoReset := fun v hv => hctrl v rest (by rw [hs, ha, hv])
      exact takeEvent_keepsFault (s := { s with schedule := rest }) hf hp hnoReset he
  obtain ⟨⟨hfault, hprog, hcode, hinfo⟩, hpending⟩ := hkeep
  exact ⟨hfault.trans hf, hprog, hcode, hinfo, hpending⟩

end Sys2Proof.Machine

/-! ## Power-on, soft reset, and accesses while busy (60_exceptions.md R286; 70_reset_and_hazards.md R300 to R305) -/

namespace Sys2Proof.Machine

/-! ### A soft reset (R301, R302) -/

/-- A 32-bit write of `CTRL` is legal, and allowed whether the block is busy or not (R301). -/
theorem accessFaults_ctrlWrite (s : State) (v : Word) : accessFaults s (.write 0x10 .w32 v) = false := by
  have hl : accessLegal s 0x10 .w32 = true := accessLegal_word (g := .reg .ctrl) rfl nofun nofun rfl
  have hb : allowedWhileBusy (.write 0x10 .w32 v) = true := rfl
  simp only [accessFaults, HostAccess.addr, HostAccess.width, hl, hb, Bool.not_true, Bool.and_false, Bool.or_false]

/-- The step of a scheduled `CTRL` write is the register's effect, in every state. -/
theorem step_ctrlWrite {s : State} {v : Word} {rest : List Event}
    (hs : s.schedule = .host (.write 0x10 .w32 v) :: rest) :
    step s = .next (Reg.write v { s with schedule := rest } .ctrl) :=
  step_host_write hs (accessFaults_ctrlWrite s v)

/-- Settles O57: a `CTRL` write never faults, and its effect is the soft reset where bit 0 is set. -/
theorem softResetKeepsMemoriesAndOutput : Obligations.SoftResetKeepsMemoriesAndOutput := by
  unfold Obligations.SoftResetKeepsMemoriesAndOutput
  intro s v rest hs
  rw [step_ctrlWrite hs, Reg.write]
  refine ⟨fun hset => ⟨(softReset s).slots, ?_, softReset_slot s⟩, fun hclear => ?_⟩
  · rw [if_pos hset]
    rfl
  · rw [if_neg (Bool.eq_false_iff.1 hclear)]

/-! ### Accesses while busy (R305; 60_exceptions.md R286) -/

/-- The one read allowed while busy is a 32-bit read of `STATUS`. -/
theorem allowedWhileBusy_read {addr : Word} {width : Width} (h : ¬ (addr = 0x08 ∧ width = .w32)) :
    allowedWhileBusy (.read addr width) = false := by
  cases width with
  | w8 => rfl
  | w32 => exact beq_eq_false_iff_ne.2 fun ha => h ⟨ha, rfl⟩

/-- The one write allowed while busy is a 32-bit write of `CTRL`. -/
theorem allowedWhileBusy_write {addr v : Word} {width : Width} (h : ¬ (addr = 0x10 ∧ width = .w32)) :
    allowedWhileBusy (.write addr width v) = false := by
  cases width with
  | w8 => rfl
  | w32 => exact beq_eq_false_iff_ne.2 fun ha => h ⟨ha, rfl⟩

/-- Every other access faults while busy, legal or not. -/
theorem accessFaults_busy {s : State} {a : HostAccess} (hb : s.busy = true) (ha : allowedWhileBusy a = false) :
    accessFaults s a = true := by
  simp only [accessFaults, hb, ha, Bool.not_false, Bool.and_true, Bool.or_true]

section
variable {s : State} {addr : Word} {width : Width} {rest : List Event} (hf : s.fault = false)
include hf

/-- A read that faults returns 0 and records the fault with its address (R67, R286). -/
theorem step_read_faulted (ha : accessFaults s (.read addr width) = true)
    (hs : s.schedule = .host (.read addr width) :: rest) :
    step s = .next (State.faulted { s with schedule := rest, hostReads := s.hostReads ++ [0] } 0x16 true addr) := by
  have ha' : accessFaults { s with schedule := rest } (.read addr width) = true := ha
  rw [step_host hs, hostAccess, memRead, if_pos ha', faultEntry_eq_faulted (by exact hf)]
  rfl

/-- A write that faults only records the fault with its address (R67, R286). -/
theorem step_write_faulted {v : Word} (ha : accessFaults s (.write addr width v) = true)
    (hs : s.schedule = .host (.write addr width v) :: rest) :
    step s = .next (State.faulted { s with schedule := rest } 0x16 true addr) := by
  have ha' : accessFaults { s with schedule := rest } (.write addr width v) = true := ha
  rw [step_host hs, hostAccess, memWrite, if_pos ha', faultEntry_eq_faulted (by exact hf)]
  rfl

end

/-- Settles O51: while busy every access but the two allowed ones faults, and a `STATUS` read returns its word. -/
theorem busyAccessCancelsTheCommand : Obligations.BusyAccessCancelsTheCommand := by
  unfold Obligations.BusyAccessCancelsTheCommand
  intro s rest addr v width hb hf
  refine ⟨fun hs ha => ?_, fun hs ha => ?_, fun hs => ?_⟩
  · exact step_read_faulted hf (accessFaults_busy hb (allowedWhileBusy_read ha)) hs
  · exact step_write_faulted hf (accessFaults_busy hb (allowedWhileBusy_write ha)) hs
  · rw [step_host hs, hostAccess_status]
    rfl

/-! ### Power-on (R300) -/

@[simp] theorem State.reset_slot (τ : Fin 8) : State.reset.slot τ = Slot.reset := by
  simp only [State.slot, State.reset, Fin.getElem_fin, Vector.getElem_replicate]

@[simp] theorem State.reset_fse (k : Fin 4) : State.reset.fse k = FseState.reset := by
  simp only [State.fse, State.reset, Fin.getElem_fin, Vector.getElem_replicate]

/-- After power-on the host reads a register's own value. -/
theorem memRead_reset {addr : Word} {r : Reg} (hr : targetAt State.reset.winCapMax addr.toNat = .reg r)
    (ha : addr.toNat % 4 = 0) : (memRead addr .w32 State.reset).1 = r.read State.reset := by
  rw [memRead_idle rfl (accessLegal_word hr nofun nofun ha), hr]
  rfl

/-- Settles O58: the fields are those of `State.reset`, each slot and state register is at its own reset, and the host
reads the registers' values. -/
theorem powerOnValues : Obligations.PowerOnValues := by
  unfold Obligations.PowerOnValues
  have hslots : ∀ τ, State.reset.slot τ = ⟨false, false, 0, 0, [], []⟩ := State.reset_slot
  have hstates : ∀ k, State.reset.fse k = ⟨0, 0, false⟩ := State.reset_fse
  have hid : (memRead 0x00 .w32 State.reset).1 = 0x535A4457 := memRead_reset (r := .id) rfl rfl
  have hversion : (memRead 0x04 .w32 State.reset).1 = 7 := memRead_reset (r := .version) rfl rfl
  have hstatus : (memRead 0x08 .w32 State.reset).1 = 0 := memRead_reset (r := .status) rfl rfl
  exact ⟨rfl, rfl, rfl, rfl, rfl, rfl, rfl, rfl, rfl, rfl, hslots, hstates, rfl, rfl, rfl, rfl, rfl, rfl, rfl, rfl, rfl,
    rfl, rfl, rfl, rfl, rfl, hid, hversion, hstatus⟩

end Sys2Proof.Machine
